-- ==== Sys2Proof/Word.lean ====
section
/-! DEFINITION. The word types of the SPI NOR flash command controller (spec 00_scope.md R6, R7). -/

namespace Sys2Proof

/-- A byte: 8 bits, bit 0 least significant (R7). -/
abbrev Byte := BitVec 8

/-- A flash address: "a 24-bit unsigned offset into the flash's linear byte address space" (R6). -/
abbrev Addr := BitVec 24

/-- A 32-bit count: the request's len, off_r, progress (10_state.md R32, R35). -/
abbrev Count := BitVec 32

end Sys2Proof
end

