-- ==== Sys2Proof/Config.lean ====
section
/-! DEFINITION. The parameters of the model (00_scope.md R5), its fixed constants (R6), and the free values that stand
for the spec's draw(). -/

namespace Sys2Proof

/-- The six pin roles, in acquisition order (43_session.md R211; the role encoding of 60_exceptions.md R231). -/
inductive Role where
  | fpgaRst | fpgaCs | flCs | mosi | miso | sck
  deriving DecidableEq, Repr, Inhabited

/-- PIN_MAP: the line number of each role (10_state.md R21). -/
structure PinMap where
  fpgaRst : Nat
  fpgaCs : Nat
  flCs : Nat
  mosi : Nat
  miso : Nat
  sck : Nat
  deriving DecidableEq, Repr, Inhabited

/-- ARB_VARIANT (43_session.md R213). -/
inductive ArbVariant where
  | holdReset | releaseKeepCs
  deriving DecidableEq, Repr, Inhabited

/-- POLL_LIMIT (42_sequences.md R180): a number of polls, or none. -/
inductive PollLimit where
  | unbounded
  | count (n : Nat)
  deriving DecidableEq, Repr, Inhabited

/-- A duration, which is a real number of nanoseconds (92_eei_decisions.md D9), as plain data: a rational number written out, or
one of the real numbers that an OPEN T_HALF or T_RST may be (00_scope.md R5). Config.nanoseconds is its value (log entry 4). -/
inductive Duration where
  | rational (ns : Rat)
  | openHalf (draw : Nat)
  | openReset (draw : Nat)
  deriving DecidableEq, Repr, Inhabited

/-- The configuration (10_state.md R25). -/
structure Cfg where
  pinMap : PinMap
  variant : ArbVariant
  tHalf : Duration
  tRst : Duration
  pollLimit : PollLimit
  deriving DecidableEq, Repr, Inhabited

/-- How long the chip stays busy: a number of further status polls, or for ever (20_memory.md R62, R78). -/
inductive Busy where
  | polls (k : Nat)
  | forever
  deriving DecidableEq, Repr, Inhabited

/-- What an unlisted flash address holds (START_CONTENTS, 70_reset_and_hazards.md R295): unknown (a draw for each
address, 20_memory.md R79; draw tells one drawing of the whole array from another, log entry 5), or one byte everywhere where
the run names it. -/
inductive StartContents where
  | unknown (draw : Nat)
  | uniform (b : Byte)
  deriving DecidableEq, Repr, Inhabited

namespace Config

/-- PAGE_SIZE (R6). -/
def pageSize : Nat := 256

/-- BLOCK_SIZE (R6). -/
def blockSize : Nat := 65536

/-- The number of flash addresses, 2^ADDR_BITS (R6), which the range checks use whatever FLASH_SIZE is (20_memory.md R80). -/
def addressCount : Nat := 16777216

/-- The reading PIN_MAP_A of the source's table (10_state.md R21). -/
def pinMapA : PinMap := { fpgaRst := 6, fpgaCs := 13, flCs := 5, mosi := 9, miso := 10, sck := 11 }

/-- The reading PIN_MAP_B of the source's table (R21). -/
def pinMapB : PinMap := { fpgaRst := 6, fpgaCs := 13, flCs := 5, mosi := 10, miso := 9, sck := 11 }

/-- The line number a role is bound to (R21). -/
def line (m : PinMap) : Role → Nat
  | .fpgaRst => m.fpgaRst
  | .fpgaCs => m.fpgaCs
  | .flCs => m.flCs
  | .mosi => m.mosi
  | .miso => m.miso
  | .sck => m.sck

/-- The line numbers of the six roles in role order. -/
def lines (m : PinMap) : List Nat := [m.fpgaRst, m.fpgaCs, m.flCs, m.mosi, m.miso, m.sck]

/-- POLL_LIMIT is UNBOUNDED or a number from 1 to 2^32 - 1 (00_scope.md R5). -/
def pollLimitLegal : PollLimit → Bool
  | .unbounded => true
  | .count n => decide (1 ≤ n ∧ n < 4294967296)

/-- FLASH_SIZE is a power of two, at most 2^24 (00_scope.md R5): a divisor of 2^24. -/
def flashSizeLegal (n : Nat) : Bool := decide (n ∣ addressCount)

/-- PIN_MAP, OPEN (00_scope.md R5), so a free value (log entry 4). -/
opaque rawPinMap : PinMap

/-- ARB_VARIANT, OPEN, so a free value. -/
opaque rawVariant : ArbVariant

/-- POLL_LIMIT, OPEN, so a free value. -/
opaque rawPollLimit : PollLimit

/-- The configuration at construction: any legal one (00_scope.md R5). PIN_MAP_A and UNBOUNDED stand in where rawPinMap or
rawPollLimit is not legal (log entry 4). -/
def built : Cfg :=
  { pinMap := if (lines rawPinMap).Nodup then rawPinMap else pinMapA
    variant := rawVariant
    tHalf := .openHalf 0
    tRst := .openReset 0
    pollLimit := if pollLimitLegal rawPollLimit then rawPollLimit else .unbounded }

/-- FLASH_SIZE of the chip: OPEN (00_scope.md R5, 93_implementation_defined.md I5), so a free value (log entry 13). -/
opaque rawFlashSize : Nat

/-- FLASH_SIZE: any legal one; 2^24, the reference device's, stands in where rawFlashSize is not one. -/
def flashSize : Nat := if flashSizeLegal rawFlashSize then rawFlashSize else addressCount

/-- draw() for acq_ok (43_session.md R211). -/
opaque freeAcq : Nat → Bool

/-- draw() for rel_ok (43_session.md R215). -/
opaque freeRel : Nat → Bool

/-- draw() for a MISO bit (20_memory.md R67, R68, R70, R76). -/
opaque freeMiso : Nat → Bool

/-- draw() for the busy count of a program or erase (20_memory.md R74, R75, R78). -/
opaque freeBusy : Nat → Busy

/-- draw() for the byte at each flash address, for each drawing of the whole array: drawing 0 is the one at the start
(20_memory.md R79); the others follow a command whose effect on the chip the spec leaves open (log entries 11 and 13). -/
opaque drawnByte : Nat → Nat → Byte

/-- draw() for the write-enable latch after such a command. -/
opaque freeWel : Nat → Bool

/-- draw() for the low-power state after such a command. -/
opaque freePd : Nat → Bool

/-- draw() for busy_left at the start (20_memory.md R79). -/
opaque startBusy : Busy

/-- draw() for pd at the start (20_memory.md R79). -/
opaque startPd : Bool

end Config

end Sys2Proof
end

