-- ==== Sys2Proof/Syntax.lean ====
section
/-! DEFINITION. The instructions: one constructor for each of the 20 rows of spec/opcode_table.json
(30_encoding.md R104 for the fourteen host ops, R106 for the six micro-ops). -/

namespace Sys2Proof

/-- A host op or a micro-op. Fields that an op ignores (92_eei_decisions.md D15) are no operands. For PP, FLASH_DATA and
VERIFY_DATA the request's len is the number of data bytes (10_state.md R38). -/
inductive Instr where
  /-- PP 0x02 (41_commands.md R155): program up to one page. -/
  | pp (addr : Addr) (data : List Byte)
  /-- READ 0x03 (R157): read len bytes from addr. -/
  | read (addr : Addr) (len : Count)
  /-- WRDI 0x04 (R154): clear the write-enable latch. -/
  | wrdi
  /-- RDSR 0x05 (R152): read the chip's status register. -/
  | rdsr
  /-- WREN 0x06 (R153): set the write-enable latch. -/
  | wren
  /-- BE 0xD8 (R156): erase the block that holds addr. -/
  | be (addr : Addr)
  /-- WAKE 0xAB (R151): release the chip from its low-power state. -/
  | wake
  /-- AWAIT_READY 0xE0 (42_sequences.md R180): poll until the busy bit is clear. -/
  | awaitReady
  /-- FLASH_DATA 0xE1 (R181): erase and program a buffer at addr. -/
  | flashData (addr : Addr) (data : List Byte)
  /-- VERIFY_DATA 0xE2 (R182): compare the flash with a buffer. -/
  | verifyData (addr : Addr) (data : List Byte)
  /-- READ_ARBITRARY 0xE3 (R183): diagnostic read. -/
  | readArbitrary (addr : Addr) (len : Count)
  /-- STATUS 0xE4 (R185): read CSR and progress. -/
  | status
  /-- SESSION_START 0xE8 (43_session.md R210): take the bus and wake the chip. -/
  | sessionStart
  /-- SESSION_END 0xE9 (R216): release the bus and report. -/
  | sessionEnd
  /-- CS_ASSERT, micro-op 0x0 (40_softspi.md R130). -/
  | csAssert
  /-- CS_DEASSERT, micro-op 0x1 (R131). -/
  | csDeassert
  /-- WRITE_BIT, micro-op 0x2 (R132). -/
  | writeBit (b : Bool)
  /-- READ_BIT, micro-op 0x3 (R133). -/
  | readBit
  /-- WRITE_BYTE, micro-op 0x4 (R134). -/
  | writeByte (x : Byte)
  /-- READ_BYTE, micro-op 0x5 (R135). -/
  | readByte
  deriving DecidableEq, Repr

end Sys2Proof
end

