-- ==== Sys2Proof/WellFormed.lean ====
section
/-! DEFINITION. Which terms of Instr a request or a micro-op word can stand for. -/

namespace Sys2Proof

/-- A buffer fits a request when its length fits len[31:0] (30_encoding.md R105). -/
def bufferFits (data : List Byte) : Bool := decide (data.length < 2 ^ 32)

/-- The instruction can be encoded: the data of a data-carrying op fits its len field; every other operand fits by its
type. -/
def Instr.wf : Instr → Bool
  | .pp _ data => bufferFits data
  | .flashData _ data => bufferFits data
  | .verifyData _ data => bufferFits data
  | .read _ _ => true
  | .wrdi => true
  | .rdsr => true
  | .wren => true
  | .be _ => true
  | .wake => true
  | .awaitReady => true
  | .readArbitrary _ _ => true
  | .status => true
  | .sessionStart => true
  | .sessionEnd => true
  | .csAssert => true
  | .csDeassert => true
  | .writeBit _ => true
  | .readBit => true
  | .writeByte _ => true
  | .readByte => true

end Sys2Proof
end

