-- ==== Sys2Proof/Decode.lean ====
section
/-! DEFINITION. Decoding and encoding: host requests (30_encoding.md R104, R105) and micro-op words (R106). Bytes of a
multi-byte field go most significant first (R105, 20_memory.md R82). -/

namespace Sys2Proof

/-- What the machine can be given to execute: the bytes waiting on the host port, or a micro-op with its operand. The two
are different code spaces (30_encoding.md R104, R106). -/
inductive Image where
  | request (bytes : List Byte)
  | micro (code : BitVec 4) (operand : Byte)
  deriving DecidableEq, Repr

/-- Why no instruction is read. -/
inductive DecodeError where
  /-- The bytes are not yet a whole request (R105: 8 bytes, and len more for a data-carrying op). -/
  | incomplete
  /-- The op byte is not in R104 (R108 b). -/
  | illegalOp (op : Byte)
  /-- The micro-op code is one of 0x6 to 0xF (R108 d). -/
  | unusedMicroOp (code : BitVec 4)
  deriving DecidableEq, Repr

/-- The header of a request: op, addr, len (R105). -/
structure Header where
  op : Byte
  addr : Addr
  len : Count
  deriving DecidableEq, Repr

/-- The 24-bit address of three bytes, most significant first (R105). -/
def addrOfBytes (a2 a1 a0 : Byte) : Addr := a2 ++ a1 ++ a0

/-- The 32-bit count of four bytes, most significant first (R105). -/
def countOfBytes (l3 l2 l1 l0 : Byte) : Count := l3 ++ l2 ++ l1 ++ l0

/-- The three bytes of an address, most significant first (30_encoding.md R107: a[23:16], a[15:8], a[7:0]). -/
def addrBytes (a : Addr) : List Byte := [a.extractLsb' 16 8, a.extractLsb' 8 8, a.extractLsb' 0 8]

/-- The four bytes of a 32-bit field, most significant first (R105). -/
def countBytes (n : Count) : List Byte :=
  [n.extractLsb' 24 8, n.extractLsb' 16 8, n.extractLsb' 8 8, n.extractLsb' 0 8]

/-- The length of a request's header in bytes (R105). -/
def headerLength : Nat := 8

/-- Splits the 8 header bytes from what follows (R105). -/
def splitHeader : List Byte → Option (Header × List Byte)
  | op :: a2 :: a1 :: a0 :: l3 :: l2 :: l1 :: l0 :: rest =>
    some ({ op := op, addr := addrOfBytes a2 a1 a0, len := countOfBytes l3 l2 l1 l0 }, rest)
  | _ => none

/-- Takes the len data bytes of a data-carrying request, once all of them are there (R105, R110). -/
def takeData (len : Count) (rest : List Byte) : Except DecodeError (List Byte × List Byte) :=
  if len.toNat ≤ rest.length then .ok (rest.take len.toNat, rest.drop len.toNat) else .error .incomplete

/-- The ops whose request carries data (R105: op ∈ 0x02, 0xE1, 0xE2). -/
def carriesData (op : Byte) : Bool := op == 0x02 || op == 0xE1 || op == 0xE2

/-- The instruction a header with the op byte h.op names, and the bytes after the request (the table of R104). -/
def decodeOp (h : Header) (rest : List Byte) : Except DecodeError (Instr × List Byte) :=
  if h.op = 0x02 then (takeData h.len rest).map fun (data, rest) => (.pp h.addr data, rest)
  else if h.op = 0x03 then .ok (.read h.addr h.len, rest)
  else if h.op = 0x04 then .ok (.wrdi, rest)
  else if h.op = 0x05 then .ok (.rdsr, rest)
  else if h.op = 0x06 then .ok (.wren, rest)
  else if h.op = 0xD8 then .ok (.be h.addr, rest)
  else if h.op = 0xAB then .ok (.wake, rest)
  else if h.op = 0xE0 then .ok (.awaitReady, rest)
  else if h.op = 0xE1 then (takeData h.len rest).map fun (data, rest) => (.flashData h.addr data, rest)
  else if h.op = 0xE2 then (takeData h.len rest).map fun (data, rest) => (.verifyData h.addr data, rest)
  else if h.op = 0xE3 then .ok (.readArbitrary h.addr h.len, rest)
  else if h.op = 0xE4 then .ok (.status, rest)
  else if h.op = 0xE8 then .ok (.sessionStart, rest)
  else if h.op = 0xE9 then .ok (.sessionEnd, rest)
  else .error (.illegalOp h.op)

/-- Reads one request from the host port's bytes: the instruction and the bytes after it (R104, R105, R108). -/
def decodeRequest (bytes : List Byte) : Except DecodeError (Instr × List Byte) :=
  match splitHeader bytes with
  | some (h, rest) => decodeOp h rest
  | none => .error .incomplete

/-- Reads a micro-op from its code and operand (R106). WRITE_BIT's operand is bit 0 of the operand byte; the others'
operand bytes, where they take none, are ignored (DESIGN CHOICE, log entry 12). -/
def decodeMicro (code : BitVec 4) (operand : Byte) : Except DecodeError Instr :=
  if code = 0x0 then .ok .csAssert
  else if code = 0x1 then .ok .csDeassert
  else if code = 0x2 then .ok (.writeBit (operand.getLsbD 0))
  else if code = 0x3 then .ok .readBit
  else if code = 0x4 then .ok (.writeByte operand)
  else if code = 0x5 then .ok .readByte
  else .error (.unusedMicroOp code)

/-- The decoder over both code spaces: the instruction and, for a request, the bytes after it. -/
def decode : Image → Except DecodeError (Instr × List Byte)
  | .request bytes => decodeRequest bytes
  | .micro code operand => (decodeMicro code operand).map fun i => (i, [])

/-- A request's bytes: op, addr, len, data (R105). -/
def requestBytes (op : Byte) (addr : Addr) (len : Count) (data : List Byte) : List Byte :=
  op :: (addrBytes addr ++ countBytes len ++ data)

/-- The encoder, from the tables of R104, R105 and R106. Fields an op ignores are sent as 0. -/
def encode : Instr → Image
  | .pp addr data => .request (requestBytes 0x02 addr (BitVec.ofNat 32 data.length) data)
  | .read addr len => .request (requestBytes 0x03 addr len [])
  | .wrdi => .request (requestBytes 0x04 0 0 [])
  | .rdsr => .request (requestBytes 0x05 0 0 [])
  | .wren => .request (requestBytes 0x06 0 0 [])
  | .be addr => .request (requestBytes 0xD8 addr 0 [])
  | .wake => .request (requestBytes 0xAB 0 0 [])
  | .awaitReady => .request (requestBytes 0xE0 0 0 [])
  | .flashData addr data => .request (requestBytes 0xE1 addr (BitVec.ofNat 32 data.length) data)
  | .verifyData addr data => .request (requestBytes 0xE2 addr (BitVec.ofNat 32 data.length) data)
  | .readArbitrary addr len => .request (requestBytes 0xE3 addr len [])
  | .status => .request (requestBytes 0xE4 0 0 [])
  | .sessionStart => .request (requestBytes 0xE8 0 0 [])
  | .sessionEnd => .request (requestBytes 0xE9 0 0 [])
  | .csAssert => .micro 0x0 0
  | .csDeassert => .micro 0x1 0
  | .writeBit b => .micro 0x2 (if b then 1 else 0)
  | .readBit => .micro 0x3 0
  | .writeByte x => .micro 0x4 x
  | .readByte => .micro 0x5 0

/-! The opcode table's numbering. -/

/-- The op byte is one of the fourteen of R104. -/
def isHostOp (op : Byte) : Bool :=
  [0x02, 0x03, 0x04, 0x05, 0x06, 0xD8, 0xAB, 0xE0, 0xE1, 0xE2, 0xE3, 0xE4, 0xE8, 0xE9].contains op

/-- Byte k of a word numbered as the opcode table numbers it (byte 0 holds bits 7:0); bits above nbits are 0. -/
def tableByte (nbits w k : Nat) : Byte := BitVec.ofNat 8 ((w % 2 ^ nbits) >>> (8 * k))

/-- The first n bytes of such a word. -/
def tableBytes (nbits w : Nat) : Nat → List Byte
  | 0 => []
  | n + 1 => tableBytes nbits w n ++ [tableByte nbits w n]

/-- The zero data bytes a data-carrying request still lacks. -/
def missingData (bytes : List Byte) : List Byte :=
  match splitHeader bytes with
  | some (h, rest) => if carriesData h.op then List.replicate (h.len.toNat - rest.length) 0 else []
  | none => []

/-- The request a table word stands for: its bytes, zeros up to the 8-byte header, and zeros for the data. -/
def tableRequest (nbits w : Nat) : List Byte :=
  let bytes := tableBytes nbits w (max headerLength (nbits / 8))
  bytes ++ missingData bytes

/-- A word of the opcode table. The table numbers host ops (8 bits) and micro-ops (4 bits) from 0, so 0x2 to 0x5 name a
row of each: a word of fewer than 8 bits is a micro-op, one of 8 or more a host request, except that the bytes 0x00 and
0x01, which are no host op, are read as the micro-op rows (DESIGN CHOICE, log entry 12). -/
def tableImage (nbits w : Nat) : Image :=
  if nbits < 8 then .micro (BitVec.ofNat 4 (w % 2 ^ nbits)) (BitVec.ofNat 8 (w % 2 ^ nbits / 16))
  else if nbits = 8 ∧ w % 256 < 6 ∧ isHostOp (BitVec.ofNat 8 w) = false then .micro (BitVec.ofNat 4 w) 0
  else .request (tableRequest nbits w)

/-- The instruction the decoder reads from a word of the opcode table. -/
def decodeTableWord (nbits w : Nat) : Option Instr :=
  match decode (tableImage nbits w) with
  | .ok (i, _) => some i
  | .error _ => none

end Sys2Proof
end

