-- ==== Sys2Proof/Machine/State.lean ====
section
/-! DEFINITION. The state of the machine as plain data (10_state.md; 20_memory.md R62), its reset value (10_state.md R45,
20_memory.md R79), and the reasons a step can stop. -/

namespace Sys2Proof.Machine

/-- The direction of a pin (10_state.md R22). -/
inductive Dir where
  | inp | out
  deriving DecidableEq, Repr, Inhabited

/-- The state of a pin (10_state.md R22): own is false only for released, dir is OUT only for output, and the level lvl,
which "has meaning only when own ∧ dir = OUT", stands only there (log entry 7). -/
inductive Pin where
  | released
  | input
  | output (lvl : Bool)
  deriving DecidableEq, Repr, Inhabited

/-- The six pins, one for each role (10_state.md R20). -/
structure Pins where
  fpgaRst : Pin
  fpgaCs : Pin
  flCs : Pin
  mosi : Pin
  miso : Pin
  sck : Pin
  deriving DecidableEq, Repr

/-- The session state (10_state.md R26). -/
inductive Sess where
  | released | reset | awake | idle | busyErasing | busyProgramming
  deriving DecidableEq, Repr, Inhabited

/-- The bus owner (10_state.md R28). -/
inductive Owner where
  | fpga | flashSession
  deriving DecidableEq, Repr, Inhabited

/-- The result codes (60_exceptions.md R230). -/
inductive Code where
  | ok | invalidArgument | verificationError | deviceNotResponding | acquisitionFailure | teardownFailure
  | illegalCommand | noSession | notReady | sessionActive
  deriving DecidableEq, Repr, Inhabited

/-- The reason field of INVALID_ARGUMENT (60_exceptions.md R231). -/
inductive Reason where
  | pageTooLong | range
  deriving DecidableEq, Repr, Inhabited

/-- The info record of a response (60_exceptions.md R231). absent: the code has no info fields. -/
inductive Info where
  | absent
  | reason (r : Reason)
  | mismatch (page byte : Count)
  | polls (n : Count) (status : Byte)
  | role (r : Role)
  | op (b : Byte)
  | sess (v : Sess)
  deriving DecidableEq, Repr, Inhabited

/-- A response (10_state.md R39). -/
structure Response where
  code : Code
  info : Info
  data : List Byte
  deriving DecidableEq, Repr

/-- The events of the trace (10_state.md R44). The level of an ACQ is none for an input (written "-" there). -/
inductive Event where
  | acq (r : Role) (d : Dir) (b : Option Bool)
  | acqFail (r : Role)
  | rel (r : Role)
  | relFail (r : Role)
  | set (r : Role) (b : Bool)
  | delay
  | hold
  | sample (b : Bool)
  deriving DecidableEq, Repr

/-- One step of a sequence of 42_sequences.md, between which the op's loops run in program order. -/
inductive Task where
  /-- AWAIT_CORE (R180), from its poll_r <- 0. -/
  | await
  /-- addr_r <- addr; BE_CORE(addr_r) (R181). -/
  | erase (addr : Addr)
  /-- addr_r <- addr; PP_CORE(addr_r, page); progress grows by the page's length (R181). -/
  | program (addr : Addr) (page : List Byte)
  /-- off_r <- off (R181, R182). -/
  | setOff (off : Count)
  /-- addr_r <- addr; READ_CORE; compare with the buffer's bytes from offset off on (R182). -/
  | compare (off : Nat) (addr : Addr) (expected : List Byte)
  /-- return [s], the status byte the await read last (R180), which READ_BYTE left in shreg (40_softspi.md R135). -/
  | returnStatus
  deriving DecidableEq, Repr

/-- What the running op does when the frame ends that is on the bus: which frame of which step it is (10_state.md R42). -/
inductive FrameEnd where
  /-- The frame of WAKE_CORE (41_commands.md R151; 43_session.md R214): the op ends. -/
  | wake
  /-- The only frame of an op that answers the bytes received (41_commands.md R152 to R154, R157; 42_sequences.md R183). -/
  | reply
  /-- The WREN frame before a PP of these bytes at addr; progress is to grow by grow bytes, and rest follows (41_commands.md
  R155). -/
  | program (addr : Addr) (page : List Byte) (grow : Nat) (rest : List Task)
  /-- That PP frame. -/
  | programmed (grow : Nat) (rest : List Task)
  /-- The WREN frame before a BE at addr (41_commands.md R156). -/
  | erase (addr : Addr) (rest : List Task)
  /-- That BE frame. -/
  | erased (rest : List Task)
  /-- The status frame of an await's loop (42_sequences.md R180). -/
  | polled (rest : List Task)
  /-- The READ frame of a VERIFY_DATA chunk at buffer offset off (42_sequences.md R182). -/
  | compared (off : Nat) (expected : List Byte) (rest : List Task)
  deriving DecidableEq, Repr

/-- The place inside a frame (40_softspi.md R136): before FL_CS falls, in byte k of those sent and then received, or before FL_CS
rises. -/
inductive Spot where
  | assert
  | byte (k : Nat)
  | deassert
  deriving DecidableEq, Repr

/-- A running op inside FRAME(out, nin): the op, the frame, the place in it, the bytes received so far in order, and what comes
after it (10_state.md R42). -/
structure FrameRun where
  op : Instr
  out : List Byte
  nin : Nat
  spot : Spot
  got : List Byte
  after : FrameEnd
  deriving DecidableEq, Repr

/-- The sequencer position (10_state.md R42). The bit index within a byte is bitcnt, and the chunk index comes from off_r, as
R42 says. -/
inductive Seq where
  /-- PORT_IDLE: no request runs. -/
  | portIdle
  /-- The request f.op runs and stands inside one of its frames. -/
  | inFrame (f : FrameRun)
  /-- The request op runs: its AWAIT_CORE has read busy and polls again before it does rest (42_sequences.md R180). -/
  | awaiting (op : Instr) (rest : List Task)
  /-- No request runs, and these micro-ops are still to be issued, as code and operand (log entry 12). -/
  | micro (words : List (BitVec 4 × Byte))
  deriving DecidableEq, Repr

/-- The flash array M (20_memory.md R62): the start contents, and the bytes that differ from them. -/
structure Memory where
  start : StartContents
  cells : List Host.Cell
  deriving DecidableEq, Repr

/-- The flash device (20_memory.md R62), with its parameter FLASH_SIZE (00_scope.md R5, 20_memory.md R80). fbits holds the newest
bit first (log entry 17). -/
structure Device where
  flashSize : Nat
  mem : Memory
  wel : Bool
  busy : Busy
  pd : Bool
  fbits : List Bool
  deriving DecidableEq, Repr

/-- The environment's free inputs (the spec's draw()): the coming ones of each kind where they are given, and a counter
for the opaque free values of Config after them (log entry 3). The model's own field. -/
structure Env where
  acq : List Bool
  rel : List Bool
  miso : List Bool
  busy : List Busy
  count : Nat
  deriving DecidableEq, Repr

/-- The state of the machine. -/
structure State where
  /-- The configuration (10_state.md R25). -/
  cfg : Cfg
  /-- The pins (R20, R22). -/
  pins : Pins
  /-- The session state (R26). -/
  sess : Sess
  /-- The bus owner (R28). -/
  busOwner : Owner
  /-- The byte shift register (R30). -/
  shreg : Byte
  /-- The bit counter, 0 to 8 (R30). -/
  bitcnt : Nat
  /-- The flash address of the current frame or sequence step (R31). -/
  addrR : Addr
  /-- The current request's length (R32). -/
  lenR : Count
  /-- The running offset into the request's buffer (R32). -/
  offR : Count
  /-- The number of status reads of the current AWAIT_READY (R33). -/
  pollR : Nat
  /-- The result code of the last host op other than STATUS (R34). -/
  lastCode : Code
  /-- The first non-OK code of the session, or ok (R34). -/
  sessErr : Code
  /-- The info record of the last non-OK response (R34). -/
  errInfo : Info
  /-- The bytes programmed by the current or last FLASH_DATA (R35). -/
  progress : Count
  /-- The sequencer position (R42). -/
  seq : Seq
  /-- The trace, newest event first (R44, log entry 17). -/
  tr : List Event
  /-- The request bytes the host has sent and the controller has not accepted (R38, log entry 2). -/
  host : List Byte
  /-- The responses returned to the host, newest first (R39, log entry 17). -/
  out : List Response
  /-- The environment's free inputs (log entry 3). -/
  env : Env
  /-- The flash device (R46, 20_memory.md R62). -/
  dev : Device
  deriving DecidableEq, Repr

/-- The reasons the machine stops with a fault. Both are safe: they stand for preconditions that the spec states and every
run from reset meets (log entry 10). -/
inductive Fault where
  /-- Raised by a host op that sends a frame when a session is active and yet the bus is not as 10_state.md R29 and R41 say
  it is between ops (four bus pins owned in their directions, FL_CS = 1, SCK = 0). Safe. -/
  | busNotReady
  /-- Raised by a micro-op when the bus pins are not owned in their directions (10_state.md R22, 40_softspi.md's
  precondition of every micro-op). Safe. -/
  | busNotHeld
  deriving DecidableEq, Repr

/-- The reasons a step has no meaning. -/
inductive Refusal where
  /-- Raised by exec for an instruction that has no meaning yet. Safe. -/
  | notModelled (mnemonic : String)
  /-- Raised by step for a micro-op code 0x6 to 0xF (30_encoding.md R108 d: unused). Safe. -/
  | unusedMicroOp (code : BitVec 4)
  deriving DecidableEq, Repr

/-- No pin owned (10_state.md R45). -/
def Pins.allReleased : Pins :=
  { fpgaRst := .released, fpgaCs := .released, flCs := .released, mosi := .released, miso := .released, sck := .released }

/-- The flash device at power-up (20_memory.md R79): M, busy_left and pd are draws, wel = 0. FLASH_SIZE is the part's (R80). -/
def Device.atPowerUp : Device :=
  { flashSize := Config.flashSize
    mem := { start := .unknown 0, cells := [] }
    wel := false
    busy := Config.startBusy
    pd := Config.startPd
    fbits := [] }

/-- No free input is given: every draw is one of Config's opaque values (log entry 3). -/
def Env.unknown : Env := { acq := [], rel := [], miso := [], busy := [], count := 0 }

/-- The machine right after controller reset (10_state.md R45, 70_reset_and_hazards.md R270, R271). -/
def State.reset : State :=
  { cfg := Config.built
    pins := Pins.allReleased
    sess := .released
    busOwner := .fpga
    shreg := 0
    bitcnt := 0
    addrR := 0
    lenR := 0
    offR := 0
    pollR := 0
    lastCode := .ok
    sessErr := .ok
    errInfo := .absent
    progress := 0
    seq := .portIdle
    tr := []
    host := []
    out := []
    env := Env.unknown
    dev := Device.atPowerUp }

end Sys2Proof.Machine
end

