-- ==== Sys2Proof/Machine/Draws.lean ====
section
/-! DEFINITION. draw(): one free input of the environment. The coming inputs of a kind are used up first; after them every
draw is an opaque value of Config at the next count (log entry 3). -/

namespace Sys2Proof.Machine

/-- acq_ok: whether a pin can be claimed (43_session.md R211). -/
def Env.drawAcq (e : Env) : Bool × Env :=
  match e.acq with
  | b :: rest => (b, { e with acq := rest })
  | [] => (Config.freeAcq e.count, { e with count := e.count + 1 })

/-- rel_ok: whether a pin can be released (43_session.md R215). -/
def Env.drawRel (e : Env) : Bool × Env :=
  match e.rel with
  | b :: rest => (b, { e with rel := rest })
  | [] => (Config.freeRel e.count, { e with count := e.count + 1 })

/-- A MISO bit that the device does not define (20_memory.md R67, R68, R70, R76). -/
def Env.drawMiso (e : Env) : Bool × Env :=
  match e.miso with
  | b :: rest => (b, { e with miso := rest })
  | [] => (Config.freeMiso e.count, { e with count := e.count + 1 })

/-- The busy count of a program or erase (20_memory.md R74, R75, R78). -/
def Env.drawBusy (e : Env) : Busy × Env :=
  match e.busy with
  | b :: rest => (b, { e with busy := rest })
  | [] => (Config.freeBusy e.count, { e with count := e.count + 1 })

end Sys2Proof.Machine
end

