-- ==== Sys2Proof/Machine/Operands.lean ====
section
/-! DEFINITION. The operand forms: bits and bytes on the wire (30_encoding.md R102, R107; 20_memory.md R81), pages and blocks
(20_memory.md R61), and the cutting of a request's buffer into chunks and pages (42_sequences.md R181, R182). -/

namespace Sys2Proof.Machine

/-- The bits of a byte in wire order, most significant first (20_memory.md R81). -/
def bitsOfByte (x : Byte) : List Bool :=
  [x.getLsbD 7, x.getLsbD 6, x.getLsbD 5, x.getLsbD 4, x.getLsbD 3, x.getLsbD 2, x.getLsbD 1, x.getLsbD 0]

/-- The wire bits of a byte list. -/
def bitsOfBytes (xs : List Byte) : List Bool := xs.flatMap bitsOfByte

/-- The byte of eight bits, the first the most significant (30_encoding.md R107: a received byte is {b0, ..., b7}). -/
def byteOf (b7 b6 b5 b4 b3 b2 b1 b0 : Bool) : Byte :=
  BitVec.ofBool b7 ++ BitVec.ofBool b6 ++ BitVec.ofBool b5 ++ BitVec.ofBool b4 ++ BitVec.ofBool b3 ++ BitVec.ofBool b2 ++
    BitVec.ofBool b1 ++ BitVec.ofBool b0

/-- Bits cut into groups of 8, each read most significant bit first (20_memory.md R66); a part group at the end gives no
byte. -/
def bytesOfBits : List Bool → List Byte
  | b7 :: b6 :: b5 :: b4 :: b3 :: b2 :: b1 :: b0 :: rest => byteOf b7 b6 b5 b4 b3 b2 b1 b0 :: bytesOfBits rest
  | _ => []

/-- page(a) = a & 0xFFFF00 (20_memory.md R61). -/
def pageBase (a : Addr) : Nat := (a &&& 0xFFFF00).toNat

/-- block(a) = a & 0xFF0000 (20_memory.md R61). -/
def blockBase (a : Addr) : Nat := (a &&& 0xFF0000).toNat

/-- The address that data byte i of a page program at a goes to: page(A) | ((A[7:0] + i) mod 256) (20_memory.md R74). -/
def programAddr (a : Addr) (i : Nat) : Nat := pageBase a ||| ((a.toNat % 256 + i) % 256)

/-- The address that byte i of a read at a comes from, mod 2^24 (20_memory.md R73). -/
def readAddr (a : Addr) (i : Nat) : Nat := (a.toNat + i) % Config.addressCount

/-- The bytes of a frame with an address phase: opcode, then a[23:16], a[15:8], a[7:0] (30_encoding.md R101, R107). -/
def addressed (op : Byte) (a : Addr) : List Byte := op :: addrBytes a

/-- A buffer cut into pieces of k bytes, the last one perhaps shorter (42_sequences.md R181: min(p + k, end)); fuel bounds
the number of pieces. -/
def cutWith (k : Nat) : Nat → List Byte → List (List Byte)
  | _, [] => []
  | 0, _ :: _ => []
  | fuel + 1, b :: buf => (b :: buf).take k :: cutWith k fuel ((b :: buf).drop k)

/-- A buffer cut into pieces of k bytes. -/
def cut (k : Nat) (buf : List Byte) : List (List Byte) := cutWith k buf.length buf

/-- The page loop of FLASH_DATA over the pages of a chunk that starts at buffer offset p (42_sequences.md R181). -/
def pageTasks (base : Nat) : Nat → List (List Byte) → List Task
  | _, [] => []
  | p, page :: pages =>
    .await :: .program (BitVec.ofNat 24 (base + p)) page :: pageTasks base (p + page.length) pages

/-- The chunk loop of FLASH_DATA from buffer offset off (42_sequences.md R181). -/
def chunkTasks (base : Nat) : Nat → List (List Byte) → List Task
  | _, [] => []
  | off, chunk :: chunks =>
    .await :: .erase (BitVec.ofNat 24 (base + off)) ::
      (pageTasks base off (cut Config.pageSize chunk) ++
        .setOff (BitVec.ofNat 32 (off + chunk.length)) :: chunkTasks base (off + chunk.length) chunks)

/-- The steps of FLASH_DATA's body (42_sequences.md R181). -/
def flashTasks (base : Addr) (buf : List Byte) : List Task :=
  chunkTasks base.toNat 0 (cut Config.blockSize buf)

/-- The chunk loop of VERIFY_DATA from buffer offset off (42_sequences.md R182). -/
def compareTasks (base : Nat) : Nat → List (List Byte) → List Task
  | _, [] => []
  | off, page :: pages =>
    .compare off (BitVec.ofNat 24 (base + off)) page :: .setOff (BitVec.ofNat 32 (off + page.length)) ::
      compareTasks base (off + page.length) pages

/-- The steps of VERIFY_DATA's body (42_sequences.md R182): one await, off_r <- 0, the chunks. -/
def verifyTasks (base : Addr) (buf : List Byte) : List Task :=
  .await :: .setOff 0 :: compareTasks base.toNat 0 (cut Config.pageSize buf)

/-- The index of the first byte read back that differs from the buffer (42_sequences.md R182). -/
def firstDifference : List Byte → List Byte → Option Nat
  | r :: rs, x :: xs => if r = x then (firstDifference rs xs).map (· + 1) else some 0
  | _, _ => none

end Sys2Proof.Machine
end

