-- ==== Sys2Proof/Machine/Memory.lean ====
section
/-! DEFINITION. The flash array M (20_memory.md R60, R61): a canonical list of the bytes that differ from the start contents,
addresses strictly rising. Reading, writing and filling are 00_scope.md R10's MemRead and MemWrite. -/

namespace Sys2Proof.Machine

/-- What an address with no cell reads as: the contents drawn or named (20_memory.md R79, 70_reset_and_hazards.md R271,
R295). -/
def Memory.unlisted (m : Memory) (a : Nat) : Byte :=
  match m.start with
  | .unknown draw => Config.drawnByte draw a
  | .uniform b => b

/-- M[a] (20_memory.md R61). -/
def Memory.read (m : Memory) (a : Nat) : Byte := (m.cells.lookup a).getD (m.unlisted a)

/-- The cells with the byte at a set to v. -/
def insertCell (a : Nat) (v : Byte) : List Host.Cell → List Host.Cell
  | [] => [(a, v)]
  | (b, w) :: cells =>
    if a < b then (a, v) :: (b, w) :: cells
    else if a = b then (a, v) :: cells
    else (b, w) :: insertCell a v cells

/-- M[a] <- v; a byte that equals the start contents has no cell. -/
def Memory.write (m : Memory) (a : Nat) (v : Byte) : Memory :=
  if v = m.unlisted a then { m with cells := m.cells.filter fun c => c.1 != a }
  else { m with cells := insertCell a v m.cells }

/-- The cells of n bytes v from address lo on, without those that equal the start contents. -/
def Memory.fillCells (m : Memory) (lo n : Nat) (v : Byte) : List Host.Cell :=
  match m.start with
  | .uniform b => if v = b then [] else (List.range' lo n).map fun a => (a, v)
  | .unknown _ => ((List.range' lo n).filter fun a => v != m.unlisted a).map fun a => (a, v)

/-- M[x] <- v for x in lo .. lo + n - 1 (20_memory.md R75). -/
def Memory.fill (m : Memory) (lo n : Nat) (v : Byte) : Memory :=
  { m with
    cells := m.cells.filter (fun c => c.1 < lo) ++ m.fillCells lo n v ++ m.cells.filter (fun c => lo + n ≤ c.1) }

/-- M[x_i] <- M[x_i] & d[i] for the bytes d of a page program at a, from index i on, in order (20_memory.md R74). -/
def Memory.programFrom (a : Addr) : Nat → List Byte → Memory → Memory
  | _, [], m => m
  | i, d :: ds, m =>
    Memory.programFrom a (i + 1) ds (m.write (programAddr a i) (m.read (programAddr a i) &&& d))

/-- The canonical form: addresses strictly rising and inside the flash, and no cell equal to the start contents. -/
abbrev Memory.wf (m : Memory) : Prop :=
  m.cells.Pairwise (fun c c' => c.1 < c'.1) ∧
    ∀ c ∈ m.cells, c.1 < Config.addressCount ∧ c.2 ≠ m.unlisted c.1

end Sys2Proof.Machine
end

