-- ==== Sys2Proof/Machine/Device.lean ====
section
/-! DEFINITION. The reference flash device (20_memory.md R66 to R80): what it receives, when it ignores a frame, what each
opcode does at the frame's end, and the bit it presents on MISO. -/

namespace Sys2Proof.Machine

/-- busy_left > 0 (20_memory.md R62). -/
def stillBusy : Busy → Bool
  | .polls k => decide (0 < k)
  | .forever => true

/-- One status poll counted: if 0 < busy_left < ∞ then busy_left <- busy_left - 1 (20_memory.md R70). -/
def afterPoll : Busy → Busy
  | .polls k => .polls (k - 1)
  | .forever => .forever

/-- The device ignores the frames of this opcode: the low-power gate (20_memory.md R67) and the busy gate (R68). -/
def Device.ignores (d : Device) (op : Byte) : Bool :=
  if d.pd then op != 0xAB else stillBusy d.busy && op != 0x05

/-- FL_CS falls: fbits ← [] (20_memory.md R66). -/
def Device.select (d : Device) : Device := { d with fbits := [] }

/-- A rising edge of SCK while FL_CS = 0: the MOSI level is appended to fbits (20_memory.md R66). -/
def Device.clockIn (mosi : Bool) (d : Device) : Device := { d with fbits := mosi :: d.fbits }

/-- The MOSI bits received, oldest first. -/
def Device.received (d : Device) : List Bool := d.fbits.reverse

/-- Every address a page program at a stores to is below FLASH_SIZE, and so is a itself (20_memory.md R74, R80). -/
def Device.insideProgram (d : Device) (a : Addr) (data : List Byte) : Bool :=
  decide (a.toNat < d.flashSize) && (List.range data.length).all fun i => decide (programAddr a i < d.flashSize)

/-- The block that holds a is below FLASH_SIZE (20_memory.md R75, R80). -/
def Device.insideErase (d : Device) (a : Addr) : Bool := decide (blockBase a + Config.blockSize ≤ d.flashSize)

/-- The chip after a program or erase at or above FLASH_SIZE (20_memory.md R80, 93_implementation_defined.md I8: "the part may
alias or ignore such addresses"): M, wel and busy_left are free values (log entry 13). -/
def Device.afterOutside (d : Device) (e : Env) : Device × Env :=
  ({ d with mem := ⟨.unknown (e.count + 1), []⟩, wel := Config.freeWel e.count, busy := e.drawBusy.1 },
    { e.drawBusy.2 with count := e.count + 1 })

/-- PAGE_PROGRAM at the frame's end (20_memory.md R74, R80). -/
def Device.program (a : Addr) (data : List Byte) (d : Device) (e : Env) : Device × Env :=
  if d.wel then
    if d.insideProgram a data then
      ({ d with mem := Memory.programFrom a 0 data d.mem, wel := false, busy := e.drawBusy.1 }, e.drawBusy.2)
    else d.afterOutside e
  else (d, e)

/-- BLOCK_ERASE at the frame's end (20_memory.md R75, R80). -/
def Device.eraseBlock (a : Addr) (d : Device) (e : Env) : Device × Env :=
  if d.wel then
    if d.insideErase a then
      ({ d with mem := d.mem.fill (blockBase a) Config.blockSize 0xFF, wel := false, busy := e.drawBusy.1 }, e.drawBusy.2)
    else d.afterOutside e
  else (d, e)

/-- The effect of a frame that is not ignored, by its opcode (20_memory.md R69 to R75). -/
def Device.obey (op : Byte) (rest : List Byte) (d : Device) (e : Env) : Device × Env :=
  if op = 0xAB then ({ d with pd := false }, e)
  else if op = 0x05 then ({ d with busy := afterPoll d.busy }, e)
  else if op = 0x06 then ({ d with wel := true }, e)
  else if op = 0x04 then ({ d with wel := false }, e)
  else if op = 0x02 then
    match rest with
    | a2 :: a1 :: a0 :: data => d.program (addrOfBytes a2 a1 a0) data e
    | _ => (d, e)
  else if op = 0xD8 then
    match rest with
    | a2 :: a1 :: a0 :: _ => d.eraseBlock (addrOfBytes a2 a1 a0) e
    | _ => (d, e)
  else (d, e)

/-- The end of a frame of these bytes (20_memory.md R66 to R75). WAKE is decided before the gates: where the busy gate would
ignore it, pd is already false, so "the result is the same" (R69). -/
def Device.takeFrame (bytes : List Byte) (d : Device) (e : Env) : Device × Env :=
  match bytes with
  | [] => (d, e)
  | op :: rest => if op != 0xAB && d.ignores op then (d, e) else d.obey op rest e

/-- A whole command: a PP or BE with its 3-byte address, or one of the other opcodes of 30_encoding.md R103. Where more bytes
follow than the controller sends, the rules of 20_memory.md apply as they stand (log entry 11). -/
def isWholeCommand : List Byte → Bool
  | 0x02 :: _ :: _ :: _ :: _ => true
  | 0xD8 :: _ :: _ :: _ :: _ => true
  | 0x03 :: _ => true
  | 0xAB :: _ => true
  | 0x05 :: _ => true
  | 0x06 :: _ => true
  | 0x04 :: _ => true
  | _ => false

/-- The frame received is whole bytes (20_memory.md R66) that make a whole command. -/
def Device.wholeCommand (d : Device) : Bool := d.fbits.length % 8 == 0 && isWholeCommand (bytesOfBits d.received)

/-- The frame received has an opcode whose frames the chip ignores (20_memory.md R67, R68). -/
def Device.ignoresReceived (d : Device) : Bool :=
  match bytesOfBits d.received with
  | [] => false
  | op :: _ => d.ignores op

/-- The rules of 20_memory.md say what the chip does at the end of the frame received: nothing was clocked, or a gate ignores it
(R67, R68), or it is a whole command. -/
def Device.frameHasRule (d : Device) : Bool := d.fbits.isEmpty || d.ignoresReceived || d.wholeCommand

/-- The chip after a frame that no rule describes (92_eei_decisions.md D45: the controller never emits one): its whole state is
free values (log entry 11). -/
def Device.afterStrange (d : Device) (e : Env) : Device × Env :=
  ({ d with
      mem := ⟨.unknown (e.count + 1), []⟩
      wel := Config.freeWel e.count
      busy := e.drawBusy.1
      pd := Config.freePd e.count
      fbits := [] },
    { e.drawBusy.2 with count := e.count + 1 })

/-- FL_CS rises: the frame ends (20_memory.md R66). -/
def Device.deselect (d : Device) (e : Env) : Device × Env :=
  if d.frameHasRule then
    let r := d.takeFrame (bytesOfBits d.received) e
    ({ r.1 with fbits := [] }, r.2)
  else d.afterStrange e

/-- The bit of the flash array that the device shifts out as bit j of a READ's read phase (20_memory.md R65, R73). -/
def Device.readBit (d : Device) (a : Addr) (j : Nat) : Bool := (d.mem.read (readAddr a (j / 8))).getLsbD (7 - j % 8)

/-- The byte that bit j of a READ's read phase belongs to is below FLASH_SIZE (20_memory.md R73, R80). -/
def Device.insideRead (d : Device) (a : Addr) (j : Nat) : Bool := decide (readAddr a (j / 8) < d.flashSize)

/-- The bit the device presents after n clocks of a frame that began with the byte op and then rest (the address phase, as far
as it is received), or none where the bit is draw() (20_memory.md R65, R67, R68, R70, R73, R76, R80). The busy flag, bit 0 of
the status byte, comes with the 16th clock; a READ's first bit with the 33rd. -/
def Device.answerTo (d : Device) (op : Byte) (rest : List Byte) (n : Nat) : Option Bool :=
  if d.ignores op then none
  else if op = 0x05 then if n = 16 then some (stillBusy d.busy) else none
  else if op = 0x03 then
    match rest with
    | [a2, a1, a0] =>
      if n ≤ 32 then none
      else if d.insideRead (addrOfBytes a2 a1 a0) (n - 33) then some (d.readBit (addrOfBytes a2 a1 a0) (n - 33))
      else none
    | _ => none
  else none

/-- The bit the device presents after the clocks received so far, or none where it is draw(). -/
def Device.answer (d : Device) : Option Bool :=
  match bytesOfBits (d.received.take 32) with
  | [] => none
  | op :: rest => d.answerTo op rest d.fbits.length

/-- The MISO level at a SAMPLE. -/
def Device.present (d : Device) (e : Env) : Bool × Env :=
  match d.answer with
  | some b => (b, e)
  | none => e.drawMiso

end Sys2Proof.Machine
end

