-- ==== Sys2Proof/Machine/Flags.lean ====
section
/-! DEFINITION. The encodings of session state, result codes and info records, the status register CSR (10_state.md R36),
the composite summary (60_exceptions.md R240), and the serialized response (30_encoding.md R105, 60_exceptions.md R231). The
block has no condition codes (10_state.md R37). -/

namespace Sys2Proof.Machine

/-- The 3-bit encoding of sess (10_state.md R26). -/
def Sess.bits : Sess → BitVec 3
  | .released => 0
  | .reset => 1
  | .awake => 2
  | .idle => 3
  | .busyErasing => 4
  | .busyProgramming => 5

/-- The encoding of bus_owner (10_state.md R28). -/
def Owner.bits : Owner → BitVec 1
  | .fpga => 0
  | .flashSession => 1

/-- The 4-bit result codes (60_exceptions.md R230). -/
def Code.bits : Code → BitVec 4
  | .ok => 0
  | .invalidArgument => 1
  | .verificationError => 2
  | .deviceNotResponding => 3
  | .acquisitionFailure => 4
  | .teardownFailure => 5
  | .illegalCommand => 6
  | .noSession => 7
  | .notReady => 8
  | .sessionActive => 9

/-- The role encoding (60_exceptions.md R231). -/
def roleByte : Role → Byte
  | .fpgaRst => 0
  | .fpgaCs => 1
  | .flCs => 2
  | .mosi => 3
  | .miso => 4
  | .sck => 5

/-- The reason encoding (60_exceptions.md R231). -/
def Reason.byte : Reason → Byte
  | .pageTooLong => 0
  | .range => 1

/-- The info bytes of a response, multi-byte fields most significant byte first (60_exceptions.md R231). -/
def Info.bytes : Info → List Byte
  | .absent => []
  | .reason r => [r.byte]
  | .mismatch page byte => countBytes page ++ countBytes byte
  | .polls n status => countBytes n ++ [status]
  | .role r => [roleByte r]
  | .op b => [b]
  | .sess v => [v.bits.zeroExtend 8]

/-- A response as the host receives it: code, info, a 4-byte data length, data (30_encoding.md R105). -/
def Response.bytes (r : Response) : List Byte :=
  r.code.bits.zeroExtend 8 :: (r.info.bytes ++ countBytes (BitVec.ofNat 32 r.data.length) ++ r.data)

/-- CSR: reserved [15:12] reads 0, LAST [11:8], SERR [7:4], OWNER [3], SESS [2:0] (10_state.md R36). -/
def State.csr (s : State) : BitVec 16 :=
  (0 : BitVec 4) ++ s.lastCode.bits ++ s.sessErr.bits ++ s.busOwner.bits ++ s.sess.bits

/-- The six bytes STATUS returns (42_sequences.md R185). -/
def statusBytes (s : State) : List Byte :=
  s.csr.extractLsb' 8 8 :: s.csr.extractLsb' 0 8 :: countBytes s.progress

/-- The summary byte of SESSION_END: bit 0 the program outcome, bit 1 the teardown outcome (43_session.md R216,
60_exceptions.md R240). -/
def summaryByte (sessErr : Code) (failed : Option Role) : Byte :=
  (if sessErr = .ok then 0 else 1) + (if failed = none then 0 else 2)

/-- The busy flag, bit 0 of a status byte: the one bit the design tests (10_state.md R37, 42_sequences.md R180). -/
def busyFlag (status : Byte) : Bool := status.getLsbD 0

end Sys2Proof.Machine
end

