-- ==== Sys2Proof/Machine/Ops.lean ====
section
/-! DEFINITION. The shared operations: pins and the trace (00_scope.md R9, 10_state.md R22, R44), the checks of an op
(60_exceptions.md R233), and the end of an op: the response, and THE ERROR EXIT, which is the block's only exception
(60_exceptions.md R232, R238; the return from it is the host's next request). -/

namespace Sys2Proof.Machine

/-- pin[r] (10_state.md R22). -/
def Pins.get (p : Pins) : Role → Pin
  | .fpgaRst => p.fpgaRst
  | .fpgaCs => p.fpgaCs
  | .flCs => p.flCs
  | .mosi => p.mosi
  | .miso => p.miso
  | .sck => p.sck

/-- pin[r] <- v. -/
def Pins.set (p : Pins) (r : Role) (v : Pin) : Pins :=
  match r with
  | .fpgaRst => { p with fpgaRst := v }
  | .fpgaCs => { p with fpgaCs := v }
  | .flCs => { p with flCs := v }
  | .mosi => { p with mosi := v }
  | .miso => { p with miso := v }
  | .sck => { p with sck := v }

/-- own (10_state.md R22). -/
def Pin.own : Pin → Bool
  | .released => false
  | .input => true
  | .output _ => true

/-- dir: a released pin is a neutral input (10_state.md R22, R23). -/
def Pin.dir : Pin → Dir
  | .released => .inp
  | .input => .inp
  | .output _ => .out

/-- lvl, where it has a meaning (10_state.md R22). -/
def Pin.lvl : Pin → Option Bool
  | .released => none
  | .input => none
  | .output b => some b

/-- The level the controller drives on a physical line, if it drives one (10_state.md R20, R21, R23). -/
def State.lineLevel (s : State) (n : Nat) : Option Bool :=
  [Role.fpgaRst, .fpgaCs, .flCs, .mosi, .miso, .sck].findSome? fun r =>
    if Config.line s.cfg.pinMap r = n then (s.pins.get r).lvl else none

/-- The trace in program order (10_state.md R44). -/
def State.trace (s : State) : List Event := s.tr.reverse

/-- One event appended to the trace (10_state.md R44). -/
def emit (ev : Event) (s : State) : State := { s with tr := ev :: s.tr }

/-- What the flash device sees of a pin going to level b: FL_CS falling and rising, and SCK rising while FL_CS = 0 (20_memory.md
R66). -/
def edge (r : Role) (b : Bool) (p : Pins) (d : Device) (e : Env) : Device × Env :=
  match r with
  | .flCs =>
    match p.flCs, b with
    | .output true, false => (d.select, e)
    | .output false, true => d.deselect e
    | _, _ => (d, e)
  | .sck =>
    match p.sck, b, p.flCs with
    | .output false, true, .output false => (d.clockIn (p.mosi = .output true), e)
    | _, _, _ => (d, e)
  | _ => (d, e)

/-- SET(role, b) on an owned output: one event, the level, and what the device sees (00_scope.md R9, 10_state.md R22, R44). -/
def drive (r : Role) (b : Bool) (s : State) : State :=
  { s with
    pins := s.pins.set r (.output b)
    tr := .set r b :: s.tr
    dev := (edge r b s.pins s.dev s.env).1
    env := (edge r b s.pins s.dev s.env).2 }

/-- DELAY(): wait at least T_HALF (00_scope.md R9); an event only (log entry 16). -/
def delay (s : State) : State := emit .delay s

/-- HOLD(T_RST): wait at least T_RST (00_scope.md R9); an event only (log entry 16). -/
def hold (s : State) : State := emit .hold s

/-- SAMPLE(MISO): the level the device presents (00_scope.md R9, 20_memory.md R65). -/
def sampleMiso (s : State) : Bool × State :=
  ((s.dev.present s.env).1,
    { s with tr := .sample (s.dev.present s.env).1 :: s.tr, env := (s.dev.present s.env).2 })

/-- The bus pins are owned in the directions the micro-ops need (10_state.md R22; 40_softspi.md, the precondition of every
micro-op). -/
def Pins.busHeld (p : Pins) : Bool :=
  p.flCs.dir = .out && p.mosi.dir = .out && p.sck.dir = .out && p.miso = .input

/-- The bus between two host ops of a session: held, FL_CS = 1 and SCK = 0 (10_state.md R29, R41). -/
def Pins.busReady (p : Pins) : Bool :=
  p.busHeld && p.flCs = .output true && p.sck = .output false

/-- A failed check or a raised error: its code and info record (60_exceptions.md R230, R231). -/
structure Stop where
  code : Code
  info : Info
  deriving DecidableEq, Repr

/-- The first stop of a list of checks made in order (60_exceptions.md R233). -/
def firstStop : List (Option Stop) → Option Stop
  | [] => none
  | some e :: _ => some e
  | none :: checks => firstStop checks

/-- Check 2b: no session is active (60_exceptions.md R233). -/
def checkSession (s : State) : Option Stop := if s.sess = .released then some ⟨.noSession, .absent⟩ else none

/-- Check 2a: a session is active (60_exceptions.md R233). -/
def checkNoSession (s : State) : Option Stop := if s.sess = .released then none else some ⟨.sessionActive, .absent⟩

/-- Check 3a: more than one page of data (60_exceptions.md R233). -/
def checkPageLength (len : Nat) : Option Stop :=
  if Config.pageSize < len then some ⟨.invalidArgument, .reason .pageTooLong⟩ else none

/-- Check 3b: addr + len > 2^24 (60_exceptions.md R233). -/
def checkRange (addr : Addr) (len : Nat) : Option Stop :=
  if Config.addressCount < addr.toNat + len then some ⟨.invalidArgument, .reason .range⟩ else none

/-- Check 4: sess is not IDLE (60_exceptions.md R233). -/
def checkIdle (s : State) : Option Stop := if s.sess = .idle then none else some ⟨.notReady, .sess s.sess⟩

/-- The result registers when an op other than STATUS ends (60_exceptions.md R232). sess is read after the op's body. -/
def recordResult (code : Code) (info : Info) (s : State) : State :=
  { s with
    lastCode := code
    errInfo := if code = .ok then s.errInfo else info
    sessErr := if code ≠ .ok ∧ s.sess ≠ .released ∧ s.sessErr = .ok then code else s.sessErr }

/-- The response returned and the sequencer back at PORT_IDLE (41_commands.md R150). -/
def answerHost (r : Response) (s : State) : State := { s with seq := .portIdle, out := r :: s.out }

/-- The end of an op other than STATUS, with the code and data of its response (60_exceptions.md R232, 41_commands.md
R150). -/
def finish (code : Code) (info : Info) (data : List Byte) (s : State) : State :=
  answerHost ⟨code, info, data⟩ (recordResult code info s)

/-- return (data): the op ends with code OK (00_scope.md R9). -/
def succeed (data : List Byte) (s : State) : State := finish .ok .absent data s

/-- raise CODE(info): THE ERROR EXIT (00_scope.md R9; 60_exceptions.md R232, R238). It saves last_code, err_info and, for the
first error of a session, sess_err, goes to PORT_IDLE, and undoes nothing. -/
def raise (e : Stop) (s : State) : State := finish e.code e.info [] s

/-- The run of a host op: its checks in order, then its body (41_commands.md R150). -/
def runOp (checks : List (Option Stop)) (body : State → State) (s : State) : Host.Outcome State Fault Refusal :=
  match firstStop checks with
  | some e => .next (raise e s)
  | none => .next (body s)

/-- The run of a host op that sends frames: its checks, then its body on a bus that is ready (10_state.md R41). -/
def runBusOp (checks : List (Option Stop)) (body : State → State) (s : State) : Host.Outcome State Fault Refusal :=
  match firstStop checks with
  | some e => .next (raise e s)
  | none => if s.pins.busReady then .next (body s) else .fault .busNotReady

/-- A request whose op byte is not in 30_encoding.md R104: ILLEGAL_COMMAND before any bus activity (30_encoding.md R108,
60_exceptions.md R233 step 1). -/
def illegalCommand (op : Byte) (s : State) : State := raise ⟨.illegalCommand, .op op⟩ s

end Sys2Proof.Machine
end

