-- ==== Sys2Proof/Machine/SoftSpi.lean ====
section
/-! DEFINITION. The soft-SPI micro-ops and FRAME (40_softspi.md). Each micro-op's procedure is a function of the state; the
meaning of the micro-op as an instruction adds its precondition. -/

namespace Sys2Proof.Machine

/-- CS_ASSERT (R130). -/
def csAssert (s : State) : State := drive .flCs false s

/-- CS_DEASSERT (R131). -/
def csDeassert (s : State) : State := drive .flCs true s

/-- WRITE_BIT(b) (R132). -/
def writeBit (b : Bool) (s : State) : State :=
  delay (drive .sck false (delay (drive .sck true (drive .mosi b s))))

/-- READ_BIT() (R133): MISO is sampled while SCK is high, after the first delay. -/
def readBit (s : State) : Bool × State :=
  let v := sampleMiso (delay (drive .sck true s))
  (v.1, delay (drive .sck false v.2))

/-- One pass of WRITE_BYTE's loop (R134). -/
def shiftOut (s : State) : State :=
  let t := writeBit (s.shreg.getLsbD 7) s
  { t with shreg := t.shreg <<< 1, bitcnt := t.bitcnt + 1 }

/-- {acc[6:0], b} (00_scope.md R8, 40_softspi.md R135). -/
def shiftInBit (acc : Byte) (b : Bool) : Byte := (acc <<< 1) ||| (BitVec.ofBool b).zeroExtend 8

/-- One pass of READ_BYTE's loop (R135). -/
def shiftIn (s : State) : State :=
  let v := readBit s
  { v.2 with shreg := shiftInBit v.2.shreg v.1, bitcnt := v.2.bitcnt + 1 }

/-- n passes of a loop. -/
def loop (body : State → State) : Nat → State → State
  | 0, s => s
  | n + 1, s => loop body n (body s)

/-- WRITE_BYTE(x) (R134). -/
def writeByte (x : Byte) (s : State) : State := loop shiftOut 8 { s with shreg := x, bitcnt := 0 }

/-- READ_BYTE() (R135); the byte is shreg afterwards. -/
def readByte (s : State) : State := loop shiftIn 8 { s with shreg := 0, bitcnt := 0 }

/-- The bytes a frame sends, in order (R136). -/
def sendBytes : List Byte → State → State
  | [], s => s
  | x :: xs, s => sendBytes xs (writeByte x s)

/-- The bytes a frame receives, in order (R136). -/
def receiveBytes : Nat → State → List Byte × State
  | 0, s => ([], s)
  | n + 1, s =>
    let t := readByte s
    let r := receiveBytes n t
    (t.shreg :: r.1, r.2)

/-- FRAME(out, nin) (R136): "the one way the block sends a transaction". -/
def frame (out : List Byte) (nin : Nat) (s : State) : List Byte × State :=
  let r := receiveBytes nin (sendBytes out (csAssert s))
  (r.1, csDeassert r.2)

/-- A FRAME that receives nothing. -/
def sendFrame (out : List Byte) (s : State) : State := (frame out 0 s).2

/-- A micro-op runs when its precondition holds (40_softspi.md; 10_state.md R22). -/
def runMicro (body : State → State) (s : State) : Host.Outcome State Fault Refusal :=
  if s.pins.busHeld then .next (body s) else .fault .busNotHeld

/-- CS_ASSERT as an instruction (R130). -/
def execCsAssert (s : State) : Host.Outcome State Fault Refusal := runMicro csAssert s

/-- CS_DEASSERT as an instruction (R131). -/
def execCsDeassert (s : State) : Host.Outcome State Fault Refusal := runMicro csDeassert s

/-- WRITE_BIT as an instruction (R132). -/
def execWriteBit (b : Bool) (s : State) : Host.Outcome State Fault Refusal := runMicro (writeBit b) s

/-- READ_BIT as an instruction (R133); its result is the SAMPLE event (log entry 24). -/
def execReadBit (s : State) : Host.Outcome State Fault Refusal := runMicro (fun s => (readBit s).2) s

/-- WRITE_BYTE as an instruction (R134). -/
def execWriteByte (x : Byte) (s : State) : Host.Outcome State Fault Refusal := runMicro (writeByte x) s

/-- READ_BYTE as an instruction (R135); its result is shreg. -/
def execReadByte (s : State) : Host.Outcome State Fault Refusal := runMicro readByte s

end Sys2Proof.Machine
end

