-- ==== Sys2Proof/Machine/Commands.lean ====
section
/-! DEFINITION. The flash command protocol (41_commands.md): the core procedures, which the sequences call too, and the host
ops WAKE, RDSR, WREN, WRDI, PP, BE and READ. -/

namespace Sys2Proof.Machine

/-- sess after a WAKE frame: RESET becomes AWAKE (R151). -/
def wokenUp (s : State) : State := { s with sess := if s.sess = .reset then .awake else s.sess }

/-- WAKE_CORE (R151). -/
def wakeCore (s : State) : State := wokenUp (sendFrame [0xAB] s)

/-- RDSR_CORE (R152); the status byte is shreg afterwards (40_softspi.md R135). -/
def rdsrCore (s : State) : State := (frame [0x05] 1 s).2

/-- WREN_CORE (R153). -/
def wrenCore (s : State) : State := sendFrame [0x06] s

/-- WRDI_CORE (R154). -/
def wrdiCore (s : State) : State := sendFrame [0x04] s

/-- PP_CORE(a, d) (R155). -/
def ppCore (a : Addr) (d : List Byte) (s : State) : State :=
  { sendFrame (addressed 0x02 a ++ d) (wrenCore s) with sess := .busyProgramming }

/-- BE_CORE(a) (R156). -/
def beCore (a : Addr) (s : State) : State := { sendFrame (addressed 0xD8 a) (wrenCore s) with sess := .busyErasing }

/-- READ_CORE(a, n) (R157). -/
def readCore (a : Addr) (n : Nat) (s : State) : List Byte × State := frame (addressed 0x03 a) n s

/-- The address register of a host op: the request's addr (30_encoding.md R107, 10_state.md R31; log entry 8). -/
def loadAddr (a : Addr) (s : State) : State := { s with addrR := a }

/-- The length register of a host op: the request's len (10_state.md R32; log entry 8). -/
def loadLen (n : Nat) (s : State) : State := { s with lenR := BitVec.ofNat 32 n }

/-- WAKE (R151). -/
def execWake (s : State) : Host.Outcome State Fault Refusal :=
  runBusOp [checkSession s] (fun s => succeed [] (wakeCore s)) s

/-- The body of RDSR: the status byte is the response's data (R152). -/
def rdsrBody (s : State) : State :=
  let r := frame [0x05] 1 s
  succeed r.1 r.2

/-- RDSR (R152): returns the status byte; sess is unchanged. -/
def execRdsr (s : State) : Host.Outcome State Fault Refusal :=
  runBusOp [checkSession s] rdsrBody s

/-- WREN (R153). -/
def execWren (s : State) : Host.Outcome State Fault Refusal :=
  runBusOp [checkSession s] (fun s => succeed [] (wrenCore s)) s

/-- WRDI (R154). -/
def execWrdi (s : State) : Host.Outcome State Fault Refusal :=
  runBusOp [checkSession s] (fun s => succeed [] (wrdiCore s)) s

/-- PP (R155): the checks of 60_exceptions.md R233 (2b, 3a, 3b, 4), then PP_CORE. -/
def execPp (addr : Addr) (data : List Byte) (s : State) : Host.Outcome State Fault Refusal :=
  runBusOp [checkSession s, checkPageLength data.length, checkRange addr data.length, checkIdle s]
    (fun s => succeed [] (ppCore addr data (loadLen data.length (loadAddr addr s)))) s

/-- BE (R156): the checks of 60_exceptions.md R233 (2b, 4), then BE_CORE. -/
def execBe (addr : Addr) (s : State) : Host.Outcome State Fault Refusal :=
  runBusOp [checkSession s, checkIdle s] (fun s => succeed [] (beCore addr (loadAddr addr s))) s

/-- The body READ and READ_ARBITRARY share: "It differs from host READ only in its op code" (42_sequences.md R183). -/
def readBody (addr : Addr) (len : Count) (s : State) : State :=
  let r := readCore addr len.toNat (loadLen len.toNat (loadAddr addr s))
  succeed r.1 r.2

/-- READ (R157): the checks of 60_exceptions.md R233 (2b, 3b), then READ_CORE. -/
def execRead (addr : Addr) (len : Count) (s : State) : Host.Outcome State Fault Refusal :=
  runBusOp [checkSession s, checkRange addr len.toNat] (readBody addr len) s

end Sys2Proof.Machine
end

