-- ==== Sys2Proof/Machine/Sequences.lean ====
section
/-! DEFINITION. The sequences (42_sequences.md): AWAIT_READY, FLASH_DATA, VERIFY_DATA, READ_ARBITRARY, STATUS. A sequence is a
list of tasks run in program order. A poll that reads busy, with polls left, ends the step with the sequencer at the poll
loop's next pass (log entry 1), so that a chip that stays busy under POLL_LIMIT = UNBOUNDED gives an endless run, "a hang" (R180). -/

namespace Sys2Proof.Machine

/-- poll_r = POLL_LIMIT, and the limit is not UNBOUNDED (R180). -/
def pollsUsedUp (s : State) : Bool :=
  match s.cfg.pollLimit with
  | .unbounded => false
  | .count n => s.pollR = n

/-- The end of a poll that read busy: DEVICE_NOT_RESPONDING after the last poll, or the loop goes on (R180). -/
def pollAgain (op : Instr) (rest : List Task) (s : State) : State :=
  if pollsUsedUp s then raise ⟨.deviceNotResponding, .polls (BitVec.ofNat 32 s.pollR) s.shreg⟩ s
  else { s with seq := .awaiting op rest }

/-- One pass of AWAIT_CORE's loop (R180): a status read, then IDLE and what follows the await, or another pass. -/
def poll (op : Instr) (rest : List Task) (andThen : State → State) (s : State) : State :=
  let t := rdsrCore s
  let t := { t with pollR := t.pollR + 1 }
  if busyFlag t.shreg then pollAgain op rest t else andThen { t with sess := .idle }

/-- The end of a VERIFY_DATA chunk that read r: the first difference is raised, or the op goes on (R182). -/
def compareChunk (off : Nat) (expected r : List Byte) (andThen : State → State) (s : State) : State :=
  match firstDifference r expected with
  | some i =>
    raise ⟨.verificationError, .mismatch (BitVec.ofNat 32 (off / Config.pageSize)) (BitVec.ofNat 32 (off + i))⟩ s
  | none => andThen s

/-- PP_CORE inside FLASH_DATA, and the progress it makes (R181; 10_state.md R35). -/
def programPage (a : Addr) (page : List Byte) (s : State) : State :=
  let t := ppCore a page (loadAddr a s)
  { t with progress := t.progress + BitVec.ofNat 32 page.length }

/-- The tasks of the running op, in program order, up to its end or to a poll that reads busy (10_state.md R42). -/
def runTasks (op : Instr) : List Task → State → State
  | [], s => succeed [] s
  | .await :: rest, s => poll op rest (runTasks op rest) { s with pollR := 0 }
  | .erase a :: rest, s => runTasks op rest (beCore a (loadAddr a s))
  | .program a page :: rest, s => runTasks op rest (programPage a page s)
  | .setOff off :: rest, s => runTasks op rest { s with offR := off }
  | .compare off a expected :: rest, s =>
    let r := readCore a expected.length (loadAddr a s)
    compareChunk off expected r.1 (runTasks op rest) r.2
  | .returnStatus :: _, s => succeed [s.shreg] s

/-- The poll loop of a running op goes on (R180). -/
def resume (op : Instr) (rest : List Task) (s : State) : Host.Outcome State Fault Refusal :=
  if s.pins.busReady then .next (poll op rest (runTasks op rest) s) else .fault .busNotReady

/-- AWAIT_READY (R180). -/
def execAwaitReady (s : State) : Host.Outcome State Fault Refusal :=
  runBusOp [checkSession s] (runTasks .awaitReady [.await, .returnStatus]) s

/-- FLASH_DATA (R181). -/
def execFlashData (addr : Addr) (data : List Byte) (s : State) : Host.Outcome State Fault Refusal :=
  runBusOp [checkSession s, checkRange addr data.length]
    (fun s => runTasks (.flashData addr data) (flashTasks addr data)
      { loadLen data.length s with progress := 0, offR := 0 }) s

/-- VERIFY_DATA (R182). -/
def execVerifyData (addr : Addr) (data : List Byte) (s : State) : Host.Outcome State Fault Refusal :=
  runBusOp [checkSession s, checkRange addr data.length]
    (fun s => runTasks (.verifyData addr data) (verifyTasks addr data) (loadLen data.length s)) s

/-- READ_ARBITRARY (R183). -/
def execReadArbitrary (addr : Addr) (len : Count) (s : State) : Host.Outcome State Fault Refusal :=
  runBusOp [checkSession s, checkRange addr len.toNat] (readBody addr len) s

/-- STATUS (R185): the response only; no result register changes (60_exceptions.md R232). -/
def execStatus (s : State) : Host.Outcome State Fault Refusal :=
  runOp [] (fun s => answerHost ⟨.ok, .absent, statusBytes s⟩ s) s

end Sys2Proof.Machine
end

