-- ==== Sys2Proof/Machine/Session.lean ====
section
/-! DEFINITION. Session start and teardown (43_session.md). -/

namespace Sys2Proof.Machine

/-- The order of acquisition and release (R211, R215). -/
def roleOrder : List Role := [.fpgaRst, .fpgaCs, .flCs, .mosi, .miso, .sck]

/-- The direction and initial level each role is acquired with (R211). -/
def acquiredPin (v : ArbVariant) : Role → Pin
  | .fpgaRst => .output false
  | .fpgaCs => match v with
    | .releaseKeepCs => .output false
    | .holdReset => .input
  | .flCs => .output true
  | .mosi => .output false
  | .miso => .input
  | .sck => .output false

/-- A pin claimed: pin[r], and ACQ(r, d, b) (R211). -/
def acquire (r : Role) (s : State) : State :=
  let p := acquiredPin s.cfg.variant r
  { s with pins := s.pins.set r p, tr := .acq r p.dir p.lvl :: s.tr }

/-- ACQUIRE_ALL's loop (R211): the first role that could not be claimed, if any. -/
def acquireAll : List Role → State → Option Role × State
  | [], s => (none, s)
  | r :: roles, s =>
    let t := { s with env := s.env.drawAcq.2 }
    if s.env.drawAcq.1 then acquireAll roles (acquire r t) else (some r, emit (.acqFail r) t)

/-- An owned pin released (R215): the event says whether its release succeeded; ownership is dropped either way. -/
def release (r : Role) (s : State) : State :=
  { s with
    pins := s.pins.set r .released
    tr := (if s.env.drawRel.1 then .rel r else .relFail r) :: s.tr
    env := s.env.drawRel.2 }

/-- RELEASE_ALL's loop (R215): the first role whose release failed, if any. -/
def releaseAll : List Role → State → Option Role × State
  | [], s => (none, s)
  | r :: roles, s =>
    if (s.pins.get r).own then
      let rest := releaseAll roles (release r s)
      (if s.env.drawRel.1 then rest.1 else some r, rest.2)
    else releaseAll roles s

/-- FPGA_RESET_SEQ (R213). -/
def fpgaResetSeq (s : State) : State :=
  let t := hold s
  match t.cfg.variant with
  | .releaseKeepCs => drive .fpgaRst true t
  | .holdReset => t

/-- The transfer of the bus to the controller (R214). -/
def takeBus (s : State) : State := { s with busOwner := .flashSession, sess := .reset }

/-- The body of SESSION_START (R210): a failed acquisition is cleaned up and reported under the role that could not be claimed
(R212). -/
def startSession (s : State) : State :=
  let r := acquireAll roleOrder { s with sessErr := .ok }
  match r.1 with
  | some role => raise ⟨.acquisitionFailure, .role role⟩ (releaseAll roleOrder r.2).2
  | none => succeed [] (wakeCore (takeBus (fpgaResetSeq r.2)))

/-- SESSION_START (R210). -/
def execSessionStart (s : State) : Host.Outcome State Fault Refusal := runOp [checkNoSession s] startSession s

/-- The bus given back (R216). -/
def giveBackBus (s : State) : State := { s with busOwner := .fpga, sess := .released }

/-- The response of SESSION_END: the summary as data with either code (R216, 60_exceptions.md R240). -/
def reportSession (failed : Option Role) (s : State) : State :=
  match failed with
  | none => succeed [summaryByte s.sessErr none] s
  | some role => finish .teardownFailure (.role role) [summaryByte s.sessErr (some role)] s

/-- The body of SESSION_END (R216). -/
def endSession (s : State) : State :=
  if s.sess = .released then succeed [] s
  else
    let r := releaseAll roleOrder s
    reportSession r.1 (giveBackBus r.2)

/-- SESSION_END (R216). -/
def execSessionEnd (s : State) : Host.Outcome State Fault Refusal := runOp [] endSession s

end Sys2Proof.Machine
end

