-- ==== Sys2Proof/Machine/Dispatch.lean ====
section
/-! DEFINITION. The meaning of each instruction. -/

namespace Sys2Proof.Machine

/-- One arm per constructor of Instr. -/
def exec (i : Instr) (s : State) : Host.Outcome State Fault Refusal :=
  match i with
  | .pp addr data => Sys2Proof.Machine.execPp addr data s
  | .read addr len => Sys2Proof.Machine.execRead addr len s
  | .wrdi => Sys2Proof.Machine.execWrdi s
  | .rdsr => Sys2Proof.Machine.execRdsr s
  | .wren => Sys2Proof.Machine.execWren s
  | .be addr => Sys2Proof.Machine.execBe addr s
  | .wake => Sys2Proof.Machine.execWake s
  | .awaitReady => Sys2Proof.Machine.execAwaitReady s
  | .flashData addr data => Sys2Proof.Machine.execFlashData addr data s
  | .verifyData addr data => Sys2Proof.Machine.execVerifyData addr data s
  | .readArbitrary addr len => Sys2Proof.Machine.execReadArbitrary addr len s
  | .status => Sys2Proof.Machine.execStatus s
  | .sessionStart => Sys2Proof.Machine.execSessionStart s
  | .sessionEnd => Sys2Proof.Machine.execSessionEnd s
  | .csAssert => Sys2Proof.Machine.execCsAssert s
  | .csDeassert => Sys2Proof.Machine.execCsDeassert s
  | .writeBit b => Sys2Proof.Machine.execWriteBit b s
  | .readBit => Sys2Proof.Machine.execReadBit s
  | .writeByte x => Sys2Proof.Machine.execWriteByte x s
  | .readByte => Sys2Proof.Machine.execReadByte s

end Sys2Proof.Machine
end

