-- ==== Sys2Proof/Machine/Sequencer.lean ====
section
/-! DEFINITION. The sequencer inside an op (10_state.md R42): the op, the frame, the byte and the bit it stands at, and how it goes
on from there. step runs a whole op up to its next busy poll; here one bit of a frame is a step (log entry 1). -/

namespace Sys2Proof.Machine

/-- The op stands at the start of FRAME(out, nin), and after follows it (40_softspi.md R136). -/
def beginFrame (op : Instr) (out : List Byte) (nin : Nat) (after : FrameEnd) (s : State) : State :=
  { s with seq := .inFrame { op := op, out := out, nin := nin, spot := .assert, got := [], after := after } }

/-- The running op goes on with its tasks, up to the next frame or its end (42_sequences.md R180 to R182). -/
def proceed (op : Instr) : List Task → State → State
  | [], s => succeed [] s
  | .await :: rest, s => beginFrame op [0x05] 1 (.polled rest) { s with pollR := 0 }
  | .erase a :: rest, s => beginFrame op [0x06] 0 (.erase a rest) (loadAddr a s)
  | .program a page :: rest, s => beginFrame op [0x06] 0 (.program a page page.length rest) (loadAddr a s)
  | .setOff off :: rest, s => proceed op rest { s with offR := off }
  | .compare off a expected :: rest, s =>
    beginFrame op (addressed 0x03 a) expected.length (.compared off expected rest) (loadAddr a s)
  | .returnStatus :: _, s => succeed [s.shreg] s

/-- What follows a frame that received the bytes got. -/
def endFrame (op : Instr) (after : FrameEnd) (got : List Byte) (s : State) : State :=
  match after with
  | .wake => succeed [] (wokenUp s)
  | .reply => succeed got s
  | .program a page grow rest => beginFrame op (addressed 0x02 a ++ page) 0 (.programmed grow rest) s
  | .programmed grow rest =>
    proceed op rest { s with sess := .busyProgramming, progress := s.progress + BitVec.ofNat 32 grow }
  | .erase a rest => beginFrame op (addressed 0xD8 a) 0 (.erased rest) s
  | .erased rest => proceed op rest { s with sess := .busyErasing }
  | .polled rest =>
    let t := { s with pollR := s.pollR + 1 }
    if busyFlag t.shreg then pollAgain op rest t else proceed op rest { t with sess := .idle }
  | .compared off expected rest => compareChunk off expected got (proceed op rest) s

/-- The frame comes to its byte k: one to send, one to receive, or FL_CS is due to rise (40_softspi.md R134 to R136). -/
def enterByte (f : FrameRun) (k : Nat) (s : State) : State :=
  match f.out[k]? with
  | some x => { s with shreg := x, bitcnt := 0, seq := .inFrame { f with spot := .byte k } }
  | none =>
    if k < f.out.length + f.nin then { s with shreg := 0, bitcnt := 0, seq := .inFrame { f with spot := .byte k } }
    else { s with seq := .inFrame { f with spot := .deassert } }

/-- One bit of byte k: sent or received (40_softspi.md R134, R135). -/
def moveBit (f : FrameRun) (k : Nat) (s : State) : State := if k < f.out.length then shiftOut s else shiftIn s

/-- The frame with byte k done: a received byte, which is in shreg, joins those received (40_softspi.md R135, R136). -/
def collect (f : FrameRun) (k : Nat) (y : Byte) : FrameRun :=
  if k < f.out.length then f else { f with got := f.got ++ [y] }

/-- The next micro-op or bit of the frame. -/
def moveOn (f : FrameRun) (s : State) : State :=
  match f.spot with
  | .assert => enterByte f 0 (csAssert s)
  | .byte k =>
    let t := moveBit f k s
    if t.bitcnt < 8 then t else enterByte (collect f k t.shreg) (k + 1) t
  | .deassert => endFrame f.op f.after f.got (csDeassert s)

/-- One step inside a frame, on a bus that is held (10_state.md R22, 40_softspi.md's precondition). -/
def advance (f : FrameRun) (s : State) : Host.Outcome State Fault Refusal := runMicro (moveOn f) s

/-- SESSION_START up to its WAKE frame (43_session.md R210 to R214). -/
def beginSession (s : State) : State :=
  let r := acquireAll roleOrder { s with sessErr := .ok }
  match r.1 with
  | some role => raise ⟨.acquisitionFailure, .role role⟩ (releaseAll roleOrder r.2).2
  | none => beginFrame .sessionStart [0xAB] 0 .wake (takeBus (fpgaResetSeq r.2))

/-- The start of an instruction: its checks, and then what comes before its first frame. One that sends no frame, or is a
micro-op itself, is done. -/
def beginInstr (i : Instr) (s : State) : Host.Outcome State Fault Refusal :=
  match i with
  | .pp addr data =>
    runBusOp [checkSession s, checkPageLength data.length, checkRange addr data.length, checkIdle s]
      (fun s => beginFrame i [0x06] 0 (.program addr data 0 []) (loadLen data.length (loadAddr addr s))) s
  | .read addr len =>
    runBusOp [checkSession s, checkRange addr len.toNat]
      (fun s => beginFrame i (addressed 0x03 addr) len.toNat .reply (loadLen len.toNat (loadAddr addr s))) s
  | .wrdi => runBusOp [checkSession s] (beginFrame i [0x04] 0 .reply) s
  | .rdsr => runBusOp [checkSession s] (beginFrame i [0x05] 1 .reply) s
  | .wren => runBusOp [checkSession s] (beginFrame i [0x06] 0 .reply) s
  | .be addr =>
    runBusOp [checkSession s, checkIdle s] (fun s => beginFrame i [0x06] 0 (.erase addr []) (loadAddr addr s)) s
  | .wake => runBusOp [checkSession s] (beginFrame i [0xAB] 0 .wake) s
  | .awaitReady => runBusOp [checkSession s] (proceed i [.await, .returnStatus]) s
  | .flashData addr data =>
    runBusOp [checkSession s, checkRange addr data.length]
      (fun s => proceed i (flashTasks addr data) { loadLen data.length s with progress := 0, offR := 0 }) s
  | .verifyData addr data =>
    runBusOp [checkSession s, checkRange addr data.length]
      (fun s => proceed i (verifyTasks addr data) (loadLen data.length s)) s
  | .readArbitrary addr len =>
    runBusOp [checkSession s, checkRange addr len.toNat]
      (fun s => beginFrame i (addressed 0x03 addr) len.toNat .reply (loadLen len.toNat (loadAddr addr s))) s
  | .status => execStatus s
  | .sessionStart => runOp [checkNoSession s] beginSession s
  | .sessionEnd => execSessionEnd s
  | .csAssert => execCsAssert s
  | .csDeassert => execCsDeassert s
  | .writeBit b => execWriteBit b s
  | .readBit => execReadBit s
  | .writeByte x => execWriteByte x s
  | .readByte => execReadByte s

/-- The next pass of an await's loop starts (42_sequences.md R180). -/
def beginPoll (op : Instr) (rest : List Task) (s : State) : Host.Outcome State Fault Refusal :=
  if s.pins.busReady then .next (beginFrame op [0x05] 1 (.polled rest) s) else .fault .busNotReady

/-- The chunk index off_r / 65536 (10_state.md R42). -/
def State.chunkIndex (s : State) : Nat := s.offR.toNat / Config.blockSize

/-- The page index within the chunk (10_state.md R42): FLASH_DATA counts its pages by progress, as off_r moves by chunks there
(42_sequences.md R181), and VERIFY_DATA by off_r (R182). -/
def State.pageIndex (op : Instr) (s : State) : Nat :=
  match op with
  | .flashData _ _ => (s.progress.toNat - s.offR.toNat) / Config.pageSize
  | .verifyData _ _ => s.offR.toNat % Config.blockSize / Config.pageSize
  | .pp _ _ | .read _ _ | .wrdi | .rdsr | .wren | .be _ | .wake | .awaitReady | .readArbitrary _ _ | .status
  | .sessionStart | .sessionEnd | .csAssert | .csDeassert | .writeBit _ | .readBit | .writeByte _ | .readByte => 0

/-- The byte index within the frame and the bit index within the byte (10_state.md R42). -/
def State.byteAndBit (f : FrameRun) (s : State) : Nat × Nat :=
  match f.spot with
  | .assert => (0, 0)
  | .byte k => (k, s.bitcnt)
  | .deassert => (f.out.length + f.nin, 0)

end Sys2Proof.Machine
end

