-- ==== Sys2Proof/Machine/Fetch.lean ====
section
/-! DEFINITION. What the sequencer does next (10_state.md R38, R42; 30_encoding.md R105, R106, R108), and where a table word is
placed for it. -/

namespace Sys2Proof.Machine

/-- What is due at the sequencer position. -/
inductive Due where
  /-- PORT_IDLE and no whole request on the host port: the machine waits (70_reset_and_hazards.md R272). -/
  | nothing
  /-- An instruction, and the state it runs in: its bytes or its micro-op word taken off. -/
  | instr (i : Instr) (s : State)
  /-- A request with an illegal op byte, its 8 bytes taken off (30_encoding.md R108 b). -/
  | illegal (op : Byte) (s : State)
  /-- The poll loop of a running op (42_sequences.md R180). -/
  | pollLoop (op : Instr) (rest : List Task)
  /-- The next bit or micro-op of the running op's frame (10_state.md R42). -/
  | frame (f : FrameRun)
  /-- An unused micro-op code (30_encoding.md R108 d). -/
  | unused (code : BitVec 4)
  deriving DecidableEq, Repr

/-- The sequencer after the first of these micro-op words. -/
def afterMicro (words : List (BitVec 4 × Byte)) : Seq :=
  match words with
  | [] => .portIdle
  | _ :: _ => .micro words

/-- The request due at PORT_IDLE. -/
def fetchRequest (s : State) : Due :=
  match decodeRequest s.host with
  | .ok (i, rest) => .instr i { s with host := rest }
  | .error (.illegalOp op) => .illegal op { s with host := s.host.drop headerLength }
  | .error _ => .nothing

/-- What is due at the sequencer position. -/
def fetch (s : State) : Due :=
  match s.seq with
  | .portIdle => fetchRequest s
  | .inFrame f => .frame f
  | .awaiting op rest => .pollLoop op rest
  | .micro [] => fetchRequest s
  | .micro ((code, operand) :: words) =>
    match decodeMicro code operand with
    | .ok i => .instr i { s with seq := afterMicro words }
    | .error _ => .unused code

/-- The state with an image where the next fetch reads it: a request on the host port at PORT_IDLE, a micro-op word at the
sequencer. -/
def placeImage (im : Image) (s : State) : State :=
  match im with
  | .request bytes => { s with seq := .portIdle, host := bytes ++ s.host }
  | .micro code operand => { s with seq := .micro [(code, operand)] }

end Sys2Proof.Machine
end

