-- ==== Sys2Proof/Machine/Step.lean ====
section
/-! DEFINITION. One step of the machine. -/

namespace Sys2Proof.Machine

/-- One step: what the sequencer has due, an op in one go up to its end or to a busy poll (log entry 1). With nothing due the
machine waits (70_reset_and_hazards.md R272). -/
def step (s : State) : Host.Outcome State Fault Refusal :=
  match fetch s with
  | .nothing => .next s
  | .instr i t => exec i t
  | .illegal op t => .next (illegalCommand op t)
  | .pollLoop op rest => resume op rest s
  | .frame f => advance f s
  | .unused code => .refused (.unusedMicroOp code)

/-- One step of the sequencer at its own grain (10_state.md R42): as step, but an op only starts, and then goes through its frames
bit by bit. -/
def sequencerStep (s : State) : Host.Outcome State Fault Refusal :=
  match fetch s with
  | .nothing => .next s
  | .instr i t => beginInstr i t
  | .illegal op t => .next (illegalCommand op t)
  | .pollLoop op rest => beginPoll op rest s
  | .frame f => advance f s
  | .unused code => .refused (.unusedMicroOp code)

/-- The machine run by sequencerStep. -/
def sequencer : Host.Core := { State := State, Fault := Fault, Refusal := Refusal, step := sequencerStep, reset := State.reset }

/-- The state with a word of the opcode table where step fetches its next instruction (log entry 12). -/
def State.withFetchWord (s : State) (nbits w : Nat) : State := placeImage (tableImage nbits w) s

end Sys2Proof.Machine
end

