-- ==== Sys2Proof/Machine/Pseudo.lean ====
section
/-! DEFINITION. The host's side of the port: issuing a request (60_exceptions.md R249), and the two pseudo-instructions
FLASH_IMAGE and DUMP, which are host programs (30_encoding.md R112). -/

namespace Sys2Proof.Machine

/-- The pseudo-instructions (30_encoding.md R112). -/
inductive Pseudo where
  /-- FLASH_IMAGE: program and verify the image at address 0. -/
  | flashImage (image : List Byte)
  /-- DUMP: read len bytes from addr. -/
  | dump (addr : Addr) (len : Count)
  deriving DecidableEq, Repr

/-- The op the host issues next, by the codes of the responses so far, oldest first; none when the expansion has ended
(30_encoding.md R112). -/
def Pseudo.next (p : Pseudo) (codes : List Code) : Option Instr :=
  match p, codes with
  | _, [] => some .sessionStart
  | .flashImage image, [.ok] => some (.flashData 0 image)
  | .flashImage image, [.ok, .ok] => some (.verifyData 0 image)
  | .flashImage _, [.ok, _] => some .sessionEnd
  | .flashImage _, [.ok, .ok, _] => some .sessionEnd
  | .dump addr len, [.ok] => some (.readArbitrary addr len)
  | .dump _ _, [.ok, _] => some .sessionEnd
  | _, _ => none

/-- The result of an expansion whose SESSION_START succeeded: the summary byte of SESSION_END, the last response
(30_encoding.md R112, 60_exceptions.md R240). -/
def Pseudo.result (responses : List Response) : Option (List Byte) :=
  match responses with
  | [] => none
  | [_] => none
  | _ :: rest => (rest.getLast?).map Response.data

/-- The host sends a request: its bytes join the host port (30_encoding.md R105, 10_state.md R38). -/
def issue (i : Instr) (s : State) : State :=
  match encode i with
  | .request bytes => { s with host := s.host ++ bytes }
  | .micro _ _ => s

/-- No request runs and none waits: the host has had its response and may issue the next one (60_exceptions.md R249,
70_reset_and_hazards.md R296). -/
def quiet (s : State) : Bool := s.seq = .portIdle && s.host.isEmpty

/-- The host and the machine together: while a request runs, a step; at rest, the next request that next names by the
responses so far, given with the ones before this run left out. fuel bounds the steps; none means that the run is longer, or
has stopped (70_reset_and_hazards.md R296: a hang has no end). -/
def runHost (next : List Code → Option Instr) (before : Nat) : Nat → State → Option State
  | 0, _ => none
  | fuel + 1, s =>
    if quiet s then
      match next ((s.out.take (s.out.length - before)).reverse.map Response.code) with
      | some i => runHost next before fuel (issue i s)
      | none => some s
    else
      match step s with
      | .next t => runHost next before fuel t
      | .fault _ => none
      | .refused _ => none

/-- A pseudo-instruction run to its end (30_encoding.md R112). -/
def runPseudo (fuel : Nat) (p : Pseudo) (s : State) : Option State := runHost p.next s.out.length fuel s

end Sys2Proof.Machine
end

