-- ==== Sys2Proof/Machine/Durations.lean ====
section
/-! DEFINITION. The real numbers that durations stand for, and which configurations are legal (00_scope.md R5,
92_eei_decisions.md D9). No step reads a duration; claims about least times do (70_reset_and_hazards.md R291). -/

namespace Sys2Proof.Config

/-- The FPGA's minimum reset pulse width in nanoseconds, a positive real number that the spec does not give
(91_not_in_source.md N29): a free value (log entry 4). -/
noncomputable opaque minResetPulse : Set.Ioi (0 : ℝ)

/-- T_HALF in nanoseconds, OPEN: any real number from 1 microsecond on, so a free value (log entry 4). -/
noncomputable opaque freeHalf : Nat → Set.Ici (1000 : ℝ)

/-- T_RST in nanoseconds, OPEN: any real number from the FPGA's minimum reset pulse width on, so a free value (log entry 4). -/
noncomputable opaque freeReset : Nat → Set.Ici (minResetPulse : ℝ)

/-- The real number of nanoseconds that a duration stands for. -/
noncomputable def nanoseconds : Duration → ℝ
  | .rational ns => (ns : ℝ)
  | .openHalf draw => (freeHalf draw : ℝ)
  | .openReset draw => (freeReset draw : ℝ)

/-- A legal configuration: distinct lines (10_state.md R21), T_HALF at least 1 us, T_RST at least the FPGA's minimum reset pulse
width, POLL_LIMIT in range (00_scope.md R5). -/
def legal (c : Cfg) : Prop :=
  (lines c.pinMap).Nodup ∧ 1000 ≤ nanoseconds c.tHalf ∧ (minResetPulse : ℝ) ≤ nanoseconds c.tRst ∧
    pollLimitLegal c.pollLimit = true

end Sys2Proof.Config
end

