-- ==== Sys2Proof/Safety.lean ====
section
/-! DEFINITION. The terms claims are stated in: the events of a micro-op and a frame, the bus and device as an op finds them,
what an op leaves alone, the invariants of the machine, and the lower bound on time that the trace gives. -/

namespace Sys2Proof.Safety

open Sys2Proof.Machine

/-! The trace of a frame, in program order (40_softspi.md R132 to R136). -/

/-- WRITE_BIT(b) (R132). -/
def writeBitEvents (b : Bool) : List Event := [.set .mosi b, .set .sck true, .delay, .set .sck false, .delay]

/-- READ_BIT() that returned v (R133). -/
def readBitEvents (v : Bool) : List Event := [.set .sck true, .delay, .sample v, .set .sck false, .delay]

/-- WRITE_BYTE(x) (R134). -/
def writeByteEvents (x : Byte) : List Event := (bitsOfByte x).flatMap writeBitEvents

/-- READ_BYTE() that returned y (R135). -/
def readByteEvents (y : Byte) : List Event := (bitsOfByte y).flatMap readBitEvents

/-- FRAME(out, |ins|) that returned ins (R136). -/
def frameEvents (out ins : List Byte) : List Event :=
  .set .flCs false :: (out.flatMap writeByteEvents ++ ins.flatMap readByteEvents ++ [.set .flCs true])

/-- The number of rising edges of SCK (40_softspi.md R137, R140). -/
def clockEdges (tr : List Event) : Nat := tr.count (.set .sck true)

/-- The MOSI level at each rising edge of SCK, in order, with lvl the level before the trace (30_encoding.md R102). -/
def mosiAtEdges (lvl : Bool) : List Event → List Bool
  | [] => []
  | .set .mosi b :: tr => mosiAtEdges b tr
  | .set .sck true :: tr => lvl :: mosiAtEdges lvl tr
  | _ :: tr => mosiAtEdges lvl tr

/-- The MISO levels sampled, in order. -/
def samples : List Event → List Bool
  | [] => []
  | .sample b :: tr => b :: samples tr
  | _ :: tr => samples tr

/-- What has been sampled since the last rising edge of SCK, and the rest by edge: for each rising edge in order, the MISO level
sampled after it and before the next, or none where nothing is. -/
def samplesFrom : List Event → Option Bool × List (Option Bool)
  | [] => (none, [])
  | .sample b :: tr => (some b, (samplesFrom tr).2)
  | .set .sck true :: tr => (none, (samplesFrom tr).1 :: (samplesFrom tr).2)
  | _ :: tr => samplesFrom tr

/-- For each clock in order, the MISO level sampled in it, or none (30_encoding.md R102, 40_softspi.md R133). -/
def sampleAtEdges (tr : List Event) : List (Option Bool) := (samplesFrom tr).2

/-- The event is a SET. -/
def isSet : Event → Bool
  | .set _ _ => true
  | _ => false

/-- The event is a SET of MOSI. -/
def isSetMosi : Event → Bool
  | .set .mosi _ => true
  | _ => false

/-- The event is a SAMPLE. -/
def isSample : Event → Bool
  | .sample _ => true
  | _ => false

/-- The number of frames: FL_CS asserted (30_encoding.md R100). -/
def framesSent (tr : List Event) : Nat := tr.count (.set .flCs false)

/-- The least time an event takes, in nanoseconds (00_scope.md R9, 70_reset_and_hazards.md R291). -/
noncomputable def eventTime (c : Cfg) : Event → ℝ
  | .delay => Config.nanoseconds c.tHalf
  | .hold => Config.nanoseconds c.tRst
  | .acq _ _ _ => 0
  | .acqFail _ => 0
  | .rel _ => 0
  | .relFail _ => 0
  | .set _ _ => 0
  | .sample _ => 0

/-- The least time a trace takes (70_reset_and_hazards.md R291). -/
noncomputable def minTime (c : Cfg) (tr : List Event) : ℝ := (tr.map (eventTime c)).sum

/-! What an op finds. -/

/-- A session is active and the bus is as it stands between two host ops (10_state.md R29, R41). -/
def InSession (s : State) : Prop := s.sess ≠ .released ∧ s.pins.busReady = true

/-- The chip obeys every command: awake and not busy (20_memory.md R67, R68). -/
def ChipReady (s : State) : Prop := s.dev.pd = false ∧ s.dev.busy = .polls 0

/-- A micro-op's precondition (40_softspi.md). -/
def BusHeld (s : State) : Prop := s.pins.busHeld = true

/-! What an op leaves alone. -/

/-- What no frame and no micro-op changes: the configuration, the pins other than the bus outputs, the session, the address,
length, offset and poll registers, progress, the result registers, the sequencer, the host port, the responses. -/
def SameOffBus (s t : State) : Prop :=
  t.cfg = s.cfg ∧ t.pins.fpgaRst = s.pins.fpgaRst ∧ t.pins.fpgaCs = s.pins.fpgaCs ∧ t.pins.miso = s.pins.miso ∧
    t.sess = s.sess ∧ t.busOwner = s.busOwner ∧ t.addrR = s.addrR ∧ t.lenR = s.lenR ∧ t.offR = s.offR ∧
    t.pollR = s.pollR ∧ t.lastCode = s.lastCode ∧ t.sessErr = s.sessErr ∧ t.errInfo = s.errInfo ∧
    t.progress = s.progress ∧ t.seq = s.seq ∧ t.host = s.host ∧ t.out = s.out

/-- What an op that sends frames leaves alone, besides what its own rule names: the configuration, every pin but MOSI, the owner,
err_info, sess_err and the host port. -/
def SameAroundFrames (s t : State) : Prop :=
  t.cfg = s.cfg ∧ t.pins = { s.pins with mosi := t.pins.mosi } ∧ t.busOwner = s.busOwner ∧ t.sessErr = s.sessErr ∧
    t.errInfo = s.errInfo ∧ t.host = s.host

/-- The registers of the sequences are unchanged: off_r, poll_r, progress. -/
def SameSequenceRegs (s t : State) : Prop := t.offR = s.offR ∧ t.pollR = s.pollR ∧ t.progress = s.progress

/-- The address and length registers are unchanged. -/
def SameAddrLen (s t : State) : Prop := t.addrR = s.addrR ∧ t.lenR = s.lenR

/-- The op has answered OK with these data bytes (41_commands.md R150, 60_exceptions.md R232). -/
def AnsweredOk (data : List Byte) (s t : State) : Prop :=
  t.out = ⟨.ok, .absent, data⟩ :: s.out ∧ t.lastCode = .ok ∧ t.seq = .portIdle

/-- The trace has grown by these events, in program order (10_state.md R44). -/
def TraceGrew (events : List Event) (s t : State) : Prop := t.trace = s.trace ++ events

/-- The shift register and bit counter after a frame that sends, and receives nothing (40_softspi.md R134). -/
def ShiftedOut (t : State) : Prop := t.shreg = 0 ∧ t.bitcnt = 8

/-- The chip has ignored what it received (20_memory.md R67, R68): only the frame being received is gone. -/
def ChipUntouched (s t : State) : Prop := t.dev = { s.dev with fbits := [] }

/-- The frames of PP_CORE (41_commands.md R155). -/
def ppFrames (a : Addr) (data : List Byte) : List Event :=
  frameEvents [0x06] [] ++ frameEvents (addressed 0x02 a ++ data) []

/-- The frames of BE_CORE (41_commands.md R156). -/
def beFrames (a : Addr) : List Event := frameEvents [0x06] [] ++ frameEvents (addressed 0xD8 a) []

/-- A page program has gone into the array (20_memory.md R74): each data byte ANDed in at its address, every other byte as
before. -/
def Programmed (a : Addr) (data : List Byte) (s t : State) : Prop :=
  (∀ (i : Nat) (h : i < data.length),
      t.dev.mem.read (programAddr a i) = s.dev.mem.read (programAddr a i) &&& data[i]) ∧
    ∀ x, (∀ i, i < data.length → programAddr a i ≠ x) → t.dev.mem.read x = s.dev.mem.read x

/-- A page program of len bytes at a touches no address at or above size (20_memory.md R74, R80). -/
def ProgramInside (size : Nat) (a : Addr) (len : Nat) : Prop := a.toNat < size ∧ ∀ i, i < len → programAddr a i < size

/-- The block that holds a is below size (20_memory.md R75, R80). -/
def EraseInside (size : Nat) (a : Addr) : Prop := blockBase a + 65536 ≤ size

/-- A block is erased (20_memory.md R75): its 65536 bytes are FF, every other byte is as before. -/
def Erased (a : Addr) (s t : State) : Prop :=
  (∀ x, blockBase a ≤ x → x < blockBase a + 65536 → t.dev.mem.read x = 0xFF) ∧
    ∀ x, (x < blockBase a ∨ blockBase a + 65536 ≤ x) → t.dev.mem.read x = s.dev.mem.read x

/-- The chip after a program or erase: still awake, busy for as long as the environment draws (20_memory.md R74, R75, R78). The
busy count is a free value. -/
def TurnsBusy (s t : State) : Prop :=
  t.dev.pd = false ∧ t.dev.busy = s.env.drawBusy.1 ∧ t.dev.fbits = [] ∧ t.dev.flashSize = s.dev.flashSize

/-- The instructions run one after the other, up to the first that stops. -/
def execAll : List Instr → State → Host.Outcome State Fault Refusal
  | [], s => .next s
  | i :: is, s =>
    match exec i s with
    | .next t => execAll is t
    | .fault r => .fault r
    | .refused r => .refused r

/-! Sequences. -/

/-- The sequencer, bit by bit, gets from s to t in one or more of its steps (10_state.md R42). -/
def SequencerReaches (s t : State) : Prop := ∃ n, Host.Core.run sequencer (n + 1) s = .next t

/-- The machine gets from s to t in some number of steps. -/
def Reaches (s t : State) : Prop := ∃ k, Host.Core.run Sys2Proof.core k s = .next t

/-- The chip is awake and reports busy on exactly the next k polls (20_memory.md R70). -/
def BusyFor (k : Nat) (s : State) : Prop := s.dev.pd = false ∧ s.dev.busy = .polls k

/-- The chip is awake, each of the next n awaits meets a chip that reports busy on exactly as many polls as ks says, and busy
are the n busy counts that the environment gives (20_memory.md R70, R78): the last of them meets no await, and may be endless. -/
def AwaitsBusyFor (n : Nat) (ks : List Nat) (busy : List Busy) (s : State) : Prop :=
  s.dev.pd = false ∧ busy.length = n ∧ (s.dev.busy :: busy).take n = ks.map .polls ∧ ∃ more, s.env.busy = busy ++ more

/-- The chip is awake and reports busy on at least the next n polls (20_memory.md R70). -/
def StaysBusy (n : Nat) (s : State) : Prop := s.dev.pd = false ∧ ∀ k, s.dev.busy = .polls k → n ≤ k

/-- An await meets the ready poll before the limit: k < POLL_LIMIT, or no limit (42_sequences.md R180, R187). -/
def belowLimit (l : PollLimit) (k : Nat) : Prop :=
  match l with
  | .unbounded => True
  | .count n => k < n

/-- The number of BE frames of FLASH_DATA of n bytes: ceil(n / 65536) (42_sequences.md R184). -/
def chunkCount (n : Nat) : Nat := (n + 65535) / 65536

/-- The number of PP frames of FLASH_DATA of n bytes, and of READ frames of VERIFY_DATA of n bytes: ceil(n / 256)
(42_sequences.md R184). -/
def pageCount (n : Nat) : Nat := (n + 255) / 256

/-- The trace of status polls that returned these bytes (42_sequences.md R180). -/
def pollEvents (statuses : List Byte) : List Event := statuses.flatMap fun st => frameEvents [0x05] [st]

/-- The status bytes of an await that ended on poll k + 1: busy k times, then ready (42_sequences.md R180). -/
def ReadyAfter (k : Nat) (statuses : List Byte) : Prop :=
  statuses.map busyFlag = List.replicate k true ++ [false]

/-- The status bytes of n polls that all read busy, the last of them st (42_sequences.md R180). -/
def BusyOn (n : Nat) (statuses : List Byte) (st : Byte) : Prop :=
  statuses.map busyFlag = List.replicate n true ∧ statuses.getLast? = some st

/-- The op of an active session has ended because its await read busy n times, the last status byte being st (42_sequences.md
R180; 60_exceptions.md R231, R232). -/
def TimedOut (n : Nat) (st : Byte) (s t : State) : Prop :=
  t.out = ⟨.deviceNotResponding, .polls (BitVec.ofNat 32 n) st, []⟩ :: s.out ∧ t.seq = .portIdle ∧
    t.lastCode = .deviceNotResponding ∧ t.errInfo = .polls (BitVec.ofNat 32 n) st ∧
    t.sessErr = (if s.sessErr = .ok then .deviceNotResponding else s.sessErr) ∧ t.pollR = n

/-- A BE or a PP of FLASH_DATA. -/
inductive FlashStep where
  | erase (addr : Addr)
  | program (addr : Addr) (page : List Byte)
  deriving DecidableEq, Repr

/-- It is a BE. -/
def FlashStep.isErase : FlashStep → Bool
  | .erase _ => true
  | .program _ _ => false

/-- The number of bytes it programs (42_sequences.md R181). -/
def FlashStep.bytes : FlashStep → Nat
  | .erase _ => 0
  | .program _ page => page.length

/-- The session state it leaves (10_state.md R27). -/
def FlashStep.sess : FlashStep → Sess
  | .erase _ => .busyErasing
  | .program _ _ => .busyProgramming

/-- A BE or PP of FLASH_DATA stores to this flash address (20_memory.md R74, R75). -/
def FlashStep.storesTo (x : Nat) : FlashStep → Prop
  | .erase a => blockBase a ≤ x ∧ x < blockBase a + 65536
  | .program a page => ∃ i, i < page.length ∧ programAddr a i = x

/-- It touches no flash address at or above size (20_memory.md R80). -/
def FlashStep.inside (size : Nat) : FlashStep → Prop
  | .erase a => EraseInside size a
  | .program a page => ProgramInside size a page.length

/-- The page of a buffer from offset off on: at most 256 bytes (42_sequences.md R181). -/
def pageAt (buf : List Byte) (off : Nat) : List Byte := (buf.drop off).take 256

/-- The PPs of the chunk that starts at buffer offset off, in order (42_sequences.md R181). -/
def chunkPages (base : Addr) (buf : List Byte) (off : Nat) : List FlashStep :=
  (List.range (pageCount (min 65536 (buf.length - off)))).map fun p =>
    .program (BitVec.ofNat 24 (base.toNat + (off + 256 * p))) (pageAt buf (off + 256 * p))

/-- The BEs and PPs of FLASH_DATA, in order: for each chunk its BE, then its PPs (42_sequences.md R181). -/
def flashPlan (base : Addr) (buf : List Byte) : List FlashStep :=
  (List.range (chunkCount buf.length)).flatMap fun c =>
    .erase (BitVec.ofNat 24 (base.toNat + 65536 * c)) :: chunkPages base buf (65536 * c)

/-- The frames of one of them (41_commands.md R155, R156). -/
def FlashStep.frames : FlashStep → List Event
  | .erase a => beFrames a
  | .program a page => ppFrames a page

/-- The trace of FLASH_DATA: before each BE and PP an await, whose status bytes are given (42_sequences.md R181, R186). -/
def planEvents (plan : List FlashStep) (awaits : List (List Byte)) : List Event :=
  (List.zipWith (fun statuses st => pollEvents statuses ++ st.frames) awaits plan).flatten

/-- The READ frames of VERIFY_DATA for the first m chunks of a buffer of n bytes, the flash holding mem
(42_sequences.md R182). -/
def verifyEvents (mem : Memory) (base : Addr) (n m : Nat) : List Event :=
  (List.range m).flatMap fun j =>
    frameEvents (addressed 0x03 (BitVec.ofNat 24 (base.toNat + 256 * j)))
      ((List.range (min 256 (n - 256 * j))).map fun i => mem.read (base.toNat + 256 * j + i))

/-- The trace of a whole acquisition (43_session.md R211). -/
def acquireEvents (v : ArbVariant) : List Event :=
  [.acq .fpgaRst .out (some false),
    .acq .fpgaCs (if v = .releaseKeepCs then .out else .inp) (if v = .releaseKeepCs then some false else none),
    .acq .flCs .out (some true), .acq .mosi .out (some false), .acq .miso .inp none, .acq .sck .out (some false)]

/-- The trace of SESSION_START (43_session.md R210, R213, R219). -/
def startEvents (v : ArbVariant) : List Event :=
  acquireEvents v ++ (.hold :: (if v = .releaseKeepCs then [.set .fpgaRst true] else [])) ++ frameEvents [0xAB] []

/-- The pins after a successful SESSION_START (43_session.md R219). -/
def startedPins (v : ArbVariant) : Pins :=
  { fpgaRst := .output (decide (v = .releaseKeepCs))
    fpgaCs := if v = .releaseKeepCs then .output false else .input
    flCs := .output true
    mosi := .output true
    miso := .input
    sck := .output false }

/-- The op is a host op (30_encoding.md R104), not a micro-op. -/
def isHostInstr : Instr → Bool
  | .csAssert | .csDeassert | .writeBit _ | .readBit | .writeByte _ | .readByte => false
  | .pp _ _ | .read _ _ | .wrdi | .rdsr | .wren | .be _ | .wake | .awaitReady | .flashData _ _ | .verifyData _ _
  | .readArbitrary _ _ | .status | .sessionStart | .sessionEnd => true

/-- addr + len > 2^24, for the ops that have both (60_exceptions.md R233 step 3b). -/
def pastTheTop : Instr → Bool
  | .pp a d | .flashData a d | .verifyData a d => decide (16777216 < a.toNat + d.length)
  | .read a n | .readArbitrary a n => decide (16777216 < a.toNat + n.toNat)
  | .wrdi | .rdsr | .wren | .be _ | .wake | .awaitReady | .status | .sessionStart | .sessionEnd | .csAssert | .csDeassert
  | .writeBit _ | .readBit | .writeByte _ | .readByte => false

/-- PP with more than 256 bytes (60_exceptions.md R233 step 3a). -/
def pageTooLong : Instr → Bool
  | .pp _ d => decide (256 < d.length)
  | .read _ _ | .wrdi | .rdsr | .wren | .be _ | .wake | .awaitReady | .flashData _ _ | .verifyData _ _ | .readArbitrary _ _
  | .status | .sessionStart | .sessionEnd | .csAssert | .csDeassert | .writeBit _ | .readBit | .writeByte _ | .readByte =>
    false

/-- PP or BE (60_exceptions.md R233 step 4). -/
def isProgramOrErase : Instr → Bool
  | .pp _ _ | .be _ => true
  | .read _ _ | .wrdi | .rdsr | .wren | .wake | .awaitReady | .flashData _ _ | .verifyData _ _ | .readArbitrary _ _ | .status
  | .sessionStart | .sessionEnd | .csAssert | .csDeassert | .writeBit _ | .readBit | .writeByte _ | .readByte => false

/-- The first failing check of 60_exceptions.md R233 from step 2 on, read off the rule's table. -/
def checkTable (i : Instr) (s : State) : Option Stop :=
  if i = .sessionStart ∧ s.sess ≠ .released then some ⟨.sessionActive, .absent⟩
  else if isHostInstr i ∧ i ≠ .sessionStart ∧ i ≠ .sessionEnd ∧ i ≠ .status ∧ s.sess = .released then
    some ⟨.noSession, .absent⟩
  else if pageTooLong i then some ⟨.invalidArgument, .reason .pageTooLong⟩
  else if pastTheTop i then some ⟨.invalidArgument, .reason .range⟩
  else if isProgramOrErase i ∧ s.sess ≠ .idle then some ⟨.notReady, .sess s.sess⟩
  else none

/-- The codes an op can return (60_exceptions.md R234). -/
def codesOf : Instr → List Code
  | .wake | .rdsr | .wren | .wrdi => [.ok, .noSession]
  | .pp _ _ => [.ok, .noSession, .invalidArgument, .notReady]
  | .be _ => [.ok, .noSession, .notReady]
  | .read _ _ | .readArbitrary _ _ => [.ok, .noSession, .invalidArgument]
  | .awaitReady => [.ok, .noSession, .deviceNotResponding]
  | .flashData _ _ => [.ok, .noSession, .invalidArgument, .deviceNotResponding]
  | .verifyData _ _ => [.ok, .noSession, .invalidArgument, .deviceNotResponding, .verificationError]
  | .status => [.ok]
  | .sessionStart => [.ok, .sessionActive, .acquisitionFailure]
  | .sessionEnd => [.ok, .teardownFailure]
  | .csAssert | .csDeassert | .writeBit _ | .readBit | .writeByte _ | .readByte => []

/-- The first frame of an op of an active session: the bytes sent and the number received (41_commands.md R151 to R157,
42_sequences.md R180 to R183). -/
def firstFrame : Instr → Option (List Byte × Nat)
  | .wake => some ([0xAB], 0)
  | .rdsr | .awaitReady | .verifyData _ _ => some ([0x05], 1)
  | .flashData _ data => if data = [] then none else some ([0x05], 1)
  | .wren | .pp _ _ | .be _ => some ([0x06], 0)
  | .wrdi => some ([0x04], 0)
  | .read a n | .readArbitrary a n => some (addressed 0x03 a, n.toNat)
  | .status | .sessionStart | .sessionEnd | .csAssert | .csDeassert | .writeBit _ | .readBit | .writeByte _ | .readByte =>
    none

/-- The op stands at the start of FRAME(out, nin), and after follows it (10_state.md R42, 40_softspi.md R136). -/
def atFrame (op : Instr) (out : List Byte) (nin : Nat) (after : FrameEnd) : Seq :=
  .inFrame { op := op, out := out, nin := nin, spot := .assert, got := [], after := after }

/-- The micro-op words of FRAME(out, n) (40_softspi.md R136, 30_encoding.md R106). -/
def frameWords (out : List Byte) (n : Nat) : List (BitVec 4 × Byte) :=
  (0x0, 0) :: (out.map (fun x => (0x4, x)) ++ List.replicate n (0x5, 0) ++ [(0x1, 0)])

/-- The frames the controller sends (30_encoding.md R101, R103): the bytes sent and the number received. -/
inductive WireFrame : List Byte → Nat → Prop
  | wake : WireFrame [0xAB] 0
  | wren : WireFrame [0x06] 0
  | wrdi : WireFrame [0x04] 0
  | rdsr : WireFrame [0x05] 1
  | be (a : Addr) : WireFrame (addressed 0xD8 a) 0
  | pp (a : Addr) (data : List Byte) : data.length ≤ 256 → WireFrame (addressed 0x02 a ++ data) 0
  | read (a : Addr) (n : Nat) : WireFrame (addressed 0x03 a) n

/-- The flash array is unchanged: every address reads as before. -/
def SameFlash (s t : State) : Prop := ∀ a, t.dev.mem.read a = s.dev.mem.read a

/-- The error exit with no bus activity: the response, the result registers of 60_exceptions.md R232, and nothing else
(60_exceptions.md R233). -/
def OnlyRaised (e : Stop) (s t : State) : Prop :=
  t = { s with
    lastCode := e.code
    errInfo := e.info
    sessErr := if s.sess ≠ .released ∧ s.sessErr = .ok then e.code else s.sessErr
    seq := .portIdle
    out := ⟨e.code, e.info, []⟩ :: s.out }

/-! Invariants. -/

/-- The pins of a session between ops (43_session.md R219; 10_state.md R41): MOSI at either level. -/
def SessionPins (v : ArbVariant) (p : Pins) : Prop :=
  p.fpgaRst = .output (decide (v = .releaseKeepCs)) ∧ p.fpgaCs = acquiredPin v .fpgaCs ∧ p.busReady = true

/-- Bus ownership and the session go together (10_state.md R26, R29, R41; 70_reset_and_hazards.md R274). -/
def BusInv (s : State) : Prop :=
  (s.sess = .released → s.busOwner = .fpga ∧ s.pins = Pins.allReleased) ∧
    (s.sess ≠ .released → s.busOwner = .flashSession ∧ SessionPins s.cfg.variant s.pins ∧ s.dev.pd = false) ∧
    s.sess ≠ .reset

/-- The tasks of a sequence, from its start (42_sequences.md R180 to R182). -/
def opTasks : Instr → List Task
  | .awaitReady => [.await, .returnStatus]
  | .flashData addr data => flashTasks addr data
  | .verifyData addr data => verifyTasks addr data
  | .pp _ _ | .read _ _ | .wrdi | .rdsr | .wren | .be _ | .wake | .readArbitrary _ _ | .status | .sessionStart | .sessionEnd
  | .csAssert | .csDeassert | .writeBit _ | .readBit | .writeByte _ | .readByte => []

/-- At the end of a step the sequencer is between frames; a running op has a session, has passed its range check, and waits at one of its own
awaits (10_state.md R42, 40_softspi.md R136). -/
def SeqInv (s : State) : Prop :=
  match s.seq with
  | .portIdle => True
  | .inFrame _ => False
  | .awaiting op rest =>
    s.sess ≠ .released ∧ pastTheTop op = false ∧ ∃ before, opTasks op = before ++ .await :: rest
  | .micro _ => False

/-- The flash array is canonical and no frame is being received (20_memory.md R61, R66). -/
def FlashInv (s : State) : Prop := s.dev.mem.wf ∧ s.dev.fbits = []

/-- poll_r is at most POLL_LIMIT, and below it while the poll loop goes on (10_state.md R33). -/
def PollInv (s : State) : Prop :=
  ∀ n, s.cfg.pollLimit = .count n → s.pollR ≤ n ∧ (∀ op rest, s.seq = .awaiting op rest → s.pollR < n)

/-- bitcnt is 0 to 8 (10_state.md R30). -/
def BitcntInv (s : State) : Prop := s.bitcnt ≤ 8

/-- len_r and off_r stay at most 2^24 (10_state.md R32). -/
def RangeInv (s : State) : Prop := s.lenR.toNat ≤ 16777216 ∧ s.offR.toNat ≤ 16777216

/-- The invariant of the machine between steps. -/
def Inv (s : State) : Prop :=
  BusInv s ∧ SeqInv s ∧ FlashInv s ∧ PollInv s ∧ BitcntInv s ∧ RangeInv s ∧ Config.legal s.cfg ∧
    Config.flashSizeLegal s.dev.flashSize = true

/-- An ACQ event of role r. -/
def isAcq (r : Role) : Event → Bool
  | .acq q _ _ => q = r
  | _ => false

/-- A REL or REL_FAIL event of role r. -/
def isRelease (r : Role) : Event → Bool
  | .rel q => q = r
  | .relFail q => q = r
  | _ => false

/-- Each role has been released as often as acquired, and once less while it is owned (43_session.md R218). -/
def ReleaseBalance (s : State) : Prop :=
  ∀ r, s.tr.countP (isAcq r) = s.tr.countP (isRelease r) + if (s.pins.get r).own then 1 else 0

/-- The state with another configuration. -/
def withCfg (c : Cfg) (s : State) : State := { s with cfg := c }

/-- An outcome with its next state changed. -/
def mapNext (f : State → State) : Host.Outcome State Fault Refusal → Host.Outcome State Fault Refusal
  | .next s => .next (f s)
  | .fault r => .fault r
  | .refused r => .refused r

end Sys2Proof.Safety
end

