-- ==== Sys2Proof/Certificates/Slice0/Obligations.lean ====
section
/-! DEFINITION. The statements for the provers, from the numbered rules of the spec. -/

open Sys2Proof Sys2Proof.Machine Sys2Proof.Safety

/-! Encoding (30_encoding.md). -/

/-- Decoding what the encoder gives for a well-formed instruction gives the instruction back, with nothing left over, for every
host op and micro-op and every operand (30_encoding.md R104 to R106). -/
def Obligations.DecodeEncodeRoundTrip : Prop :=
  ∀ i : Instr, i.wf = true → decode (encode i) = .ok (i, [])

/-- A request is read from the front of the host port's bytes, and the bytes after it are left; one of which a byte is missing is
not read: 8 bytes, and len more for an op that carries data (R105, R110). -/
def Obligations.RequestIsReadFromTheFront : Prop :=
  ∀ (i : Instr) (bytes : List Byte), i.wf = true → encode i = .request bytes →
    (∀ rest, decodeRequest (bytes ++ rest) = .ok (i, rest)) ∧
    ∀ k, k < bytes.length → decodeRequest (bytes.take k) = .error .incomplete

/-- Words written out from the spec's encodings decode to the instructions they stand for (R104 to R106,
95_test_vectors.md). The operand byte beside a micro-op's code, in the last two words, is the model's choice (log entry 12). -/
def Obligations.SpecWordsDecode : Prop :=
  decode (.request [0x02, 0x01, 0x23, 0x45, 0x00, 0x00, 0x00, 0x02, 0xA5, 0x5A]) =
      .ok (.pp 0x012345 [0xA5, 0x5A], []) ∧
    decode (.request [0x03, 0x00, 0x00, 0xFE, 0x00, 0x00, 0x00, 0x04]) = .ok (.read 0x0000FE 4, []) ∧
    decode (.request [0xD8, 0x01, 0xFF, 0xFF, 0x00, 0x00, 0x00, 0x00]) = .ok (.be 0x01FFFF, []) ∧
    decode (.request [0xE1, 0x00, 0x00, 0x00, 0x00, 0x00, 0x00, 0x03, 0x12, 0x34, 0x56]) =
      .ok (.flashData 0x000000 [0x12, 0x34, 0x56], []) ∧
    decode (.request [0xE3, 0x00, 0x01, 0xFE, 0x00, 0x00, 0x00, 0x04]) = .ok (.readArbitrary 0x0001FE 4, []) ∧
    decode (.request [0xE9, 0, 0, 0, 0, 0, 0, 0]) = .ok (.sessionEnd, []) ∧
    decode (.micro 0x2 0x01) = .ok (.writeBit true, []) ∧ decode (.micro 0x4 0xAB) = .ok (.writeByte 0xAB, [])

/-- The bit on the wire at each clock of a frame (R102, the spec's own inference from R101 and R132 to R135): the opcode, the
address, the bytes sent, then the bytes received, each most significant bit first. In the clocks that send, nothing is sampled;
in each clock after them one bit is, and MOSI stays at the last bit sent. The second part is the frame without an address. -/
def Obligations.FrameBitPositions : Prop :=
  (∀ (s : State) (op : Byte) (a : Addr) (d : List Byte) (n : Nat) (lvl : Bool), s.pins.busReady = true →
    ∃ events, (frame (addressed op a ++ d) n s).2.trace = s.trace ++ events ∧
      (frame (addressed op a ++ d) n s).1.length = n ∧
      (mosiAtEdges lvl events).length = 32 + 8 * d.length + 8 * n ∧
      (sampleAtEdges events).length = 32 + 8 * d.length + 8 * n ∧ (samples events).length = 8 * n ∧
      (∀ t, t < 8 → (mosiAtEdges lvl events)[t]? = some (op.getLsbD (7 - t))) ∧
      (∀ t, 8 ≤ t → t < 32 → (mosiAtEdges lvl events)[t]? = some (a.getLsbD (23 - (t - 8)))) ∧
      (∀ t, 32 ≤ t → t < 32 + 8 * d.length →
        (mosiAtEdges lvl events)[t]? = some ((d.getD ((t - 32) / 8) 0).getLsbD (7 - (t - 32) % 8))) ∧
      (∀ t, 32 + 8 * d.length ≤ t → t < 32 + 8 * d.length + 8 * n →
        (mosiAtEdges lvl events)[t]? = some (((addressed op a ++ d).getLastD 0).getLsbD 0)) ∧
      (∀ t, t < 32 + 8 * d.length → (sampleAtEdges events)[t]? = some none) ∧
      ∀ t, t < 8 * n →
        (sampleAtEdges events)[32 + 8 * d.length + t]? =
          some (some (((frame (addressed op a ++ d) n s).1.getD (t / 8) 0).getLsbD (7 - t % 8)))) ∧
  ∀ (s : State) (op : Byte) (n : Nat) (lvl : Bool), s.pins.busReady = true →
    ∃ events, (frame [op] n s).2.trace = s.trace ++ events ∧ (frame [op] n s).1.length = n ∧
      (mosiAtEdges lvl events).length = 8 + 8 * n ∧ (sampleAtEdges events).length = 8 + 8 * n ∧
      (samples events).length = 8 * n ∧
      (∀ t, t < 8 → (mosiAtEdges lvl events)[t]? = some (op.getLsbD (7 - t))) ∧
      (∀ t, 8 ≤ t → t < 8 + 8 * n → (mosiAtEdges lvl events)[t]? = some (op.getLsbD 0)) ∧
      (∀ t, t < 8 → (sampleAtEdges events)[t]? = some none) ∧
      ∀ t, t < 8 * n →
        (sampleAtEdges events)[8 + t]? = some (some (((frame [op] n s).1.getD (t / 8) 0).getLsbD (7 - t % 8)))

/-- The serialized response (60_exceptions.md R231, 30_encoding.md R105): the code, then the info bytes of the code, then a
4-byte data length, then the data; multi-byte fields most significant byte first. -/
def Obligations.ResponseInfoBytes : Prop :=
  ∀ (data : List Byte) (page byte polls : Count) (status op : Byte) (r : Role) (v : Sess),
    let tail := countBytes (BitVec.ofNat 32 data.length) ++ data
    Response.bytes ⟨.ok, .absent, data⟩ = [0x00] ++ tail ∧
      Response.bytes ⟨.invalidArgument, .reason .pageTooLong, data⟩ = [0x01, 0x00] ++ tail ∧
      Response.bytes ⟨.invalidArgument, .reason .range, data⟩ = [0x01, 0x01] ++ tail ∧
      Response.bytes ⟨.verificationError, .mismatch page byte, data⟩ =
        [0x02, page.extractLsb' 24 8, page.extractLsb' 16 8, page.extractLsb' 8 8, page.extractLsb' 0 8,
          byte.extractLsb' 24 8, byte.extractLsb' 16 8, byte.extractLsb' 8 8, byte.extractLsb' 0 8] ++ tail ∧
      Response.bytes ⟨.deviceNotResponding, .polls polls status, data⟩ =
        [0x03, polls.extractLsb' 24 8, polls.extractLsb' 16 8, polls.extractLsb' 8 8, polls.extractLsb' 0 8, status] ++
          tail ∧
      Response.bytes ⟨.acquisitionFailure, .role r, data⟩ = [0x04, roleByte r] ++ tail ∧
      Response.bytes ⟨.teardownFailure, .role r, data⟩ = [0x05, roleByte r] ++ tail ∧
      Response.bytes ⟨.illegalCommand, .op op, data⟩ = [0x06, op] ++ tail ∧
      Response.bytes ⟨.noSession, .absent, data⟩ = [0x07] ++ tail ∧
      Response.bytes ⟨.notReady, .sess v, data⟩ = [0x08, v.bits.zeroExtend 8] ++ tail ∧
      Response.bytes ⟨.sessionActive, .absent, data⟩ = [0x09] ++ tail ∧
      [Role.fpgaRst, .fpgaCs, .flCs, .mosi, .miso, .sck].map roleByte = [0, 1, 2, 3, 4, 5]

/-- The expansions of FLASH_IMAGE and DUMP (30_encoding.md R112), by the codes of the responses so far, and their result: the
data of the last response, unless SESSION_START's is the only one. -/
def Obligations.PseudoExpansions : Prop :=
  ∀ (image : List Byte) (a : Addr) (n : Count),
    (Pseudo.flashImage image).next [] = some .sessionStart ∧
    (Pseudo.flashImage image).next [.ok] = some (.flashData 0 image) ∧
    (Pseudo.flashImage image).next [.ok, .ok] = some (.verifyData 0 image) ∧
    (∀ c, (Pseudo.flashImage image).next [.ok, .ok, c] = some .sessionEnd) ∧
    (∀ c, c ≠ .ok → (Pseudo.flashImage image).next [.ok, c] = some .sessionEnd) ∧
    (Pseudo.dump a n).next [] = some .sessionStart ∧ (Pseudo.dump a n).next [.ok] = some (.readArbitrary a n) ∧
    (∀ c, (Pseudo.dump a n).next [.ok, c] = some .sessionEnd) ∧
    (∀ (p : Pseudo) c, c ≠ .ok → p.next [c] = none) ∧
    (∀ c d, (Pseudo.flashImage image).next [.ok, .ok, c, d] = none) ∧
    (∀ c d, c ≠ .ok → (Pseudo.flashImage image).next [.ok, c, d] = none) ∧
    (∀ c d, (Pseudo.dump a n).next [.ok, c, d] = none) ∧
    ∀ (rs : List Response) (r : Response), Pseudo.result [r] = none ∧
      (rs ≠ [] → Pseudo.result (rs ++ [r]) = some r.data)

/-! One step (10_state.md R38, R42). -/

/-- A step at PORT_IDLE with a whole request on the host port runs the decoded instruction, its bytes taken off; with none it
changes nothing (70_reset_and_hazards.md R272). -/
def Obligations.StepRunsRequest : Prop :=
  (∀ (s : State) (i : Instr) (rest : List Byte), s.seq = .portIdle → decodeRequest s.host = .ok (i, rest) →
    step s = exec i { s with host := rest }) ∧
  ∀ s : State, s.seq = .portIdle → decodeRequest s.host = .error .incomplete → step s = .next s

/-- A step inside a frame runs the next micro-op and moves past its word (30_encoding.md R106, 40_softspi.md R136). -/
def Obligations.StepRunsMicroOp : Prop :=
  ∀ (s : State) (i : Instr) (code : BitVec 4) (operand : Byte) (words : List (BitVec 4 × Byte)),
    s.seq = .micro ((code, operand) :: words) → decodeMicro code operand = .ok i →
    step s = exec i { s with seq := if words = [] then .portIdle else .micro words }

/-- A step runs the instruction the decoder reads from a table word placed for it. -/
def Obligations.StepRunsTableWord : Prop :=
  ∀ (s : State) (nbits w : Nat) (i : Instr), decodeTableWord nbits w = some i →
    ∃ left, step (s.withFetchWord nbits w) = exec i { s with seq := .portIdle, host := left ++ s.host }

/-! Micro-ops (40_softspi.md). -/

/-- CS_ASSERT (R130): FL_CS is driven 0; a falling edge starts a frame at the chip (20_memory.md R66). -/
def Obligations.CsAssertDrivesLow : Prop :=
  ∀ s : State, BusHeld s →
    ∃ t, exec .csAssert s = .next t ∧ TraceGrew [.set .flCs false] s t ∧
      t.pins = { s.pins with flCs := .output false } ∧ SameOffBus s t ∧ t.shreg = s.shreg ∧ t.bitcnt = s.bitcnt ∧
      t.env = s.env ∧ t.dev = { s.dev with fbits := if s.pins.flCs = .output true then [] else s.dev.fbits }

/-- CS_DEASSERT (R131): FL_CS is driven 1, in every frame; a rising edge ends the frame at the chip (20_memory.md R66). A frame
of nothing and one of an ignored opcode (R67, R68) leave the chip as it was, and a whole command is taken. What another frame
leaves is free (log entry 11). -/
def Obligations.CsDeassertDrivesHigh : Prop :=
  ∀ s : State, BusHeld s →
    ∃ t, exec .csDeassert s = .next t ∧ TraceGrew [.set .flCs true] s t ∧
      t.pins = { s.pins with flCs := .output true } ∧ SameOffBus s t ∧ t.shreg = s.shreg ∧ t.bitcnt = s.bitcnt ∧
      (s.pins.flCs = .output true → t.dev = s.dev ∧ t.env = s.env) ∧
      (s.pins.flCs = .output false → t.dev.fbits = [] ∧ t.dev.flashSize = s.dev.flashSize ∧
        (s.dev.fbits = [] ∨ s.dev.ignoresReceived = true → ChipUntouched s t ∧ t.env = s.env) ∧
        (s.dev.wholeCommand = true →
          t.dev = { (s.dev.takeFrame (bytesOfBits s.dev.fbits.reverse) s.env).1 with fbits := [] } ∧
            t.env = (s.dev.takeFrame (bytesOfBits s.dev.fbits.reverse) s.env).2))

/-- Which received frames the model takes as commands (the model's choice, log entry 11): whole bytes, of which the first is an
opcode of 30_encoding.md R103, with the whole address phase of a PP or BE. More bytes than the controller sends may follow. -/
def Obligations.WholeCommandsTaken : Prop :=
  ∀ d : Device, d.wholeCommand = true ↔
    ∃ op rest, d.fbits.reverse = bitsOfBytes (op :: rest) ∧
      (op ∈ [0xAB, 0x05, 0x06, 0x04, 0x03] ∨ op ∈ [0x02, 0xD8] ∧ 3 ≤ rest.length)

/-- WRITE_BIT (R132). -/
def Obligations.WriteBitSendsOneBit : Prop :=
  ∀ (s : State) (b : Bool), BusHeld s →
    ∃ t, exec (.writeBit b) s = .next t ∧
      TraceGrew [.set .mosi b, .set .sck true, .delay, .set .sck false, .delay] s t ∧
      t.pins = { s.pins with mosi := .output b, sck := .output false } ∧ SameOffBus s t ∧ t.shreg = s.shreg ∧
      t.bitcnt = s.bitcnt ∧ t.env = s.env ∧
      t.dev = { s.dev with
        fbits := if s.pins.flCs = .output false ∧ s.pins.sck = .output false then b :: s.dev.fbits else s.dev.fbits }

/-- READ_BIT (R133): v is the device's answer after this clock, or a draw where the device has none. -/
def Obligations.ReadBitSamplesMiso : Prop :=
  ∀ s : State, BusHeld s →
    ∃ v t, exec .readBit s = .next t ∧
      TraceGrew [.set .sck true, .delay, .sample v, .set .sck false, .delay] s t ∧
      t.pins = { s.pins with sck := .output false } ∧ SameOffBus s t ∧ t.shreg = s.shreg ∧ t.bitcnt = s.bitcnt ∧
      t.dev = { s.dev with
        fbits := if s.pins.flCs = .output false ∧ s.pins.sck = .output false then
          decide (s.pins.mosi = .output true) :: s.dev.fbits else s.dev.fbits } ∧
      (∀ b, t.dev.answer = some b → v = b ∧ t.env = s.env) ∧
      (t.dev.answer = none → v = s.env.drawMiso.1 ∧ t.env = s.env.drawMiso.2)

/-- WRITE_BYTE (R134): eight WRITE_BITs, most significant bit first; shreg is 0 and bitcnt 8 afterwards. -/
def Obligations.WriteByteSendsEightBits : Prop :=
  ∀ (s : State) (x : Byte), BusHeld s →
    ∃ u t, exec (.writeByte x) s = .next t ∧
      execAll [.writeBit (x.getLsbD 7), .writeBit (x.getLsbD 6), .writeBit (x.getLsbD 5), .writeBit (x.getLsbD 4),
        .writeBit (x.getLsbD 3), .writeBit (x.getLsbD 2), .writeBit (x.getLsbD 1), .writeBit (x.getLsbD 0)] s = .next u ∧
      t = { u with shreg := 0, bitcnt := 8 } ∧
      TraceGrew (writeBitEvents (x.getLsbD 7) ++ writeBitEvents (x.getLsbD 6) ++ writeBitEvents (x.getLsbD 5) ++
        writeBitEvents (x.getLsbD 4) ++ writeBitEvents (x.getLsbD 3) ++ writeBitEvents (x.getLsbD 2) ++
        writeBitEvents (x.getLsbD 1) ++ writeBitEvents (x.getLsbD 0)) s t ∧
      t.shreg = 0 ∧ t.bitcnt = 8 ∧ t.pins = { s.pins with mosi := .output (x.getLsbD 0), sck := .output false } ∧
      SameOffBus s t ∧ t.env = s.env ∧ t.dev = { s.dev with fbits := t.dev.fbits } ∧
      (s.pins.sck = .output false →
        t.dev.fbits = (if s.pins.flCs = .output false then (bitsOfByte x).reverse else []) ++ s.dev.fbits)

/-- READ_BYTE (R135): the state is that of eight READ_BITs, with shreg the byte y of the bits they sampled, the first being y[7],
and bitcnt 8. -/
def Obligations.ReadByteReceivesEightBits : Prop :=
  ∀ s : State, BusHeld s →
    ∃ y u t, exec .readByte s = .next t ∧
      execAll [.readBit, .readBit, .readBit, .readBit, .readBit, .readBit, .readBit, .readBit] s = .next u ∧
      t = { u with shreg := y, bitcnt := 8 } ∧
      TraceGrew (readBitEvents (y.getLsbD 7) ++ readBitEvents (y.getLsbD 6) ++ readBitEvents (y.getLsbD 5) ++
        readBitEvents (y.getLsbD 4) ++ readBitEvents (y.getLsbD 3) ++ readBitEvents (y.getLsbD 2) ++
        readBitEvents (y.getLsbD 1) ++ readBitEvents (y.getLsbD 0)) s t ∧
      t.shreg = y ∧ t.bitcnt = 8 ∧ t.pins = { s.pins with sck := .output false } ∧ SameOffBus s t ∧
      t.dev = { s.dev with fbits := t.dev.fbits } ∧
      (s.pins.sck = .output false →
        t.dev.fbits = (if s.pins.flCs = .output false then List.replicate 8 (decide (s.pins.mosi = .output true)) else []) ++
          s.dev.fbits)

/-- Where the micro-ops stop, each by name, and that they stop nowhere else: on a bus that is not held (10_state.md R22,
40_softspi.md's precondition; the model's choice, log entry 10); and the unused codes (R108 d; log entry 22). -/
def Obligations.WhereMicroOpsStop : Prop :=
  (∀ (i : Instr) (s : State), isHostInstr i = false →
    (¬BusHeld s → exec i s = .fault .busNotHeld) ∧ (BusHeld s → ∃ t, exec i s = .next t)) ∧
  ∀ (s : State) (code : BitVec 4) (operand : Byte) (words : List (BitVec 4 × Byte)),
    s.seq = .micro ((code, operand) :: words) → 6 ≤ code.toNat → step s = .refused (.unusedMicroOp code)

/-- READ_BIT and READ_BYTE do not drive MOSI, which keeps the level of the last bit sent: 1 in RDSR, bit 0 of the address in READ
(R138, the spec's own inference from R133 and R134). -/
def Obligations.MosiKeepsLastBitSent : Prop :=
  (∀ (s t : State) (i : Instr), i = .readBit ∨ i = .readByte → exec i s = .next t →
    t.pins.mosi = s.pins.mosi ∧ t.tr.countP isSetMosi = s.tr.countP isSetMosi) ∧
  (∀ s t : State, InSession s → exec .rdsr s = .next t →
    t.pins.mosi = .output true ∧ t.tr.countP isSetMosi = s.tr.countP isSetMosi + 8) ∧
  ∀ (s t : State) (a : Addr) (n : Count), InSession s → a.toNat + n.toNat ≤ 16777216 → exec (.read a n) s = .next t →
    t.pins.mosi = .output (a.getLsbD 0) ∧ t.tr.countP isSetMosi = s.tr.countP isSetMosi + 32

/-- The trace event counts (R140, the spec's own inference from R130 to R136). -/
def Obligations.TraceEventCounts : Prop :=
  ∀ s : State,
    (∀ b, (writeBit b s).tr.length = s.tr.length + 5 ∧ (writeBit b s).tr.countP isSet = s.tr.countP isSet + 3 ∧
      (writeBit b s).tr.count .delay = s.tr.count .delay + 2) ∧
    ((readBit s).2.tr.length = s.tr.length + 5 ∧ (readBit s).2.tr.countP isSet = s.tr.countP isSet + 2 ∧
      (readBit s).2.tr.count .delay = s.tr.count .delay + 2 ∧
      (readBit s).2.tr.countP isSample = s.tr.countP isSample + 1) ∧
    (∀ x, (writeByte x s).tr.length = s.tr.length + 40) ∧ (readByte s).tr.length = s.tr.length + 40 ∧
    ∀ (out : List Byte) (n : Nat),
      (frame out n s).2.tr.length = s.tr.length + (2 + 40 * (out.length + n)) ∧
        clockEdges (frame out n s).2.tr = clockEdges s.tr + 8 * (out.length + n)

/-- The frame that the commands send in one go is the run of its micro-ops, one step each (R136). -/
def Obligations.FrameIsItsMicroOps : Prop :=
  ∀ (s : State) (out : List Byte) (n : Nat), WireFrame out n → s.pins.busReady = true →
    s.seq = .micro (frameWords out n) →
    Host.Core.run Sys2Proof.core (out.length + n + 2) s = .next { (frame out n s).2 with seq := .portIdle }

/-! The flash device (20_memory.md). -/

/-- The low-power gate and the busy gate: no state changes, and no MISO bit of the frame is the device's (R67, R68). -/
def Obligations.GatedFramesAreIgnored : Prop :=
  ∀ (d : Device) (e : Env) (op : Byte) (rest : List Byte),
    (d.pd = true → op ≠ 0xAB →
      d.takeFrame (op :: rest) e = (d, e) ∧ ∀ bytes n, d.answerTo op bytes n = none) ∧
    (d.pd = false → d.busy ≠ .polls 0 → op ≠ 0x05 →
      d.takeFrame (op :: rest) e = (d, e) ∧ ∀ bytes n, d.answerTo op bytes n = none)

/-- PAGE_PROGRAM when not gated, with at most 256 data bytes: byte i is ANDed in at page(A) | ((A[7:0] + i) mod 256), every other
byte stays, the latch is cleared and the busy count drawn; with the latch clear the frame is ignored (R74; the wrap inside the
page and the ignored frame are general knowledge to the spec, log entry 14). At or above FLASH_SIZE the array and the latch are
free (R80, log entry 13). -/
def Obligations.PageProgramClearsBits : Prop :=
  ∀ (d : Device) (e : Env) (a : Addr) (data : List Byte), d.pd = false → d.busy = .polls 0 → data.length ≤ 256 →
    (d.wel = false → d.takeFrame (addressed 0x02 a ++ data) e = (d, e)) ∧
    (d.wel = true → a.toNat < d.flashSize →
      (∀ i, i < data.length → a.toNat / 256 * 256 + (a.toNat % 256 + i) % 256 < d.flashSize) →
      ∃ m, d.takeFrame (addressed 0x02 a ++ data) e =
        ({ d with mem := m, wel := false, busy := e.drawBusy.1 }, e.drawBusy.2) ∧
      (∀ i, i < data.length →
        m.read (a.toNat / 256 * 256 + (a.toNat % 256 + i) % 256) =
          d.mem.read (a.toNat / 256 * 256 + (a.toNat % 256 + i) % 256) &&& data.getD i 0) ∧
      ∀ x, (∀ i, i < data.length → x ≠ a.toNat / 256 * 256 + (a.toNat % 256 + i) % 256) → m.read x = d.mem.read x) ∧
    (d.wel = true → ∃ m w, (d.takeFrame (addressed 0x02 a ++ data) e).1 =
      { d with mem := m, wel := w, busy := e.drawBusy.1 })

/-- BLOCK_ERASE when not gated: the 65536 bytes of block(A) are FF, every other byte stays, the latch is cleared and the busy
count drawn; with the latch clear the frame is ignored (R75; the ignored frame is general knowledge to the spec, log entry
14). At or above FLASH_SIZE the array and the latch are free (R80, log entry 13). -/
def Obligations.BlockEraseSetsBits : Prop :=
  ∀ (d : Device) (e : Env) (a : Addr), d.pd = false → d.busy = .polls 0 →
    (d.wel = false → d.takeFrame (addressed 0xD8 a) e = (d, e)) ∧
    (d.wel = true → a.toNat / 65536 * 65536 + 65536 ≤ d.flashSize → ∃ m, d.takeFrame (addressed 0xD8 a) e =
        ({ d with mem := m, wel := false, busy := e.drawBusy.1 }, e.drawBusy.2) ∧
      ∀ x, m.read x = if a.toNat / 65536 * 65536 ≤ x ∧ x < a.toNat / 65536 * 65536 + 65536 then 0xFF else d.mem.read x) ∧
    (d.wel = true → ∃ m w, (d.takeFrame (addressed 0xD8 a) e).1 = { d with mem := m, wel := w, busy := e.drawBusy.1 })

/-- Side effects and idempotency (R86, the spec's own inference from R74 and R75; the wrap inside a page is log entry 14's): READ
changes nothing, RDSR only the poll count, WREN and WRDI only wel, WAKE only pd; two BEs of a block leave the memory of one, a PP
twice that of once, and two PPs to one byte old & d1 & d2. -/
def Obligations.RepeatedCommands : Prop :=
  (∀ (d : Device) (e : Env) (rest : List Byte),
    d.takeFrame (0x03 :: rest) e = (d, e) ∧
    (∃ k, (d.takeFrame (0x05 :: rest) e).1 = { d with busy := k }) ∧
    (∃ w, (d.takeFrame (0x06 :: rest) e).1 = { d with wel := w }) ∧
    (∃ w, (d.takeFrame (0x04 :: rest) e).1 = { d with wel := w }) ∧
    ∃ p, (d.takeFrame (0xAB :: rest) e).1 = { d with pd := p }) ∧
  (∀ (m : Memory) (a : Addr), m.wf →
    (m.fill (blockBase a) 65536 0xFF).fill (blockBase a) 65536 0xFF = m.fill (blockBase a) 65536 0xFF) ∧
  (∀ (m : Memory) (a : Addr) (data : List Byte), m.wf → data.length ≤ 256 →
    Memory.programFrom a 0 data (Memory.programFrom a 0 data m) = Memory.programFrom a 0 data m) ∧
  ∀ (m : Memory) (a : Addr) (d1 d2 : List Byte) (i : Nat), d1.length ≤ 256 → d2.length ≤ 256 → i < d1.length →
    i < d2.length →
    (Memory.programFrom a 0 d2 (Memory.programFrom a 0 d1 m)).read (programAddr a i) =
      m.read (programAddr a i) &&& d1.getD i 0 &&& d2.getD i 0

/-! Command ops (41_commands.md): each completes in every session on a ready bus, whatever the chip does with it. -/

/-- WAKE (R151). -/
def Obligations.WakeWakesTheChip : Prop :=
  ∀ s : State, InSession s →
    ∃ t, exec .wake s = .next t ∧ AnsweredOk [] s t ∧ TraceGrew (frameEvents [0xAB] []) s t ∧
      t.dev = { s.dev with pd := false, fbits := [] } ∧ t.sess = (if s.sess = .reset then .awake else s.sess) ∧
      t.pins.mosi = .output true ∧ ShiftedOut t ∧ t.env = s.env ∧ SameAroundFrames s t ∧ SameSequenceRegs s t ∧
      SameAddrLen s t

/-- RDSR (R152): on an awake chip bit 0 of the byte is the busy flag and one poll is counted; sess is unchanged. -/
def Obligations.RdsrReturnsStatus : Prop :=
  ∀ s : State, InSession s →
    ∃ st t, exec .rdsr s = .next t ∧ AnsweredOk [st] s t ∧ TraceGrew (frameEvents [0x05] [st]) s t ∧ t.sess = s.sess ∧
      t.shreg = st ∧ t.bitcnt = 8 ∧ t.pins.mosi = .output true ∧
      (s.dev.pd = true → ChipUntouched s t) ∧
      (s.dev.pd = false → st.getLsbD 0 = decide (s.dev.busy ≠ .polls 0) ∧
        t.dev = { s.dev with
          busy := match s.dev.busy with
            | .polls k => .polls (k - 1)
            | .forever => .forever
          fbits := [] }) ∧
      SameAroundFrames s t ∧ SameSequenceRegs s t ∧ SameAddrLen s t

/-- WREN (R153): the latch of a chip that is not gated is set. -/
def Obligations.WrenSetsLatch : Prop :=
  ∀ s : State, InSession s →
    ∃ t, exec .wren s = .next t ∧ AnsweredOk [] s t ∧ TraceGrew (frameEvents [0x06] []) s t ∧
      (ChipReady s → t.dev = { s.dev with wel := true, fbits := [] }) ∧ (¬ChipReady s → ChipUntouched s t) ∧
      t.sess = s.sess ∧ t.pins.mosi = .output false ∧ ShiftedOut t ∧ t.env = s.env ∧ SameAroundFrames s t ∧
      SameSequenceRegs s t ∧ SameAddrLen s t

/-- WRDI (R154): the latch of a chip that is not gated is cleared, which is general knowledge to the spec (20_memory.md R72, log
entry 14). -/
def Obligations.WrdiClearsLatch : Prop :=
  ∀ s : State, InSession s →
    ∃ t, exec .wrdi s = .next t ∧ AnsweredOk [] s t ∧ TraceGrew (frameEvents [0x04] []) s t ∧
      (ChipReady s → t.dev = { s.dev with wel := false, fbits := [] }) ∧ (¬ChipReady s → ChipUntouched s t) ∧
      t.sess = s.sess ∧ t.pins.mosi = .output false ∧ ShiftedOut t ∧ t.env = s.env ∧ SameAroundFrames s t ∧
      SameSequenceRegs s t ∧ SameAddrLen s t

/-- PP (R155): in IDLE, with at most 256 bytes inside the address space, the WREN and PP frames are sent and sess is
BUSY_PROGRAMMING; a chip that is not gated turns busy and programs the page, where it lies below FLASH_SIZE (20_memory.md R80).
Past the end of its page the data wraps to the page's start, which is general knowledge to the spec (log entry 14). -/
def Obligations.PpProgramsPage : Prop :=
  ∀ (s : State) (a : Addr) (data : List Byte), InSession s → s.sess = .idle → data.length ≤ 256 →
    a.toNat + data.length ≤ 16777216 →
    ∃ t, exec (.pp a data) s = .next t ∧ AnsweredOk [] s t ∧ TraceGrew (ppFrames a data) s t ∧
      t.sess = .busyProgramming ∧
      (ChipReady s → TurnsBusy s t ∧
        (ProgramInside s.dev.flashSize a data.length → Programmed a data s t ∧ t.dev.wel = false)) ∧
      (¬ChipReady s → ChipUntouched s t) ∧ t.addrR = a ∧ t.lenR = BitVec.ofNat 32 data.length ∧
      t.pins.mosi = .output (((addressed 0x02 a ++ data).getLastD 0).getLsbD 0) ∧ ShiftedOut t ∧ SameAroundFrames s t ∧
      SameSequenceRegs s t

/-- BE (R156): in IDLE, the WREN and BE frames are sent with the address as given and sess is BUSY_ERASING; a chip that is not
gated turns busy and erases the block that holds the address, where it lies below FLASH_SIZE (20_memory.md R80). -/
def Obligations.BeErasesBlock : Prop :=
  ∀ (s : State) (a : Addr), InSession s → s.sess = .idle →
    ∃ t, exec (.be a) s = .next t ∧ AnsweredOk [] s t ∧ TraceGrew (beFrames a) s t ∧ t.sess = .busyErasing ∧
      (ChipReady s → TurnsBusy s t ∧ (EraseInside s.dev.flashSize a → Erased a s t ∧ t.dev.wel = false)) ∧
      (¬ChipReady s → ChipUntouched s t) ∧ t.addrR = a ∧ t.lenR = s.lenR ∧ t.pins.mosi = .output (a.getLsbD 0) ∧ ShiftedOut t ∧ SameAroundFrames s t ∧ SameSequenceRegs s t

/-- READ and READ_ARBITRARY (R157, 42_sequences.md R183): one frame, n bytes; from a chip that is not gated they are those of the
flash from the address on, as far as they lie below FLASH_SIZE (20_memory.md R80); the chip is unchanged, and so is sess. -/
def Obligations.ReadReturnsFlashBytes : Prop :=
  ∀ (s : State) (i : Instr) (a : Addr) (n : Count), i = .read a n ∨ i = .readArbitrary a n → InSession s →
    a.toNat + n.toNat ≤ 16777216 →
    ∃ data t, exec i s = .next t ∧ data.length = n.toNat ∧ AnsweredOk data s t ∧
      TraceGrew (frameEvents (addressed 0x03 a) data) s t ∧ ChipUntouched s t ∧
      (ChipReady s → ∀ k, k < n.toNat → a.toNat + k < s.dev.flashSize →
        data[k]? = some (s.dev.mem.read (a.toNat + k))) ∧ t.sess = s.sess ∧
      t.addrR = a ∧ t.lenR = n ∧ t.shreg = data.getLastD 0 ∧ t.bitcnt = 8 ∧ t.pins.mosi = .output (a.getLsbD 0) ∧
      SameAroundFrames s t ∧ SameSequenceRegs s t

/-! Sequences (42_sequences.md). -/

/-- AWAIT_READY on a chip that reports busy k more times, k below POLL_LIMIT: k + 1 status frames, the last of them ready; sess is
IDLE and the last status byte is returned (R180). -/
def Obligations.AwaitReadyCompletes : Prop :=
  ∀ (s : State) (k : Nat), InSession s → BusyFor k s → belowLimit s.cfg.pollLimit k →
    ∃ statuses st u t, exec .awaitReady s = .next u ∧ Host.Core.run Sys2Proof.core k u = .next t ∧
      ReadyAfter k statuses ∧ statuses.getLast? = some st ∧ AnsweredOk [st] s t ∧ TraceGrew (pollEvents statuses) s t ∧
      t.sess = .idle ∧ t.pollR = k + 1 ∧ t.shreg = st ∧ t.bitcnt = 8 ∧ t.offR = s.offR ∧ t.progress = s.progress ∧
      t.dev = { s.dev with busy := .polls 0, fbits := [] } ∧ SameAroundFrames s t ∧ SameAddrLen s t

/-- AWAIT_READY on a chip that stays busy for at least POLL_LIMIT = n polls: exactly n status frames, all busy, and then
DEVICE_NOT_RESPONDING with n and the last status byte; sess is unchanged (R180). -/
def Obligations.AwaitReadyTimesOut : Prop :=
  ∀ (s : State) (n : Nat), InSession s → s.dev.pd = false → s.cfg.pollLimit = .count n → 1 ≤ n →
    (∀ k, s.dev.busy = .polls k → n ≤ k) →
    ∃ statuses st u t, exec .awaitReady s = .next u ∧ Host.Core.run Sys2Proof.core (n - 1) u = .next t ∧
      statuses.map busyFlag = List.replicate n true ∧ statuses.getLast? = some st ∧
      t.out = ⟨.deviceNotResponding, .polls (BitVec.ofNat 32 n) st, []⟩ :: s.out ∧ TraceGrew (pollEvents statuses) s t ∧
      t.sess = s.sess ∧ t.seq = .portIdle ∧ t.lastCode = .deviceNotResponding ∧
      t.errInfo = .polls (BitVec.ofNat 32 n) st ∧
      t.sessErr = (if s.sessErr = .ok then .deviceNotResponding else s.sessErr) ∧ t.pollR = n ∧ SameFlash s t ∧
      t.offR = s.offR ∧ t.progress = s.progress

/-- A poll of any running op that reads busy: one status frame, one poll counted; with polls left the op polls again, and the
last one ends it at once with DEVICE_NOT_RESPONDING, what it did before standing (R180 to R182; 60_exceptions.md R235, the spec's
own inference). From their start on, for every POLL_LIMIT = n: VERIFY_DATA on a chip that stays busy ends so after n status frames,
with no READ; and FLASH_DATA, whose await after the first j BEs and PPs of its plan meets a chip that stays busy, ends so after
those and n status frames, with progress the bytes of the PPs sent; where each of those touches only addresses below FLASH_SIZE,
no byte of the flash changes that none of them stores to (20_memory.md R74, R75, R80). That each busy poll is a step of its own
is log entry 1; a BE or PP that reaches beyond FLASH_SIZE frees the whole array by log entry 13, and a page at an unaligned base
wraps by log entry 14. -/
def Obligations.BusyPollGoesOnOrEndsTheOp : Prop :=
  (∀ (s : State) (op : Instr) (rest : List Task), s.seq = .awaiting op rest → s.sess ≠ .released →
    s.pins.busReady = true → s.dev.pd = false → s.dev.busy ≠ .polls 0 →
    ∃ st t, step s = .next t ∧ busyFlag st = true ∧ TraceGrew (frameEvents [0x05] [st]) s t ∧ t.pollR = s.pollR + 1 ∧
      t.sess = s.sess ∧ t.offR = s.offR ∧ t.progress = s.progress ∧ t.dev.mem = s.dev.mem ∧ t.dev.wel = s.dev.wel ∧
      t.dev.pd = false ∧ t.pins = { s.pins with mosi := .output true } ∧ t.busOwner = s.busOwner ∧ t.cfg = s.cfg ∧
      t.host = s.host ∧ SameAddrLen s t ∧
      (s.cfg.pollLimit ≠ .count (s.pollR + 1) → t.seq = s.seq ∧ t.out = s.out ∧ t.lastCode = s.lastCode ∧
        t.errInfo = s.errInfo ∧ t.sessErr = s.sessErr) ∧
      (s.cfg.pollLimit = .count (s.pollR + 1) → t.seq = .portIdle ∧
        t.out = ⟨.deviceNotResponding, .polls (BitVec.ofNat 32 (s.pollR + 1)) st, []⟩ :: s.out ∧
        t.lastCode = .deviceNotResponding ∧ t.errInfo = .polls (BitVec.ofNat 32 (s.pollR + 1)) st ∧
        t.sessErr = (if s.sessErr = .ok then .deviceNotResponding else s.sessErr))) ∧
  (∀ (s : State) (base : Addr) (buf : List Byte) (n : Nat), InSession s → base.toNat + buf.length ≤ 16777216 →
    s.cfg.pollLimit = .count n → 1 ≤ n → StaysBusy n s →
    ∃ statuses st u t, exec (.verifyData base buf) s = .next u ∧ Host.Core.run Sys2Proof.core (n - 1) u = .next t ∧
      BusyOn n statuses st ∧ TraceGrew (pollEvents statuses) s t ∧ TimedOut n st s t ∧ t.sess = s.sess ∧
      t.progress = s.progress ∧ t.offR = s.offR ∧ t.dev.mem = s.dev.mem ∧ t.dev.wel = s.dev.wel ∧ t.dev.pd = false ∧
      t.pins = { s.pins with mosi := .output true } ∧ t.busOwner = s.busOwner ∧ t.cfg = s.cfg ∧ t.host = s.host) ∧
  ∀ (s : State) (base : Addr) (buf : List Byte) (j n : Nat) (ks : List Nat) (busy : List Busy), InSession s →
    base.toNat + buf.length ≤ 16777216 → j < (flashPlan base buf).length → s.cfg.pollLimit = .count n → 1 ≤ n →
    AwaitsBusyFor j ks busy s → (∀ k ∈ ks, k < n) → (∀ k, (s.dev.busy :: busy).getLast? = some (.polls k) → n ≤ k) →
    ∃ awaits statuses st u t, exec (.flashData base buf) s = .next u ∧
      Host.Core.run Sys2Proof.core (ks.sum + (n - 1)) u = .next t ∧ List.Forall₂ ReadyAfter ks awaits ∧
      BusyOn n statuses st ∧
      TraceGrew (planEvents ((flashPlan base buf).take j) awaits ++ pollEvents statuses) s t ∧ TimedOut n st s t ∧
      t.progress = BitVec.ofNat 32 (((flashPlan base buf).take j).map FlashStep.bytes).sum ∧
      t.sess = (((flashPlan base buf).take j).getLast?.map FlashStep.sess).getD s.sess ∧
      ((∀ st ∈ (flashPlan base buf).take j, st.inside s.dev.flashSize) →
        ∀ x, (∀ st ∈ (flashPlan base buf).take j, ¬st.storesTo x) → t.dev.mem.read x = s.dev.mem.read x) ∧
      t.pins = { s.pins with mosi := .output true } ∧ t.busOwner = s.busOwner ∧ t.cfg = s.cfg ∧ t.host = s.host

/-- With POLL_LIMIT = UNBOUNDED and a chip that never clears its busy bit, the op never ends: every number of steps leaves it
polling, one status frame a step, with no response (R180; 70_reset_and_hazards.md R296): from a poll loop on; from the start of
AWAIT_READY and VERIFY_DATA on; and from the start of FLASH_DATA on, whose await after the first j BEs and PPs of its plan meets
such a chip. The steps are the model's (log entry 1). -/
def Obligations.NeverReadyHangs : Prop :=
  (∀ (s : State) (op : Instr) (rest : List Task) (k : Nat), s.seq = .awaiting op rest → s.pins.busReady = true →
    s.dev.pd = false → s.dev.busy = .forever → s.cfg.pollLimit = .unbounded →
    ∃ t, Host.Core.run Sys2Proof.core k s = .next t ∧ t.seq = .awaiting op rest ∧ t.out = s.out ∧
      framesSent t.tr = framesSent s.tr + k ∧ t.pollR = s.pollR + k) ∧
  (∀ (s : State) (i : Instr) (k : Nat),
    i = .awaitReady ∨ (∃ base buf, i = .verifyData base buf ∧ base.toNat + buf.length ≤ 16777216) → InSession s →
    s.dev.pd = false → s.dev.busy = .forever → s.cfg.pollLimit = .unbounded →
    ∃ rest statuses st u t, exec i s = .next u ∧ Host.Core.run Sys2Proof.core k u = .next t ∧ t.seq = .awaiting i rest ∧
      t.out = s.out ∧ BusyOn (k + 1) statuses st ∧ TraceGrew (pollEvents statuses) s t ∧ t.pollR = k + 1 ∧
      t.sess = s.sess) ∧
  ∀ (s : State) (base : Addr) (buf : List Byte) (j k : Nat) (ks : List Nat) (busy : List Busy), InSession s →
    base.toNat + buf.length ≤ 16777216 → j < (flashPlan base buf).length → s.cfg.pollLimit = .unbounded →
    AwaitsBusyFor j ks busy s → (s.dev.busy :: busy).getLast? = some .forever →
    ∃ rest awaits statuses st u t, exec (.flashData base buf) s = .next u ∧
      Host.Core.run Sys2Proof.core (ks.sum + k) u = .next t ∧ t.seq = .awaiting (.flashData base buf) rest ∧
      t.out = s.out ∧ List.Forall₂ ReadyAfter ks awaits ∧ BusyOn (k + 1) statuses st ∧
      TraceGrew (planEvents ((flashPlan base buf).take j) awaits ++ pollEvents statuses) s t ∧ t.pollR = k + 1

/-- FLASH_DATA (R181; R186 and R187, the spec's own inferences) on a chip that becomes ready in every await: before each BE and
PP of the plan an await of exactly one status frame more than the chip reports busy, then the pair with its WREN; chunk by
chunk, the BE before the PPs, the PPs in increasing offset; nothing else is sent. It ends OK, in BUSY_PROGRAMMING unless the
buffer is empty, and below FLASH_SIZE (20_memory.md R80) no byte of the flash changes that none of them stores to. A busy poll
is a step of its own by log entry 1, len_r is loaded by log entry 8, and a page at an unaligned base wraps by log entry 14. -/
def Obligations.FlashDataFollowsPlan : Prop :=
  ∀ (s : State) (base : Addr) (buf : List Byte) (ks : List Nat) (busy : List Busy), InSession s →
    base.toNat + buf.length ≤ 16777216 → AwaitsBusyFor (chunkCount buf.length + pageCount buf.length) ks busy s →
    (∀ j ∈ ks, belowLimit s.cfg.pollLimit j) →
    ∃ awaits u t, exec (.flashData base buf) s = .next u ∧ Host.Core.run Sys2Proof.core ks.sum u = .next t ∧
      List.Forall₂ ReadyAfter ks awaits ∧
      TraceGrew (planEvents (flashPlan base buf) awaits) s t ∧ AnsweredOk [] s t ∧
      t.progress = BitVec.ofNat 32 buf.length ∧ t.offR = BitVec.ofNat 32 buf.length ∧
      t.lenR = BitVec.ofNat 32 buf.length ∧ t.sess = (if buf = [] then s.sess else .busyProgramming) ∧
      ((∀ st ∈ flashPlan base buf, st.inside s.dev.flashSize) →
        ∀ x, (∀ st ∈ flashPlan base buf, ¬st.storesTo x) → t.dev.mem.read x = s.dev.mem.read x) ∧
      SameAroundFrames s t

/-- What FLASH_DATA leaves in the flash at a block-aligned base (20_memory.md R93, the spec's own inference;
70_reset_and_hazards.md R287), its blocks below FLASH_SIZE: the buffer; FF from its end to the end of its last block; every
other byte as before. That the op ends after as many more steps as there are busy polls is the model's choice (log entry 1). -/
def Obligations.FlashDataContents : Prop :=
  ∀ (s : State) (base : Addr) (buf : List Byte) (ks : List Nat) (busy : List Busy), InSession s →
    base.toNat % 65536 = 0 → base.toNat + buf.length ≤ 16777216 →
    base.toNat + 65536 * chunkCount buf.length ≤ s.dev.flashSize →
    AwaitsBusyFor (chunkCount buf.length + pageCount buf.length) ks busy s →
    (∀ j ∈ ks, belowLimit s.cfg.pollLimit j) →
    ∃ u t, exec (.flashData base buf) s = .next u ∧ Host.Core.run Sys2Proof.core ks.sum u = .next t ∧
      AnsweredOk [] s t ∧
      (∀ i, i < buf.length → t.dev.mem.read (base.toNat + i) = buf.getD i 0) ∧
      (∀ x, base.toNat + buf.length ≤ x → x < base.toNat + 65536 * chunkCount buf.length → t.dev.mem.read x = 0xFF) ∧
      (∀ x, x < base.toNat ∨ base.toNat + 65536 * chunkCount buf.length ≤ x → t.dev.mem.read x = s.dev.mem.read x) ∧
      t.dev.pd = false ∧ (buf ≠ [] → t.dev.wel = false) ∧ some t.dev.busy = (s.dev.busy :: busy).getLast?

/-- The partition counts (R184, which the spec derives from R181), with every await ready at its first poll: E BEs and P PPs, each
with its status read and its WREN, so 3(E + P) frames in all; and for VERIFY_DATA with no mismatch one await and P READ frames. -/
def Obligations.PartitionCounts : Prop :=
  (∀ (s t : State) (base : Addr) (buf : List Byte) (ks : List Nat) (busy : List Busy), InSession s →
    base.toNat + buf.length ≤ 16777216 → belowLimit s.cfg.pollLimit 0 →
    AwaitsBusyFor ((buf.length + 65535) / 65536 + (buf.length + 255) / 256) ks busy s → (∀ k ∈ ks, k = 0) →
    exec (.flashData base buf) s = .next t →
    (flashPlan base buf).countP FlashStep.isErase = (buf.length + 65535) / 65536 ∧
      (flashPlan base buf).countP (fun st => !st.isErase) = (buf.length + 255) / 256 ∧
      (∃ statuses : List Byte, statuses.length = (flashPlan base buf).length ∧
        TraceGrew (planEvents (flashPlan base buf) (statuses.map fun st => [st])) s t) ∧
      framesSent t.tr = framesSent s.tr + 3 * ((buf.length + 65535) / 65536 + (buf.length + 255) / 256) ∧
      t.seq = .portIdle) ∧
  ∀ (s t : State) (base : Addr) (buf : List Byte), InSession s → base.toNat + buf.length ≤ 16777216 → BusyFor 0 s →
    base.toNat + buf.length ≤ s.dev.flashSize → belowLimit s.cfg.pollLimit 0 →
    (∀ i, i < buf.length → s.dev.mem.read (base.toNat + i) = buf.getD i 0) →
    exec (.verifyData base buf) s = .next t →
    framesSent t.tr = framesSent s.tr + (1 + (buf.length + 255) / 256) ∧ t.seq = .portIdle

/-- VERIFY_DATA (R182) of a buffer the flash holds, below FLASH_SIZE (20_memory.md R80): one await, then READ frames of at most
256 bytes each, and OK. len_r is loaded by log entry 8. -/
def Obligations.VerifyDataAccepts : Prop :=
  ∀ (s : State) (base : Addr) (buf : List Byte) (k : Nat), InSession s → base.toNat + buf.length ≤ 16777216 →
    base.toNat + buf.length ≤ s.dev.flashSize → BusyFor k s → belowLimit s.cfg.pollLimit k →
    (∀ i, i < buf.length → s.dev.mem.read (base.toNat + i) = buf.getD i 0) →
    ∃ statuses u t, exec (.verifyData base buf) s = .next u ∧ Host.Core.run Sys2Proof.core k u = .next t ∧
      ReadyAfter k statuses ∧
      TraceGrew (pollEvents statuses ++ verifyEvents s.dev.mem base buf.length (pageCount buf.length)) s t ∧
      AnsweredOk [] s t ∧ t.sess = .idle ∧ t.offR = BitVec.ofNat 32 buf.length ∧
      t.lenR = BitVec.ofNat 32 buf.length ∧ t.pollR = k + 1 ∧ t.progress = s.progress ∧ t.dev.mem = s.dev.mem ∧
      t.dev.wel = s.dev.wel ∧ SameAroundFrames s t

/-- VERIFY_DATA (R182) of a buffer whose byte d is the first that differs from the flash, which is read below FLASH_SIZE
(20_memory.md R80): VERIFICATION_ERROR with page d / 256 and byte d, counted from the buffer's start, after exactly d / 256 + 1
READ frames. -/
def Obligations.VerifyDataReportsFirstDifference : Prop :=
  ∀ (s : State) (base : Addr) (buf : List Byte) (k d : Nat), InSession s → base.toNat + buf.length ≤ 16777216 →
    base.toNat + min (256 * (d / 256 + 1)) buf.length ≤ s.dev.flashSize → BusyFor k s → belowLimit s.cfg.pollLimit k →
    d < buf.length →
    s.dev.mem.read (base.toNat + d) ≠ buf.getD d 0 →
    (∀ i, i < d → s.dev.mem.read (base.toNat + i) = buf.getD i 0) →
    ∃ statuses u t, exec (.verifyData base buf) s = .next u ∧ Host.Core.run Sys2Proof.core k u = .next t ∧
      ReadyAfter k statuses ∧
      TraceGrew (pollEvents statuses ++ verifyEvents s.dev.mem base buf.length (d / 256 + 1)) s t ∧
      t.out = ⟨.verificationError, .mismatch (BitVec.ofNat 32 (d / 256)) (BitVec.ofNat 32 d), []⟩ :: s.out ∧
      t.seq = .portIdle ∧ t.sess = .idle ∧ t.lastCode = .verificationError ∧
      t.errInfo = .mismatch (BitVec.ofNat 32 (d / 256)) (BitVec.ofNat 32 d) ∧
      t.sessErr = (if s.sessErr = .ok then .verificationError else s.sessErr) ∧ t.dev.mem = s.dev.mem ∧
      t.progress = s.progress

/-- The round-trip law (20_memory.md R93, the spec's own inference from R74, R75 and the sequences): at a block-aligned base, on
an awake chip whose awaits all succeed, FLASH_DATA and then VERIFY_DATA of the same buffer both answer OK, and the flash then holds the buffer. Its blocks lie below FLASH_SIZE (R80). -/
def Obligations.RoundTripLaw : Prop :=
  ∀ (s : State) (base : Addr) (buf : List Byte) (k : Nat) (ks : List Nat) (more : List Busy), InSession s →
    s.seq = .portIdle → base.toNat % 65536 = 0 → base.toNat + buf.length ≤ 16777216 →
    base.toNat + 65536 * chunkCount buf.length ≤ s.dev.flashSize → BusyFor k s →
    s.env.busy = ks.map .polls ++ more → ks.length = chunkCount buf.length + pageCount buf.length →
    (∀ j ∈ k :: ks, belowLimit s.cfg.pollLimit j) →
    s.host = requestBytes 0xE1 base (BitVec.ofNat 32 buf.length) buf ++
      requestBytes 0xE2 base (BitVec.ofNat 32 buf.length) buf →
    ∃ t, Reaches s t ∧ t.out = ⟨.ok, .absent, []⟩ :: ⟨.ok, .absent, []⟩ :: s.out ∧ t.host = [] ∧ t.seq = .portIdle ∧
      ∀ i, i < buf.length → t.dev.mem.read (base.toNat + i) = buf.getD i 0

/-- STATUS (R185): the six bytes of CSR and progress; nothing else changes, in every session state; the worked values of the rule;
the fields of CSR (10_state.md R36). -/
def Obligations.StatusReportsCsr : Prop :=
  (∀ s : State, exec .status s = .next { s with
    seq := .portIdle
    out := ⟨.ok, .absent,
      [s.csr.extractLsb' 8 8, s.csr.extractLsb' 0 8, s.progress.extractLsb' 24 8, s.progress.extractLsb' 16 8,
        s.progress.extractLsb' 8 8, s.progress.extractLsb' 0 8]⟩ :: s.out }) ∧
  (∃ t, exec .status State.reset = .next t ∧ t.out = [⟨.ok, .absent, [0, 0, 0, 0, 0, 0]⟩]) ∧
  (∀ s : State, s.lastCode = .ok → s.sessErr = .ok → s.busOwner = .flashSession → s.sess = .busyProgramming →
    s.progress = 3 → ∃ t, exec .status s = .next t ∧
      t.out = ⟨.ok, .absent, [0x00, 0x0D, 0x00, 0x00, 0x00, 0x03]⟩ :: s.out) ∧
  ∀ s : State, s.csr.extractLsb' 0 3 = s.sess.bits ∧ s.csr.extractLsb' 3 1 = s.busOwner.bits ∧
    s.csr.extractLsb' 4 4 = s.sessErr.bits ∧ s.csr.extractLsb' 8 4 = s.lastCode.bits ∧ s.csr.extractLsb' 12 4 = 0

/-! Sessions (43_session.md) and reset. -/

/-- Controller reset (10_state.md R45). -/
def Obligations.ResetState : Prop :=
  (∀ r, (State.reset.pins.get r).own = false ∧ (State.reset.pins.get r).dir = .inp) ∧ State.reset.sess = .released ∧
    State.reset.busOwner = .fpga ∧ State.reset.shreg = 0x00 ∧ State.reset.bitcnt = 0 ∧ State.reset.addrR = 0 ∧
    State.reset.lenR = 0 ∧ State.reset.offR = 0 ∧ State.reset.pollR = 0 ∧ State.reset.lastCode = .ok ∧
    State.reset.sessErr = .ok ∧ State.reset.errInfo = .absent ∧ State.reset.progress = 0 ∧
    State.reset.seq = .portIdle ∧ State.reset.trace = []

/-- SESSION_START with every pin claimed (R210, R211, R213, R214): the trace, the bus taken, the chip awake, sess AWAKE. -/
def Obligations.SessionStartTakesTheBus : Prop :=
  ∀ (s : State) (more : List Bool), s.sess = .released → s.env.acq = [true, true, true, true, true, true] ++ more →
    ∃ t, exec .sessionStart s = .next t ∧ AnsweredOk [] s t ∧ TraceGrew (startEvents s.cfg.variant) s t ∧
      t.pins = startedPins s.cfg.variant ∧ t.sess = .awake ∧ t.busOwner = .flashSession ∧ t.sessErr = .ok ∧
      t.dev = { s.dev with pd := false, fbits := [] } ∧ t.cfg = s.cfg ∧ t.errInfo = s.errInfo ∧ t.host = s.host ∧
      ShiftedOut t ∧ SameSequenceRegs s t ∧ SameAddrLen s t

/-- The pin levels after a successful SESSION_START (R219, the spec's own inference), with sess, owner and the number of events. -/
def Obligations.PinLevelsAfterStart : Prop :=
  ∀ (s : State) (more : List Bool), s.sess = .released → s.env.acq = [true, true, true, true, true, true] ++ more →
    ∃ t events, exec .sessionStart s = .next t ∧ t.trace = s.trace ++ events ∧ t.sess = .awake ∧
      t.busOwner = .flashSession ∧ t.pins.flCs = .output true ∧ t.pins.mosi = .output true ∧ t.pins.miso = .input ∧
      t.pins.sck = .output false ∧
      (s.cfg.variant = .holdReset →
        t.pins.fpgaRst = .output false ∧ t.pins.fpgaCs = .input ∧ events.length = 49) ∧
      (s.cfg.variant = .releaseKeepCs →
        t.pins.fpgaRst = .output true ∧ t.pins.fpgaCs = .output false ∧ events.length = 50 ∧
          ∃ before after, events = before ++ [.hold, .set .fpgaRst true] ++ after)

/-- A failed acquisition is cleaned up (R212): the pins acquired before it are released in acquisition order, the response names
the role that could not be claimed whatever the releases do, and no pin stays owned. -/
def Obligations.AcquisitionFailureCleansUp : Prop :=
  ∀ (s : State) (k : Nat) (role : Role) (more : List Bool), s.sess = .released → s.busOwner = .fpga →
    s.pins = Pins.allReleased → s.env.acq = List.replicate k true ++ false :: more →
    [Role.fpgaRst, .fpgaCs, .flCs, .mosi, .miso, .sck][k]? = some role →
    ∃ (t : State) (events : List Event), exec .sessionStart s = .next t ∧
      t.trace = s.trace ++ ((acquireEvents s.cfg.variant).take k ++ .acqFail role :: events) ∧ events.length = k ∧
      (∀ (j : Nat) (ev : Event), events[j]? = some ev → ∃ r, [Role.fpgaRst, .fpgaCs, .flCs, .mosi, .miso, .sck][j]? = some r ∧
        (ev = .rel r ∨ ev = .relFail r)) ∧
      t.out = ⟨.acquisitionFailure, .role role, []⟩ :: s.out ∧ t.lastCode = .acquisitionFailure ∧
      t.errInfo = .role role ∧ t.sessErr = .ok ∧ t.pins = Pins.allReleased ∧ t.busOwner = .fpga ∧ t.sess = .released ∧
      t.dev = s.dev ∧ t.seq = .portIdle ∧ t.shreg = s.shreg ∧ t.bitcnt = s.bitcnt

/-- RELEASE_ALL (R215): every owned pin is tried in order, whatever the outcomes; ownership is dropped either way; the first role
whose release failed is reported. -/
def Obligations.ReleaseAllReleasesEveryPin : Prop :=
  ∀ (s : State) (outcomes more : List Bool),
    outcomes.length = ([Role.fpgaRst, .fpgaCs, .flCs, .mosi, .miso, .sck].filter fun r => (s.pins.get r).own).length →
    s.env.rel = outcomes ++ more →
    (releaseAll roleOrder s).1 =
        (((([Role.fpgaRst, .fpgaCs, .flCs, .mosi, .miso, .sck].filter fun r => (s.pins.get r).own).zip outcomes).find?
          fun x => !x.2).map Prod.fst) ∧
      (releaseAll roleOrder s).2 = { s with
        pins := Pins.allReleased
        tr := (((([Role.fpgaRst, .fpgaCs, .flCs, .mosi, .miso, .sck].filter fun r => (s.pins.get r).own).zip outcomes).map
          fun x => if x.2 then Event.rel x.1 else .relFail x.1).reverse) ++ s.tr
        env := { s.env with rel := more } }

/-- SESSION_END of a session (R216, R240): every owned pin is tried in order, the bus is given back, and the response is OK or
TEARDOWN_FAILURE with the first role whose release failed, with the summary byte, bit 0 the program outcome and bit 1 the
teardown outcome; with no session it answers OK with no data and touches no pin. With no session, sess_err keeps its value until
the next SESSION_START, and CSR shows it. -/
def Obligations.SessionEndReportsBothOutcomes : Prop :=
  (∀ (s : State) (owned : List Role) (outcomes more : List Bool) (failed : Option Role), s.sess ≠ .released →
    owned = ([Role.fpgaRst, .fpgaCs, .flCs, .mosi, .miso, .sck].filter fun r => (s.pins.get r).own) →
    outcomes.length = owned.length → s.env.rel = outcomes ++ more →
    failed = ((owned.zip outcomes).find? fun x => !x.2).map Prod.fst →
    ∃ t summary, exec .sessionEnd s = .next t ∧
      summary = (match decide (s.sessErr = .ok), failed with
        | true, none => 0x00
        | false, none => 0x01
        | true, some _ => 0x02
        | false, some _ => (0x03 : Byte)) ∧
      t.out = (match failed with
        | none => ⟨.ok, .absent, [summary]⟩
        | some r => ⟨.teardownFailure, .role r, [summary]⟩) :: s.out ∧
      TraceGrew ((owned.zip outcomes).map fun x => if x.2 then Event.rel x.1 else .relFail x.1) s t ∧
      t.pins = Pins.allReleased ∧ t.busOwner = .fpga ∧ t.sess = .released ∧ t.sessErr = s.sessErr ∧ t.dev = s.dev ∧
      t.seq = .portIdle ∧ t.lastCode = (if failed = none then .ok else .teardownFailure) ∧
      t.errInfo = (match failed with
        | none => s.errInfo
        | some r => .role r) ∧
      t.cfg = s.cfg ∧ t.host = s.host ∧ t.shreg = s.shreg ∧ t.bitcnt = s.bitcnt ∧ SameSequenceRegs s t ∧ SameAddrLen s t) ∧
  (∀ s : State, s.sess = .released →
    exec .sessionEnd s = .next { s with lastCode := .ok, seq := .portIdle, out := ⟨.ok, .absent, []⟩ :: s.out }) ∧
  ∀ (i : Instr) (s t : State), isHostInstr i = true → i ≠ .sessionStart → s.sess = .released → exec i s = .next t →
    t.sessErr = s.sessErr ∧ t.csr.extractLsb' 4 4 = s.sessErr.bits

/-! Errors (60_exceptions.md). -/

/-- The checks before an op's body, in order (R233): the first that fails raises its code, and nothing else happens; with none
failing, no check's code is raised. Step 1 is the last part; that an illegal request takes exactly 8 bytes (log entry 25), and that
err_info has no fields after NO_SESSION and SESSION_ACTIVE (log entry 20), are the model's readings. -/
def Obligations.ChecksRunInOrder : Prop :=
  (∀ (i : Instr) (s : State) (e : Stop), isHostInstr i = true → checkTable i s = some e →
    ∃ t, exec i s = .next t ∧ OnlyRaised e s t) ∧
  (∀ (i : Instr) (s t : State) (r : Response), isHostInstr i = true → checkTable i s = none → exec i s = .next t →
    t.out = r :: s.out →
    r.code ∉ [Code.illegalCommand, .sessionActive, .noSession, .invalidArgument, .notReady]) ∧
  ∀ (s : State) (op b1 b2 b3 b4 b5 b6 b7 : Byte) (rest : List Byte), s.seq = .portIdle →
    s.host = op :: b1 :: b2 :: b3 :: b4 :: b5 :: b6 :: b7 :: rest → isHostOp op = false →
    ∃ t, step s = .next t ∧ OnlyRaised ⟨.illegalCommand, .op op⟩ { s with host := rest } t

/-- The result registers when an op other than STATUS ends with a response r (R232), and STATUS, which changes none of them.
SESSION_START clears sess_err before its body can fail (43_session.md R210). -/
def Obligations.ResultRegistersFollowResponse : Prop :=
  (∀ (i : Instr) (s t : State) (r : Response), isHostInstr i = true → i ≠ .status → exec i s = .next t →
    t.out = r :: s.out →
    t.lastCode = r.code ∧ t.seq = .portIdle ∧ t.errInfo = (if r.code = .ok then s.errInfo else r.info) ∧
      t.sessErr = (if i = .sessionStart ∧ s.sess = .released then .ok
        else if r.code ≠ .ok ∧ t.sess ≠ .released ∧ s.sessErr = .ok then r.code else s.sessErr)) ∧
  (∀ (s t : State) (op : Instr) (rest : List Task) (r : Response), s.seq = .awaiting op rest → step s = .next t →
    t.out = r :: s.out →
    t.lastCode = r.code ∧ t.seq = .portIdle ∧ t.errInfo = (if r.code = .ok then s.errInfo else r.info) ∧
      t.sessErr = (if r.code ≠ .ok ∧ t.sess ≠ .released ∧ s.sessErr = .ok then r.code else s.sessErr)) ∧
  ∀ s t : State, exec .status s = .next t → t.lastCode = s.lastCode ∧ t.errInfo = s.errInfo ∧ t.sessErr = s.sessErr

/-- Every code an op can return (R234, the spec's own inference), as it starts and as it goes on polling. -/
def Obligations.CodesAnOpCanReturn : Prop :=
  (∀ (i : Instr) (s t : State) (r : Response), exec i s = .next t → t.out = r :: s.out → r.code ∈ codesOf i) ∧
  (∀ (s t : State) (op : Instr) (rest : List Task) (r : Response), Inv s → s.seq = .awaiting op rest → step s = .next t →
    t.out = r :: s.out → r.code ∈ codesOf op) ∧
  ∀ (s t : State) (op b1 b2 b3 b4 b5 b6 b7 : Byte) (rest : List Byte), s.seq = .portIdle →
    s.host = op :: b1 :: b2 :: b3 :: b4 :: b5 :: b6 :: b7 :: rest → isHostOp op = false → step s = .next t →
    ∃ r, t.out = r :: s.out ∧ r.code = .illegalCommand

/-! Whole-machine rules. -/

/-- The invariant holds at reset. -/
def Obligations.InvAtReset : Prop := Inv State.reset

/-- Every step keeps the invariant: the bus, its pins and the session go together (10_state.md R29, R41, 43_session.md R219); a
running op is at an await of its own program (R42, log entry 1); poll_r, bitcnt, len_r and off_r stay in range (R30, R32, R33); the flash is
canonical and between frames; the chip of a session is awake (70_reset_and_hazards.md R274). R29, R41, R219 and R274 are the
spec's own inferences. -/
def Obligations.EveryStepKeepsInv : Prop :=
  ∀ s t : State, Inv s → step s = .next t → Inv t

/-- No step from a state that meets the invariant faults or is refused: every request is answered or goes on (93 I23). -/
def Obligations.NoStepStops : Prop :=
  ∀ s : State, Inv s → ∃ t, step s = .next t

/-- Between host ops, the bus is the session's, and all six pins owned, exactly while a session is active (10_state.md R29); FL_CS
is then 1 and SCK 0 (R41). Both are the spec's own inferences. -/
def Obligations.SessionHoldsBusBetweenOps : Prop :=
  ∀ s t : State, Inv s → step s = .next t →
    (t.busOwner = .flashSession ↔ t.sess ≠ .released) ∧
    ((∀ r, (t.pins.get r).own = true) ↔ t.sess ≠ .released) ∧
    (t.sess ≠ .released → t.pins.flCs = .output true ∧ t.pins.sck = .output false)

/-- With no session, every host op but SESSION_START makes no bus activity (60_exceptions.md R233, 43_session.md R216). -/
def Obligations.NoBusActivityWithoutSession : Prop :=
  ∀ (i : Instr) (s t : State), isHostInstr i = true → i ≠ .sessionStart → s.sess = .released → exec i s = .next t →
    t.tr = s.tr ∧ t.pins = s.pins ∧ t.dev = s.dev ∧ t.busOwner = s.busOwner ∧ t.sess = .released

/-- Each role has been released as often as acquired, and once less while it is owned: every step keeps it (43_session.md
R218, the spec's own inference). -/
def Obligations.EveryStepKeepsReleaseBalance : Prop :=
  ∀ s t : State, Inv s → ReleaseBalance s → step s = .next t → ReleaseBalance t

/-- A step returns at most one response, and the sequencer is then at PORT_IDLE (10_state.md R38, R42); the trace only grows, and
the configuration and the chip's FLASH_SIZE stay (R44, R25; 00_scope.md R5). -/
def Obligations.ResponsesAndTraceOnlyGrow : Prop :=
  ∀ s t : State, step s = .next t →
    (t.out = s.out ∨ ∃ r, t.out = r :: s.out ∧ t.seq = .portIdle) ∧ (∃ events, t.trace = s.trace ++ events) ∧
      t.cfg = s.cfg ∧ t.dev.flashSize = s.dev.flashSize

/-- No op depends on a line number, on T_HALF or on T_RST (10_state.md R21, 70_reset_and_hazards.md R291): with another
configuration of the same variant and poll limit an instruction does the same, and so does every step, a poll of a running op
among them. -/
def Obligations.WiringAndTimesDoNotMatter : Prop :=
  ∀ (s : State) (c : Cfg), c.variant = s.cfg.variant → c.pollLimit = s.cfg.pollLimit →
    (∀ i : Instr, exec i (withCfg c s) = mapNext (withCfg c) (exec i s)) ∧
      step (withCfg c s) = mapNext (withCfg c) (step s)

/-- The sequencer goes through an op frame by frame and bit by bit, in program order (10_state.md R42, 40_softspi.md R130 to
R136). A step takes an op whose checks pass to the start of its first frame, and SESSION_START, its pins acquired, to that of its
WAKE frame; a pass of a poll loop begins its status frame. A frame's first step drives FL_CS to 0 and comes to byte 0. Inside a
byte a step moves one bit: sent, or sampled and shifted in, and counted by bitcnt; the eighth comes to the next byte, a received
byte joining those received, or to the frame's end. The last step drives FL_CS to 1 and comes to the start of the op's next frame
(a PP's or BE's after its WREN's), to its next poll, or to its response. Every step of the machine is a run of the sequencer, and
it stops where the machine does. That the machine's own step is a whole op, up to a busy poll, is log entry 1. -/
def Obligations.StepIsASequencerRun : Prop :=
  (∀ (s : State) (i : Instr) (rest out : List Byte) (nin : Nat), s.seq = .portIdle →
    decodeRequest s.host = .ok (i, rest) → InSession s → checkTable i s = none → firstFrame i = some (out, nin) →
    ∃ after t, sequencerStep s = .next t ∧ t.seq = atFrame i out nin after ∧ t.tr = s.tr ∧ t.pins = s.pins ∧ t.dev = s.dev ∧ t.sess = s.sess ∧ t.out = s.out ∧ t.host = rest) ∧
  (∀ (s : State) (rest : List Byte) (more : List Bool), s.seq = .portIdle →
    decodeRequest s.host = .ok (.sessionStart, rest) → s.sess = .released →
    s.env.acq = [true, true, true, true, true, true] ++ more →
    ∃ after t, sequencerStep s = .next t ∧ t.seq = atFrame .sessionStart [0xAB] 0 after ∧
      TraceGrew (acquireEvents s.cfg.variant ++
        (.hold :: (if s.cfg.variant = .releaseKeepCs then [.set .fpgaRst true] else []))) s t ∧
      t.dev = s.dev ∧ t.out = s.out ∧ t.host = rest) ∧
  (∀ (s : State) (op : Instr) (rest : List Task), s.seq = .awaiting op rest → s.pins.busReady = true →
    sequencerStep s = .next { s with seq := atFrame op [0x05] 1 (.polled rest) }) ∧
  (∀ (s : State) (f : FrameRun), s.seq = .inFrame f → f.spot = .assert → BusHeld s →
    ∃ t, sequencerStep s = .next t ∧ TraceGrew [.set .flCs false] s t ∧
      t.pins = { s.pins with flCs := .output false } ∧
      t.seq = .inFrame { f with spot := if 0 < f.out.length + f.nin then .byte 0 else .deassert } ∧
      (0 < f.out.length + f.nin → t.bitcnt = 0 ∧ t.shreg = f.out.getD 0 0)) ∧
  (∀ (s : State) (f : FrameRun) (k : Nat), s.seq = .inFrame f → f.spot = .byte k → BusHeld s → s.bitcnt < 8 →
    ∃ t y, sequencerStep s = .next t ∧
      (k < f.out.length → TraceGrew (writeBitEvents (s.shreg.getLsbD 7)) s t ∧ y = s.shreg <<< 1) ∧
      (f.out.length ≤ k → ∃ v, TraceGrew (readBitEvents v) s t ∧ y = shiftInBit s.shreg v) ∧
      (s.bitcnt < 7 → t.seq = s.seq ∧ t.bitcnt = s.bitcnt + 1 ∧ t.shreg = y) ∧
      (s.bitcnt = 7 →
        t.seq = .inFrame { f with
          spot := if k + 1 < f.out.length + f.nin then .byte (k + 1) else .deassert
          got := if k < f.out.length then f.got else f.got ++ [y] } ∧
        (k + 1 < f.out.length + f.nin → t.bitcnt = 0 ∧ t.shreg = f.out.getD (k + 1) 0))) ∧
  (∀ (s : State) (f : FrameRun), s.seq = .inFrame f → f.spot = .deassert → BusHeld s →
    ∃ t, sequencerStep s = .next t ∧ TraceGrew [.set .flCs true] s t ∧ t.pins = { s.pins with flCs := .output true } ∧
      ((∃ out nin after, t.seq = atFrame f.op out nin after ∧ t.out = s.out) ∨
        (∃ rest, t.seq = .awaiting f.op rest ∧ t.out = s.out) ∨ ∃ r, t.seq = .portIdle ∧ t.out = r :: s.out) ∧
      (∀ a page grow rest, f.after = .program a page grow rest → 
        t.seq = atFrame f.op (addressed 0x02 a ++ page) 0 (.programmed grow rest)) ∧
      ∀ a rest, f.after = .erase a rest → t.seq = atFrame f.op (addressed 0xD8 a) 0 (.erased rest)) ∧
  (∀ s t : State, step s = .next t → SequencerReaches s t) ∧
  (∀ (s : State) (r : Fault), step s = .fault r → sequencerStep s = .fault r) ∧
  ∀ (s : State) (r : Refusal), step s = .refused r → sequencerStep s = .refused r
end

