-- ==== Sys2Proof/Laws/Bits.lean ====
section
/-! SUPPORT. Bits and bytes: the wire order of a byte is undone by reading it most significant bit first, fields of requests
are undone by their bytes, pages and blocks are quotients. -/

namespace Sys2Proof.Laws

open Sys2Proof.Machine

@[simp] theorem bitsOfByte_length (x : Byte) : (bitsOfByte x).length = 8 := rfl

theorem byteOf_bits (x : Byte) :
    byteOf (x.getLsbD 7) (x.getLsbD 6) (x.getLsbD 5) (x.getLsbD 4) (x.getLsbD 3) (x.getLsbD 2) (x.getLsbD 1)
      (x.getLsbD 0) = x := by
  revert x; decide

theorem byteOf_getLsbD_zero (b7 b6 b5 b4 b3 b2 b1 b0 : Bool) :
    (byteOf b7 b6 b5 b4 b3 b2 b1 b0).getLsbD 0 = b0 := by
  revert b7 b6 b5 b4 b3 b2 b1 b0; decide

/-- Reading the wire bits of a byte gives the byte. -/
theorem bytesOfBits_bitsOfByte (x : Byte) (rest : List Bool) :
    bytesOfBits (bitsOfByte x ++ rest) = x :: bytesOfBits rest := by
  simp only [bitsOfByte, List.cons_append, List.nil_append, bytesOfBits, byteOf_bits]

@[simp] theorem bitsOfBytes_nil : bitsOfBytes [] = [] := rfl

theorem bitsOfBytes_cons (x : Byte) (xs : List Byte) : bitsOfBytes (x :: xs) = bitsOfByte x ++ bitsOfBytes xs := rfl

theorem bitsOfBytes_append (xs ys : List Byte) : bitsOfBytes (xs ++ ys) = bitsOfBytes xs ++ bitsOfBytes ys := by
  simp [bitsOfBytes]

@[simp] theorem bitsOfBytes_length (xs : List Byte) : (bitsOfBytes xs).length = 8 * xs.length := by
  induction xs with
  | nil => rfl
  | cons x xs ih => simp [bitsOfBytes_cons, ih]; omega

/-- Reading the wire bits of a byte list, with more bits after them, gives the bytes and then the rest. -/
theorem bytesOfBits_append (xs : List Byte) (rest : List Bool) :
    bytesOfBits (bitsOfBytes xs ++ rest) = xs ++ bytesOfBits rest := by
  induction xs with
  | nil => rfl
  | cons x xs ih => rw [bitsOfBytes_cons, List.append_assoc, bytesOfBits_bitsOfByte, ih]; rfl

theorem bytesOfBits_bitsOfBytes (xs : List Byte) : bytesOfBits (bitsOfBytes xs) = xs := by
  have h := bytesOfBits_append xs []
  rwa [List.append_nil, show bytesOfBits [] = [] from rfl, List.append_nil] at h

/-- The byte that eight equal bits make. -/
def levelByte (m : Bool) : Byte := if m then 0xFF else 0x00

theorem bytesOfBits_replicate (m : Bool) (n : Nat) :
    bytesOfBits (List.replicate (8 * n) m) = List.replicate n (levelByte m) := by
  induction n with
  | zero => rfl
  | succ n ih =>
    have h : 8 * (n + 1) = 8 * n + 1 + 1 + 1 + 1 + 1 + 1 + 1 + 1 := by omega
    rw [h]
    simp only [List.replicate_succ, bytesOfBits, ih]
    cases m <;> rfl

/-- The wire bits of n bytes of one level. -/
theorem bitsOfBytes_replicate_levelByte (m : Bool) (n : Nat) :
    bitsOfBytes (List.replicate n (levelByte m)) = List.replicate (8 * n) m := by
  induction n with
  | zero => rfl
  | succ n ih =>
    have hb : bitsOfByte (levelByte m) = List.replicate 8 m := by cases m <;> rfl
    rw [List.replicate_succ, bitsOfBytes_cons, ih, hb, List.replicate_append_replicate]
    congr 1
    omega

theorem addrOfBytes_addrBytes (a : Addr) :
    addrOfBytes (a.extractLsb' 16 8) (a.extractLsb' 8 8) (a.extractLsb' 0 8) = a := by
  apply BitVec.eq_of_getLsbD_eq
  intro i hi
  simp only [addrOfBytes, BitVec.getLsbD_append, BitVec.getLsbD_extractLsb']
  interval_cases i <;> simp

theorem countOfBytes_countBytes (n : Count) :
    countOfBytes (n.extractLsb' 24 8) (n.extractLsb' 16 8) (n.extractLsb' 8 8) (n.extractLsb' 0 8) = n := by
  apply BitVec.eq_of_getLsbD_eq
  intro i hi
  simp only [countOfBytes, BitVec.getLsbD_append, BitVec.getLsbD_extractLsb']
  interval_cases i <;> simp

theorem pageBase_eq (a : Addr) : pageBase a = a.toNat / 256 * 256 := by
  have h : a &&& (0xFFFF00 : Addr) = (a >>> 8) <<< 8 := by
    apply BitVec.eq_of_getLsbD_eq
    intro i hi
    interval_cases i <;> simp
  have ha := a.isLt
  rw [pageBase, h, BitVec.toNat_shiftLeft, BitVec.toNat_ushiftRight, Nat.shiftRight_eq_div_pow, Nat.shiftLeft_eq]
  omega

theorem blockBase_eq (a : Addr) : blockBase a = a.toNat / 65536 * 65536 := by
  have h : a &&& (0xFF0000 : Addr) = (a >>> 16) <<< 16 := by
    apply BitVec.eq_of_getLsbD_eq
    intro i hi
    interval_cases i <;> simp
  have ha := a.isLt
  rw [blockBase, h, BitVec.toNat_shiftLeft, BitVec.toNat_ushiftRight, Nat.shiftRight_eq_div_pow, Nat.shiftLeft_eq]
  omega

theorem programAddr_eq (a : Addr) (i : Nat) :
    programAddr a i = a.toNat / 256 * 256 + (a.toNat % 256 + i) % 256 := by
  have hr : (a.toNat % 256 + i) % 256 < 2 ^ 8 := Nat.mod_lt _ (by decide)
  have h := Nat.shiftLeft_add_eq_or_of_lt hr (a.toNat / 256)
  rw [Nat.shiftLeft_eq] at h
  rw [programAddr, pageBase_eq]
  exact h.symm

theorem programAddr_lt (a : Addr) (i : Nat) : programAddr a i < Config.addressCount := by
  have ha := a.isLt
  rw [programAddr_eq]
  unfold Config.addressCount
  omega

/-- Data that stays inside its page goes to consecutive addresses. -/
theorem programAddr_inside (a : Addr) (i : Nat) (h : a.toNat % 256 + i < 256) : programAddr a i = a.toNat + i := by
  rw [programAddr_eq]
  omega

theorem blockBase_le (a : Addr) : blockBase a + Config.blockSize ≤ Config.addressCount := by
  have ha := a.isLt
  rw [blockBase_eq]
  unfold Config.blockSize Config.addressCount
  omega

theorem readAddr_lt (a : Addr) (i : Nat) : readAddr a i < Config.addressCount := Nat.mod_lt _ (by decide)

/-- A read that does not pass the top of the flash comes from consecutive addresses. -/
theorem readAddr_inside (a : Addr) (i : Nat) (h : a.toNat + i < Config.addressCount) : readAddr a i = a.toNat + i :=
  Nat.mod_eq_of_lt h

/-- The fields of a word of the shape of CSR (10_state.md R36). -/
theorem csr_fields (a b c : BitVec 4) (d : BitVec 1) (e : BitVec 3) :
    let w : BitVec 16 := a ++ b ++ c ++ d ++ e
    w.extractLsb' 0 3 = e ∧ w.extractLsb' 3 1 = d ∧ w.extractLsb' 4 4 = c ∧ w.extractLsb' 8 4 = b ∧
      w.extractLsb' 12 4 = a := by
  refine ⟨?_, ?_, ?_, ?_, ?_⟩ <;> apply BitVec.eq_of_getLsbD_eq <;> intro i hi <;>
    rw [BitVec.getLsbD_extractLsb'] <;> simp only [BitVec.getLsbD_append] <;>
    (have : i = 0 ∨ i = 1 ∨ i = 2 ∨ i = 3 := by omega) <;> (rcases this with rfl | rfl | rfl | rfl) <;> simp_all

end Sys2Proof.Laws
end

