-- ==== Sys2Proof/Laws/Memory.lean ====
section
/-! SUPPORT. The flash array: what a read gives after a write, a fill and a page program; every operation keeps the canonical
form; canonical memories that read alike are equal. -/

namespace Sys2Proof.Laws

open Sys2Proof.Machine

/-! Cells. -/

theorem lookup_insertCell_same (a : Nat) (v : Byte) (cells : List Host.Cell) :
    (insertCell a v cells).lookup a = some v := by
  induction cells with
  | nil => simp [insertCell]
  | cons c cells ih =>
    obtain ⟨b, w⟩ := c
    unfold insertCell
    split
    · simp [List.lookup]
    · split
      · simp [List.lookup]
      · rename_i h
        have : (a == b) = false := by simpa using h
        simp [List.lookup, this, ih]

theorem lookup_insertCell_other {a x : Nat} (v : Byte) (cells : List Host.Cell) (h : x ≠ a) :
    (insertCell a v cells).lookup x = cells.lookup x := by
  have hxa : (x == a) = false := by simpa using h
  induction cells with
  | nil => simp [insertCell, List.lookup, hxa]
  | cons c cells ih =>
    obtain ⟨b, w⟩ := c
    unfold insertCell
    split
    · simp [List.lookup, hxa]
    · split
      · rename_i hab
        subst hab
        simp [List.lookup, hxa]
      · simp only [List.lookup, ih]

theorem lookup_filter_of_kept {x : Nat} {p : Host.Cell → Bool} (cells : List Host.Cell)
    (h : ∀ v, p (x, v) = true) : (cells.filter p).lookup x = cells.lookup x := by
  induction cells with
  | nil => rfl
  | cons c cells ih =>
    obtain ⟨b, w⟩ := c
    by_cases hb : x = b
    · subst hb
      simp [List.lookup, h]
    · have hxb : (x == b) = false := by simpa using hb
      cases hp : p (b, w) <;> simp [List.lookup, hp, hxb, ih]

theorem lookup_filter_of_dropped {x : Nat} {p : Host.Cell → Bool} (cells : List Host.Cell)
    (h : ∀ v, p (x, v) = false) : (cells.filter p).lookup x = none := by
  rw [List.lookup_eq_none_iff]
  intro c hc
  have hc := List.mem_filter.mp hc
  obtain ⟨b, w⟩ := c
  by_contra hxb
  have : x = b := by simpa using hxb
  subst this
  simp [h] at hc

theorem lookup_map_const (x : Nat) (v : Byte) (as : List Nat) :
    (as.map fun a => ((a, v) : Host.Cell)).lookup x = if x ∈ as then some v else none := by
  induction as with
  | nil => rfl
  | cons a as ih =>
    by_cases h : x = a
    · subst h; simp
    · have hxa : (x == a) = false := by simpa using h
      simp [List.lookup, hxa, ih, h]

/-! Reading after writing. -/

@[simp] theorem write_start (m : Memory) (a : Nat) (v : Byte) : (m.write a v).start = m.start := by
  unfold Memory.write; split <;> rfl

@[simp] theorem write_unlisted (m : Memory) (a x : Nat) (v : Byte) : (m.write a v).unlisted x = m.unlisted x := by
  simp [Memory.unlisted]

theorem read_write_same (m : Memory) (a : Nat) (v : Byte) : (m.write a v).read a = v := by
  rw [Memory.read, write_unlisted, Memory.write]
  split
  · rename_i h
    rw [lookup_filter_of_dropped m.cells (by simp)]
    exact h.symm
  · rw [lookup_insertCell_same]; rfl

theorem read_write_other (m : Memory) {a x : Nat} (v : Byte) (h : x ≠ a) : (m.write a v).read x = m.read x := by
  rw [Memory.read, write_unlisted, Memory.read, Memory.write]
  split
  · rw [lookup_filter_of_kept m.cells (by simpa using h)]
  · rw [lookup_insertCell_other v m.cells h]

/-! Filling. -/

@[simp] theorem fill_start (m : Memory) (lo n : Nat) (v : Byte) : (m.fill lo n v).start = m.start := rfl

@[simp] theorem fill_unlisted (m : Memory) (lo n x : Nat) (v : Byte) : (m.fill lo n v).unlisted x = m.unlisted x := rfl

/-- The cells of a fill are those of its range that differ from the start contents. -/
theorem fillCells_eq (m : Memory) (lo n : Nat) (v : Byte) :
    m.fillCells lo n v = ((List.range' lo n).filter fun a => v != m.unlisted a).map fun a => (a, v) := by
  unfold Memory.fillCells Memory.unlisted
  cases m.start with
  | unknown => rfl
  | uniform b =>
    by_cases h : v = b
    · simp [h]
    · have hf : (List.range' lo n).filter (fun _ => v != b) = List.range' lo n :=
        List.filter_eq_self.mpr fun _ _ => by simpa using h
      simp only [if_neg h, hf]

theorem read_fill_inside (m : Memory) {lo n x : Nat} (v : Byte) (h : lo ≤ x ∧ x < lo + n) :
    (m.fill lo n v).read x = v := by
  rw [Memory.read, fill_unlisted, Memory.fill, List.lookup_append, List.lookup_append, fillCells_eq, lookup_map_const,
    lookup_filter_of_dropped m.cells (by simp; omega), lookup_filter_of_dropped m.cells (by simp; omega)]
  by_cases hv : v = m.unlisted x
  · rw [if_neg (by simp [hv])]; exact hv.symm
  · rw [if_pos]
    · rfl
    · rw [List.mem_filter, List.mem_range'_1]
      exact ⟨h, by simpa using hv⟩

theorem read_fill_outside (m : Memory) {lo n x : Nat} (v : Byte) (h : x < lo ∨ lo + n ≤ x) :
    (m.fill lo n v).read x = m.read x := by
  have hmid : (m.fillCells lo n v).lookup x = none := by
    rw [fillCells_eq, lookup_map_const, if_neg]
    rw [List.mem_filter, List.mem_range'_1]
    omega
  rw [Memory.read, fill_unlisted, Memory.fill, List.lookup_append, List.lookup_append, hmid, Memory.read]
  rcases h with h | h
  · rw [lookup_filter_of_kept m.cells (by simpa using h), lookup_filter_of_dropped m.cells (by simp; omega)]
    simp
  · rw [lookup_filter_of_dropped m.cells (by simp; omega), lookup_filter_of_kept m.cells (by simpa using h)]
    simp

/-! The canonical form. -/

theorem mem_insertCell {a : Nat} {v : Byte} {cells : List Host.Cell} {c : Host.Cell} (h : c ∈ insertCell a v cells) :
    c = (a, v) ∨ c ∈ cells := by
  induction cells with
  | nil => left; simpa [insertCell] using h
  | cons d cells ih =>
    obtain ⟨b, w⟩ := d
    unfold insertCell at h
    split at h
    · simpa using h
    · split at h
      · rcases List.mem_cons.mp h with h | h
        · exact .inl h
        · exact .inr (List.mem_cons_of_mem _ h)
      · rcases List.mem_cons.mp h with h | h
        · exact .inr (h ▸ List.mem_cons_self)
        · exact (ih h).imp_right (List.mem_cons_of_mem _)

theorem insertCell_rising {a : Nat} {v : Byte} {cells : List Host.Cell}
    (h : cells.Pairwise fun c c' => c.1 < c'.1) : (insertCell a v cells).Pairwise fun c c' => c.1 < c'.1 := by
  induction cells with
  | nil => simp [insertCell]
  | cons d cells ih =>
    obtain ⟨b, w⟩ := d
    have hd := List.pairwise_cons.mp h
    unfold insertCell
    split
    · rename_i hab
      refine List.pairwise_cons.mpr ⟨fun c hc => ?_, h⟩
      rcases List.mem_cons.mp hc with hc | hc
      · simpa [hc] using hab
      · exact Nat.lt_trans hab (hd.1 c hc)
    · split
      · rename_i hab
        subst hab
        exact List.pairwise_cons.mpr hd
      · refine List.pairwise_cons.mpr ⟨fun c hc => ?_, ih hd.2⟩
        rcases mem_insertCell hc with hc | hc
        · simp only [hc]; omega
        · exact hd.1 c hc

theorem write_wf {m : Memory} {a : Nat} {v : Byte} (h : m.wf) (ha : a < Config.addressCount) : (m.write a v).wf := by
  refine ⟨?_, fun c hc => ?_⟩
  · unfold Memory.write
    split
    · exact h.1.filter _
    · exact insertCell_rising h.1
  · rw [write_unlisted]
    unfold Memory.write at hc
    split at hc
    · exact h.2 c (List.mem_filter.mp hc).1
    · rename_i hv
      rcases mem_insertCell hc with hc | hc
      · subst hc; exact ⟨ha, hv⟩
      · exact h.2 c hc

theorem fillCells_bounds {m : Memory} {lo n : Nat} {v : Byte} {c : Host.Cell} (h : c ∈ m.fillCells lo n v) :
    lo ≤ c.1 ∧ c.1 < lo + n ∧ c.2 = v ∧ v ≠ m.unlisted c.1 := by
  rw [fillCells_eq, List.mem_map] at h
  obtain ⟨a, ha, rfl⟩ := h
  rw [List.mem_filter, List.mem_range'_1] at ha
  exact ⟨ha.1.1, ha.1.2, rfl, by simpa using ha.2⟩

theorem fillCells_rising (m : Memory) (lo n : Nat) (v : Byte) :
    (m.fillCells lo n v).Pairwise fun c c' => c.1 < c'.1 := by
  rw [fillCells_eq, List.pairwise_map]
  exact (List.pairwise_lt_range' (s := lo) (n := n)).filter _

theorem fill_wf {m : Memory} {lo n : Nat} {v : Byte} (h : m.wf) (hn : lo + n ≤ Config.addressCount) :
    (m.fill lo n v).wf := by
  refine ⟨?_, fun c hc => ?_⟩
  · unfold Memory.fill
    rw [List.pairwise_append, List.pairwise_append]
    refine ⟨⟨h.1.filter _, fillCells_rising m lo n v, fun c hc d hd => ?_⟩, h.1.filter _, fun c hc d hd => ?_⟩
    · have hc := (List.mem_filter.mp hc).2
      have hd := fillCells_bounds hd
      simp only [decide_eq_true_eq] at hc
      omega
    · have hd := (List.mem_filter.mp hd).2
      simp only [decide_eq_true_eq] at hd
      rcases List.mem_append.mp hc with hc | hc
      · have hc := (List.mem_filter.mp hc).2
        simp only [decide_eq_true_eq] at hc
        omega
      · have hc := fillCells_bounds hc
        omega
  · rw [fill_unlisted]
    unfold Memory.fill at hc
    rcases List.mem_append.mp hc with hc | hc
    · rcases List.mem_append.mp hc with hc | hc
      · exact h.2 c (List.mem_filter.mp hc).1
      · have hb := fillCells_bounds hc
        exact ⟨by omega, hb.2.2.1 ▸ hb.2.2.2⟩
    · exact h.2 c (List.mem_filter.mp hc).1

theorem programFrom_wf {a : Addr} {data : List Byte} : ∀ {i : Nat} {m : Memory}, m.wf →
    (Memory.programFrom a i data m).wf := by
  induction data with
  | nil => exact fun h => h
  | cons d data ih => exact fun h => ih (write_wf h (programAddr_lt a _))

/-! A page program. -/

theorem programFrom_start {a : Addr} {data : List Byte} : ∀ {i : Nat} {m : Memory},
    (Memory.programFrom a i data m).start = m.start := by
  induction data with
  | nil => intro i m; rfl
  | cons d data ih => intro i m; rw [Memory.programFrom, ih, write_start]

/-- A byte that no data byte of the page program goes to is unchanged. -/
theorem read_programFrom_other {a : Addr} {x : Nat} {data : List Byte} : ∀ {i : Nat} {m : Memory},
    (∀ j, i ≤ j → j < i + data.length → programAddr a j ≠ x) → (Memory.programFrom a i data m).read x = m.read x := by
  induction data with
  | nil => exact fun _ => rfl
  | cons d data ih =>
    intro i m h
    rw [Memory.programFrom, ih fun j hj hj' => h j (by omega) (by simp only [List.length_cons]; omega)]
    exact read_write_other m _ (Ne.symm (h i (Nat.le_refl i) (by simp)))

/-- Two indices less than 256 apart go to different addresses. -/
theorem programAddr_ne (a : Addr) {i j : Nat} (h : i < j) (h' : j < i + 256) : programAddr a i ≠ programAddr a j := by
  rw [programAddr_eq, programAddr_eq]
  omega

/-- A data byte of a page program of at most 256 bytes leaves old & new at its address (20_memory.md R74). -/
theorem read_programFrom_at {a : Addr} {data : List Byte} : ∀ {i : Nat} {m : Memory} {k : Nat} (hk : k < data.length),
    data.length ≤ 256 →
    (Memory.programFrom a i data m).read (programAddr a (i + k)) = m.read (programAddr a (i + k)) &&& data[k] := by
  induction data with
  | nil => intro i m k hk; simp at hk
  | cons d data ih =>
    intro i m k hk hlen
    simp only [List.length_cons] at hk hlen
    cases k with
    | zero =>
      rw [Memory.programFrom, read_programFrom_other]
      · simp [read_write_same]
      · intro j hj hj'
        exact (programAddr_ne a (by omega) (by omega)).symm
    | succ k =>
      rw [Memory.programFrom, show i + (k + 1) = i + 1 + k by omega, ih (by omega) (by omega),
        read_write_other m _ (programAddr_ne a (by omega) (by omega)).symm]
      rfl

/-! Equal memories are equal data. -/

theorem cells_ext {cells cells' : List Host.Cell} (h : cells.Pairwise fun c c' => c.1 < c'.1)
    (h' : cells'.Pairwise fun c c' => c.1 < c'.1) (hl : ∀ x, cells.lookup x = cells'.lookup x) : cells = cells' := by
  induction cells generalizing cells' with
  | nil =>
    cases cells' with
    | nil => rfl
    | cons d _ => have := hl d.1; simp [List.lookup] at this
  | cons c cells ih =>
    cases cells' with
    | nil => have := hl c.1; simp [List.lookup] at this
    | cons d cells' =>
      obtain ⟨a, v⟩ := c
      obtain ⟨b, w⟩ := d
      have hc := List.pairwise_cons.mp h
      have hd := List.pairwise_cons.mp h'
      have none_below : ∀ {l : List Host.Cell} {x y : Nat}, (∀ c ∈ l, y < c.1) → x ≤ y → l.lookup x = none := by
        intro l x y hb hxy
        rw [List.lookup_eq_none_iff]
        intro c hc
        have := hb c hc
        simp only [bne_iff_ne, ne_eq]
        omega
      have hab : a = b := by
        rcases Nat.lt_trichotomy a b with hlt | heq | hlt
        · have := hl a
          have hn : (a == b) = false := by simpa using Nat.ne_of_lt hlt
          simp [List.lookup, hn, none_below hd.1 (Nat.le_of_lt hlt)] at this
        · exact heq
        · have := hl b
          have hn : (b == a) = false := by simpa using Nat.ne_of_lt hlt
          simp [List.lookup, hn, none_below hc.1 (Nat.le_of_lt hlt)] at this
      subst hab
      have hvw : v = w := by have := hl a; simpa [List.lookup] using this
      subst hvw
      rw [ih hc.2 hd.2]
      intro x
      by_cases hx : x = a
      · subst hx
        rw [none_below hc.1 (Nat.le_refl x), none_below hd.1 (Nat.le_refl x)]
      · have hn : (x == a) = false := by simpa using hx
        have := hl x
        simpa [List.lookup, hn] using this

theorem lookup_eq_of_wf {m : Memory} (h : m.wf) (x : Nat) :
    m.cells.lookup x = if m.read x = m.unlisted x then none else some (m.read x) := by
  cases hl : m.cells.lookup x with
  | none => simp [Memory.read, hl]
  | some v =>
    have hmem : (x, v) ∈ m.cells := by
      obtain ⟨l₁, l₂, heq, -⟩ := List.lookup_eq_some_iff.mp hl
      simp [heq]
    have hr : m.read x = v := by simp [Memory.read, hl]
    rw [hr, if_neg (h.2 _ hmem).2]

/-- Two canonical memories with the same start contents that read alike are the same data. -/
theorem memory_ext {m m' : Memory} (h : m.wf) (h' : m'.wf) (hs : m.start = m'.start) (hr : ∀ x, m.read x = m'.read x) :
    m = m' := by
  have hu : ∀ x, m.unlisted x = m'.unlisted x := by simp [Memory.unlisted, hs]
  have hc : m.cells = m'.cells :=
    cells_ext h.1 h'.1 fun x => by rw [lookup_eq_of_wf h, lookup_eq_of_wf h', hr, hu]
  cases m
  cases m'
  simp_all

end Sys2Proof.Laws
end

