-- ==== Sys2Proof/Laws/Device.lean ====
section
/-! SUPPORT. The reference device: what each frame of 30_encoding.md R101 does at its end, what every frame keeps, and what a
READ and an RDSR present. -/

namespace Sys2Proof.Laws

open Sys2Proof.Machine

/-! Draws use up inputs and nothing else. -/

/-- The device neither ignores frames for low power nor for being busy. -/
theorem not_ignores_of_ready {d : Device} (hpd : d.pd = false) (hb : d.busy = .polls 0) (op : Byte) :
    d.ignores op = false := by
  simp [Device.ignores, hpd, hb, stillBusy]

theorem not_ignores_status {d : Device} (hpd : d.pd = false) : d.ignores 0x05 = false := by
  simp [Device.ignores, hpd]

/-! The end of each frame. -/

theorem takeFrame_wake (rest : List Byte) (d : Device) (e : Env) :
    d.takeFrame (0xAB :: rest) e = ({ d with pd := false }, e) := rfl

/-- Any frame but WAKE that the device ignores changes nothing (20_memory.md R67, R68). -/
theorem takeFrame_ignored {d : Device} {op : Byte} (rest : List Byte) (e : Env) (hop : op ≠ 0xAB)
    (h : d.ignores op = true) : d.takeFrame (op :: rest) e = (d, e) := by
  have hc : (op != 0xAB && d.ignores op) = true := by simpa [h] using hop
  simp only [Device.takeFrame, hc, if_true]

theorem takeFrame_obeyed {d : Device} {op : Byte} (rest : List Byte) (e : Env) (h : d.ignores op = false) :
    d.takeFrame (op :: rest) e = d.obey op rest e := by
  simp [Device.takeFrame, h]

theorem obey_status (rest : List Byte) (d : Device) (e : Env) :
    d.obey 0x05 rest e = ({ d with busy := afterPoll d.busy }, e) := rfl

theorem obey_wren (rest : List Byte) (d : Device) (e : Env) : d.obey 0x06 rest e = ({ d with wel := true }, e) := rfl

theorem obey_wrdi (rest : List Byte) (d : Device) (e : Env) : d.obey 0x04 rest e = ({ d with wel := false }, e) := rfl

theorem obey_read (rest : List Byte) (d : Device) (e : Env) : d.obey 0x03 rest e = (d, e) := rfl

theorem obey_pp (a : Addr) (data : List Byte) (d : Device) (e : Env) :
    d.obey 0x02 (addrBytes a ++ data) e = d.program a data e := by
  show d.program (addrOfBytes _ _ _) data e = _
  rw [addrOfBytes_addrBytes]

theorem obey_be (a : Addr) (d : Device) (e : Env) : d.obey 0xD8 (addrBytes a) e = d.eraseBlock a e := by
  show d.eraseBlock (addrOfBytes _ _ _) e = _
  rw [addrOfBytes_addrBytes]

/-- WREN then PP below FLASH_SIZE: the data is ANDed in, wel is 0, busy is drawn (20_memory.md R71, R74). -/
theorem program_latched {d : Device} (a : Addr) (data : List Byte) (e : Env) (h : d.wel = true)
    (hi : d.insideProgram a data = true) :
    d.program a data e =
      ({ d with mem := Memory.programFrom a 0 data d.mem, wel := false, busy := e.drawBusy.1 }, e.drawBusy.2) := by
  rw [Device.program, if_pos h, if_pos hi]

/-- WREN then BE below FLASH_SIZE: the block is FF, wel is 0, busy is drawn (20_memory.md R71, R75). -/
theorem eraseBlock_latched {d : Device} (a : Addr) (e : Env) (h : d.wel = true) (hi : d.insideErase a = true) :
    d.eraseBlock a e =
      ({ d with mem := d.mem.fill (blockBase a) Config.blockSize 0xFF, wel := false, busy := e.drawBusy.1 }, e.drawBusy.2) := by
  rw [Device.eraseBlock, if_pos h, if_pos hi]

/-- An array none of whose bytes is written is canonical. -/
theorem wf_drawn (k : Nat) : Memory.wf ⟨.unknown k, []⟩ := ⟨List.Pairwise.nil, fun _ h => absurd h List.not_mem_nil⟩

/-! What every frame keeps. -/

/-- What a frame's end keeps whatever the frame does: the canonical form, FLASH_SIZE, and being awake (60_exceptions.md R247). -/
def ChipKept (d t : Device) : Prop :=
  (d.mem.wf → t.mem.wf) ∧ (d.pd = false → t.pd = false) ∧ t.flashSize = d.flashSize

theorem ChipKept.refl (d : Device) : ChipKept d d := ⟨id, id, rfl⟩

/-- What a PP or BE that the latch lets through changes: the array, the latch, busy (20_memory.md R74, R75, R80). -/
theorem program_turnsBusy {d : Device} (a : Addr) (data : List Byte) (e : Env) (h : d.wel = true) :
    ∃ m w c, d.program a data e =
      ({ d with mem := m, wel := w, busy := e.drawBusy.1 }, { e.drawBusy.2 with count := c }) := by
  unfold Device.program
  rw [if_pos h]
  split
  · exact ⟨_, _, _, rfl⟩
  · exact ⟨_, _, _, rfl⟩

theorem eraseBlock_turnsBusy {d : Device} (a : Addr) (e : Env) (h : d.wel = true) :
    ∃ m w c, d.eraseBlock a e =
      ({ d with mem := m, wel := w, busy := e.drawBusy.1 }, { e.drawBusy.2 with count := c }) := by
  unfold Device.eraseBlock
  rw [if_pos h]
  split
  · exact ⟨_, _, _, rfl⟩
  · exact ⟨_, _, _, rfl⟩

theorem program_keeps {d : Device} (a : Addr) (data : List Byte) (e : Env) :
    ChipKept d (d.program a data e).1 := by
  unfold Device.program
  split
  · split
    · exact ⟨programFrom_wf, id, rfl⟩
    · exact ⟨fun _ => wf_drawn _, id, rfl⟩
  · exact .refl _

theorem eraseBlock_keeps {d : Device} (a : Addr) (e : Env) : ChipKept d (d.eraseBlock a e).1 := by
  unfold Device.eraseBlock
  split
  · split
    · exact ⟨fun h => fill_wf h (blockBase_le a), id, rfl⟩
    · exact ⟨fun _ => wf_drawn _, id, rfl⟩
  · exact .refl _

/-- No frame breaks the canonical form, and none puts the chip into its low-power state (60_exceptions.md R247). -/
theorem obey_keeps {d : Device} (op : Byte) (rest : List Byte) (e : Env) :
    ChipKept d (d.obey op rest e).1 := by
  unfold Device.obey
  split
  · exact ⟨id, fun _ => rfl, rfl⟩
  split
  · exact ⟨id, id, rfl⟩
  split
  · exact ⟨id, id, rfl⟩
  split
  · exact ⟨id, id, rfl⟩
  split
  · split
    · exact program_keeps _ _ e
    · exact .refl _
  split
  · split
    · exact eraseBlock_keeps _ e
    · exact .refl _
  · exact .refl _

theorem takeFrame_keeps {d : Device} (bytes : List Byte) (e : Env) :
    ChipKept d (d.takeFrame bytes e).1 := by
  unfold Device.takeFrame
  split
  · exact .refl _
  · split
    · exact .refl _
    · exact obey_keeps _ _ e

/-! Whole commands. -/

/-- A whole command stays one with more bytes after it. -/
theorem isWholeCommand_append {xs : List Byte} (h : isWholeCommand xs = true) (ys : List Byte) :
    isWholeCommand (xs ++ ys) = true := by
  unfold isWholeCommand at h
  split at h <;> first | rfl | exact absurd h (by decide)

theorem isWholeCommand_pp (a : Addr) (data : List Byte) : isWholeCommand (addressed 0x02 a ++ data) = true := rfl

theorem isWholeCommand_be (a : Addr) : isWholeCommand (addressed 0xD8 a) = true := rfl

theorem isWholeCommand_read (a : Addr) : isWholeCommand (addressed 0x03 a) = true := rfl

/-- The end of a frame of whole bytes that make a whole command (20_memory.md R66). -/
theorem deselect_whole {d : Device} {bytes : List Byte} (hb : d.received = bitsOfBytes bytes)
    (hw : isWholeCommand bytes = true) (e : Env) :
    d.deselect e = ({ (d.takeFrame bytes e).1 with fbits := [] }, (d.takeFrame bytes e).2) := by
  have hlen : d.fbits.length = 8 * bytes.length := by
    rw [← bitsOfBytes_length, ← hb, Device.received, List.length_reverse]
  have hwhole : d.wholeCommand = true := by
    rw [Device.wholeCommand, hb, bytesOfBits_bitsOfBytes, hw, hlen]
    simp
  rw [Device.deselect, Device.frameHasRule, hwhole, Bool.or_true, if_pos rfl, hb, bytesOfBits_bitsOfBytes]

/-- After a frame's end no frame is being received. -/
theorem deselect_fbits (d : Device) (e : Env) : (d.deselect e).1.fbits = [] := by
  unfold Device.deselect
  split <;> rfl

/-! Answers. -/

/-- fbits after the bits of these bytes have been received in a fresh frame, and then k more bits of level m. -/
def frameBits (out : List Byte) (m : Bool) (k : Nat) : List Bool :=
  List.replicate k m ++ (bitsOfBytes out).reverse

theorem received_frameBits (out : List Byte) (m : Bool) (k : Nat) :
    (frameBits out m k).reverse = bitsOfBytes out ++ List.replicate k m := by
  simp [frameBits]

theorem frameBits_length (out : List Byte) (m : Bool) (k : Nat) : (frameBits out m k).length = k + 8 * out.length := by
  simp [frameBits]

/-- The bytes a frame is made of at the device: those sent, then one byte of the idle MOSI level for each byte read. -/
theorem bytesOfBits_frame (out : List Byte) (m : Bool) (n : Nat) :
    bytesOfBits (frameBits out m (8 * n)).reverse = out ++ List.replicate n (levelByte m) := by
  rw [received_frameBits, bytesOfBits_append, bytesOfBits_replicate]

theorem answer_of_bytes {d : Device} {op : Byte} {rest : List Byte} (h : bytesOfBits (d.received.take 32) = op :: rest) :
    d.answer = d.answerTo op rest d.fbits.length := by
  rw [Device.answer, h]

/-- Bit j of the read phase of a READ that is not ignored (20_memory.md R65, R73): the flash's below FLASH_SIZE, and else a draw
(R80). -/
theorem answer_read {d : Device} {a : Addr} {m : Bool} {j : Nat} (hf : d.fbits = frameBits (addressed 0x03 a) m (j + 1))
    (hi : d.ignores 0x03 = false) : d.answer = if d.insideRead a j then some (d.readBit a j) else none := by
  have hlen : (bitsOfBytes (addressed 0x03 a)).length = 32 := rfl
  have hbytes : bytesOfBits (d.received.take 32) = 0x03 :: addrBytes a := by
    rw [Device.received, hf, received_frameBits, List.take_append_of_le_length (by rw [hlen]),
      List.take_of_length_le (by rw [hlen]), bytesOfBits_bitsOfBytes]
    rfl
  have hn : d.fbits.length = j + 33 := by rw [hf, frameBits_length]; rfl
  rw [answer_of_bytes hbytes, hn]
  unfold Device.answerTo
  rw [hi]
  simp [addrBytes, addrOfBytes_addrBytes]

/-- Bit j of the status byte: the busy flag is bit 0, the last one; the others are draws (20_memory.md R70). -/
theorem answer_status {d : Device} {m : Bool} {j : Nat} (hj : j < 8) (hf : d.fbits = frameBits [0x05] m (j + 1))
    (hpd : d.pd = false) : d.answer = if j = 7 then some (stillBusy d.busy) else none := by
  have hbytes : bytesOfBits (d.received.take 32) = 0x05 :: bytesOfBits (List.replicate (j + 1) m) := by
    rw [Device.received, hf, received_frameBits, List.take_of_length_le (by simp; omega), bytesOfBits_append]
    rfl
  have hn : d.fbits.length = j + 9 := by rw [hf, frameBits_length]; rfl
  rw [answer_of_bytes hbytes, hn]
  unfold Device.answerTo
  rw [not_ignores_status hpd]
  simp

/-- A frame that the device ignores answers nothing: every bit is a draw (20_memory.md R67, R68). -/
theorem answer_ignored {d : Device} {op : Byte} {out : List Byte} {m : Bool} {k : Nat}
    (hf : d.fbits = frameBits (op :: out) m k) (hi : d.ignores op = true) (ho : out.length ≤ 3) : d.answer = none := by
  have hlen : (bitsOfBytes (op :: out)).length = 8 + 8 * out.length := by rw [bitsOfBytes_length]; simp; omega
  have hbytes : ∃ rest, bytesOfBits (d.received.take 32) = op :: rest := by
    rw [Device.received, hf, received_frameBits, List.take_append, List.take_of_length_le (by omega), bytesOfBits_append]
    exact ⟨_, rfl⟩
  obtain ⟨rest, hbytes⟩ := hbytes
  rw [answer_of_bytes hbytes]
  unfold Device.answerTo
  rw [if_pos hi]

end Sys2Proof.Laws
end

