-- ==== Sys2Proof/Laws/State.lean ====
section
/-! SUPPORT. One lemma for each field and each named update of State: what the update leaves in the field. Later proofs
rewrite with these and unfold no record update. -/

namespace Sys2Proof.Laws

open Sys2Proof.Machine

/-! emit: one event appended (10_state.md R44). -/

@[simp] theorem emit_cfg (ev : Event) (s : State) : (emit ev s).cfg = s.cfg := rfl
@[simp] theorem emit_pins (ev : Event) (s : State) : (emit ev s).pins = s.pins := rfl
@[simp] theorem emit_sess (ev : Event) (s : State) : (emit ev s).sess = s.sess := rfl
@[simp] theorem emit_busOwner (ev : Event) (s : State) : (emit ev s).busOwner = s.busOwner := rfl
@[simp] theorem emit_shreg (ev : Event) (s : State) : (emit ev s).shreg = s.shreg := rfl
@[simp] theorem emit_bitcnt (ev : Event) (s : State) : (emit ev s).bitcnt = s.bitcnt := rfl
@[simp] theorem emit_addrR (ev : Event) (s : State) : (emit ev s).addrR = s.addrR := rfl
@[simp] theorem emit_lenR (ev : Event) (s : State) : (emit ev s).lenR = s.lenR := rfl
@[simp] theorem emit_offR (ev : Event) (s : State) : (emit ev s).offR = s.offR := rfl
@[simp] theorem emit_pollR (ev : Event) (s : State) : (emit ev s).pollR = s.pollR := rfl
@[simp] theorem emit_lastCode (ev : Event) (s : State) : (emit ev s).lastCode = s.lastCode := rfl
@[simp] theorem emit_sessErr (ev : Event) (s : State) : (emit ev s).sessErr = s.sessErr := rfl
@[simp] theorem emit_errInfo (ev : Event) (s : State) : (emit ev s).errInfo = s.errInfo := rfl
@[simp] theorem emit_progress (ev : Event) (s : State) : (emit ev s).progress = s.progress := rfl
@[simp] theorem emit_seq (ev : Event) (s : State) : (emit ev s).seq = s.seq := rfl
@[simp] theorem emit_tr (ev : Event) (s : State) : (emit ev s).tr = ev :: s.tr := rfl
@[simp] theorem emit_host (ev : Event) (s : State) : (emit ev s).host = s.host := rfl
@[simp] theorem emit_out (ev : Event) (s : State) : (emit ev s).out = s.out := rfl
@[simp] theorem emit_env (ev : Event) (s : State) : (emit ev s).env = s.env := rfl
@[simp] theorem emit_dev (ev : Event) (s : State) : (emit ev s).dev = s.dev := rfl

/-! delay: DELAY is an event only. -/

@[simp] theorem delay_cfg (s : State) : (delay s).cfg = s.cfg := rfl
@[simp] theorem delay_pins (s : State) : (delay s).pins = s.pins := rfl
@[simp] theorem delay_sess (s : State) : (delay s).sess = s.sess := rfl
@[simp] theorem delay_busOwner (s : State) : (delay s).busOwner = s.busOwner := rfl
@[simp] theorem delay_shreg (s : State) : (delay s).shreg = s.shreg := rfl
@[simp] theorem delay_bitcnt (s : State) : (delay s).bitcnt = s.bitcnt := rfl
@[simp] theorem delay_addrR (s : State) : (delay s).addrR = s.addrR := rfl
@[simp] theorem delay_lenR (s : State) : (delay s).lenR = s.lenR := rfl
@[simp] theorem delay_offR (s : State) : (delay s).offR = s.offR := rfl
@[simp] theorem delay_pollR (s : State) : (delay s).pollR = s.pollR := rfl
@[simp] theorem delay_lastCode (s : State) : (delay s).lastCode = s.lastCode := rfl
@[simp] theorem delay_sessErr (s : State) : (delay s).sessErr = s.sessErr := rfl
@[simp] theorem delay_errInfo (s : State) : (delay s).errInfo = s.errInfo := rfl
@[simp] theorem delay_progress (s : State) : (delay s).progress = s.progress := rfl
@[simp] theorem delay_seq (s : State) : (delay s).seq = s.seq := rfl
@[simp] theorem delay_tr (s : State) : (delay s).tr = .delay :: s.tr := rfl
@[simp] theorem delay_host (s : State) : (delay s).host = s.host := rfl
@[simp] theorem delay_out (s : State) : (delay s).out = s.out := rfl
@[simp] theorem delay_env (s : State) : (delay s).env = s.env := rfl
@[simp] theorem delay_dev (s : State) : (delay s).dev = s.dev := rfl

/-! hold: HOLD is an event only. -/

@[simp] theorem hold_cfg (s : State) : (hold s).cfg = s.cfg := rfl
@[simp] theorem hold_pins (s : State) : (hold s).pins = s.pins := rfl
@[simp] theorem hold_sess (s : State) : (hold s).sess = s.sess := rfl
@[simp] theorem hold_busOwner (s : State) : (hold s).busOwner = s.busOwner := rfl
@[simp] theorem hold_shreg (s : State) : (hold s).shreg = s.shreg := rfl
@[simp] theorem hold_bitcnt (s : State) : (hold s).bitcnt = s.bitcnt := rfl
@[simp] theorem hold_addrR (s : State) : (hold s).addrR = s.addrR := rfl
@[simp] theorem hold_lenR (s : State) : (hold s).lenR = s.lenR := rfl
@[simp] theorem hold_offR (s : State) : (hold s).offR = s.offR := rfl
@[simp] theorem hold_pollR (s : State) : (hold s).pollR = s.pollR := rfl
@[simp] theorem hold_lastCode (s : State) : (hold s).lastCode = s.lastCode := rfl
@[simp] theorem hold_sessErr (s : State) : (hold s).sessErr = s.sessErr := rfl
@[simp] theorem hold_errInfo (s : State) : (hold s).errInfo = s.errInfo := rfl
@[simp] theorem hold_progress (s : State) : (hold s).progress = s.progress := rfl
@[simp] theorem hold_seq (s : State) : (hold s).seq = s.seq := rfl
@[simp] theorem hold_tr (s : State) : (hold s).tr = .hold :: s.tr := rfl
@[simp] theorem hold_host (s : State) : (hold s).host = s.host := rfl
@[simp] theorem hold_out (s : State) : (hold s).out = s.out := rfl
@[simp] theorem hold_env (s : State) : (hold s).env = s.env := rfl
@[simp] theorem hold_dev (s : State) : (hold s).dev = s.dev := rfl

/-! drive: SET (00_scope.md R9). -/

@[simp] theorem drive_cfg (r : Role) (b : Bool) (s : State) : (drive r b s).cfg = s.cfg := rfl
@[simp] theorem drive_pins (r : Role) (b : Bool) (s : State) : (drive r b s).pins = s.pins.set r (.output b) := rfl
@[simp] theorem drive_sess (r : Role) (b : Bool) (s : State) : (drive r b s).sess = s.sess := rfl
@[simp] theorem drive_busOwner (r : Role) (b : Bool) (s : State) : (drive r b s).busOwner = s.busOwner := rfl
@[simp] theorem drive_shreg (r : Role) (b : Bool) (s : State) : (drive r b s).shreg = s.shreg := rfl
@[simp] theorem drive_bitcnt (r : Role) (b : Bool) (s : State) : (drive r b s).bitcnt = s.bitcnt := rfl
@[simp] theorem drive_addrR (r : Role) (b : Bool) (s : State) : (drive r b s).addrR = s.addrR := rfl
@[simp] theorem drive_lenR (r : Role) (b : Bool) (s : State) : (drive r b s).lenR = s.lenR := rfl
@[simp] theorem drive_offR (r : Role) (b : Bool) (s : State) : (drive r b s).offR = s.offR := rfl
@[simp] theorem drive_pollR (r : Role) (b : Bool) (s : State) : (drive r b s).pollR = s.pollR := rfl
@[simp] theorem drive_lastCode (r : Role) (b : Bool) (s : State) : (drive r b s).lastCode = s.lastCode := rfl
@[simp] theorem drive_sessErr (r : Role) (b : Bool) (s : State) : (drive r b s).sessErr = s.sessErr := rfl
@[simp] theorem drive_errInfo (r : Role) (b : Bool) (s : State) : (drive r b s).errInfo = s.errInfo := rfl
@[simp] theorem drive_progress (r : Role) (b : Bool) (s : State) : (drive r b s).progress = s.progress := rfl
@[simp] theorem drive_seq (r : Role) (b : Bool) (s : State) : (drive r b s).seq = s.seq := rfl
@[simp] theorem drive_tr (r : Role) (b : Bool) (s : State) : (drive r b s).tr = .set r b :: s.tr := rfl
@[simp] theorem drive_host (r : Role) (b : Bool) (s : State) : (drive r b s).host = s.host := rfl
@[simp] theorem drive_out (r : Role) (b : Bool) (s : State) : (drive r b s).out = s.out := rfl
@[simp] theorem drive_env (r : Role) (b : Bool) (s : State) : (drive r b s).env = (edge r b s.pins s.dev s.env).2 := rfl
@[simp] theorem drive_dev (r : Role) (b : Bool) (s : State) : (drive r b s).dev = (edge r b s.pins s.dev s.env).1 := rfl

/-! recordResult: the result registers (60_exceptions.md R232). -/

@[simp] theorem recordResult_cfg (c : Code) (i : Info) (s : State) : (recordResult c i s).cfg = s.cfg := rfl
@[simp] theorem recordResult_pins (c : Code) (i : Info) (s : State) : (recordResult c i s).pins = s.pins := rfl
@[simp] theorem recordResult_sess (c : Code) (i : Info) (s : State) : (recordResult c i s).sess = s.sess := rfl
@[simp] theorem recordResult_busOwner (c : Code) (i : Info) (s : State) : (recordResult c i s).busOwner = s.busOwner := rfl
@[simp] theorem recordResult_shreg (c : Code) (i : Info) (s : State) : (recordResult c i s).shreg = s.shreg := rfl
@[simp] theorem recordResult_bitcnt (c : Code) (i : Info) (s : State) : (recordResult c i s).bitcnt = s.bitcnt := rfl
@[simp] theorem recordResult_addrR (c : Code) (i : Info) (s : State) : (recordResult c i s).addrR = s.addrR := rfl
@[simp] theorem recordResult_lenR (c : Code) (i : Info) (s : State) : (recordResult c i s).lenR = s.lenR := rfl
@[simp] theorem recordResult_offR (c : Code) (i : Info) (s : State) : (recordResult c i s).offR = s.offR := rfl
@[simp] theorem recordResult_pollR (c : Code) (i : Info) (s : State) : (recordResult c i s).pollR = s.pollR := rfl
@[simp] theorem recordResult_lastCode (c : Code) (i : Info) (s : State) : (recordResult c i s).lastCode = c := rfl
@[simp] theorem recordResult_sessErr (c : Code) (i : Info) (s : State) : (recordResult c i s).sessErr = if c ≠ .ok ∧ s.sess ≠ .released ∧ s.sessErr = .ok then c else s.sessErr := rfl
@[simp] theorem recordResult_errInfo (c : Code) (i : Info) (s : State) : (recordResult c i s).errInfo = if c = .ok then s.errInfo else i := rfl
@[simp] theorem recordResult_progress (c : Code) (i : Info) (s : State) : (recordResult c i s).progress = s.progress := rfl
@[simp] theorem recordResult_seq (c : Code) (i : Info) (s : State) : (recordResult c i s).seq = s.seq := rfl
@[simp] theorem recordResult_tr (c : Code) (i : Info) (s : State) : (recordResult c i s).tr = s.tr := rfl
@[simp] theorem recordResult_host (c : Code) (i : Info) (s : State) : (recordResult c i s).host = s.host := rfl
@[simp] theorem recordResult_out (c : Code) (i : Info) (s : State) : (recordResult c i s).out = s.out := rfl
@[simp] theorem recordResult_env (c : Code) (i : Info) (s : State) : (recordResult c i s).env = s.env := rfl
@[simp] theorem recordResult_dev (c : Code) (i : Info) (s : State) : (recordResult c i s).dev = s.dev := rfl

/-! answerHost: the response (41_commands.md R150). -/

@[simp] theorem answerHost_cfg (r : Response) (s : State) : (answerHost r s).cfg = s.cfg := rfl
@[simp] theorem answerHost_pins (r : Response) (s : State) : (answerHost r s).pins = s.pins := rfl
@[simp] theorem answerHost_sess (r : Response) (s : State) : (answerHost r s).sess = s.sess := rfl
@[simp] theorem answerHost_busOwner (r : Response) (s : State) : (answerHost r s).busOwner = s.busOwner := rfl
@[simp] theorem answerHost_shreg (r : Response) (s : State) : (answerHost r s).shreg = s.shreg := rfl
@[simp] theorem answerHost_bitcnt (r : Response) (s : State) : (answerHost r s).bitcnt = s.bitcnt := rfl
@[simp] theorem answerHost_addrR (r : Response) (s : State) : (answerHost r s).addrR = s.addrR := rfl
@[simp] theorem answerHost_lenR (r : Response) (s : State) : (answerHost r s).lenR = s.lenR := rfl
@[simp] theorem answerHost_offR (r : Response) (s : State) : (answerHost r s).offR = s.offR := rfl
@[simp] theorem answerHost_pollR (r : Response) (s : State) : (answerHost r s).pollR = s.pollR := rfl
@[simp] theorem answerHost_lastCode (r : Response) (s : State) : (answerHost r s).lastCode = s.lastCode := rfl
@[simp] theorem answerHost_sessErr (r : Response) (s : State) : (answerHost r s).sessErr = s.sessErr := rfl
@[simp] theorem answerHost_errInfo (r : Response) (s : State) : (answerHost r s).errInfo = s.errInfo := rfl
@[simp] theorem answerHost_progress (r : Response) (s : State) : (answerHost r s).progress = s.progress := rfl
@[simp] theorem answerHost_seq (r : Response) (s : State) : (answerHost r s).seq = .portIdle := rfl
@[simp] theorem answerHost_tr (r : Response) (s : State) : (answerHost r s).tr = s.tr := rfl
@[simp] theorem answerHost_host (r : Response) (s : State) : (answerHost r s).host = s.host := rfl
@[simp] theorem answerHost_out (r : Response) (s : State) : (answerHost r s).out = r :: s.out := rfl
@[simp] theorem answerHost_env (r : Response) (s : State) : (answerHost r s).env = s.env := rfl
@[simp] theorem answerHost_dev (r : Response) (s : State) : (answerHost r s).dev = s.dev := rfl

/-! finish: the end of an op (60_exceptions.md R232). -/

@[simp] theorem finish_cfg (c : Code) (i : Info) (data : List Byte) (s : State) : (finish c i data s).cfg = s.cfg := rfl
@[simp] theorem finish_pins (c : Code) (i : Info) (data : List Byte) (s : State) : (finish c i data s).pins = s.pins := rfl
@[simp] theorem finish_sess (c : Code) (i : Info) (data : List Byte) (s : State) : (finish c i data s).sess = s.sess := rfl
@[simp] theorem finish_busOwner (c : Code) (i : Info) (data : List Byte) (s : State) : (finish c i data s).busOwner = s.busOwner := rfl
@[simp] theorem finish_shreg (c : Code) (i : Info) (data : List Byte) (s : State) : (finish c i data s).shreg = s.shreg := rfl
@[simp] theorem finish_bitcnt (c : Code) (i : Info) (data : List Byte) (s : State) : (finish c i data s).bitcnt = s.bitcnt := rfl
@[simp] theorem finish_addrR (c : Code) (i : Info) (data : List Byte) (s : State) : (finish c i data s).addrR = s.addrR := rfl
@[simp] theorem finish_lenR (c : Code) (i : Info) (data : List Byte) (s : State) : (finish c i data s).lenR = s.lenR := rfl
@[simp] theorem finish_offR (c : Code) (i : Info) (data : List Byte) (s : State) : (finish c i data s).offR = s.offR := rfl
@[simp] theorem finish_pollR (c : Code) (i : Info) (data : List Byte) (s : State) : (finish c i data s).pollR = s.pollR := rfl
@[simp] theorem finish_lastCode (c : Code) (i : Info) (data : List Byte) (s : State) : (finish c i data s).lastCode = c := rfl
@[simp] theorem finish_sessErr (c : Code) (i : Info) (data : List Byte) (s : State) : (finish c i data s).sessErr = if c ≠ .ok ∧ s.sess ≠ .released ∧ s.sessErr = .ok then c else s.sessErr := rfl
@[simp] theorem finish_errInfo (c : Code) (i : Info) (data : List Byte) (s : State) : (finish c i data s).errInfo = if c = .ok then s.errInfo else i := rfl
@[simp] theorem finish_progress (c : Code) (i : Info) (data : List Byte) (s : State) : (finish c i data s).progress = s.progress := rfl
@[simp] theorem finish_seq (c : Code) (i : Info) (data : List Byte) (s : State) : (finish c i data s).seq = .portIdle := rfl
@[simp] theorem finish_tr (c : Code) (i : Info) (data : List Byte) (s : State) : (finish c i data s).tr = s.tr := rfl
@[simp] theorem finish_host (c : Code) (i : Info) (data : List Byte) (s : State) : (finish c i data s).host = s.host := rfl
@[simp] theorem finish_out (c : Code) (i : Info) (data : List Byte) (s : State) : (finish c i data s).out = ⟨c, i, data⟩ :: s.out := rfl
@[simp] theorem finish_env (c : Code) (i : Info) (data : List Byte) (s : State) : (finish c i data s).env = s.env := rfl
@[simp] theorem finish_dev (c : Code) (i : Info) (data : List Byte) (s : State) : (finish c i data s).dev = s.dev := rfl

/-! succeed: an OK response leaves err_info and sess_err as they were (60_exceptions.md R232). -/

@[simp] theorem succeed_cfg (data : List Byte) (s : State) : (succeed data s).cfg = s.cfg := rfl
@[simp] theorem succeed_pins (data : List Byte) (s : State) : (succeed data s).pins = s.pins := rfl
@[simp] theorem succeed_sess (data : List Byte) (s : State) : (succeed data s).sess = s.sess := rfl
@[simp] theorem succeed_busOwner (data : List Byte) (s : State) : (succeed data s).busOwner = s.busOwner := rfl
@[simp] theorem succeed_shreg (data : List Byte) (s : State) : (succeed data s).shreg = s.shreg := rfl
@[simp] theorem succeed_bitcnt (data : List Byte) (s : State) : (succeed data s).bitcnt = s.bitcnt := rfl
@[simp] theorem succeed_addrR (data : List Byte) (s : State) : (succeed data s).addrR = s.addrR := rfl
@[simp] theorem succeed_lenR (data : List Byte) (s : State) : (succeed data s).lenR = s.lenR := rfl
@[simp] theorem succeed_offR (data : List Byte) (s : State) : (succeed data s).offR = s.offR := rfl
@[simp] theorem succeed_pollR (data : List Byte) (s : State) : (succeed data s).pollR = s.pollR := rfl
@[simp] theorem succeed_lastCode (data : List Byte) (s : State) : (succeed data s).lastCode = .ok := rfl
@[simp] theorem succeed_progress (data : List Byte) (s : State) : (succeed data s).progress = s.progress := rfl
@[simp] theorem succeed_seq (data : List Byte) (s : State) : (succeed data s).seq = .portIdle := rfl
@[simp] theorem succeed_tr (data : List Byte) (s : State) : (succeed data s).tr = s.tr := rfl
@[simp] theorem succeed_host (data : List Byte) (s : State) : (succeed data s).host = s.host := rfl
@[simp] theorem succeed_out (data : List Byte) (s : State) : (succeed data s).out = ⟨.ok, .absent, data⟩ :: s.out := rfl
@[simp] theorem succeed_env (data : List Byte) (s : State) : (succeed data s).env = s.env := rfl
@[simp] theorem succeed_dev (data : List Byte) (s : State) : (succeed data s).dev = s.dev := rfl

@[simp] theorem succeed_errInfo (data : List Byte) (s : State) : (succeed data s).errInfo = s.errInfo := by simp [succeed]
@[simp] theorem succeed_sessErr (data : List Byte) (s : State) : (succeed data s).sessErr = s.sessErr := by simp [succeed]

/-! raise: the error exit (60_exceptions.md R232, R238). -/

@[simp] theorem raise_cfg (e : Stop) (s : State) : (raise e s).cfg = s.cfg := rfl
@[simp] theorem raise_pins (e : Stop) (s : State) : (raise e s).pins = s.pins := rfl
@[simp] theorem raise_sess (e : Stop) (s : State) : (raise e s).sess = s.sess := rfl
@[simp] theorem raise_busOwner (e : Stop) (s : State) : (raise e s).busOwner = s.busOwner := rfl
@[simp] theorem raise_shreg (e : Stop) (s : State) : (raise e s).shreg = s.shreg := rfl
@[simp] theorem raise_bitcnt (e : Stop) (s : State) : (raise e s).bitcnt = s.bitcnt := rfl
@[simp] theorem raise_addrR (e : Stop) (s : State) : (raise e s).addrR = s.addrR := rfl
@[simp] theorem raise_lenR (e : Stop) (s : State) : (raise e s).lenR = s.lenR := rfl
@[simp] theorem raise_offR (e : Stop) (s : State) : (raise e s).offR = s.offR := rfl
@[simp] theorem raise_pollR (e : Stop) (s : State) : (raise e s).pollR = s.pollR := rfl
@[simp] theorem raise_lastCode (e : Stop) (s : State) : (raise e s).lastCode = e.code := rfl
@[simp] theorem raise_sessErr (e : Stop) (s : State) : (raise e s).sessErr = if e.code ≠ .ok ∧ s.sess ≠ .released ∧ s.sessErr = .ok then e.code else s.sessErr := rfl
@[simp] theorem raise_errInfo (e : Stop) (s : State) : (raise e s).errInfo = if e.code = .ok then s.errInfo else e.info := rfl
@[simp] theorem raise_progress (e : Stop) (s : State) : (raise e s).progress = s.progress := rfl
@[simp] theorem raise_seq (e : Stop) (s : State) : (raise e s).seq = .portIdle := rfl
@[simp] theorem raise_tr (e : Stop) (s : State) : (raise e s).tr = s.tr := rfl
@[simp] theorem raise_host (e : Stop) (s : State) : (raise e s).host = s.host := rfl
@[simp] theorem raise_out (e : Stop) (s : State) : (raise e s).out = ⟨e.code, e.info, []⟩ :: s.out := rfl
@[simp] theorem raise_env (e : Stop) (s : State) : (raise e s).env = s.env := rfl
@[simp] theorem raise_dev (e : Stop) (s : State) : (raise e s).dev = s.dev := rfl

/-! loadAddr: the address register. -/

@[simp] theorem loadAddr_cfg (a : Addr) (s : State) : (loadAddr a s).cfg = s.cfg := rfl
@[simp] theorem loadAddr_pins (a : Addr) (s : State) : (loadAddr a s).pins = s.pins := rfl
@[simp] theorem loadAddr_sess (a : Addr) (s : State) : (loadAddr a s).sess = s.sess := rfl
@[simp] theorem loadAddr_busOwner (a : Addr) (s : State) : (loadAddr a s).busOwner = s.busOwner := rfl
@[simp] theorem loadAddr_shreg (a : Addr) (s : State) : (loadAddr a s).shreg = s.shreg := rfl
@[simp] theorem loadAddr_bitcnt (a : Addr) (s : State) : (loadAddr a s).bitcnt = s.bitcnt := rfl
@[simp] theorem loadAddr_addrR (a : Addr) (s : State) : (loadAddr a s).addrR = a := rfl
@[simp] theorem loadAddr_lenR (a : Addr) (s : State) : (loadAddr a s).lenR = s.lenR := rfl
@[simp] theorem loadAddr_offR (a : Addr) (s : State) : (loadAddr a s).offR = s.offR := rfl
@[simp] theorem loadAddr_pollR (a : Addr) (s : State) : (loadAddr a s).pollR = s.pollR := rfl
@[simp] theorem loadAddr_lastCode (a : Addr) (s : State) : (loadAddr a s).lastCode = s.lastCode := rfl
@[simp] theorem loadAddr_sessErr (a : Addr) (s : State) : (loadAddr a s).sessErr = s.sessErr := rfl
@[simp] theorem loadAddr_errInfo (a : Addr) (s : State) : (loadAddr a s).errInfo = s.errInfo := rfl
@[simp] theorem loadAddr_progress (a : Addr) (s : State) : (loadAddr a s).progress = s.progress := rfl
@[simp] theorem loadAddr_seq (a : Addr) (s : State) : (loadAddr a s).seq = s.seq := rfl
@[simp] theorem loadAddr_tr (a : Addr) (s : State) : (loadAddr a s).tr = s.tr := rfl
@[simp] theorem loadAddr_host (a : Addr) (s : State) : (loadAddr a s).host = s.host := rfl
@[simp] theorem loadAddr_out (a : Addr) (s : State) : (loadAddr a s).out = s.out := rfl
@[simp] theorem loadAddr_env (a : Addr) (s : State) : (loadAddr a s).env = s.env := rfl
@[simp] theorem loadAddr_dev (a : Addr) (s : State) : (loadAddr a s).dev = s.dev := rfl

/-! loadLen: the length register. -/

@[simp] theorem loadLen_cfg (n : Nat) (s : State) : (loadLen n s).cfg = s.cfg := rfl
@[simp] theorem loadLen_pins (n : Nat) (s : State) : (loadLen n s).pins = s.pins := rfl
@[simp] theorem loadLen_sess (n : Nat) (s : State) : (loadLen n s).sess = s.sess := rfl
@[simp] theorem loadLen_busOwner (n : Nat) (s : State) : (loadLen n s).busOwner = s.busOwner := rfl
@[simp] theorem loadLen_shreg (n : Nat) (s : State) : (loadLen n s).shreg = s.shreg := rfl
@[simp] theorem loadLen_bitcnt (n : Nat) (s : State) : (loadLen n s).bitcnt = s.bitcnt := rfl
@[simp] theorem loadLen_addrR (n : Nat) (s : State) : (loadLen n s).addrR = s.addrR := rfl
@[simp] theorem loadLen_lenR (n : Nat) (s : State) : (loadLen n s).lenR = BitVec.ofNat 32 n := rfl
@[simp] theorem loadLen_offR (n : Nat) (s : State) : (loadLen n s).offR = s.offR := rfl
@[simp] theorem loadLen_pollR (n : Nat) (s : State) : (loadLen n s).pollR = s.pollR := rfl
@[simp] theorem loadLen_lastCode (n : Nat) (s : State) : (loadLen n s).lastCode = s.lastCode := rfl
@[simp] theorem loadLen_sessErr (n : Nat) (s : State) : (loadLen n s).sessErr = s.sessErr := rfl
@[simp] theorem loadLen_errInfo (n : Nat) (s : State) : (loadLen n s).errInfo = s.errInfo := rfl
@[simp] theorem loadLen_progress (n : Nat) (s : State) : (loadLen n s).progress = s.progress := rfl
@[simp] theorem loadLen_seq (n : Nat) (s : State) : (loadLen n s).seq = s.seq := rfl
@[simp] theorem loadLen_tr (n : Nat) (s : State) : (loadLen n s).tr = s.tr := rfl
@[simp] theorem loadLen_host (n : Nat) (s : State) : (loadLen n s).host = s.host := rfl
@[simp] theorem loadLen_out (n : Nat) (s : State) : (loadLen n s).out = s.out := rfl
@[simp] theorem loadLen_env (n : Nat) (s : State) : (loadLen n s).env = s.env := rfl
@[simp] theorem loadLen_dev (n : Nat) (s : State) : (loadLen n s).dev = s.dev := rfl

/-! acquire: a pin claimed (43_session.md R211). -/

@[simp] theorem acquire_cfg (r : Role) (s : State) : (acquire r s).cfg = s.cfg := rfl
@[simp] theorem acquire_pins (r : Role) (s : State) : (acquire r s).pins = s.pins.set r (acquiredPin s.cfg.variant r) := rfl
@[simp] theorem acquire_sess (r : Role) (s : State) : (acquire r s).sess = s.sess := rfl
@[simp] theorem acquire_busOwner (r : Role) (s : State) : (acquire r s).busOwner = s.busOwner := rfl
@[simp] theorem acquire_shreg (r : Role) (s : State) : (acquire r s).shreg = s.shreg := rfl
@[simp] theorem acquire_bitcnt (r : Role) (s : State) : (acquire r s).bitcnt = s.bitcnt := rfl
@[simp] theorem acquire_addrR (r : Role) (s : State) : (acquire r s).addrR = s.addrR := rfl
@[simp] theorem acquire_lenR (r : Role) (s : State) : (acquire r s).lenR = s.lenR := rfl
@[simp] theorem acquire_offR (r : Role) (s : State) : (acquire r s).offR = s.offR := rfl
@[simp] theorem acquire_pollR (r : Role) (s : State) : (acquire r s).pollR = s.pollR := rfl
@[simp] theorem acquire_lastCode (r : Role) (s : State) : (acquire r s).lastCode = s.lastCode := rfl
@[simp] theorem acquire_sessErr (r : Role) (s : State) : (acquire r s).sessErr = s.sessErr := rfl
@[simp] theorem acquire_errInfo (r : Role) (s : State) : (acquire r s).errInfo = s.errInfo := rfl
@[simp] theorem acquire_progress (r : Role) (s : State) : (acquire r s).progress = s.progress := rfl
@[simp] theorem acquire_seq (r : Role) (s : State) : (acquire r s).seq = s.seq := rfl
@[simp] theorem acquire_tr (r : Role) (s : State) : (acquire r s).tr = .acq r (acquiredPin s.cfg.variant r).dir (acquiredPin s.cfg.variant r).lvl :: s.tr := rfl
@[simp] theorem acquire_host (r : Role) (s : State) : (acquire r s).host = s.host := rfl
@[simp] theorem acquire_out (r : Role) (s : State) : (acquire r s).out = s.out := rfl
@[simp] theorem acquire_env (r : Role) (s : State) : (acquire r s).env = s.env := rfl
@[simp] theorem acquire_dev (r : Role) (s : State) : (acquire r s).dev = s.dev := rfl

/-! release: a pin released (43_session.md R215). -/

@[simp] theorem release_cfg (r : Role) (s : State) : (release r s).cfg = s.cfg := rfl
@[simp] theorem release_pins (r : Role) (s : State) : (release r s).pins = s.pins.set r .released := rfl
@[simp] theorem release_sess (r : Role) (s : State) : (release r s).sess = s.sess := rfl
@[simp] theorem release_busOwner (r : Role) (s : State) : (release r s).busOwner = s.busOwner := rfl
@[simp] theorem release_shreg (r : Role) (s : State) : (release r s).shreg = s.shreg := rfl
@[simp] theorem release_bitcnt (r : Role) (s : State) : (release r s).bitcnt = s.bitcnt := rfl
@[simp] theorem release_addrR (r : Role) (s : State) : (release r s).addrR = s.addrR := rfl
@[simp] theorem release_lenR (r : Role) (s : State) : (release r s).lenR = s.lenR := rfl
@[simp] theorem release_offR (r : Role) (s : State) : (release r s).offR = s.offR := rfl
@[simp] theorem release_pollR (r : Role) (s : State) : (release r s).pollR = s.pollR := rfl
@[simp] theorem release_lastCode (r : Role) (s : State) : (release r s).lastCode = s.lastCode := rfl
@[simp] theorem release_sessErr (r : Role) (s : State) : (release r s).sessErr = s.sessErr := rfl
@[simp] theorem release_errInfo (r : Role) (s : State) : (release r s).errInfo = s.errInfo := rfl
@[simp] theorem release_progress (r : Role) (s : State) : (release r s).progress = s.progress := rfl
@[simp] theorem release_seq (r : Role) (s : State) : (release r s).seq = s.seq := rfl
@[simp] theorem release_tr (r : Role) (s : State) : (release r s).tr = (if s.env.drawRel.1 then .rel r else .relFail r) :: s.tr := rfl
@[simp] theorem release_host (r : Role) (s : State) : (release r s).host = s.host := rfl
@[simp] theorem release_out (r : Role) (s : State) : (release r s).out = s.out := rfl
@[simp] theorem release_env (r : Role) (s : State) : (release r s).env = s.env.drawRel.2 := rfl
@[simp] theorem release_dev (r : Role) (s : State) : (release r s).dev = s.dev := rfl

/-! takeBus: the transfer of the bus (43_session.md R214). -/

@[simp] theorem takeBus_cfg (s : State) : (takeBus s).cfg = s.cfg := rfl
@[simp] theorem takeBus_pins (s : State) : (takeBus s).pins = s.pins := rfl
@[simp] theorem takeBus_sess (s : State) : (takeBus s).sess = .reset := rfl
@[simp] theorem takeBus_busOwner (s : State) : (takeBus s).busOwner = .flashSession := rfl
@[simp] theorem takeBus_shreg (s : State) : (takeBus s).shreg = s.shreg := rfl
@[simp] theorem takeBus_bitcnt (s : State) : (takeBus s).bitcnt = s.bitcnt := rfl
@[simp] theorem takeBus_addrR (s : State) : (takeBus s).addrR = s.addrR := rfl
@[simp] theorem takeBus_lenR (s : State) : (takeBus s).lenR = s.lenR := rfl
@[simp] theorem takeBus_offR (s : State) : (takeBus s).offR = s.offR := rfl
@[simp] theorem takeBus_pollR (s : State) : (takeBus s).pollR = s.pollR := rfl
@[simp] theorem takeBus_lastCode (s : State) : (takeBus s).lastCode = s.lastCode := rfl
@[simp] theorem takeBus_sessErr (s : State) : (takeBus s).sessErr = s.sessErr := rfl
@[simp] theorem takeBus_errInfo (s : State) : (takeBus s).errInfo = s.errInfo := rfl
@[simp] theorem takeBus_progress (s : State) : (takeBus s).progress = s.progress := rfl
@[simp] theorem takeBus_seq (s : State) : (takeBus s).seq = s.seq := rfl
@[simp] theorem takeBus_tr (s : State) : (takeBus s).tr = s.tr := rfl
@[simp] theorem takeBus_host (s : State) : (takeBus s).host = s.host := rfl
@[simp] theorem takeBus_out (s : State) : (takeBus s).out = s.out := rfl
@[simp] theorem takeBus_env (s : State) : (takeBus s).env = s.env := rfl
@[simp] theorem takeBus_dev (s : State) : (takeBus s).dev = s.dev := rfl

/-! giveBackBus: the return of the bus (43_session.md R216). -/

@[simp] theorem giveBackBus_cfg (s : State) : (giveBackBus s).cfg = s.cfg := rfl
@[simp] theorem giveBackBus_pins (s : State) : (giveBackBus s).pins = s.pins := rfl
@[simp] theorem giveBackBus_sess (s : State) : (giveBackBus s).sess = .released := rfl
@[simp] theorem giveBackBus_busOwner (s : State) : (giveBackBus s).busOwner = .fpga := rfl
@[simp] theorem giveBackBus_shreg (s : State) : (giveBackBus s).shreg = s.shreg := rfl
@[simp] theorem giveBackBus_bitcnt (s : State) : (giveBackBus s).bitcnt = s.bitcnt := rfl
@[simp] theorem giveBackBus_addrR (s : State) : (giveBackBus s).addrR = s.addrR := rfl
@[simp] theorem giveBackBus_lenR (s : State) : (giveBackBus s).lenR = s.lenR := rfl
@[simp] theorem giveBackBus_offR (s : State) : (giveBackBus s).offR = s.offR := rfl
@[simp] theorem giveBackBus_pollR (s : State) : (giveBackBus s).pollR = s.pollR := rfl
@[simp] theorem giveBackBus_lastCode (s : State) : (giveBackBus s).lastCode = s.lastCode := rfl
@[simp] theorem giveBackBus_sessErr (s : State) : (giveBackBus s).sessErr = s.sessErr := rfl
@[simp] theorem giveBackBus_errInfo (s : State) : (giveBackBus s).errInfo = s.errInfo := rfl
@[simp] theorem giveBackBus_progress (s : State) : (giveBackBus s).progress = s.progress := rfl
@[simp] theorem giveBackBus_seq (s : State) : (giveBackBus s).seq = s.seq := rfl
@[simp] theorem giveBackBus_tr (s : State) : (giveBackBus s).tr = s.tr := rfl
@[simp] theorem giveBackBus_host (s : State) : (giveBackBus s).host = s.host := rfl
@[simp] theorem giveBackBus_out (s : State) : (giveBackBus s).out = s.out := rfl
@[simp] theorem giveBackBus_env (s : State) : (giveBackBus s).env = s.env := rfl
@[simp] theorem giveBackBus_dev (s : State) : (giveBackBus s).dev = s.dev := rfl

/-! Pins: a pin set reads as set, and no other pin changes. -/

@[simp] theorem get_set_same (p : Pins) (r : Role) (v : Pin) : (p.set r v).get r = v := by cases r <;> rfl

theorem get_set_other (p : Pins) {r q : Role} (v : Pin) (h : q ≠ r) : (p.set r v).get q = p.get q := by
  cases r <;> cases q <;> first | rfl | exact absurd rfl h

@[simp] theorem set_get (p : Pins) (r : Role) : p.set r (p.get r) = p := by cases r <;> rfl

/-! The pin a drive leaves, for the three lines of a frame. -/

@[simp] theorem set_fpgaRst_fpgaRst (p : Pins) (v : Pin) : (p.set .fpgaRst v).fpgaRst = v := rfl
@[simp] theorem set_fpgaRst_fpgaCs (p : Pins) (v : Pin) : (p.set .fpgaRst v).fpgaCs = p.fpgaCs := rfl
@[simp] theorem set_fpgaRst_flCs (p : Pins) (v : Pin) : (p.set .fpgaRst v).flCs = p.flCs := rfl
@[simp] theorem set_fpgaRst_mosi (p : Pins) (v : Pin) : (p.set .fpgaRst v).mosi = p.mosi := rfl
@[simp] theorem set_fpgaRst_miso (p : Pins) (v : Pin) : (p.set .fpgaRst v).miso = p.miso := rfl
@[simp] theorem set_fpgaRst_sck (p : Pins) (v : Pin) : (p.set .fpgaRst v).sck = p.sck := rfl
@[simp] theorem set_fpgaCs_fpgaRst (p : Pins) (v : Pin) : (p.set .fpgaCs v).fpgaRst = p.fpgaRst := rfl
@[simp] theorem set_fpgaCs_fpgaCs (p : Pins) (v : Pin) : (p.set .fpgaCs v).fpgaCs = v := rfl
@[simp] theorem set_fpgaCs_flCs (p : Pins) (v : Pin) : (p.set .fpgaCs v).flCs = p.flCs := rfl
@[simp] theorem set_fpgaCs_mosi (p : Pins) (v : Pin) : (p.set .fpgaCs v).mosi = p.mosi := rfl
@[simp] theorem set_fpgaCs_miso (p : Pins) (v : Pin) : (p.set .fpgaCs v).miso = p.miso := rfl
@[simp] theorem set_fpgaCs_sck (p : Pins) (v : Pin) : (p.set .fpgaCs v).sck = p.sck := rfl
@[simp] theorem set_flCs_fpgaRst (p : Pins) (v : Pin) : (p.set .flCs v).fpgaRst = p.fpgaRst := rfl
@[simp] theorem set_flCs_fpgaCs (p : Pins) (v : Pin) : (p.set .flCs v).fpgaCs = p.fpgaCs := rfl
@[simp] theorem set_flCs_flCs (p : Pins) (v : Pin) : (p.set .flCs v).flCs = v := rfl
@[simp] theorem set_flCs_mosi (p : Pins) (v : Pin) : (p.set .flCs v).mosi = p.mosi := rfl
@[simp] theorem set_flCs_miso (p : Pins) (v : Pin) : (p.set .flCs v).miso = p.miso := rfl
@[simp] theorem set_flCs_sck (p : Pins) (v : Pin) : (p.set .flCs v).sck = p.sck := rfl
@[simp] theorem set_mosi_fpgaRst (p : Pins) (v : Pin) : (p.set .mosi v).fpgaRst = p.fpgaRst := rfl
@[simp] theorem set_mosi_fpgaCs (p : Pins) (v : Pin) : (p.set .mosi v).fpgaCs = p.fpgaCs := rfl
@[simp] theorem set_mosi_flCs (p : Pins) (v : Pin) : (p.set .mosi v).flCs = p.flCs := rfl
@[simp] theorem set_mosi_mosi (p : Pins) (v : Pin) : (p.set .mosi v).mosi = v := rfl
@[simp] theorem set_mosi_miso (p : Pins) (v : Pin) : (p.set .mosi v).miso = p.miso := rfl
@[simp] theorem set_mosi_sck (p : Pins) (v : Pin) : (p.set .mosi v).sck = p.sck := rfl
@[simp] theorem set_miso_fpgaRst (p : Pins) (v : Pin) : (p.set .miso v).fpgaRst = p.fpgaRst := rfl
@[simp] theorem set_miso_fpgaCs (p : Pins) (v : Pin) : (p.set .miso v).fpgaCs = p.fpgaCs := rfl
@[simp] theorem set_miso_flCs (p : Pins) (v : Pin) : (p.set .miso v).flCs = p.flCs := rfl
@[simp] theorem set_miso_mosi (p : Pins) (v : Pin) : (p.set .miso v).mosi = p.mosi := rfl
@[simp] theorem set_miso_miso (p : Pins) (v : Pin) : (p.set .miso v).miso = v := rfl
@[simp] theorem set_miso_sck (p : Pins) (v : Pin) : (p.set .miso v).sck = p.sck := rfl
@[simp] theorem set_sck_fpgaRst (p : Pins) (v : Pin) : (p.set .sck v).fpgaRst = p.fpgaRst := rfl
@[simp] theorem set_sck_fpgaCs (p : Pins) (v : Pin) : (p.set .sck v).fpgaCs = p.fpgaCs := rfl
@[simp] theorem set_sck_flCs (p : Pins) (v : Pin) : (p.set .sck v).flCs = p.flCs := rfl
@[simp] theorem set_sck_mosi (p : Pins) (v : Pin) : (p.set .sck v).mosi = p.mosi := rfl
@[simp] theorem set_sck_miso (p : Pins) (v : Pin) : (p.set .sck v).miso = p.miso := rfl
@[simp] theorem set_sck_sck (p : Pins) (v : Pin) : (p.set .sck v).sck = v := rfl

end Sys2Proof.Laws
end

