-- ==== Sys2Proof/Laws/SoftSpi.lean ====
section
/-! SUPPORT. What each micro-op does to the state inside a frame (FL_CS = 0, SCK = 0), and what a whole FRAME does: one
equation for each, which later proofs cite instead of unfolding the micro-ops. -/

namespace Sys2Proof.Laws

open Sys2Proof.Machine Sys2Proof.Safety

/-- Inside a frame between two micro-ops: FL_CS asserted, SCK low (40_softspi.md R137). -/
def InFrame (s : State) : Prop := s.pins.flCs = .output false ∧ s.pins.sck = .output false

/-- The level on MOSI as the device samples it. -/
def mosiLevel (p : Pin) : Bool := decide (p = .output true)

/-- The state after bits went through the bus inside a frame: MOSI, trace, device and draws; the rest as in s. -/
def afterBits (mosi : Pin) (events : List Event) (d : Device) (e : Env) (s : State) : State :=
  { s with pins := { s.pins with mosi := mosi }, tr := events.reverse ++ s.tr, dev := d, env := e }

theorem afterBits_inFrame {mosi : Pin} {events : List Event} {d : Device} {e : Env} {s : State} (h : InFrame s) :
    InFrame (afterBits mosi events d e s) := h

theorem afterBits_afterBits (m m' : Pin) (es es' : List Event) (d d' : Device) (e e' : Env) (s : State) :
    afterBits m' es' d' e' (afterBits m es d e s) = afterBits m' (es ++ es') d' e' s := by
  simp [afterBits]

/-- WRITE_BIT inside a frame (R132; 20_memory.md R66). -/
theorem writeBit_inFrame {s : State} (h : InFrame s) (b : Bool) :
    writeBit b s = afterBits (.output b) (writeBitEvents b) (s.dev.clockIn b) s.env s := by
  obtain ⟨cfg, ⟨p0, p1, p2, p3, p4, p5⟩, sess, owner, sh, bc, ar, lr, off, pr, lc, se, ei, pg, seq, tr, host, out, env, dev⟩ := s
  obtain ⟨h1, h2⟩ := h
  simp only at h1 h2
  subst h1 h2
  cases b <;> rfl

/-- READ_BIT inside a frame (R133; 20_memory.md R65, R66). -/
theorem readBit_inFrame {s : State} (h : InFrame s) :
    readBit s =
      let d := s.dev.clockIn (mosiLevel s.pins.mosi)
      let v := d.present s.env
      (v.1, afterBits s.pins.mosi (readBitEvents v.1) d v.2 s) := by
  obtain ⟨cfg, ⟨p0, p1, p2, p3, p4, p5⟩, sess, owner, sh, bc, ar, lr, off, pr, lc, se, ei, pg, seq, tr, host, out, env, dev⟩ := s
  obtain ⟨h1, h2⟩ := h
  simp only at h1 h2
  subst h1 h2
  rfl

/-! Whole bytes. -/

/-- The shift register and bit counter set. -/
def withShift (x : Byte) (n : Nat) (s : State) : State := { s with shreg := x, bitcnt := n }

/-- WRITE_BIT of each bit in turn. -/
def sendBits : List Bool → State → State
  | [], s => s
  | b :: bs, s => sendBits bs (writeBit b s)

/-- READ_BIT n times. -/
def listenBits : Nat → State → List Bool × State
  | 0, s => ([], s)
  | n + 1, s => ((readBit s).1 :: (listenBits n (readBit s).2).1, (listenBits n (readBit s).2).2)

theorem shiftOut_withShift (x : Byte) (n : Nat) (s : State) :
    shiftOut (withShift x n s) = withShift (x <<< 1) (n + 1) (writeBit (x.getLsbD 7) s) := rfl

theorem shiftIn_withShift (x : Byte) (n : Nat) (s : State) :
    shiftIn (withShift x n s) = withShift (shiftInBit x (readBit s).1) (n + 1) (readBit s).2 := rfl

/-- Bit 7 of a byte shifted left k times is bit 7 - k. -/
theorem getLsbD_seven_shiftLeft (x : Byte) {k : Nat} (h : k < 8) : (x <<< k).getLsbD 7 = x.getLsbD (7 - k) := by
  rw [BitVec.getLsbD_shiftLeft]
  simp
  omega

/-- WRITE_BYTE is WRITE_BIT of the eight bits, most significant first; then shreg = 0x00 and bitcnt = 8 (R134). -/
theorem writeByte_eq (x : Byte) (s : State) : writeByte x s = withShift 0 8 (sendBits (bitsOfByte x) s) := by
  have h : writeByte x s = loop shiftOut 8 (withShift x 0 s) := rfl
  rw [h]
  simp only [loop, shiftOut_withShift, ← BitVec.shiftLeft_add, Nat.reduceAdd, getLsbD_seven_shiftLeft x (show 1 < 8 by decide),
    getLsbD_seven_shiftLeft x (show 2 < 8 by decide), getLsbD_seven_shiftLeft x (show 3 < 8 by decide),
    getLsbD_seven_shiftLeft x (show 4 < 8 by decide), getLsbD_seven_shiftLeft x (show 5 < 8 by decide),
    getLsbD_seven_shiftLeft x (show 6 < 8 by decide), getLsbD_seven_shiftLeft x (show 7 < 8 by decide), Nat.reduceSub,
    bitsOfByte, sendBits]
  congr 1
  exact BitVec.shiftLeft_eq_zero (Nat.le_refl 8)

/-- The byte of eight bits shifted in one after the other is {b0, ..., b7} (30_encoding.md R107). -/
theorem shiftInBit_byteOf (b7 b6 b5 b4 b3 b2 b1 b0 : Bool) :
    shiftInBit (shiftInBit (shiftInBit (shiftInBit (shiftInBit (shiftInBit (shiftInBit (shiftInBit 0 b7) b6) b5) b4) b3) b2) b1) b0 =
      byteOf b7 b6 b5 b4 b3 b2 b1 b0 := by
  revert b7 b6 b5 b4 b3 b2 b1 b0
  decide

/-- The byte of a list of eight bits, the first the most significant. -/
def byteOfList (bits : List Bool) : Byte := bits.foldl shiftInBit 0

/-- READ_BYTE is READ_BIT eight times; then shreg is the byte of the bits and bitcnt = 8 (R135). -/
theorem readByte_eq (s : State) :
    readByte s = withShift (byteOfList (listenBits 8 s).1) 8 (listenBits 8 s).2 := by
  have h : readByte s = loop shiftIn 8 (withShift 0 0 s) := rfl
  rw [h]
  simp only [loop, shiftIn_withShift, listenBits, byteOfList, List.foldl_cons, List.foldl_nil, Nat.reduceAdd]

theorem byteOfList_bitsOfByte (y : Byte) : byteOfList (bitsOfByte y) = y := by
  revert y; decide

theorem bitsOfByte_byteOf (b7 b6 b5 b4 b3 b2 b1 b0 : Bool) :
    bitsOfByte (byteOf b7 b6 b5 b4 b3 b2 b1 b0) = [b7, b6, b5, b4, b3, b2, b1, b0] := by
  revert b7 b6 b5 b4 b3 b2 b1 b0; decide

/-! Bits inside a frame. -/

/-- MOSI after these bits: the last one, or unchanged (R138). -/
def mosiAfter (bits : List Bool) (p : Pin) : Pin :=
  match bits.getLast? with
  | some b => .output b
  | none => p

/-- The device with these bits received after what it had. -/
def clockBits (bits : List Bool) (d : Device) : Device := { d with fbits := bits.reverse ++ d.fbits }

theorem sendBits_inFrame (bits : List Bool) : ∀ {s : State}, InFrame s →
    sendBits bits s =
      afterBits (mosiAfter bits s.pins.mosi) (bits.flatMap writeBitEvents) (clockBits bits s.dev) s.env s := by
  induction bits with
  | nil => intro s _; rfl
  | cons b bits ih =>
    intro s h
    rw [sendBits, writeBit_inFrame h, ih (afterBits_inFrame h), afterBits_afterBits]
    congr 1
    · cases bits <;> simp [mosiAfter, afterBits, List.getLast?_cons]
    · simp [clockBits, afterBits, Device.clockIn]

/-- What the device presents and becomes over n clocks with MOSI at m. -/
def hear (m : Bool) : Nat → Device → Env → List Bool × Env
  | 0, _, e => ([], e)
  | n + 1, d, e =>
    let v := (d.clockIn m).present e
    (v.1 :: (hear m n (d.clockIn m) v.2).1, (hear m n (d.clockIn m) v.2).2)

theorem clockBits_replicate (m : Bool) (j k : Nat) (d : Device) :
    clockBits (List.replicate k m) (clockBits (List.replicate j m) d) = clockBits (List.replicate (j + k) m) d := by
  simp only [clockBits, List.reverse_replicate, ← List.append_assoc, List.replicate_append_replicate, Nat.add_comm k j]

theorem clockIn_eq (m : Bool) (d : Device) : d.clockIn m = clockBits (List.replicate 1 m) d := rfl

theorem hear_length (m : Bool) : ∀ (n : Nat) (d : Device) (e : Env), (hear m n d e).1.length = n
  | 0, _, _ => rfl
  | n + 1, d, e => by simp [hear, hear_length m n]

theorem hear_add (m : Bool) (k : Nat) : ∀ (n : Nat) (d : Device) (e : Env),
    hear m (n + k) d e =
      ((hear m n d e).1 ++ (hear m k (clockBits (List.replicate n m) d) (hear m n d e).2).1,
        (hear m k (clockBits (List.replicate n m) d) (hear m n d e).2).2)
  | 0, d, e => by simp [hear, clockBits]
  | n + 1, d, e => by
    have hd : clockBits (List.replicate n m) (d.clockIn m) = clockBits (List.replicate (n + 1) m) d := by
      rw [clockIn_eq, clockBits_replicate, Nat.add_comm]
    rw [Nat.add_right_comm, hear, hear_add m k n, hd]
    rfl

theorem listenBits_inFrame : ∀ (n : Nat) {s : State}, InFrame s →
    listenBits n s =
      ((hear (mosiLevel s.pins.mosi) n s.dev s.env).1,
        afterBits s.pins.mosi ((hear (mosiLevel s.pins.mosi) n s.dev s.env).1.flatMap readBitEvents)
          (clockBits (List.replicate n (mosiLevel s.pins.mosi)) s.dev) (hear (mosiLevel s.pins.mosi) n s.dev s.env).2 s)
  | 0, s, _ => rfl
  | n + 1, s, h => by
    rw [listenBits, readBit_inFrame h]
    simp only
    rw [listenBits_inFrame n (afterBits_inFrame h), afterBits_afterBits]
    have hd : clockBits (List.replicate n (mosiLevel s.pins.mosi)) (s.dev.clockIn (mosiLevel s.pins.mosi)) =
        clockBits (List.replicate (n + 1) (mosiLevel s.pins.mosi)) s.dev := by
      rw [clockIn_eq, clockBits_replicate, Nat.add_comm]
    rw [← hd]
    rfl

/-! Bytes inside a frame. -/

theorem writeByte_inFrame {s : State} (h : InFrame s) (x : Byte) :
    writeByte x s =
      withShift 0 8 (afterBits (.output (x.getLsbD 0)) (writeByteEvents x) (clockBits (bitsOfByte x) s.dev) s.env s) := by
  rw [writeByte_eq, sendBits_inFrame _ h]
  rfl

/-- MOSI after these bytes (R138): bit 0 of the last one. -/
def mosiAfterBytes (xs : List Byte) (p : Pin) : Pin :=
  match xs.getLast? with
  | some x => .output (x.getLsbD 0)
  | none => p

/-- The shift registers after bytes were sent: 0x00 and 8, unless none was sent (R134). -/
def shiftSent (xs : List Byte) (s : State) : State :=
  match xs with
  | [] => s
  | _ :: _ => withShift 0 8 s

theorem sendBytes_inFrame (xs : List Byte) : ∀ {s : State}, InFrame s →
    sendBytes xs s =
      shiftSent xs (afterBits (mosiAfterBytes xs s.pins.mosi) (xs.flatMap writeByteEvents) (clockBits (bitsOfBytes xs) s.dev)
        s.env s) := by
  induction xs with
  | nil => intro s _; rfl
  | cons x xs ih =>
    intro s h
    have h' : InFrame (withShift 0 8
        (afterBits (.output (x.getLsbD 0)) (writeByteEvents x) (clockBits (bitsOfByte x) s.dev) s.env s)) := h
    rw [sendBytes, writeByte_inFrame h, ih h']
    cases xs with
    | nil => simp [shiftSent, withShift, afterBits, mosiAfterBytes, bitsOfBytes, clockBits]
    | cons y ys =>
      simp [shiftSent, withShift, afterBits, mosiAfterBytes, List.getLast?_cons, clockBits, bitsOfBytes]

/-- The shift registers after bytes were received: the last one and 8, unless none was received (R135). -/
def shiftReceived (ys : List Byte) (s : State) : State :=
  match ys.getLast? with
  | some y => withShift y 8 s
  | none => s

theorem shiftReceived_cons (y : Byte) (ys : List Byte) (s : State) :
    shiftReceived (y :: ys) s = shiftReceived ys (withShift y 8 s) := by
  cases ys <;> simp [shiftReceived, withShift, List.getLast?_cons]

theorem readByte_inFrame {s : State} (h : InFrame s) :
    readByte s =
      withShift (byteOfList (hear (mosiLevel s.pins.mosi) 8 s.dev s.env).1) 8
        (afterBits s.pins.mosi ((hear (mosiLevel s.pins.mosi) 8 s.dev s.env).1.flatMap readBitEvents)
          (clockBits (List.replicate 8 (mosiLevel s.pins.mosi)) s.dev) (hear (mosiLevel s.pins.mosi) 8 s.dev s.env).2 s) := by
  rw [readByte_eq, listenBits_inFrame 8 h]

/-- Eight bits are the bits of their byte. -/
theorem bits_of_eight {bits : List Bool} (h : bits.length = 8) (rest : List Bool) :
    bitsOfByte (byteOfList bits) = bits ∧ bytesOfBits (bits ++ rest) = byteOfList bits :: bytesOfBits rest := by
  match bits, h with
  | [b7, b6, b5, b4, b3, b2, b1, b0], _ =>
    have hb : byteOfList [b7, b6, b5, b4, b3, b2, b1, b0] = byteOf b7 b6 b5 b4 b3 b2 b1 b0 :=
      shiftInBit_byteOf b7 b6 b5 b4 b3 b2 b1 b0
    rw [hb]
    exact ⟨bitsOfByte_byteOf b7 b6 b5 b4 b3 b2 b1 b0, rfl⟩

/-- The bytes received over n byte times with MOSI at m. -/
def heardBytes (m : Bool) (n : Nat) (d : Device) (e : Env) : List Byte := bytesOfBits (hear m (8 * n) d e).1

theorem heardBytes_succ (m : Bool) (n : Nat) (d : Device) (e : Env) :
    heardBytes m (n + 1) d e =
      byteOfList (hear m 8 d e).1 :: heardBytes m n (clockBits (List.replicate 8 m) d) (hear m 8 d e).2 := by
  rw [heardBytes, show 8 * (n + 1) = 8 + 8 * n by omega, hear_add, (bits_of_eight (hear_length m 8 d e) _).2]
  rfl

theorem heardBytes_length (m : Bool) : ∀ (n : Nat) (d : Device) (e : Env), (heardBytes m n d e).length = n
  | 0, _, _ => rfl
  | n + 1, d, e => by rw [heardBytes_succ, List.length_cons, heardBytes_length m n]

theorem receiveBytes_inFrame : ∀ (n : Nat) {s : State}, InFrame s →
    receiveBytes n s =
      (heardBytes (mosiLevel s.pins.mosi) n s.dev s.env,
        shiftReceived (heardBytes (mosiLevel s.pins.mosi) n s.dev s.env)
          (afterBits s.pins.mosi ((heardBytes (mosiLevel s.pins.mosi) n s.dev s.env).flatMap readByteEvents)
            (clockBits (List.replicate (8 * n) (mosiLevel s.pins.mosi)) s.dev) (hear (mosiLevel s.pins.mosi) (8 * n) s.dev s.env).2 s))
  | 0, s, _ => by simp [receiveBytes, heardBytes, hear, bytesOfBits, shiftReceived, afterBits, clockBits]
  | n + 1, s, h => by
    have hd : clockBits (List.replicate (8 * n) (mosiLevel s.pins.mosi)) (clockBits (List.replicate 8 (mosiLevel s.pins.mosi)) s.dev) =
        clockBits (List.replicate (8 * (n + 1)) (mosiLevel s.pins.mosi)) s.dev := by
      rw [clockBits_replicate, show 8 + 8 * n = 8 * (n + 1) by omega]
    have hev : (hear (mosiLevel s.pins.mosi) 8 s.dev s.env).1.flatMap readBitEvents =
        readByteEvents (byteOfList (hear (mosiLevel s.pins.mosi) 8 s.dev s.env).1) := by
      rw [readByteEvents, (bits_of_eight (hear_length _ 8 _ _) []).1]
    have he : (hear (mosiLevel s.pins.mosi) (8 * (n + 1)) s.dev s.env).2 =
        (hear (mosiLevel s.pins.mosi) (8 * n) (clockBits (List.replicate 8 (mosiLevel s.pins.mosi)) s.dev)
          (hear (mosiLevel s.pins.mosi) 8 s.dev s.env).2).2 := by
      rw [show 8 * (n + 1) = 8 + 8 * n by omega, hear_add]
    have h' : InFrame (withShift (byteOfList (hear (mosiLevel s.pins.mosi) 8 s.dev s.env).1) 8
        (afterBits s.pins.mosi ((hear (mosiLevel s.pins.mosi) 8 s.dev s.env).1.flatMap readBitEvents)
          (clockBits (List.replicate 8 (mosiLevel s.pins.mosi)) s.dev) (hear (mosiLevel s.pins.mosi) 8 s.dev s.env).2 s)) := h
    rw [receiveBytes, readByte_inFrame h]
    rw [receiveBytes_inFrame n h', heardBytes_succ, he, ← hd, shiftReceived_cons, List.flatMap_cons, ← hev,
      ← afterBits_afterBits s.pins.mosi s.pins.mosi]
    rfl

/-! Frames. -/

/-- The state after a frame that sent out and received ins, with the device and the draws it leaves. -/
def afterFrame (out ins : List Byte) (d : Device) (e : Env) (s : State) : State :=
  shiftReceived ins (shiftSent out
    { s with
      pins := { s.pins with mosi := mosiAfterBytes out s.pins.mosi }
      tr := (frameEvents out ins).reverse ++ s.tr
      dev := d
      env := e })

/-- The bytes the device gets in a frame that sends out and receives n bytes: MOSI keeps its level (R138). -/
def frameAtChip (out : List Byte) (n : Nat) (p : Pin) : List Byte :=
  out ++ List.replicate n (levelByte (mosiLevel (mosiAfterBytes out p)))

/-- What the controller hears in a frame that sends out and receives n bytes. -/
def frameHeard (out : List Byte) (n : Nat) (s : State) : List Bool × Env :=
  hear (mosiLevel (mosiAfterBytes out s.pins.mosi)) (8 * n)
    { s.dev with fbits := (bitsOfBytes out).reverse } s.env

theorem program_fbits (a : Addr) (data : List Byte) (d : Device) (e : Env) (f : List Bool) :
    Device.program a data { d with fbits := f } e =
      ({ (d.program a data e).1 with fbits := f }, (d.program a data e).2) := by
  have hi : Device.insideProgram { d with fbits := f } a data = d.insideProgram a data := rfl
  unfold Device.program
  rw [hi]
  split
  · split <;> rfl
  · rfl

theorem eraseBlock_fbits (a : Addr) (d : Device) (e : Env) (f : List Bool) :
    Device.eraseBlock a { d with fbits := f } e = ({ (d.eraseBlock a e).1 with fbits := f }, (d.eraseBlock a e).2) := by
  have hi : Device.insideErase { d with fbits := f } a = d.insideErase a := rfl
  unfold Device.eraseBlock
  rw [hi]
  split
  · split <;> rfl
  · rfl

theorem obey_fbits (op : Byte) (rest : List Byte) (d : Device) (e : Env) (f : List Bool) :
    Device.obey op rest { d with fbits := f } e = ({ (d.obey op rest e).1 with fbits := f }, (d.obey op rest e).2) := by
  unfold Device.obey
  split
  · rfl
  split
  · rfl
  split
  · rfl
  split
  · rfl
  split
  · split
    · exact program_fbits _ _ d e f
    · rfl
  split
  · split
    · exact eraseBlock_fbits _ d e f
    · rfl
  · rfl

/-- The effect of a frame does not depend on fbits. -/
theorem takeFrame_fbits (bytes : List Byte) (d : Device) (e : Env) (f : List Bool) :
    Device.takeFrame bytes { d with fbits := f } e =
      ({ (d.takeFrame bytes e).1 with fbits := f }, (d.takeFrame bytes e).2) := by
  unfold Device.takeFrame
  split
  · rfl
  · rename_i op rest
    have hi : Device.ignores { d with fbits := f } op = d.ignores op := rfl
    rw [hi, obey_fbits]
    split <;> rfl

theorem csDeassert_inFrame {s : State} (h : s.pins.flCs = .output false) :
    csDeassert s =
      { s with
        pins := { s.pins with flCs := .output true }
        tr := .set .flCs true :: s.tr
        dev := (s.dev.deselect s.env).1
        env := (s.dev.deselect s.env).2 } := by
  simp [csDeassert, drive, edge, h, Pins.set]

theorem csDeassert_shiftReceived (ys : List Byte) (s : State) :
    csDeassert (shiftReceived ys s) = shiftReceived ys (csDeassert s) := by
  unfold shiftReceived
  split <;> rfl

theorem csDeassert_shiftSent (xs : List Byte) (s : State) : csDeassert (shiftSent xs s) = shiftSent xs (csDeassert s) := by
  cases xs <;> rfl

theorem afterBits_shiftSent (m : Pin) (es : List Event) (d : Device) (e : Env) (xs : List Byte) (s : State) :
    afterBits m es d e (shiftSent xs s) = shiftSent xs (afterBits m es d e s) := by
  cases xs <;> rfl

@[simp] theorem shiftSent_pins (xs : List Byte) (s : State) : (shiftSent xs s).pins = s.pins := by cases xs <;> rfl
@[simp] theorem shiftSent_dev (xs : List Byte) (s : State) : (shiftSent xs s).dev = s.dev := by cases xs <;> rfl
@[simp] theorem shiftSent_env (xs : List Byte) (s : State) : (shiftSent xs s).env = s.env := by cases xs <;> rfl

/-- FRAME of a whole command on a ready bus (R136): the response of the device, the trace, and nothing else but the bus
registers. -/
theorem frame_eq {s : State} (h : s.pins.busReady = true) {out : List Byte} (hw : isWholeCommand out = true) (n : Nat) :
    frame out n s =
      (bytesOfBits (frameHeard out n s).1,
        afterFrame out (bytesOfBits (frameHeard out n s).1)
          { (s.dev.takeFrame (frameAtChip out n s.pins.mosi) (frameHeard out n s).2).1 with fbits := [] }
          (s.dev.takeFrame (frameAtChip out n s.pins.mosi) (frameHeard out n s).2).2 s) := by
  obtain ⟨⟨-, hcs⟩, hck⟩ : (s.pins.busHeld = true ∧ s.pins.flCs = .output true) ∧ s.pins.sck = .output false := by
    simpa [Pins.busReady] using h
  have hassert : csAssert s =
      { s with
        pins := { s.pins with flCs := .output false }
        tr := .set .flCs false :: s.tr
        dev := { s.dev with fbits := [] } } := by
    simp [csAssert, drive, edge, hcs, Pins.set, Device.select]
  have hin : InFrame (csAssert s) := by
    rw [hassert]
    exact ⟨rfl, hck⟩
  have hin' : InFrame (sendBytes out (csAssert s)) := by
    rw [sendBytes_inFrame out hin]
    cases out <;> exact hin
  have hdev : { s.dev with fbits := (bitsOfBytes out).reverse } = clockBits (bitsOfBytes out) { s.dev with fbits := [] } := by
    simp [clockBits]
  have hend : ∀ e, (clockBits (List.replicate (8 * n) (mosiLevel (mosiAfterBytes out s.pins.mosi)))
      (clockBits (bitsOfBytes out) { s.dev with fbits := [] })).deselect e =
      ({ (s.dev.takeFrame (frameAtChip out n s.pins.mosi) e).1 with fbits := [] },
        (s.dev.takeFrame (frameAtChip out n s.pins.mosi) e).2) := by
    intro e
    have hb : (clockBits (List.replicate (8 * n) (mosiLevel (mosiAfterBytes out s.pins.mosi)))
        (clockBits (bitsOfBytes out) { s.dev with fbits := [] })).received =
        bitsOfBytes (frameAtChip out n s.pins.mosi) := by
      rw [frameAtChip, bitsOfBytes_append, bitsOfBytes_replicate_levelByte]
      simp [clockBits, Device.received]
    rw [deselect_whole hb (isWholeCommand_append hw _)]
    simp only [clockBits, takeFrame_fbits]
  rw [frame, receiveBytes_inFrame n hin', sendBytes_inFrame out hin]
  simp only [shiftSent_pins, shiftSent_dev, shiftSent_env, afterBits_shiftSent, csDeassert_shiftReceived,
    csDeassert_shiftSent, afterBits_afterBits, hassert]
  rw [csDeassert_inFrame rfl]
  simp only [afterBits, hend, frameHeard, hdev, heardBytes, afterFrame]
  simp only [frameEvents, hcs, List.reverse_cons, List.reverse_append, List.append_assoc, List.nil_append,
    List.cons_append, List.reverse_nil]

end Sys2Proof.Laws
end

