-- ==== Sys2Proof/Laws/Commands.lean ====
section
/-! SUPPORT. The frames of the flash commands (41_commands.md): what WAKE, WREN, WRDI, RDSR, PP, BE and READ do on a ready bus,
as equations over afterFrame, and what afterFrame leaves in each field. -/

namespace Sys2Proof.Laws

open Sys2Proof.Machine Sys2Proof.Safety

/-! What a frame leaves in each field. -/

theorem shiftReceived_fields (ys : List Byte) (s : State) : ∃ x n, shiftReceived ys s = withShift x n s := by
  unfold shiftReceived
  split
  · exact ⟨_, _, rfl⟩
  · exact ⟨s.shreg, s.bitcnt, rfl⟩

theorem shiftSent_fields (xs : List Byte) (s : State) : ∃ x n, shiftSent xs s = withShift x n s := by
  cases xs with
  | nil => exact ⟨s.shreg, s.bitcnt, rfl⟩
  | cons _ _ => exact ⟨_, _, rfl⟩

/-- A frame leaves everything but the bus registers, MOSI, the trace, the device and the draws as it was. -/
theorem afterFrame_fields (out ins : List Byte) (d : Device) (e : Env) (s : State) : ∃ x n, afterFrame out ins d e s =
    { s with
      shreg := x
      bitcnt := n
      pins := { s.pins with mosi := mosiAfterBytes out s.pins.mosi }
      tr := (frameEvents out ins).reverse ++ s.tr
      dev := d
      env := e } := by
  unfold afterFrame
  obtain ⟨x, n, h⟩ := shiftSent_fields out { s with
    pins := { s.pins with mosi := mosiAfterBytes out s.pins.mosi }
    tr := (frameEvents out ins).reverse ++ s.tr
    dev := d
    env := e }
  rw [h]
  obtain ⟨x', n', h'⟩ := shiftReceived_fields ins (withShift x n { s with
    pins := { s.pins with mosi := mosiAfterBytes out s.pins.mosi }
    tr := (frameEvents out ins).reverse ++ s.tr
    dev := d
    env := e })
  rw [h']
  exact ⟨x', n', rfl⟩

@[simp] theorem afterFrame_cfg (out ins : List Byte) (d : Device) (e : Env) (s : State) :
    (afterFrame out ins d e s).cfg = s.cfg := by
  obtain ⟨x, n, h⟩ := afterFrame_fields out ins d e s
  rw [h]

@[simp] theorem afterFrame_sess (out ins : List Byte) (d : Device) (e : Env) (s : State) :
    (afterFrame out ins d e s).sess = s.sess := by
  obtain ⟨x, n, h⟩ := afterFrame_fields out ins d e s
  rw [h]

@[simp] theorem afterFrame_busOwner (out ins : List Byte) (d : Device) (e : Env) (s : State) :
    (afterFrame out ins d e s).busOwner = s.busOwner := by
  obtain ⟨x, n, h⟩ := afterFrame_fields out ins d e s
  rw [h]

@[simp] theorem afterFrame_addrR (out ins : List Byte) (d : Device) (e : Env) (s : State) :
    (afterFrame out ins d e s).addrR = s.addrR := by
  obtain ⟨x, n, h⟩ := afterFrame_fields out ins d e s
  rw [h]

@[simp] theorem afterFrame_lenR (out ins : List Byte) (d : Device) (e : Env) (s : State) :
    (afterFrame out ins d e s).lenR = s.lenR := by
  obtain ⟨x, n, h⟩ := afterFrame_fields out ins d e s
  rw [h]

@[simp] theorem afterFrame_offR (out ins : List Byte) (d : Device) (e : Env) (s : State) :
    (afterFrame out ins d e s).offR = s.offR := by
  obtain ⟨x, n, h⟩ := afterFrame_fields out ins d e s
  rw [h]

@[simp] theorem afterFrame_pollR (out ins : List Byte) (d : Device) (e : Env) (s : State) :
    (afterFrame out ins d e s).pollR = s.pollR := by
  obtain ⟨x, n, h⟩ := afterFrame_fields out ins d e s
  rw [h]

@[simp] theorem afterFrame_lastCode (out ins : List Byte) (d : Device) (e : Env) (s : State) :
    (afterFrame out ins d e s).lastCode = s.lastCode := by
  obtain ⟨x, n, h⟩ := afterFrame_fields out ins d e s
  rw [h]

@[simp] theorem afterFrame_sessErr (out ins : List Byte) (d : Device) (e : Env) (s : State) :
    (afterFrame out ins d e s).sessErr = s.sessErr := by
  obtain ⟨x, n, h⟩ := afterFrame_fields out ins d e s
  rw [h]

@[simp] theorem afterFrame_errInfo (out ins : List Byte) (d : Device) (e : Env) (s : State) :
    (afterFrame out ins d e s).errInfo = s.errInfo := by
  obtain ⟨x, n, h⟩ := afterFrame_fields out ins d e s
  rw [h]

@[simp] theorem afterFrame_progress (out ins : List Byte) (d : Device) (e : Env) (s : State) :
    (afterFrame out ins d e s).progress = s.progress := by
  obtain ⟨x, n, h⟩ := afterFrame_fields out ins d e s
  rw [h]

@[simp] theorem afterFrame_seq (out ins : List Byte) (d : Device) (e : Env) (s : State) :
    (afterFrame out ins d e s).seq = s.seq := by
  obtain ⟨x, n, h⟩ := afterFrame_fields out ins d e s
  rw [h]

@[simp] theorem afterFrame_host (out ins : List Byte) (d : Device) (e : Env) (s : State) :
    (afterFrame out ins d e s).host = s.host := by
  obtain ⟨x, n, h⟩ := afterFrame_fields out ins d e s
  rw [h]

@[simp] theorem afterFrame_out (out ins : List Byte) (d : Device) (e : Env) (s : State) :
    (afterFrame out ins d e s).out = s.out := by
  obtain ⟨x, n, h⟩ := afterFrame_fields out ins d e s
  rw [h]

@[simp] theorem afterFrame_pins (out ins : List Byte) (d : Device) (e : Env) (s : State) :
    (afterFrame out ins d e s).pins = { s.pins with mosi := mosiAfterBytes out s.pins.mosi } := by
  obtain ⟨x, n, h⟩ := afterFrame_fields out ins d e s
  rw [h]

@[simp] theorem afterFrame_tr (out ins : List Byte) (d : Device) (e : Env) (s : State) :
    (afterFrame out ins d e s).tr = (frameEvents out ins).reverse ++ s.tr := by
  obtain ⟨x, n, h⟩ := afterFrame_fields out ins d e s
  rw [h]

@[simp] theorem afterFrame_dev (out ins : List Byte) (d : Device) (e : Env) (s : State) :
    (afterFrame out ins d e s).dev = d := by
  obtain ⟨x, n, h⟩ := afterFrame_fields out ins d e s
  rw [h]

@[simp] theorem afterFrame_env (out ins : List Byte) (d : Device) (e : Env) (s : State) :
    (afterFrame out ins d e s).env = e := by
  obtain ⟨x, n, h⟩ := afterFrame_fields out ins d e s
  rw [h]

/-- A frame that ended with a received byte leaves it in shreg (40_softspi.md R135). -/
theorem afterFrame_shreg_received (out ins : List Byte) (y : Byte) (d : Device) (e : Env) (s : State) :
    (afterFrame out (ins ++ [y]) d e s).shreg = y := by
  simp [afterFrame, shiftReceived, withShift]

theorem afterFrame_bitcnt_le {out ins : List Byte} {d : Device} {e : Env} {s : State} (h : s.bitcnt ≤ 8) :
    (afterFrame out ins d e s).bitcnt ≤ 8 := by
  unfold afterFrame shiftReceived
  split
  · exact Nat.le_refl 8
  · cases out with
    | nil => exact h
    | cons _ _ => exact Nat.le_refl 8

/-- The pins of a frame are those of a ready bus again (10_state.md R41, 60_exceptions.md R236). -/
theorem busReady_mosi {p : Pins} (h : p.busReady = true) (b : Bool) : ({ p with mosi := .output b } : Pins).busReady = true := by
  simp only [Pins.busReady, Pins.busHeld, Pin.dir, Bool.and_eq_true, decide_eq_true_eq] at h ⊢
  simp_all

theorem busReady_mosiAfterBytes {p : Pins} (h : p.busReady = true) (out : List Byte) :
    ({ p with mosi := mosiAfterBytes out p.mosi } : Pins).busReady = true := by
  unfold mosiAfterBytes
  split
  · exact busReady_mosi h _
  · exact h

theorem afterFrame_ready {s : State} (h : s.pins.busReady = true) (out ins : List Byte) (d : Device) (e : Env) :
    (afterFrame out ins d e s).pins.busReady = true := by
  rw [afterFrame_pins]
  exact busReady_mosiAfterBytes h out

/-- The level a list of bytes leaves on MOSI is that of its last byte's bit 0 (40_softspi.md R138). -/
theorem mosiAfterBytes_append (xs : List Byte) (x : Byte) (p : Pin) :
    mosiAfterBytes (xs ++ [x]) p = .output (x.getLsbD 0) := by
  simp [mosiAfterBytes]

/-! Frames that receive nothing. -/

/-- The device after a frame, its fbits cleared. -/
def chipAfter (bytes : List Byte) (d : Device) (e : Env) : Device × Env :=
  ({ (d.takeFrame bytes e).1 with fbits := [] }, (d.takeFrame bytes e).2)

theorem sendFrame_eq {s : State} (h : s.pins.busReady = true) {out : List Byte} (hw : isWholeCommand out = true) :
    sendFrame out s = afterFrame out [] (chipAfter out s.dev s.env).1 (chipAfter out s.dev s.env).2 s := by
  rw [sendFrame, frame_eq h hw]
  simp [frameHeard, hear, bytesOfBits, frameAtChip, chipAfter]

theorem chipAfter_wake (d : Device) (e : Env) : chipAfter [0xAB] d e = ({ d with pd := false, fbits := [] }, e) := rfl

theorem chipAfter_wren {d : Device} (hpd : d.pd = false) (hb : d.busy = .polls 0) (e : Env) :
    chipAfter [0x06] d e = ({ d with wel := true, fbits := [] }, e) := by
  rw [chipAfter, takeFrame_obeyed _ _ (not_ignores_of_ready hpd hb _), obey_wren]

theorem chipAfter_wrdi {d : Device} (hpd : d.pd = false) (hb : d.busy = .polls 0) (e : Env) :
    chipAfter [0x04] d e = ({ d with wel := false, fbits := [] }, e) := by
  rw [chipAfter, takeFrame_obeyed _ _ (not_ignores_of_ready hpd hb _), obey_wrdi]

/-- The chip after WREN and PP (20_memory.md R71, R74, R80). -/
def programmedChip (a : Addr) (data : List Byte) (d : Device) (e : Env) : Device :=
  { (Device.program a data { d with wel := true } e).1 with fbits := [] }

/-- The draws left after WREN and PP. -/
def programDraws (a : Addr) (data : List Byte) (d : Device) (e : Env) : Env :=
  (Device.program a data { d with wel := true } e).2

/-- The chip after WREN and BE (20_memory.md R71, R75, R80). -/
def erasedChip (a : Addr) (d : Device) (e : Env) : Device :=
  { (Device.eraseBlock a { d with wel := true } e).1 with fbits := [] }

/-- The draws left after WREN and BE. -/
def eraseDraws (a : Addr) (d : Device) (e : Env) : Env := (Device.eraseBlock a { d with wel := true } e).2

/-- After WREN and PP the chip is busy for a drawn count and one such input is used up, whatever the address (20_memory.md R74,
R78). -/
theorem programmedChip_turnsBusy (a : Addr) (data : List Byte) (d : Device) (e : Env) :
    ∃ m w c, programmedChip a data d e = { d with mem := m, wel := w, busy := e.drawBusy.1, fbits := [] } ∧
      programDraws a data d e = { e.drawBusy.2 with count := c } := by
  obtain ⟨m, w, c, h⟩ := program_turnsBusy (d := { d with wel := true }) a data e rfl
  exact ⟨m, w, c, by rw [programmedChip, h], by rw [programDraws, h]⟩

theorem erasedChip_turnsBusy (a : Addr) (d : Device) (e : Env) :
    ∃ m w c, erasedChip a d e = { d with mem := m, wel := w, busy := e.drawBusy.1, fbits := [] } ∧
      eraseDraws a d e = { e.drawBusy.2 with count := c } := by
  obtain ⟨m, w, c, h⟩ := eraseBlock_turnsBusy (d := { d with wel := true }) a e rfl
  exact ⟨m, w, c, by rw [erasedChip, h], by rw [eraseDraws, h]⟩

/-- The test that a PP is below FLASH_SIZE, as claims state it (20_memory.md R74, R80). -/
theorem insideProgram_iff (d : Device) (a : Addr) (data : List Byte) :
    d.insideProgram a data = true ↔ ProgramInside d.flashSize a data.length := by
  simp [Device.insideProgram, ProgramInside]

theorem insideErase_iff (d : Device) (a : Addr) : d.insideErase a = true ↔ EraseInside d.flashSize a := by
  rw [Device.insideErase, decide_eq_true_eq]
  rfl

/-- WREN and PP below FLASH_SIZE: the data is ANDed in and the latch is clear (20_memory.md R74). -/
theorem programmedChip_inside {a : Addr} {data : List Byte} {d : Device} (h : ProgramInside d.flashSize a data.length)
    (e : Env) : programmedChip a data d e =
      { d with mem := Memory.programFrom a 0 data d.mem, wel := false, busy := e.drawBusy.1, fbits := [] } := by
  have hi : Device.insideProgram { d with wel := true } a data = true := (insideProgram_iff _ _ _).mpr h
  rw [programmedChip, program_latched a data e rfl hi]

/-- WREN and BE below FLASH_SIZE: the block is FF and the latch is clear (20_memory.md R75). -/
theorem erasedChip_inside {a : Addr} {d : Device} (h : EraseInside d.flashSize a) (e : Env) : erasedChip a d e =
    { d with mem := d.mem.fill (blockBase a) Config.blockSize 0xFF, wel := false, busy := e.drawBusy.1, fbits := [] } := by
  have hi : Device.insideErase { d with wel := true } a = true := (insideErase_iff _ _).mpr h
  rw [erasedChip, eraseBlock_latched a e rfl hi]

theorem chipAfter_pp {d : Device} (hpd : d.pd = false) (hb : d.busy = .polls 0) (a : Addr) (data : List Byte) (e : Env) :
    chipAfter (addressed 0x02 a ++ data) { d with wel := true, fbits := [] } e =
      (programmedChip a data d e, programDraws a data d e) := by
  have hi := not_ignores_of_ready (d := { d with wel := true, fbits := [] }) hpd hb 0x02
  have hf := program_fbits a data { d with wel := true } e []
  rw [chipAfter, addressed, List.cons_append, takeFrame_obeyed _ _ hi, obey_pp, hf]
  rfl

theorem chipAfter_be {d : Device} (hpd : d.pd = false) (hb : d.busy = .polls 0) (a : Addr) (e : Env) :
    chipAfter (addressed 0xD8 a) { d with wel := true, fbits := [] } e = (erasedChip a d e, eraseDraws a d e) := by
  have hi := not_ignores_of_ready (d := { d with wel := true, fbits := [] }) hpd hb 0xD8
  have hf := eraseBlock_fbits a { d with wel := true } e []
  rw [chipAfter, addressed, takeFrame_obeyed _ _ hi, obey_be, hf]
  rfl

/-- A frame that the chip ignores leaves the chip as it was, its fbits cleared (20_memory.md R67, R68). -/
theorem chipAfter_ignored {d : Device} {op : Byte} (rest : List Byte) (e : Env) (hop : op ≠ 0xAB)
    (h : d.ignores op = true) : chipAfter (op :: rest) d e = ({ d with fbits := [] }, e) := by
  rw [chipAfter, takeFrame_ignored rest e hop h]

/-- No frame breaks the canonical form, puts the chip to sleep or changes FLASH_SIZE. -/
theorem chipAfter_keeps {d : Device} (bytes : List Byte) (e : Env) :
    ChipKept d (chipAfter bytes d e).1 ∧ (chipAfter bytes d e).1.fbits = [] := ⟨takeFrame_keeps bytes e, rfl⟩

/-! Frames that receive. -/

/-- The bits a READ that is not ignored hears, from bit j of its read phase on, are those of the flash where it lies below
FLASH_SIZE; no draw is used. -/
theorem hear_read {a : Addr} {m : Bool} : ∀ (n j : Nat) {d : Device} (e : Env),
    d.fbits = frameBits (addressed 0x03 a) m j → d.ignores 0x03 = false →
    (∀ i, j ≤ i → i < j + n → d.insideRead a i = true) →
    hear m n d e = ((List.range' j n).map (d.readBit a), e)
  | 0, j, d, e, _, _, _ => rfl
  | n + 1, j, d, e, hf, hi, hin => by
    have hf' : (d.clockIn m).fbits = frameBits (addressed 0x03 a) m (j + 1) := by
      simp [Device.clockIn, hf, frameBits, List.replicate_succ]
    have hj : (d.clockIn m).insideRead a j = true := hin j (Nat.le_refl j) (by omega)
    have hans : (d.clockIn m).answer = some (d.readBit a j) := by
      rw [answer_read hf' hi, if_pos hj]
      rfl
    have hp : (d.clockIn m).present e = (d.readBit a j, e) := by rw [Device.present, hans]
    rw [hear, hp]
    simp only
    rw [hear_read n (j + 1) e hf' hi (fun i h1 h2 => hin i (by omega) (by omega))]
    rfl

/-- Eight bits of a READ's read phase are the byte of the flash they come from. -/
theorem readBits_byte (d : Device) (a : Addr) (i : Nat) :
    (List.range' (8 * i) 8).map (d.readBit a) = bitsOfByte (d.mem.read (readAddr a i)) := by
  have h : ∀ k, k < 8 → d.readBit a (8 * i + k) = (d.mem.read (readAddr a i)).getLsbD (7 - k) := by
    intro k hk
    rw [Device.readBit, show (8 * i + k) / 8 = i by omega, show (8 * i + k) % 8 = k by omega]
  simp only [List.range', List.map_cons, List.map_nil, bitsOfByte, Nat.add_assoc, Nat.reduceAdd]
  rw [h 1 (by omega), h 2 (by omega), h 3 (by omega), h 4 (by omega), h 5 (by omega), h 6 (by omega), h 7 (by omega)]
  have h0 := h 0 (by omega)
  rw [Nat.add_zero] at h0
  rw [h0]

theorem readBits_bytes (d : Device) (a : Addr) : ∀ n i : Nat,
    (List.range' (8 * i) (8 * n)).map (d.readBit a) =
      bitsOfBytes ((List.range' i n).map fun k => d.mem.read (readAddr a k))
  | 0, _ => rfl
  | n + 1, i => by
    have hsplit : List.range' (8 * i) (8 * (n + 1)) = List.range' (8 * i) 8 ++ List.range' (8 * (i + 1)) (8 * n) := by
      rw [show 8 * (i + 1) = 8 * i + 1 * 8 by omega, List.range'_append, show 8 + 8 * n = 8 * (n + 1) by omega]
    rw [hsplit, List.map_append, readBits_byte, readBits_bytes d a n (i + 1), List.range'_succ, List.map_cons,
      bitsOfBytes_cons]

/-- The n bytes of the flash from address a on (00_scope.md R10, MemRead; 20_memory.md R73). -/
def flashBytes (m : Memory) (a : Addr) (n : Nat) : List Byte := (List.range n).map fun i => m.read (readAddr a i)

theorem flashBytes_length (m : Memory) (a : Addr) (n : Nat) : (flashBytes m a n).length = n := by simp [flashBytes]

/-- The first m bytes of a READ of n that is not ignored are those of the flash where they lie below FLASH_SIZE
(20_memory.md R73, R80). -/
theorem heardBytes_read {a : Addr} {l : Bool} {m n : Nat} {d : Device} (e : Env) (hmn : m ≤ n)
    (hf : d.fbits = frameBits (addressed 0x03 a) l 0) (hi : d.ignores 0x03 = false)
    (hin : ∀ k, k < m → readAddr a k < d.flashSize) : (heardBytes l n d e).take m = flashBytes d.mem a m := by
  have hh : hear l (8 * m) d e = (bitsOfBytes (flashBytes d.mem a m), e) := by
    have hin' : ∀ i, 0 ≤ i → i < 0 + 8 * m → d.insideRead a i = true := fun i _ hi =>
      decide_eq_true (hin (i / 8) (by omega))
    rw [hear_read (8 * m) 0 e hf hi hin', flashBytes, List.range_eq_range']
    exact congrArg (fun bits => (bits, e)) (readBits_bytes d a m 0)
  rw [heardBytes, show 8 * n = 8 * m + 8 * (n - m) by omega, hear_add, hh, bytesOfBits_append]
  exact List.take_left' (flashBytes_length d.mem a m)

/-- READ_CORE on any chip, wherever it reads (41_commands.md R157): n bytes, the chip unchanged, and from a chip that obeys READ
the bytes below FLASH_SIZE are the flash's. -/
theorem readCore_any {s : State} (h : s.pins.busReady = true) (a : Addr) (n : Nat) :
    ∃ data e, data.length = n ∧
      readCore a n s = (data, afterFrame (addressed 0x03 a) data { s.dev with fbits := [] } e s) ∧
      ∀ m, m ≤ n → s.dev.ignores 0x03 = false → (∀ k, k < m → readAddr a k < s.dev.flashSize) →
        data.take m = flashBytes s.dev.mem a m := by
  refine ⟨bytesOfBits (frameHeard (addressed 0x03 a) n s).1, (frameHeard (addressed 0x03 a) n s).2,
    heardBytes_length _ _ _ _, ?_, fun m hm hi hin => heardBytes_read s.env hm rfl hi hin⟩
  have htake : ∀ e, s.dev.takeFrame (frameAtChip (addressed 0x03 a) n s.pins.mosi) e = (s.dev, e) := fun e => by
    rw [frameAtChip, addressed, List.cons_append, Device.takeFrame]
    split <;> rfl
  rw [readCore, frame_eq h (isWholeCommand_read a), htake]

/-- READ_CORE of n bytes below FLASH_SIZE on a chip that obeys READ: the flash's bytes, no draw, and the chip unchanged. -/
theorem readCore_eq {s : State} (h : s.pins.busReady = true) (hi : s.dev.ignores 0x03 = false) {a : Addr} {n : Nat}
    (hin : ∀ k, k < n → readAddr a k < s.dev.flashSize) :
    readCore a n s =
      (flashBytes s.dev.mem a n,
        afterFrame (addressed 0x03 a) (flashBytes s.dev.mem a n) { s.dev with fbits := [] } s.env s) := by
  have hheard : frameHeard (addressed 0x03 a) n s = (bitsOfBytes (flashBytes s.dev.mem a n), s.env) := by
    have hf : ({ s.dev with fbits := (bitsOfBytes (addressed 0x03 a)).reverse } : Device).fbits =
        frameBits (addressed 0x03 a) (mosiLevel (mosiAfterBytes (addressed 0x03 a) s.pins.mosi)) 0 := rfl
    have hb := readBits_bytes s.dev a n 0
    have hin' : ∀ i, 0 ≤ i → i < 0 + 8 * n →
        Device.insideRead { s.dev with fbits := (bitsOfBytes (addressed 0x03 a)).reverse } a i = true := fun i _ hi =>
      decide_eq_true (hin (i / 8) (by omega))
    rw [frameHeard, hear_read (8 * n) 0 s.env hf hi hin', flashBytes, List.range_eq_range']
    exact congrArg (fun bits => (bits, s.env)) hb
  rw [readCore, frame_eq h (isWholeCommand_read a), hheard, bytesOfBits_bitsOfBytes, frameAtChip, addressed,
    List.cons_append, takeFrame_obeyed _ _ hi, obey_read]

/-! Status reads. -/

/-- n draws of MISO bits. -/
def drawMisos : Nat → Env → List Bool × Env
  | 0, e => ([], e)
  | n + 1, e => (e.drawMiso.1 :: (drawMisos n e.drawMiso.2).1, (drawMisos n e.drawMiso.2).2)

theorem drawMisos_length : ∀ (n : Nat) (e : Env), (drawMisos n e).1.length = n
  | 0, _ => rfl
  | n + 1, e => by simp [drawMisos, drawMisos_length n]

/-- The first bits of a status byte are draws (20_memory.md R70). -/
theorem hear_status_draws {m : Bool} : ∀ (n j : Nat) {d : Device} (e : Env), j + n ≤ 7 →
    d.fbits = frameBits [0x05] m j → d.pd = false → hear m n d e = drawMisos n e
  | 0, _, _, _, _, _, _ => rfl
  | n + 1, j, d, e, hn, hf, hpd => by
    have hf' : (d.clockIn m).fbits = frameBits [0x05] m (j + 1) := by
      simp [Device.clockIn, hf, frameBits, List.replicate_succ]
    have hans : (d.clockIn m).answer = none := by
      rw [answer_status (by omega) hf' hpd, if_neg (by omega)]
    have hp : (d.clockIn m).present e = e.drawMiso := by rw [Device.present, hans]
    rw [hear, hp]
    rw [hear_status_draws n (j + 1) e.drawMiso.2 (by omega) hf' hpd]
    rfl

/-- The status byte an awake chip gives: seven draws, then the busy flag (20_memory.md R70). -/
def statusByte (d : Device) (e : Env) : Byte := byteOfList ((drawMisos 7 e).1 ++ [stillBusy d.busy])

theorem busyFlag_byteOfList {bits : List Bool} (h : bits.length = 7) (b : Bool) :
    busyFlag (byteOfList (bits ++ [b])) = b := by
  match bits, h with
  | [b7, b6, b5, b4, b3, b2, b1], _ =>
    have hb : byteOfList ([b7, b6, b5, b4, b3, b2, b1] ++ [b]) = byteOf b7 b6 b5 b4 b3 b2 b1 b :=
      shiftInBit_byteOf b7 b6 b5 b4 b3 b2 b1 b
    rw [hb, busyFlag, byteOf_getLsbD_zero]

theorem busyFlag_statusByte (d : Device) (e : Env) : busyFlag (statusByte d e) = stillBusy d.busy :=
  busyFlag_byteOfList (drawMisos_length 7 e) _

theorem hear_status {m : Bool} {d : Device} (e : Env) (hf : d.fbits = frameBits [0x05] m 0) (hpd : d.pd = false) :
    hear m 8 d e = ((drawMisos 7 e).1 ++ [stillBusy d.busy], (drawMisos 7 e).2) := by
  have hf' : ((clockBits (List.replicate 7 m) d).clockIn m).fbits = frameBits [0x05] m 8 := by
    simp only [clockBits, Device.clockIn, hf, frameBits, List.reverse_replicate, List.replicate_zero, List.nil_append,
      ← List.cons_append, ← List.replicate_succ]
  have hans : ((clockBits (List.replicate 7 m) d).clockIn m).answer = some (stillBusy d.busy) := by
    rw [answer_status (by omega) hf' hpd, if_pos rfl]
    rfl
  rw [show (8 : Nat) = 7 + 1 from rfl, hear_add, hear_status_draws 7 0 e (by omega) hf hpd]
  simp only [hear, Device.present, hans]

/-- RDSR_CORE on an awake chip: the status byte, seven draws, one poll counted (41_commands.md R152, 20_memory.md R70). -/
theorem rdsr_eq {s : State} (h : s.pins.busReady = true) (hpd : s.dev.pd = false) :
    frame [0x05] 1 s =
      ([statusByte s.dev s.env],
        afterFrame [0x05] [statusByte s.dev s.env] { s.dev with busy := afterPoll s.dev.busy, fbits := [] }
          (drawMisos 7 s.env).2 s) := by
  have hheard : frameHeard [0x05] 1 s =
      ((drawMisos 7 s.env).1 ++ [stillBusy s.dev.busy], (drawMisos 7 s.env).2) :=
    hear_status (d := { s.dev with fbits := (bitsOfBytes [0x05]).reverse }) s.env rfl hpd
  have hbits : bytesOfBits ((drawMisos 7 s.env).1 ++ [stillBusy s.dev.busy]) = [statusByte s.dev s.env] := by
    have hlen : ((drawMisos 7 s.env).1 ++ [stillBusy s.dev.busy]).length = 8 := by simp [drawMisos_length]
    have hb := (bits_of_eight hlen []).2
    rwa [List.append_nil] at hb
  rw [frame_eq h (out := [0x05]) rfl, hheard, hbits, frameAtChip, List.cons_append, takeFrame_obeyed _ _ (not_ignores_status hpd), obey_status]

/-! The core procedures. -/

theorem wakeCore_eq {s : State} (h : s.pins.busReady = true) :
    wakeCore s =
      { afterFrame [0xAB] [] { s.dev with pd := false, fbits := [] } s.env s with
        sess := if s.sess = .reset then .awake else s.sess } := by
  rw [wakeCore, wokenUp, sendFrame_eq h rfl, chipAfter_wake]
  simp

theorem wrenCore_eq {s : State} (h : s.pins.busReady = true) (hpd : s.dev.pd = false) (hb : s.dev.busy = .polls 0) :
    wrenCore s = afterFrame [0x06] [] { s.dev with wel := true, fbits := [] } s.env s := by
  rw [wrenCore, sendFrame_eq h rfl, chipAfter_wren hpd hb]

theorem wrdiCore_eq {s : State} (h : s.pins.busReady = true) (hpd : s.dev.pd = false) (hb : s.dev.busy = .polls 0) :
    wrdiCore s = afterFrame [0x04] [] { s.dev with wel := false, fbits := [] } s.env s := by
  rw [wrdiCore, sendFrame_eq h rfl, chipAfter_wrdi hpd hb]

theorem ppCore_eq {s : State} (h : s.pins.busReady = true) (hpd : s.dev.pd = false) (hb : s.dev.busy = .polls 0)
    (a : Addr) (data : List Byte) :
    ppCore a data s =
      { afterFrame (addressed 0x02 a ++ data) [] (programmedChip a data s.dev s.env) (programDraws a data s.dev s.env)
          (afterFrame [0x06] [] { s.dev with wel := true, fbits := [] } s.env s) with
        sess := .busyProgramming } := by
  have hw := wrenCore_eq h hpd hb
  have hr : (wrenCore s).pins.busReady = true := by
    rw [hw, afterFrame_pins]
    exact busReady_mosiAfterBytes h _
  have hc := chipAfter_pp hpd hb a data s.env
  rw [ppCore, sendFrame_eq hr (isWholeCommand_pp a data), hw, afterFrame_dev, afterFrame_env, hc]

theorem beCore_eq {s : State} (h : s.pins.busReady = true) (hpd : s.dev.pd = false) (hb : s.dev.busy = .polls 0) (a : Addr) :
    beCore a s =
      { afterFrame (addressed 0xD8 a) [] (erasedChip a s.dev s.env) (eraseDraws a s.dev s.env)
          (afterFrame [0x06] [] { s.dev with wel := true, fbits := [] } s.env s) with
        sess := .busyErasing } := by
  have hw := wrenCore_eq h hpd hb
  have hr : (wrenCore s).pins.busReady = true := by
    rw [hw, afterFrame_pins]
    exact busReady_mosiAfterBytes h _
  have hc := chipAfter_be hpd hb a s.env
  rw [beCore, sendFrame_eq hr (isWholeCommand_be a), hw, afterFrame_dev, afterFrame_env, hc]

end Sys2Proof.Laws
end

