-- ==== Sys2Proof/Laws/Encoding.lean ====
section
/-! SUPPORT. Requests (30_encoding.md R104, R105): the header of a request is read back, data is taken off the front, and what
follows a whole request is left. -/

namespace Sys2Proof.Laws

/-- The header fields are read back from a request's bytes. -/
theorem splitHeader_requestBytes (op : Byte) (a : Addr) (n : Count) (d rest : List Byte) :
    splitHeader (requestBytes op a n d ++ rest) = some (⟨op, a, n⟩, d ++ rest) := by
  show some (({ op := op, addr := addrOfBytes _ _ _, len := countOfBytes _ _ _ _ } : Header), d ++ rest) = _
  rw [addrOfBytes_addrBytes, countOfBytes_countBytes]

/-- Fewer than 8 bytes are no header (R105). -/
theorem splitHeader_short {bytes : List Byte} (h : bytes.length < 8) : splitHeader bytes = none := by
  match bytes with
  | [] | [_] | [_, _] | [_, _, _] | [_, _, _, _] | [_, _, _, _, _] | [_, _, _, _, _, _] | [_, _, _, _, _, _, _] => rfl
  | _ :: _ :: _ :: _ :: _ :: _ :: _ :: _ :: _ =>
    simp at h
    omega

theorem requestBytes_length (op : Byte) (a : Addr) (n : Count) (d : List Byte) :
    (requestBytes op a n d).length = 8 + d.length := by
  simp [requestBytes, addrBytes, countBytes]
  omega

/-- A request cut after its header is a header with part of the data. -/
theorem take_requestBytes (op : Byte) (a : Addr) (n : Count) (d : List Byte) {k : Nat} (h : 8 ≤ k) :
    (requestBytes op a n d).take k = requestBytes op a n (d.take (k - 8)) := by
  obtain ⟨j, rfl⟩ : ∃ j, k = j + 8 := ⟨k - 8, by omega⟩
  simp [requestBytes, addrBytes, countBytes]

/-- The length field of a buffer that fits says its length. -/
theorem lengthField {d : List Byte} (h : d.length < 2 ^ 32) : (BitVec.ofNat 32 d.length).toNat = d.length := by
  simp only [BitVec.toNat_ofNat]
  omega

theorem takeData_own {d : List Byte} (rest : List Byte) (h : d.length < 2 ^ 32) :
    takeData (BitVec.ofNat 32 d.length) (d ++ rest) = .ok (d, rest) := by
  simp [takeData, lengthField h]

/-- Data that is there is taken the same way when more follows. -/
theorem takeData_more {n : Count} {r d l : List Byte} (h : takeData n r = .ok (d, l)) (more : List Byte) :
    takeData n (r ++ more) = .ok (d, l ++ more) := by
  unfold takeData at h ⊢
  split at h
  · rename_i hl
    cases h
    rw [if_pos (by simp; omega), List.take_append_of_le_length hl, List.drop_append_of_le_length hl]
  · cases h

/-- A request decoded as an op is decoded the same way when more follows (R105, R110). -/
theorem decodeOp_more {h : Header} {r l : List Byte} {i : Instr} (hd : decodeOp h r = .ok (i, l)) (more : List Byte) :
    decodeOp h (r ++ more) = .ok (i, l ++ more) := by
  unfold decodeOp at hd ⊢
  have key : ∀ f : List Byte → Instr,
      (takeData h.len r).map (fun (x : List Byte × List Byte) => (f x.1, x.2)) = .ok (i, l) →
      (takeData h.len (r ++ more)).map (fun (x : List Byte × List Byte) => (f x.1, x.2)) = .ok (i, l ++ more) := by
    intro f hf
    cases ht : takeData h.len r with
    | error e =>
      rw [ht] at hf
      cases hf
    | ok p =>
      obtain ⟨d, q⟩ := p
      rw [ht] at hf
      rw [takeData_more ht more]
      cases hf
      rfl
  by_cases e02 : h.op = 0x02
  · rw [if_pos e02] at hd ⊢
    exact key _ hd
  by_cases e03 : h.op = 0x03
  · rw [if_neg e02, if_pos e03] at hd ⊢
    cases hd
    rfl
  by_cases e04 : h.op = 0x04
  · rw [if_neg e02, if_neg e03, if_pos e04] at hd ⊢
    cases hd
    rfl
  by_cases e05 : h.op = 0x05
  · rw [if_neg e02, if_neg e03, if_neg e04, if_pos e05] at hd ⊢
    cases hd
    rfl
  by_cases e06 : h.op = 0x06
  · rw [if_neg e02, if_neg e03, if_neg e04, if_neg e05, if_pos e06] at hd ⊢
    cases hd
    rfl
  by_cases eD8 : h.op = 0xD8
  · rw [if_neg e02, if_neg e03, if_neg e04, if_neg e05, if_neg e06, if_pos eD8] at hd ⊢
    cases hd
    rfl
  by_cases eAB : h.op = 0xAB
  · rw [if_neg e02, if_neg e03, if_neg e04, if_neg e05, if_neg e06, if_neg eD8, if_pos eAB] at hd ⊢
    cases hd
    rfl
  by_cases eE0 : h.op = 0xE0
  · rw [if_neg e02, if_neg e03, if_neg e04, if_neg e05, if_neg e06, if_neg eD8, if_neg eAB, if_pos eE0] at hd ⊢
    cases hd
    rfl
  by_cases eE1 : h.op = 0xE1
  · rw [if_neg e02, if_neg e03, if_neg e04, if_neg e05, if_neg e06, if_neg eD8, if_neg eAB, if_neg eE0,
      if_pos eE1] at hd ⊢
    exact key _ hd
  by_cases eE2 : h.op = 0xE2
  · rw [if_neg e02, if_neg e03, if_neg e04, if_neg e05, if_neg e06, if_neg eD8, if_neg eAB, if_neg eE0, if_neg eE1,
      if_pos eE2] at hd ⊢
    exact key _ hd
  by_cases eE3 : h.op = 0xE3
  · rw [if_neg e02, if_neg e03, if_neg e04, if_neg e05, if_neg e06, if_neg eD8, if_neg eAB, if_neg eE0, if_neg eE1,
      if_neg eE2, if_pos eE3] at hd ⊢
    cases hd
    rfl
  by_cases eE4 : h.op = 0xE4
  · rw [if_neg e02, if_neg e03, if_neg e04, if_neg e05, if_neg e06, if_neg eD8, if_neg eAB, if_neg eE0, if_neg eE1,
      if_neg eE2, if_neg eE3, if_pos eE4] at hd ⊢
    cases hd
    rfl
  by_cases eE8 : h.op = 0xE8
  · rw [if_neg e02, if_neg e03, if_neg e04, if_neg e05, if_neg e06, if_neg eD8, if_neg eAB, if_neg eE0, if_neg eE1,
      if_neg eE2, if_neg eE3, if_neg eE4, if_pos eE8] at hd ⊢
    cases hd
    rfl
  by_cases eE9 : h.op = 0xE9
  · rw [if_neg e02, if_neg e03, if_neg e04, if_neg e05, if_neg e06, if_neg eD8, if_neg eAB, if_neg eE0, if_neg eE1,
      if_neg eE2, if_neg eE3, if_neg eE4, if_neg eE8, if_pos eE9] at hd ⊢
    cases hd
    rfl
  · rw [if_neg e02, if_neg e03, if_neg e04, if_neg e05, if_neg e06, if_neg eD8, if_neg eAB, if_neg eE0, if_neg eE1,
      if_neg eE2, if_neg eE3, if_neg eE4, if_neg eE8, if_neg eE9] at hd
    cases hd


/-- A request is decoded the same way when more follows (R105, R110). -/
theorem decodeRequest_more {b l : List Byte} {i : Instr} (hd : decodeRequest b = .ok (i, l)) (more : List Byte) :
    decodeRequest (b ++ more) = .ok (i, l ++ more) := by
  match b with
  | _ :: _ :: _ :: _ :: _ :: _ :: _ :: _ :: _ => exact decodeOp_more hd more
  | [] | [_] | [_, _] | [_, _, _] | [_, _, _, _] | [_, _, _, _, _] | [_, _, _, _, _, _] | [_, _, _, _, _, _, _] => cases hd

end Sys2Proof.Laws
end

