-- ==== Sys2Proof/Laws/Ops.lean ====
section
/-! SUPPORT. What the run of an op can do (41_commands.md R150), what one step can do, and runs of several steps. -/

namespace Sys2Proof.Laws

open Sys2Proof.Machine Sys2Proof.Safety

/-! The run of an op. -/

theorem runOp_checked {checks : List (Option Stop)} (body : State → State) (s : State) (h : firstStop checks = none) :
    runOp checks body s = .next (body s) := by
  rw [runOp, h]

theorem runOp_stopped {checks : List (Option Stop)} {e : Stop} (body : State → State) (s : State)
    (h : firstStop checks = some e) : runOp checks body s = .next (raise e s) := by
  rw [runOp, h]

/-- An op without frames stops at its first failing check, or runs its body. -/
theorem runOp_next {checks : List (Option Stop)} {body : State → State} {s t : State} (h : runOp checks body s = .next t) :
    (∃ e, firstStop checks = some e ∧ t = raise e s) ∨ (firstStop checks = none ∧ t = body s) := by
  unfold runOp at h
  split at h
  · rename_i e he
    exact Or.inl ⟨e, he, (Host.Outcome.next.inj h).symm⟩
  · rename_i he
    exact Or.inr ⟨he, (Host.Outcome.next.inj h).symm⟩

theorem runBusOp_checked {checks : List (Option Stop)} (body : State → State) {s : State} (h : firstStop checks = none)
    (hr : s.pins.busReady = true) : runBusOp checks body s = .next (body s) := by
  rw [runBusOp, h, if_pos hr]

theorem runBusOp_stopped {checks : List (Option Stop)} {e : Stop} (body : State → State) (s : State)
    (h : firstStop checks = some e) : runBusOp checks body s = .next (raise e s) := by
  rw [runBusOp, h]

/-- An op that sends frames stops at its first failing check, or runs its body on a ready bus. -/
theorem runBusOp_next {checks : List (Option Stop)} {body : State → State} {s t : State}
    (h : runBusOp checks body s = .next t) :
    (∃ e, firstStop checks = some e ∧ t = raise e s) ∨
      (firstStop checks = none ∧ s.pins.busReady = true ∧ t = body s) := by
  unfold runBusOp at h
  split at h
  · rename_i e he
    exact Or.inl ⟨e, he, (Host.Outcome.next.inj h).symm⟩
  · rename_i he
    split at h
    · rename_i hr
      exact Or.inr ⟨he, hr, (Host.Outcome.next.inj h).symm⟩
    · cases h

theorem runMicro_held (body : State → State) {s : State} (h : BusHeld s) : runMicro body s = .next (body s) := by
  exact if_pos h

/-- A micro-op runs on a held bus. -/
theorem runMicro_next {body : State → State} {s t : State} (h : runMicro body s = .next t) : BusHeld s ∧ t = body s := by
  unfold runMicro at h
  split at h
  · rename_i hb
    exact ⟨hb, (Host.Outcome.next.inj h).symm⟩
  · cases h

theorem checkSession_active {s : State} (h : s.sess ≠ .released) : checkSession s = none := by
  rw [checkSession, if_neg h]

theorem checkIdle_idle {s : State} (h : s.sess = .idle) : checkIdle s = none := by
  rw [checkIdle, if_pos h]

theorem checkRange_fits {a : Addr} {n : Nat} (h : a.toNat + n ≤ 16777216) : checkRange a n = none := by
  rw [checkRange, if_neg (by unfold Config.addressCount; omega)]

theorem checkPageLength_fits {n : Nat} (h : n ≤ 256) : checkPageLength n = none := by
  rw [checkPageLength, if_neg (by unfold Config.pageSize; omega)]

@[simp] theorem firstStop_nil : firstStop [] = none := rfl
@[simp] theorem firstStop_some (e : Stop) (checks : List (Option Stop)) : firstStop (some e :: checks) = some e := rfl
@[simp] theorem firstStop_none (checks : List (Option Stop)) : firstStop (none :: checks) = firstStop checks := rfl

/-! One step. -/

theorem step_request {s : State} {i : Instr} {rest : List Byte} (hs : s.seq = .portIdle)
    (hd : decodeRequest s.host = .ok (i, rest)) : step s = exec i { s with host := rest } := by
  simp [step, fetch, hs, fetchRequest, hd]

theorem step_awaiting {s : State} {op : Instr} {rest : List Task} (hs : s.seq = .awaiting op rest) :
    step s = resume op rest s := by
  simp [step, fetch, hs]

theorem step_micro {s : State} {i : Instr} {code : BitVec 4} {operand : Byte} {words : List (BitVec 4 × Byte)}
    (hs : s.seq = .micro ((code, operand) :: words)) (hd : decodeMicro code operand = .ok i) :
    step s = exec i { s with seq := afterMicro words } := by
  simp [step, fetch, hs, hd]

/-- What the host port can have due. -/
theorem fetchRequest_cases (s : State) :
    fetchRequest s = .nothing ∨
    (∃ i rest, decodeRequest s.host = .ok (i, rest) ∧ fetchRequest s = .instr i { s with host := rest }) ∨
    ∃ op, decodeRequest s.host = .error (.illegalOp op) ∧
      fetchRequest s = .illegal op { s with host := s.host.drop headerLength } := by
  unfold fetchRequest
  split
  · rename_i i rest hd
    exact Or.inr (Or.inl ⟨i, rest, hd, rfl⟩)
  · rename_i op hd
    exact Or.inr (Or.inr ⟨op, hd, rfl⟩)
  · exact Or.inl rfl

theorem step_port {s t : State} (hf : fetch s = fetchRequest s) (h : step s = .next t) :
    t = s ∨ (∃ i rest, decodeRequest s.host = .ok (i, rest) ∧ exec i { s with host := rest } = .next t) ∨
    ∃ op, decodeRequest s.host = .error (.illegalOp op) ∧
      t = illegalCommand op { s with host := s.host.drop headerLength } := by
  rw [step, hf] at h
  rcases fetchRequest_cases s with hc | ⟨i, rest, hd, hc⟩ | ⟨op, hd, hc⟩ <;> simp only [hc] at h
  · exact Or.inl (Host.Outcome.next.inj h).symm
  · exact Or.inr (Or.inl ⟨i, rest, hd, h⟩)
  · exact Or.inr (Or.inr ⟨op, hd, (Host.Outcome.next.inj h).symm⟩)

theorem step_inFrame {s : State} {f : FrameRun} (hs : s.seq = .inFrame f) : step s = advance f s := by
  simp [step, fetch, hs]

theorem seq_cases (s : State) :
    s.seq = .portIdle ∨ (∃ op rest, s.seq = .awaiting op rest) ∨ (∃ words, s.seq = .micro words) ∨
      ∃ f, s.seq = .inFrame f := by
  match s.seq with
  | .portIdle => exact Or.inl rfl
  | .awaiting op rest => exact Or.inr (Or.inl ⟨op, rest, rfl⟩)
  | .micro words => exact Or.inr (Or.inr (Or.inl ⟨words, rfl⟩))
  | .inFrame f => exact Or.inr (Or.inr (Or.inr ⟨f, rfl⟩))

/-- Everything a step that answers a next state can be, in a state between frames: waiting, a request's instruction, an
illegal request, or a pass of a poll loop. -/
theorem step_next {s t : State} (hq : ∀ words, s.seq ≠ .micro words) (hf : ∀ f, s.seq ≠ .inFrame f)
    (h : step s = .next t) :
    t = s ∨
    (∃ i rest, s.seq = .portIdle ∧ decodeRequest s.host = .ok (i, rest) ∧ exec i { s with host := rest } = .next t) ∨
    (∃ op, s.seq = .portIdle ∧ decodeRequest s.host = .error (.illegalOp op) ∧
      t = illegalCommand op { s with host := s.host.drop headerLength }) ∨
    ∃ op rest, s.seq = .awaiting op rest ∧ resume op rest s = .next t := by
  rcases seq_cases s with hs | ⟨op, rest, hs⟩ | ⟨words, hs⟩ | ⟨f, hs⟩
  · have hp : fetch s = fetchRequest s := by rw [fetch, hs]
    rcases step_port hp h with h1 | ⟨i, rest, hd, he⟩ | ⟨op, hd, he⟩
    · exact Or.inl h1
    · exact Or.inr (Or.inl ⟨i, rest, hs, hd, he⟩)
    · exact Or.inr (Or.inr (Or.inl ⟨op, hs, hd, he⟩))
  · rw [step_awaiting hs] at h
    exact Or.inr (Or.inr (Or.inr ⟨op, rest, hs, h⟩))
  · exact absurd hs (hq words)
  · exact absurd hs (hf f)

/-! Runs. -/

theorem core_run_succ (M : Host.Core) (k : Nat) {s t : M.State} (h : M.step s = .next t) : M.run (k + 1) s = M.run k t := by
  simp only [Host.Core.run, h]

/-- A run of one step more takes that step first. -/
theorem core_run_succ_next (M : Host.Core) {k : Nat} {s t : M.State} (h : M.run (k + 1) s = .next t) :
    ∃ u, M.step s = .next u ∧ M.run k u = .next t := by
  simp only [Host.Core.run] at h
  split at h
  · rename_i u hu
    exact ⟨u, hu, h⟩
  · cases h
  · cases h

theorem run_succ (k : Nat) {s t : State} (h : step s = .next t) :
    Host.Core.run Sys2Proof.core (k + 1) s = Host.Core.run Sys2Proof.core k t :=
  core_run_succ Sys2Proof.core k h

theorem run_succ_next {k : Nat} {s t : State} (h : Host.Core.run Sys2Proof.core (k + 1) s = .next t) :
    ∃ u, step s = .next u ∧ Host.Core.run Sys2Proof.core k u = .next t :=
  core_run_succ_next Sys2Proof.core h

theorem run_add : ∀ (j k : Nat) {s t : State}, Host.Core.run Sys2Proof.core j s = .next t →
    Host.Core.run Sys2Proof.core (j + k) s = Host.Core.run Sys2Proof.core k t
  | 0, k, s, t, h => by
    cases h
    rw [Nat.zero_add]
  | j + 1, k, s, t, h => by
    obtain ⟨u, hu, hr⟩ := run_succ_next h
    rw [show j + 1 + k = (j + k) + 1 by omega, run_succ _ hu]
    exact run_add j k hr

theorem reaches_refl (s : State) : Reaches s s := ⟨0, rfl⟩

theorem reaches_trans {s t u : State} (h : Reaches s t) (h' : Reaches t u) : Reaches s u := by
  obtain ⟨j, hj⟩ := h
  obtain ⟨k, hk⟩ := h'
  exact ⟨j + k, (run_add j k hj).trans hk⟩

theorem reaches_step {s t : State} (h : step s = .next t) : Reaches s t := ⟨1, run_succ 0 h⟩

end Sys2Proof.Laws
end

