-- ==== Sys2Proof/Laws/Kept.lean ====
section
/-! SUPPORT. What the frames, the core procedures and the tasks of a sequence keep, whatever the chip answers, and how a list of
tasks can end: each invariant of the machine follows from these. -/

namespace Sys2Proof.Laws

open Sys2Proof.Machine Sys2Proof.Safety

/-- What an op that sends frames keeps up to its end. -/
structure OpKept (s u : State) : Prop where
  cfg : u.cfg = s.cfg
  pins : u.pins = { s.pins with mosi := u.pins.mosi }
  ready : u.pins.busReady = true
  busOwner : u.busOwner = s.busOwner
  lenR : u.lenR = s.lenR
  lastCode : u.lastCode = s.lastCode
  sessErr : u.sessErr = s.sessErr
  errInfo : u.errInfo = s.errInfo
  seq : u.seq = s.seq
  host : u.host = s.host
  out : u.out = s.out
  tr : ∃ events, u.tr = events ++ s.tr
  mem : s.dev.mem.wf → u.dev.mem.wf
  flashSize : u.dev.flashSize = s.dev.flashSize
  pd : s.dev.pd = false → u.dev.pd = false
  fbits : s.dev.fbits = [] → u.dev.fbits = []
  bitcnt : s.bitcnt ≤ 8 → u.bitcnt ≤ 8

theorem OpKept.refl {s : State} (h : s.pins.busReady = true) : OpKept s s :=
  ⟨rfl, rfl, h, rfl, rfl, rfl, rfl, rfl, rfl, rfl, rfl, ⟨[], rfl⟩, id, rfl, id, id, id⟩

theorem OpKept.trans {s u v : State} (h : OpKept s u) (h' : OpKept u v) : OpKept s v where
  cfg := h'.cfg.trans h.cfg
  pins := by
    have h1 := h'.pins
    rw [h.pins] at h1
    exact h1
  ready := h'.ready
  busOwner := h'.busOwner.trans h.busOwner
  lenR := h'.lenR.trans h.lenR
  lastCode := h'.lastCode.trans h.lastCode
  sessErr := h'.sessErr.trans h.sessErr
  errInfo := h'.errInfo.trans h.errInfo
  seq := h'.seq.trans h.seq
  host := h'.host.trans h.host
  out := h'.out.trans h.out
  tr := by
    obtain ⟨e, he⟩ := h.tr
    obtain ⟨e', he'⟩ := h'.tr
    exact ⟨e' ++ e, by rw [he', he, List.append_assoc]⟩
  mem := fun hm => h'.mem (h.mem hm)
  flashSize := h'.flashSize.trans h.flashSize
  pd := fun hp => h'.pd (h.pd hp)
  fbits := fun hf => h'.fbits (h.fbits hf)
  bitcnt := fun hb => h'.bitcnt (h.bitcnt hb)

/-! The registers that a sequence's own assignments touch: none of them is among what OpKept names. -/

theorem OpKept.withSess {s u : State} (h : OpKept s u) (x : Sess) : OpKept s { u with sess := x } :=
  ⟨h.cfg, h.pins, h.ready, h.busOwner, h.lenR, h.lastCode, h.sessErr, h.errInfo, h.seq, h.host, h.out, h.tr, h.mem,
    h.flashSize, h.pd, h.fbits, h.bitcnt⟩

theorem OpKept.withAddrR {s u : State} (h : OpKept s u) (x : Addr) : OpKept s (loadAddr x u) :=
  ⟨h.cfg, h.pins, h.ready, h.busOwner, h.lenR, h.lastCode, h.sessErr, h.errInfo, h.seq, h.host, h.out, h.tr, h.mem,
    h.flashSize, h.pd, h.fbits, h.bitcnt⟩

theorem OpKept.withOffR {s u : State} (h : OpKept s u) (x : Count) : OpKept s { u with offR := x } :=
  ⟨h.cfg, h.pins, h.ready, h.busOwner, h.lenR, h.lastCode, h.sessErr, h.errInfo, h.seq, h.host, h.out, h.tr, h.mem,
    h.flashSize, h.pd, h.fbits, h.bitcnt⟩

theorem OpKept.withPollR {s u : State} (h : OpKept s u) (x : Nat) : OpKept s { u with pollR := x } :=
  ⟨h.cfg, h.pins, h.ready, h.busOwner, h.lenR, h.lastCode, h.sessErr, h.errInfo, h.seq, h.host, h.out, h.tr, h.mem,
    h.flashSize, h.pd, h.fbits, h.bitcnt⟩

theorem OpKept.withProgress {s u : State} (h : OpKept s u) (x : Count) : OpKept s { u with progress := x } :=
  ⟨h.cfg, h.pins, h.ready, h.busOwner, h.lenR, h.lastCode, h.sessErr, h.errInfo, h.seq, h.host, h.out, h.tr, h.mem,
    h.flashSize, h.pd, h.fbits, h.bitcnt⟩

/-- A frame of a whole command, whatever the chip answers. -/
theorem frame_kept {s : State} (h : s.pins.busReady = true) {out : List Byte} (hw : isWholeCommand out = true) (n : Nat) :
    OpKept s (frame out n s).2 := by
  rw [frame_eq h hw]
  have hk := takeFrame_keeps (d := s.dev) (frameAtChip out n s.pins.mosi) (frameHeard out n s).2
  exact {
    cfg := by simp, pins := by simp, ready := afterFrame_ready h _ _ _ _, busOwner := by simp, lenR := by simp
    lastCode := by simp, sessErr := by simp, errInfo := by simp, seq := by simp, host := by simp, out := by simp
    tr := ⟨_, afterFrame_tr _ _ _ _ _⟩
    mem := fun hm => by rw [afterFrame_dev]; exact hk.1 hm
    flashSize := by rw [afterFrame_dev]; exact hk.2.2
    pd := fun hp => by rw [afterFrame_dev]; exact hk.2.1 hp
    fbits := fun _ => by rw [afterFrame_dev]
    bitcnt := afterFrame_bitcnt_le }

/-- A frame keeps the registers of the sequences and the session. -/
theorem frame_registers {s : State} (h : s.pins.busReady = true) {out : List Byte} (hw : isWholeCommand out = true)
    (n : Nat) :
    (frame out n s).2.sess = s.sess ∧ (frame out n s).2.addrR = s.addrR ∧ (frame out n s).2.offR = s.offR ∧
      (frame out n s).2.pollR = s.pollR ∧ (frame out n s).2.progress = s.progress := by
  rw [frame_eq h hw]
  simp

theorem ppCore_kept {s : State} (h : s.pins.busReady = true) (a : Addr) (d : List Byte) : OpKept s (ppCore a d s) := by
  have h1 := frame_kept h (out := [0x06]) rfl 0
  have h2 := (h1.trans (frame_kept h1.ready (isWholeCommand_pp a d) 0)).withSess .busyProgramming
  exact h2

theorem beCore_kept {s : State} (h : s.pins.busReady = true) (a : Addr) : OpKept s (beCore a s) := by
  have h1 := frame_kept h (out := [0x06]) rfl 0
  have h2 := (h1.trans (frame_kept h1.ready (isWholeCommand_be a) 0)).withSess .busyErasing
  exact h2

theorem ppCore_registers {s : State} (h : s.pins.busReady = true) (a : Addr) (d : List Byte) :
    (ppCore a d s).sess = .busyProgramming ∧ (ppCore a d s).addrR = s.addrR ∧ (ppCore a d s).offR = s.offR ∧
      (ppCore a d s).pollR = s.pollR ∧ (ppCore a d s).progress = s.progress := by
  have h1 := frame_registers h (out := [0x06]) rfl 0
  have h2 := frame_registers (frame_kept h (out := [0x06]) rfl 0).ready (isWholeCommand_pp a d) 0
  simp only [ppCore, wrenCore, sendFrame]
  exact ⟨trivial, h2.2.1.trans h1.2.1, h2.2.2.1.trans h1.2.2.1, h2.2.2.2.1.trans h1.2.2.2.1, h2.2.2.2.2.trans h1.2.2.2.2⟩

theorem beCore_registers {s : State} (h : s.pins.busReady = true) (a : Addr) :
    (beCore a s).sess = .busyErasing ∧ (beCore a s).addrR = s.addrR ∧ (beCore a s).offR = s.offR ∧
      (beCore a s).pollR = s.pollR ∧ (beCore a s).progress = s.progress := by
  have h1 := frame_registers h (out := [0x06]) rfl 0
  have h2 := frame_registers (frame_kept h (out := [0x06]) rfl 0).ready (isWholeCommand_be a) 0
  simp only [beCore, wrenCore, sendFrame]
  exact ⟨trivial, h2.2.1.trans h1.2.1, h2.2.2.1.trans h1.2.2.1, h2.2.2.2.1.trans h1.2.2.2.1, h2.2.2.2.2.trans h1.2.2.2.2⟩

theorem wakeCore_kept {s : State} (h : s.pins.busReady = true) : OpKept s (wakeCore s) := by
  have h1 := (frame_kept h (out := [0xAB]) rfl 0).withSess (if (frame [0xAB] 0 s).2.sess = .reset then .awake else (frame [0xAB] 0 s).2.sess)
  exact h1

/-! How the tasks of a sequence end. -/

/-- The session states a sequence leaves (10_state.md R27). -/
def SequenceSess (s u : State) : Prop :=
  u.sess = s.sess ∨ u.sess = .idle ∨ u.sess = .busyErasing ∨ u.sess = .busyProgramming

theorem SequenceSess.trans {s u v : State} (h : SequenceSess s u) (h' : SequenceSess u v) : SequenceSess s v := by
  rcases h' with h' | h' | h' | h'
  · rcases h with h | h | h | h
    · exact Or.inl (h'.trans h)
    · exact Or.inr (Or.inl (h'.trans h))
    · exact Or.inr (Or.inr (Or.inl (h'.trans h)))
    · exact Or.inr (Or.inr (Or.inr (h'.trans h)))
  · exact Or.inr (Or.inl h')
  · exact Or.inr (Or.inr (Or.inl h'))
  · exact Or.inr (Or.inr (Or.inr h'))

/-- poll_r stays within POLL_LIMIT (10_state.md R33). -/
def PollBound (s : State) : Prop := ∀ n, s.cfg.pollLimit = .count n → s.pollR ≤ n

/-- The end of a list of tasks of op: an OK response, an error, or a poll that read busy with polls left. -/
inductive TasksEnd (op : Instr) (tasks : List Task) (u t : State) : Prop
  | done (data : List Byte) : t = succeed data u → TasksEnd op tasks u t
  | silent (e : Stop) : e.code = .deviceNotResponding → Task.await ∈ tasks → t = raise e u → TasksEnd op tasks u t
  | differs (e : Stop) (off : Nat) (a : Addr) (x : List Byte) : e.code = .verificationError → Task.compare off a x ∈ tasks →
      t = raise e u → TasksEnd op tasks u t
  | waits (before rest : List Task) : tasks = before ++ .await :: rest → pollsUsedUp u = false →
      t = { u with seq := .awaiting op rest } → TasksEnd op tasks u t

theorem TasksEnd.cons {op : Instr} {task : Task} {tasks : List Task} {u t : State} (h : TasksEnd op tasks u t) :
    TasksEnd op (task :: tasks) u t := by
  cases h with
  | done data h => exact .done data h
  | silent e hc hm h => exact .silent e hc (List.mem_cons_of_mem _ hm) h
  | differs e off a x hc hm h => exact .differs e off a x hc (List.mem_cons_of_mem _ hm) h
  | waits before rest hb hp h => exact .waits (task :: before) rest (by rw [hb]; rfl) hp h

/-- Everything a list of tasks can do up to its end. -/
structure Ran (tasks : List Task) (s u : State) : Prop where
  kept : OpKept s u
  sess : SequenceSess s u
  offR : u.offR = s.offR ∨ Task.setOff u.offR ∈ tasks
  pollR : (∀ n, s.cfg.pollLimit = .count n → 1 ≤ n) → PollBound s → PollBound u

theorem Ran.after {task : Task} {tasks : List Task} {s u v : State} (h : OpKept s u) (hs : SequenceSess s u)
    (ho : u.offR = s.offR ∨ task = .setOff u.offR)
    (hp : (∀ n, s.cfg.pollLimit = .count n → 1 ≤ n) → PollBound s → PollBound u) (hr : Ran tasks u v) :
    Ran (task :: tasks) s v where
  kept := h.trans hr.kept
  sess := hs.trans hr.sess
  offR := by
    rcases hr.offR with h1 | h1
    · rcases ho with h2 | h2
      · exact Or.inl (h1.trans h2)
      · exact Or.inr (by rw [h1, h2]; exact List.mem_cons_self)
    · exact Or.inr (List.mem_cons_of_mem _ h1)
  pollR := fun hn hb => hr.pollR (by rw [h.cfg]; exact hn) (hp hn hb)

/-- A poll, and then what follows it (42_sequences.md R180). -/
theorem poll_ends (op : Instr) (rest : List Task) {s : State} (h : s.pins.busReady = true)
    (ih : ∀ {v : State}, v.pins.busReady = true → ∃ u, Ran rest v u ∧ TasksEnd op rest u (runTasks op rest v)) :
    ∃ u, OpKept s u ∧ SequenceSess s u ∧ (u.offR = s.offR ∨ Task.setOff u.offR ∈ rest) ∧
      ((∀ n, s.cfg.pollLimit = .count n → s.pollR < n) → PollBound u) ∧
      TasksEnd op (.await :: rest) u (poll op rest (runTasks op rest) s) := by
  have hk := frame_kept h (out := [0x05]) rfl 1
  obtain ⟨hs, -, ho, hp, -⟩ := frame_registers h (out := [0x05]) rfl 1
  generalize hv : ({ rdsrCore s with pollR := (rdsrCore s).pollR + 1 } : State) = v
  have hvk : OpKept s v := by
    have h1 := hk.withPollR ((rdsrCore s).pollR + 1)
    rw [← hv]
    exact h1
  have hvs : v.sess = s.sess := by rw [← hv]; exact hs
  have hvo : v.offR = s.offR := by rw [← hv]; exact ho
  have hvp : v.pollR = s.pollR + 1 := by rw [← hv]; show (rdsrCore s).pollR + 1 = _; rw [rdsrCore, hp]
  have hvb : (∀ n, s.cfg.pollLimit = .count n → s.pollR < n) → PollBound v := by
    intro hn n hc
    have := hn n (hvk.cfg ▸ hc)
    omega
  have hpoll : poll op rest (runTasks op rest) s =
      if busyFlag v.shreg then pollAgain op rest v else runTasks op rest { v with sess := .idle } := by
    subst hv
    rfl
  rw [hpoll]
  split
  · refine ⟨v, hvk, Or.inl hvs, Or.inl hvo, hvb, ?_⟩
    unfold pollAgain
    split
    · exact .silent _ rfl List.mem_cons_self rfl
    · rename_i hu
      exact .waits [] rest rfl (by simpa using hu) rfl
  · obtain ⟨u, hr, he⟩ := ih (v := { v with sess := .idle }) hvk.ready
    have hik := hvk.withSess .idle
    refine ⟨u, hik.trans hr.kept, SequenceSess.trans (Or.inr (Or.inl rfl)) hr.sess, ?_, ?_, he.cons⟩
    · rcases hr.offR with h1 | h1
      · exact Or.inl (h1.trans hvo)
      · exact Or.inr h1
    · intro hn
      apply hr.pollR
      · intro n hc
        have := hn n (hik.cfg ▸ hc)
        omega
      · exact hvb hn

/-- How a list of tasks ends, whatever the chip answers (42_sequences.md R180 to R182). -/
theorem runTasks_ends (op : Instr) : ∀ (tasks : List Task) {s : State}, s.pins.busReady = true →
    ∃ u, Ran tasks s u ∧ TasksEnd op tasks u (runTasks op tasks s)
  | [], s, h => ⟨s, ⟨OpKept.refl h, Or.inl rfl, Or.inl rfl, fun _ hb => hb⟩, .done [] rfl⟩
  | .await :: rest, s, h => by
    obtain ⟨u, hk, hs, ho, hp, he⟩ := poll_ends op rest (s := { s with pollR := 0 }) h (runTasks_ends op rest)
    have hk0 := (OpKept.refl h).withPollR 0
    exact ⟨u, ⟨hk0.trans hk, hs, ho.imp id (List.mem_cons_of_mem _), fun hn _ => hp hn⟩, he⟩
  | .erase a :: rest, s, h => by
    have hk0 := (OpKept.refl h).withAddrR a
    have hk := hk0.trans (beCore_kept hk0.ready a)
    have hr := beCore_registers hk0.ready a
    obtain ⟨u, hu, he⟩ := runTasks_ends op rest hk.ready
    exact ⟨u, Ran.after hk (Or.inr (Or.inr (Or.inl hr.1))) (Or.inl hr.2.2.1)
      (fun _ hb n hc => by rw [hr.2.2.2.1]; exact hb n (hk.cfg ▸ hc)) hu, he.cons⟩
  | .program a page :: rest, s, h => by
    have hk0 := (OpKept.refl h).withAddrR a
    have hk := (hk0.trans (ppCore_kept hk0.ready a page)).withProgress
      ((ppCore a page (loadAddr a s)).progress + BitVec.ofNat 32 page.length)
    have hr := ppCore_registers hk0.ready a page
    obtain ⟨u, hu, he⟩ := runTasks_ends op rest hk.ready
    exact ⟨u, Ran.after hk (Or.inr (Or.inr (Or.inr hr.1))) (Or.inl hr.2.2.1)
      (fun _ hb n hc => by
        show (ppCore a page (loadAddr a s)).pollR ≤ n
        rw [hr.2.2.2.1]
        exact hb n (hk.cfg ▸ hc)) hu, he.cons⟩
  | .setOff off :: rest, s, h => by
    have hk := (OpKept.refl h).withOffR off
    obtain ⟨u, hu, he⟩ := runTasks_ends op rest hk.ready
    exact ⟨u, Ran.after hk (Or.inl rfl) (Or.inr rfl) (fun _ hb => hb) hu, he.cons⟩
  | .compare off a expected :: rest, s, h => by
    have hk0 := (OpKept.refl h).withAddrR a
    have hk := hk0.trans (frame_kept hk0.ready (isWholeCommand_read a) expected.length)
    have hr := frame_registers hk0.ready (isWholeCommand_read a) expected.length
    generalize hv : frame (addressed 0x03 a) expected.length (loadAddr a s) = v at hk hr
    have hstep : runTasks op (.compare off a expected :: rest) s = compareChunk off expected v.1 (runTasks op rest) v.2 := by
      rw [← hv]
      rfl
    rw [hstep, compareChunk]
    split
    · refine ⟨v.2, ⟨hk, Or.inl hr.1, Or.inl hr.2.2.1, fun _ hb n hc => ?_⟩,
        .differs _ off a expected rfl List.mem_cons_self rfl⟩
      rw [hr.2.2.2.1]
      exact hb n (hk.cfg ▸ hc)
    · obtain ⟨u, hu, he⟩ := runTasks_ends op rest hk.ready
      exact ⟨u, Ran.after hk (Or.inl hr.1) (Or.inl hr.2.2.1)
        (fun _ hb n hc => by rw [hr.2.2.2.1]; exact hb n (hk.cfg ▸ hc)) hu, he.cons⟩
  | .returnStatus :: rest, s, h => ⟨s, ⟨OpKept.refl h, Or.inl rfl, Or.inl rfl, fun _ hb => hb⟩, .done [s.shreg] rfl⟩

end Sys2Proof.Laws
end

