-- ==== Sys2Proof/Laws/Session.lean ====
section
/-! SUPPORT. Acquisition and release of the pins (43_session.md R211, R215), and the session ops built on them. -/

namespace Sys2Proof.Laws

open Sys2Proof.Machine Sys2Proof.Safety

theorem get_released_of_not_own {p : Pins} {r : Role} (h : (p.get r).own = false) : p.get r = .released := by
  cases hp : p.get r <;> rw [hp] at h <;> first | rfl | cases h

theorem pins_ext {p q : Pins} (h : ∀ r, p.get r = q.get r) : p = q := by
  have h0 := h .fpgaRst
  have h1 := h .fpgaCs
  have h2 := h .flCs
  have h3 := h .mosi
  have h4 := h .miso
  have h5 := h .sck
  cases p
  cases q
  simp only [Pins.get] at h0 h1 h2 h3 h4 h5
  rw [h0, h1, h2, h3, h4, h5]

/-- Only pins, trace and draws change, and the trace grows. -/
structure PinsOnly (s u : State) : Prop where
  rest : u = { s with pins := u.pins, tr := u.tr, env := u.env }
  tr : ∃ events, u.tr = events ++ s.tr

theorem PinsOnly.refl (s : State) : PinsOnly s s := ⟨rfl, [], rfl⟩

theorem PinsOnly.trans {s u v : State} (h : PinsOnly s u) (h' : PinsOnly u v) : PinsOnly s v := by
  refine ⟨?_, ?_⟩
  · have h1 := h'.rest
    rw [h.rest] at h1
    exact h1
  · obtain ⟨e, he⟩ := h.tr
    obtain ⟨e', he'⟩ := h'.tr
    exact ⟨e' ++ e, by rw [he', he, List.append_assoc]⟩

/-! Release. -/

theorem release_pinsOnly (r : Role) (s : State) : PinsOnly s (release r s) := ⟨rfl, [_], rfl⟩

theorem releaseAll_pinsOnly : ∀ (roles : List Role) (s : State), PinsOnly s (releaseAll roles s).2
  | [], s => PinsOnly.refl s
  | r :: roles, s => by
    rw [releaseAll]
    split
    · exact (release_pinsOnly r s).trans (releaseAll_pinsOnly roles _)
    · exact releaseAll_pinsOnly roles s

/-- Every role tried is released, the others stay (43_session.md R215). -/
theorem releaseAll_get (r : Role) : ∀ (roles : List Role) (s : State),
    (releaseAll roles s).2.pins.get r = if r ∈ roles then .released else s.pins.get r
  | [], s => rfl
  | q :: roles, s => by
    rw [releaseAll]
    split
    · show (releaseAll roles (release q s)).2.pins.get r = _
      rw [releaseAll_get r roles]
      by_cases hr : r ∈ roles
      · rw [if_pos hr, if_pos (List.mem_cons_of_mem _ hr)]
      · rw [if_neg hr]
        by_cases hq : r = q
        · subst hq
          rw [if_pos List.mem_cons_self]
          exact get_set_same s.pins r .released
        · rw [if_neg (by simp [hr, hq])]
          show (s.pins.set q .released).get r = _
          exact get_set_other _ _ hq
    · rename_i ho
      rw [releaseAll_get r roles]
      by_cases hr : r ∈ roles
      · rw [if_pos hr, if_pos (List.mem_cons_of_mem _ hr)]
      · rw [if_neg hr]
        by_cases hq : r = q
        · subst hq
          rw [if_pos List.mem_cons_self]
          exact get_released_of_not_own (by simpa using ho)
        · rw [if_neg (by simp [hr, hq])]

theorem mem_roleOrder (r : Role) : r ∈ roleOrder := by cases r <;> decide

theorem releaseAll_pins (s : State) : (releaseAll roleOrder s).2.pins = Pins.allReleased := by
  apply pins_ext
  intro r
  rw [releaseAll_get, if_pos (mem_roleOrder r)]
  cases r <;> rfl

/-! Acquisition. -/

theorem acquireAll_pinsOnly : ∀ (roles : List Role) (s : State), PinsOnly s (acquireAll roles s).2
  | [], s => PinsOnly.refl s
  | r :: roles, s => by
    rw [acquireAll]
    split
    · refine PinsOnly.trans ?_ (acquireAll_pinsOnly roles _)
      exact ⟨rfl, [_], rfl⟩
    · exact ⟨rfl, [_], rfl⟩

/-- After a whole acquisition every role has its direction and level (43_session.md R211). -/
theorem acquireAll_get (r : Role) : ∀ (roles : List Role) (s : State), (acquireAll roles s).1 = none →
    (acquireAll roles s).2.pins.get r = if r ∈ roles then acquiredPin s.cfg.variant r else s.pins.get r
  | [], s, _ => rfl
  | q :: roles, s, h => by
    rw [acquireAll] at h ⊢
    by_cases ha : s.env.drawAcq.1 = true
    · simp only [ha, if_true] at h ⊢
      rw [acquireAll_get r roles _ h]
      by_cases hr : r ∈ roles
      · rw [if_pos hr, if_pos (List.mem_cons_of_mem _ hr)]
        rfl
      · rw [if_neg hr]
        show (s.pins.set q (acquiredPin s.cfg.variant q)).get r = _
        by_cases hq : r = q
        · subst hq
          rw [get_set_same, if_pos List.mem_cons_self]
        · rw [get_set_other _ _ hq, if_neg (by simp [hr, hq])]
    · simp [ha] at h

/-- The pins after a whole acquisition. -/
def acquiredPins (v : ArbVariant) : Pins :=
  { fpgaRst := acquiredPin v .fpgaRst
    fpgaCs := acquiredPin v .fpgaCs
    flCs := acquiredPin v .flCs
    mosi := acquiredPin v .mosi
    miso := acquiredPin v .miso
    sck := acquiredPin v .sck }

theorem acquireAll_pins {s : State} (h : (acquireAll roleOrder s).1 = none) :
    (acquireAll roleOrder s).2.pins = acquiredPins s.cfg.variant := by
  apply pins_ext
  intro r
  rw [acquireAll_get r roleOrder s h, if_pos (mem_roleOrder r)]
  cases r <;> rfl

/-- An acquisition that succeeds everywhere: the pins and the trace (43_session.md R211). -/
theorem acquireAll_succeeds {s : State} {more : List Bool} (h : s.env.acq = List.replicate 6 true ++ more) :
    acquireAll roleOrder s =
      (none, { s with
        pins := acquiredPins s.cfg.variant
        tr := (acquireEvents s.cfg.variant).reverse ++ s.tr
        env := { s.env with acq := more } }) := by
  obtain ⟨⟨pm, variant, th, tr, pl⟩, ⟨p0, p1, p2, p3, p4, p5⟩, sess, owner, sh, bc, ar, lr, off, pr, lc, se, ei, pg, seq, tr,
    host, out, ⟨acq, rel, miso, busy, count⟩, dev⟩ := s
  simp only at h
  subst h
  cases variant <;> rfl

/-! Session start. -/

theorem acquiredPins_busReady (v : ArbVariant) : (acquiredPins v).busReady = true := by cases v <;> rfl

/-- The FPGA reset sequence (43_session.md R213). -/
theorem fpgaResetSeq_eq {s : State} (h : s.pins = acquiredPins s.cfg.variant) :
    fpgaResetSeq s =
      { s with
        pins := { acquiredPins s.cfg.variant with fpgaRst := .output (decide (s.cfg.variant = .releaseKeepCs)) }
        tr := (.hold :: (if s.cfg.variant = .releaseKeepCs then [.set .fpgaRst true] else [])).reverse ++ s.tr } := by
  obtain ⟨⟨pm, variant, th, trst, pl⟩, pins, sess, owner, sh, bc, ar, lr, off, pr, lc, se, ei, pg, seq, tr, host, out, env,
    dev⟩ := s
  simp only at h
  subst h
  cases variant <;> rfl

/-- The pins after SESSION_START, before the WAKE frame. -/
def heldPins (v : ArbVariant) : Pins := { acquiredPins v with fpgaRst := .output (decide (v = .releaseKeepCs)) }

theorem heldPins_busReady (v : ArbVariant) : (heldPins v).busReady = true := by cases v <;> rfl

/-- SESSION_START ends with the acquisition cleaned up, or with the WAKE frame sent (43_session.md R210, R212). -/
theorem startSession_ends (s : State) :
    (∃ role u, PinsOnly { s with sessErr := .ok } u ∧ u.pins = Pins.allReleased ∧
      startSession s = raise ⟨.acquisitionFailure, .role role⟩ u) ∨
    ∃ u, PinsOnly { s with sessErr := .ok } u ∧ u.pins = heldPins s.cfg.variant ∧
      startSession s = succeed [] (wakeCore (takeBus u)) := by
  have hp := acquireAll_pinsOnly roleOrder { s with sessErr := .ok }
  cases hr : (acquireAll roleOrder { s with sessErr := .ok }).1 with
  | some role =>
    refine Or.inl ⟨role, (releaseAll roleOrder (acquireAll roleOrder { s with sessErr := .ok }).2).2,
      hp.trans (releaseAll_pinsOnly roleOrder _), releaseAll_pins _, ?_⟩
    rw [startSession]
    simp only [hr]
  | none =>
    have hpins := acquireAll_pins hr
    have hcfg : (acquireAll roleOrder { s with sessErr := .ok }).2.cfg = s.cfg := by rw [hp.rest]
    have hseq := fpgaResetSeq_eq (s := (acquireAll roleOrder { s with sessErr := .ok }).2) (by rw [hpins, hcfg])
    refine Or.inr ⟨fpgaResetSeq (acquireAll roleOrder { s with sessErr := .ok }).2, hp.trans ?_, ?_, ?_⟩
    · rw [hseq]
      exact ⟨rfl, _, rfl⟩
    · rw [hseq, hcfg]
      rfl
    · rw [startSession]
      simp only [hr]

/-- SESSION_END of a session ends with the pins released and the bus given back (43_session.md R216). -/
theorem endSession_ends {s : State} (h : s.sess ≠ .released) :
    ∃ u, PinsOnly s u ∧ u.pins = Pins.allReleased ∧
      endSession s = reportSession (releaseAll roleOrder s).1 (giveBackBus u) :=
  ⟨(releaseAll roleOrder s).2, releaseAll_pinsOnly roleOrder s, releaseAll_pins s, by rw [endSession, if_neg h]⟩

theorem endSession_none {s : State} (h : s.sess = .released) : endSession s = succeed [] s := by
  rw [endSession, if_pos h]

/-- The roles of a list that own their pin. -/
def ownedOf (roles : List Role) (s : State) : List Role := roles.filter fun r => (s.pins.get r).own

theorem ownedOf_release {q : Role} {roles : List Role} (h : q ∉ roles) (s : State) :
    ownedOf roles (release q s) = ownedOf roles s := by
  apply List.filter_congr
  intro r hr
  show ((s.pins.set q .released).get r).own = _
  rw [get_set_other _ _ (fun (e : r = q) => h (by rw [← e]; exact hr))]

/-- RELEASE_ALL with the release outcomes given: the first role whose release failed, the trace and the draws used
(43_session.md R215). -/
theorem releaseAll_outcomes : ∀ (roles : List Role) (s : State) (outcomes more : List Bool), roles.Nodup →
    outcomes.length = (ownedOf roles s).length → s.env.rel = outcomes ++ more →
    (releaseAll roles s).1 = (((ownedOf roles s).zip outcomes).find? fun x => !x.2).map Prod.fst ∧
      (releaseAll roles s).2.tr =
        (((ownedOf roles s).zip outcomes).map fun x => if x.2 then Event.rel x.1 else .relFail x.1).reverse ++ s.tr ∧
      (releaseAll roles s).2.env = { s.env with rel := more }
  | [], s, outcomes, more, _, hl, hr => by
    have : outcomes = [] := List.eq_nil_of_length_eq_zero hl
    subst this
    refine ⟨rfl, rfl, ?_⟩
    show s.env = _
    rw [List.nil_append] at hr
    rw [← hr]
  | q :: roles, s, outcomes, more, hn, hl, hr => by
    rw [List.nodup_cons] at hn
    by_cases ho : (s.pins.get q).own = true
    · have hf : ownedOf (q :: roles) s = q :: ownedOf roles s := by simp [ownedOf, ho]
      rw [hf] at hl ⊢
      obtain _ | ⟨b, outcomes⟩ := outcomes
      · cases hl
      have hd : s.env.drawRel = (b, { s.env with rel := outcomes ++ more }) := by
        rw [Env.drawRel, hr]; rfl
      have hre : (release q s).env.rel = outcomes ++ more := by
        show s.env.drawRel.2.rel = _
        rw [hd]
      obtain ⟨h1, h2, h3⟩ := releaseAll_outcomes roles (release q s) outcomes more hn.2
        (by rw [ownedOf_release hn.1]; simpa using hl) hre
      rw [ownedOf_release hn.1] at h1 h2
      rw [releaseAll, if_pos ho]
      refine ⟨?_, ?_, ?_⟩
      · show (if s.env.drawRel.1 = true then (releaseAll roles (release q s)).1 else some q) = _
        rw [h1, hd]
        cases b <;> simp
      · show (releaseAll roles (release q s)).2.tr = _
        rw [h2]
        show _ ++ ((if s.env.drawRel.1 = true then Event.rel q else .relFail q) :: s.tr) = _
        rw [hd]
        simp
      · show (releaseAll roles (release q s)).2.env = _
        rw [h3]
        show { s.env.drawRel.2 with rel := more } = _
        rw [hd]
    · have hf : ownedOf (q :: roles) s = ownedOf roles s := by simp [ownedOf, ho]
      rw [hf] at hl ⊢
      rw [releaseAll, if_neg ho]
      exact releaseAll_outcomes roles s outcomes more hn.2 hl hr

/-- RELEASE_ALL over all six roles with the release outcomes given (43_session.md R215). -/
theorem releaseAll_all {s : State} {outcomes more : List Bool} (hl : outcomes.length = (ownedOf roleOrder s).length)
    (hr : s.env.rel = outcomes ++ more) :
    releaseAll roleOrder s =
      ((((ownedOf roleOrder s).zip outcomes).find? fun x => !x.2).map Prod.fst,
        { s with
          pins := Pins.allReleased
          tr := (((ownedOf roleOrder s).zip outcomes).map fun x => if x.2 then Event.rel x.1 else .relFail x.1).reverse ++
            s.tr
          env := { s.env with rel := more } }) := by
  obtain ⟨h1, h2, h3⟩ := releaseAll_outcomes roleOrder s outcomes more (by decide) hl hr
  have h4 := (releaseAll_pinsOnly roleOrder s).rest
  rw [h2, h3, releaseAll_pins] at h4
  exact Prod.ext h1 h4

end Sys2Proof.Laws
end

