-- ==== Sys2Proof/Laws/Exec.lean ====
section
/-! SUPPORT. What the meaning of a host op can do, once for all of them: its failing check by the table of 60_exceptions.md R233,
STATUS, a session op, or frames and the tasks of a sequence. -/

namespace Sys2Proof.Laws

open Sys2Proof.Machine Sys2Proof.Safety

/-- The state an op's body starts in: its operands loaded (10_state.md R31, R32, R35). -/
structure Loaded (s v : State) : Prop where
  rest : v = { s with addrR := v.addrR, lenR := v.lenR, offR := v.offR, progress := v.progress }
  lenR : v.lenR = s.lenR ∨ v.lenR.toNat ≤ 16777216
  offR : v.offR = s.offR ∨ v.offR = 0

theorem Loaded.refl (s : State) : Loaded s s := ⟨rfl, Or.inl rfl, Or.inl rfl⟩

theorem Loaded.ready {s v : State} (h : Loaded s v) (hr : s.pins.busReady = true) : v.pins.busReady = true := by
  rw [h.rest]
  exact hr

/-- An op of which no check fails, and which sends frames. -/
structure SentFrames (i : Instr) (s t : State) : Prop where
  session : s.sess ≠ .released
  ready : s.pins.busReady = true
  ends : ∃ v u, Loaded s v ∧ Ran (opTasks i) v u ∧ TasksEnd i (opTasks i) u t

/-- Everything a host op that answers a next state can be. -/
inductive HostOp (i : Instr) (s t : State) : Prop
  | stopped (e : Stop) : checkTable i s = some e → t = raise e s → HostOp i s t
  | status : i = .status → t = answerHost ⟨.ok, .absent, statusBytes s⟩ s → HostOp i s t
  | started : i = .sessionStart → s.sess = .released → t = startSession s → HostOp i s t
  | ended : i = .sessionEnd → t = endSession s → HostOp i s t
  | sent : checkTable i s = none → SentFrames i s t → HostOp i s t

theorem checkSession_none {s : State} (h : checkSession s = none) : s.sess ≠ .released := by
  unfold checkSession at h
  split at h
  · cases h
  · assumption

theorem lenLoaded {n : Nat} (h : n ≤ 16777216) (s : State) : (loadLen n s).lenR.toNat ≤ 16777216 := by
  simp only [loadLen_lenR, BitVec.toNat_ofNat]
  omega

/-- A frame that is followed by the op's OK response. -/
theorem ran_frame {v u : State} (h : OpKept v u) (hs : SequenceSess v u) (ho : u.offR = v.offR) (hp : u.pollR = v.pollR) :
    Ran [] v u :=
  ⟨h, hs, Or.inl ho, fun _ hb n hc => by rw [hp]; exact hb n (h.cfg ▸ hc)⟩

/-- The checks of a host op are the table of 60_exceptions.md R233, which the first failing one decides. -/
theorem firstStop_session {s : State} {i : Instr} (hi : isHostInstr i = true) (h1 : i ≠ .sessionStart)
    (h2 : i ≠ .sessionEnd) (h3 : i ≠ .status) (checks : List (Option Stop)) (hc : firstStop checks =
      if pageTooLong i then some ⟨.invalidArgument, .reason .pageTooLong⟩
      else if pastTheTop i then some ⟨.invalidArgument, .reason .range⟩
      else if isProgramOrErase i ∧ s.sess ≠ .idle then some ⟨.notReady, .sess s.sess⟩
      else none) :
    firstStop (checkSession s :: checks) = checkTable i s := by
  unfold checkTable checkSession
  by_cases hs : s.sess = .released
  · simp [h1, h2, h3, hi, hs]
  · simp [h1, hs, hc]

/-- No check of an op that needs a session fails: there is one. -/
theorem session_of_checked {s : State} {i : Instr} (hi : isHostInstr i = true) (h1 : i ≠ .sessionStart)
    (h2 : i ≠ .sessionEnd) (h3 : i ≠ .status) (h : checkTable i s = none) : s.sess ≠ .released := by
  intro hs
  simp [checkTable, h1, h2, h3, hi, hs] at h

theorem length_of_checked {s : State} {i : Instr} (h : checkTable i s = none) : pastTheTop i = false := by
  unfold checkTable at h
  split at h
  · cases h
  split at h
  · cases h
  split at h
  · cases h
  split at h
  · cases h
  · rename_i hp
    simpa using hp

/-- The run of an op that sends frames, once its checks are the table's and its body is known. -/
theorem busOp_host {i : Instr} {checks : List (Option Stop)} {body : State → State} {s t : State}
    (h : runBusOp checks body s = .next t) (hc : firstStop checks = checkTable i s)
    (hb : checkTable i s = none → s.pins.busReady = true → SentFrames i s (body s)) : HostOp i s t := by
  rcases runBusOp_next h with ⟨e, he, ht⟩ | ⟨he, hr, ht⟩
  · exact .stopped e (hc ▸ he) ht
  · exact .sent (hc ▸ he) (ht ▸ hb (hc ▸ he) hr)

theorem sent_of_frame {i : Instr} {s v u : State} {data : List Byte} (ht : opTasks i = []) (hs : s.sess ≠ .released)
    (hr : s.pins.busReady = true) (hl : Loaded s v) (hu : Ran [] v u) : SentFrames i s (succeed data u) :=
  ⟨hs, hr, v, u, hl, by rw [ht]; exact hu, by rw [ht]; exact .done data rfl⟩

theorem execWake_host {s t : State} (hreset : s.sess ≠ .reset) (h : exec .wake s = .next t) : HostOp .wake s t := by
  have h' : runBusOp [checkSession s] (fun s => succeed [] (wakeCore s)) s = .next t := h
  refine busOp_host h' (firstStop_session rfl (by simp) (by simp) (by simp) [] (by
    simp [pageTooLong, pastTheTop, isProgramOrErase])) fun hn hr => ?_
  have hf := frame_registers hr (out := [0xAB]) rfl 0
  have hw : (wakeCore s).sess = s.sess := by
    show (if (frame [0xAB] 0 s).2.sess = .reset then Sess.awake else (frame [0xAB] 0 s).2.sess) = s.sess
    rw [hf.1, if_neg hreset]
  exact sent_of_frame rfl (session_of_checked rfl (by simp) (by simp) (by simp) hn) hr (Loaded.refl s)
    (ran_frame (wakeCore_kept hr) (Or.inl hw) hf.2.2.1 hf.2.2.2.1)

theorem execRdsr_host {s t : State} (h : exec .rdsr s = .next t) : HostOp .rdsr s t := by
  have h' : runBusOp [checkSession s] rdsrBody s = .next t := h
  refine busOp_host h' (firstStop_session rfl (by simp) (by simp) (by simp) [] (by
    simp [pageTooLong, pastTheTop, isProgramOrErase])) fun hn hr => ?_
  have hf := frame_registers hr (out := [0x05]) rfl 1
  exact sent_of_frame rfl (session_of_checked rfl (by simp) (by simp) (by simp) hn) hr (Loaded.refl s)
    (ran_frame (frame_kept hr (out := [0x05]) rfl 1) (Or.inl hf.1) hf.2.2.1 hf.2.2.2.1)

theorem execWren_host {s t : State} (h : exec .wren s = .next t) : HostOp .wren s t := by
  have h' : runBusOp [checkSession s] (fun s => succeed [] (wrenCore s)) s = .next t := h
  refine busOp_host h' (firstStop_session rfl (by simp) (by simp) (by simp) [] (by
    simp [pageTooLong, pastTheTop, isProgramOrErase])) fun hn hr => ?_
  have hf := frame_registers hr (out := [0x06]) rfl 0
  exact sent_of_frame rfl (session_of_checked rfl (by simp) (by simp) (by simp) hn) hr (Loaded.refl s)
    (ran_frame (frame_kept hr (out := [0x06]) rfl 0) (Or.inl hf.1) hf.2.2.1 hf.2.2.2.1)

theorem execWrdi_host {s t : State} (h : exec .wrdi s = .next t) : HostOp .wrdi s t := by
  have h' : runBusOp [checkSession s] (fun s => succeed [] (wrdiCore s)) s = .next t := h
  refine busOp_host h' (firstStop_session rfl (by simp) (by simp) (by simp) [] (by
    simp [pageTooLong, pastTheTop, isProgramOrErase])) fun hn hr => ?_
  have hf := frame_registers hr (out := [0x04]) rfl 0
  exact sent_of_frame rfl (session_of_checked rfl (by simp) (by simp) (by simp) hn) hr (Loaded.refl s)
    (ran_frame (frame_kept hr (out := [0x04]) rfl 0) (Or.inl hf.1) hf.2.2.1 hf.2.2.2.1)

theorem execPp_host {addr : Addr} {data : List Byte} {s t : State} (h : exec (.pp addr data) s = .next t) :
    HostOp (.pp addr data) s t := by
  have h' : runBusOp [checkSession s, checkPageLength data.length, checkRange addr data.length, checkIdle s]
    (fun s => succeed [] (ppCore addr data (loadLen data.length (loadAddr addr s)))) s = .next t := h
  refine busOp_host h' (firstStop_session rfl (by simp) (by simp) (by simp) _ ?_) fun hn hr => ?_
  · simp only [pageTooLong, pastTheTop, isProgramOrErase, checkPageLength, checkRange, checkIdle, Config.pageSize,
      Config.addressCount, decide_eq_true_eq, true_and]
    by_cases h1 : 256 < data.length <;> by_cases h2 : 16777216 < addr.toNat + data.length <;>
      by_cases h3 : s.sess = .idle <;> simp [h1, h2, h3]
  · have hfit : data.length ≤ 16777216 := by
      have := length_of_checked hn
      simp only [pastTheTop, decide_eq_false_iff_not] at this
      omega
    have hl : Loaded s (loadLen data.length (loadAddr addr s)) := ⟨rfl, Or.inr (lenLoaded hfit _), Or.inl rfl⟩
    have hf := ppCore_registers (hl.ready hr) addr data
    exact sent_of_frame rfl (session_of_checked rfl (by simp) (by simp) (by simp) hn) hr hl
      (ran_frame (ppCore_kept (hl.ready hr) addr data) (Or.inr (Or.inr (Or.inr hf.1))) hf.2.2.1 hf.2.2.2.1)

theorem execBe_host {addr : Addr} {s t : State} (h : exec (.be addr) s = .next t) : HostOp (.be addr) s t := by
  have h' : runBusOp [checkSession s, checkIdle s] (fun s => succeed [] (beCore addr (loadAddr addr s))) s = .next t := h
  refine busOp_host h' (firstStop_session rfl (by simp) (by simp) (by simp) _ ?_) fun hn hr => ?_
  · simp only [pageTooLong, pastTheTop, isProgramOrErase, checkIdle]
    by_cases hs : s.sess = .idle <;> simp [hs]
  · have hl : Loaded s (loadAddr addr s) := ⟨rfl, Or.inl rfl, Or.inl rfl⟩
    have hf := beCore_registers (hl.ready hr) addr
    exact sent_of_frame rfl (session_of_checked rfl (by simp) (by simp) (by simp) hn) hr hl
      (ran_frame (beCore_kept (hl.ready hr) addr) (Or.inr (Or.inr (Or.inl hf.1))) hf.2.2.1 hf.2.2.2.1)

theorem execRead_host {addr : Addr} {len : Count} {s t : State} (h : exec (.read addr len) s = .next t) :
    HostOp (.read addr len) s t := by
  have h' : runBusOp [checkSession s, checkRange addr len.toNat] (readBody addr len) s = .next t := h
  refine busOp_host h' (firstStop_session rfl (by simp) (by simp) (by simp) _ ?_) fun hn hr => ?_
  · simp only [pageTooLong, pastTheTop, isProgramOrErase, checkRange, Config.addressCount, decide_eq_true_eq]
    by_cases h1 : 16777216 < addr.toNat + len.toNat <;> simp [h1]
  · have hfit : len.toNat ≤ 16777216 := by
      have := length_of_checked hn
      simp only [pastTheTop, decide_eq_false_iff_not] at this
      omega
    have hl : Loaded s (loadLen len.toNat (loadAddr addr s)) := ⟨rfl, Or.inr (lenLoaded hfit _), Or.inl rfl⟩
    have hf := frame_registers (hl.ready hr) (isWholeCommand_read addr) len.toNat
    exact sent_of_frame rfl (session_of_checked rfl (by simp) (by simp) (by simp) hn) hr hl
      (ran_frame (frame_kept (hl.ready hr) (isWholeCommand_read addr) len.toNat) (Or.inl hf.1) hf.2.2.1 hf.2.2.2.1)

theorem execReadArbitrary_host {addr : Addr} {len : Count} {s t : State} (h : exec (.readArbitrary addr len) s = .next t) :
    HostOp (.readArbitrary addr len) s t := by
  have h' : runBusOp [checkSession s, checkRange addr len.toNat] (readBody addr len) s = .next t := h
  refine busOp_host h' (firstStop_session rfl (by simp) (by simp) (by simp) _ ?_) fun hn hr => ?_
  · simp only [pageTooLong, pastTheTop, isProgramOrErase, checkRange, Config.addressCount, decide_eq_true_eq]
    by_cases h1 : 16777216 < addr.toNat + len.toNat <;> simp [h1]
  · have hfit : len.toNat ≤ 16777216 := by
      have := length_of_checked hn
      simp only [pastTheTop, decide_eq_false_iff_not] at this
      omega
    have hl : Loaded s (loadLen len.toNat (loadAddr addr s)) := ⟨rfl, Or.inr (lenLoaded hfit _), Or.inl rfl⟩
    have hf := frame_registers (hl.ready hr) (isWholeCommand_read addr) len.toNat
    exact sent_of_frame rfl (session_of_checked rfl (by simp) (by simp) (by simp) hn) hr hl
      (ran_frame (frame_kept (hl.ready hr) (isWholeCommand_read addr) len.toNat) (Or.inl hf.1) hf.2.2.1 hf.2.2.2.1)

theorem execAwaitReady_host {s t : State} (h : exec .awaitReady s = .next t) : HostOp .awaitReady s t := by
  have h' : runBusOp [checkSession s] (runTasks .awaitReady [.await, .returnStatus]) s = .next t := h
  refine busOp_host h' (firstStop_session rfl (by simp) (by simp) (by simp) [] (by
    simp [pageTooLong, pastTheTop, isProgramOrErase])) fun hn hr => ?_
  obtain ⟨u, hu, hend⟩ := runTasks_ends .awaitReady [.await, .returnStatus] hr
  exact ⟨session_of_checked rfl (by simp) (by simp) (by simp) hn, hr, s, u, Loaded.refl s, hu, hend⟩

theorem execFlashData_host {addr : Addr} {data : List Byte} {s t : State} (h : exec (.flashData addr data) s = .next t) :
    HostOp (.flashData addr data) s t := by
  have h' : runBusOp [checkSession s, checkRange addr data.length]
    (fun s => runTasks (.flashData addr data) (flashTasks addr data) { loadLen data.length s with progress := 0, offR := 0 }) s = .next t := h
  refine busOp_host h' (firstStop_session rfl (by simp) (by simp) (by simp) _ ?_) fun hn hr => ?_
  · simp only [pageTooLong, pastTheTop, isProgramOrErase, checkRange, Config.addressCount, decide_eq_true_eq]
    by_cases h1 : 16777216 < addr.toNat + data.length <;> simp [h1]
  · have hfit : data.length ≤ 16777216 := by
      have := length_of_checked hn
      simp only [pastTheTop, decide_eq_false_iff_not] at this
      omega
    have hl : Loaded s ({ loadLen data.length s with progress := 0, offR := 0 }) := ⟨rfl, Or.inr (lenLoaded hfit s), Or.inr rfl⟩
    obtain ⟨u, hu, hend⟩ := runTasks_ends (.flashData addr data) (flashTasks addr data) (hl.ready hr)
    exact ⟨session_of_checked rfl (by simp) (by simp) (by simp) hn, hr, _, u, hl, hu, hend⟩

theorem execVerifyData_host {addr : Addr} {data : List Byte} {s t : State} (h : exec (.verifyData addr data) s = .next t) :
    HostOp (.verifyData addr data) s t := by
  have h' : runBusOp [checkSession s, checkRange addr data.length]
    (fun s => runTasks (.verifyData addr data) (verifyTasks addr data) (loadLen data.length s)) s = .next t := h
  refine busOp_host h' (firstStop_session rfl (by simp) (by simp) (by simp) _ ?_) fun hn hr => ?_
  · simp only [pageTooLong, pastTheTop, isProgramOrErase, checkRange, Config.addressCount, decide_eq_true_eq]
    by_cases h1 : 16777216 < addr.toNat + data.length <;> simp [h1]
  · have hfit : data.length ≤ 16777216 := by
      have := length_of_checked hn
      simp only [pastTheTop, decide_eq_false_iff_not] at this
      omega
    have hl : Loaded s ((loadLen data.length s)) := ⟨rfl, Or.inr (lenLoaded hfit s), Or.inl rfl⟩
    obtain ⟨u, hu, hend⟩ := runTasks_ends (.verifyData addr data) (verifyTasks addr data) (hl.ready hr)
    exact ⟨session_of_checked rfl (by simp) (by simp) (by simp) hn, hr, _, u, hl, hu, hend⟩

theorem execSessionStart_host {s t : State} (h : exec .sessionStart s = .next t) : HostOp .sessionStart s t := by
  have h' : runOp [checkNoSession s] startSession s = .next t := h
  rcases runOp_next h' with ⟨e, he, ht⟩ | ⟨he, ht⟩
  · refine .stopped e ?_ ht
    rw [← he]
    by_cases hs : s.sess = .released <;>
      simp [checkTable, checkNoSession, hs, isHostInstr, pageTooLong, pastTheTop, isProgramOrErase]
  · refine .started rfl ?_ ht
    by_contra hs
    simp [checkNoSession, hs] at he

theorem execSessionEnd_host {s t : State} (h : exec .sessionEnd s = .next t) : HostOp .sessionEnd s t :=
  .ended rfl (Host.Outcome.next.inj (show Host.Outcome.next (endSession s) = .next t from h)).symm

theorem execStatus_host {s t : State} (h : exec .status s = .next t) : HostOp .status s t :=
  .status rfl (Host.Outcome.next.inj (show Host.Outcome.next
    (answerHost ⟨.ok, .absent, statusBytes s⟩ s) = .next t from h)).symm

/-- The one inversion of exec over the host ops, in a state whose session is not in its transient RESET. -/
theorem exec_host {i : Instr} {s t : State} (hi : isHostInstr i = true) (hreset : s.sess ≠ .reset)
    (h : exec i s = .next t) : HostOp i s t := by
  cases i with
  | pp addr data => exact execPp_host h
  | read addr len => exact execRead_host h
  | wrdi => exact execWrdi_host h
  | rdsr => exact execRdsr_host h
  | wren => exact execWren_host h
  | be addr => exact execBe_host h
  | wake => exact execWake_host hreset h
  | awaitReady => exact execAwaitReady_host h
  | flashData addr data => exact execFlashData_host h
  | verifyData addr data => exact execVerifyData_host h
  | readArbitrary addr len => exact execReadArbitrary_host h
  | status => exact execStatus_host h
  | sessionStart => exact execSessionStart_host h
  | sessionEnd => exact execSessionEnd_host h
  | csAssert => cases hi
  | csDeassert => cases hi
  | writeBit b => cases hi
  | readBit => cases hi
  | writeByte x => cases hi
  | readByte => cases hi

end Sys2Proof.Laws
end

