-- ==== Sys2Proof/Laws/Sequences.lean ====
section
/-! SUPPORT. The sequences (42_sequences.md): one status poll, an await on a chip that becomes ready, and what follows it. -/

namespace Sys2Proof.Laws

open Sys2Proof.Machine Sys2Proof.Safety

/-! One poll. -/

@[simp] theorem drawMiso_busy (e : Env) : e.drawMiso.2.busy = e.busy := by
  unfold Env.drawMiso
  split <;> rfl

@[simp] theorem drawMisos_busy : ∀ (n : Nat) (e : Env), (drawMisos n e).2.busy = e.busy
  | 0, _ => rfl
  | n + 1, e => by rw [drawMisos]; simp [drawMisos_busy n]

/-- The state after a status read of an awake chip, the poll counted (42_sequences.md R180). -/
def polled (s : State) : State :=
  { afterFrame [0x05] [statusByte s.dev s.env] { s.dev with busy := afterPoll s.dev.busy, fbits := [] }
      (drawMisos 7 s.env).2 s with
    pollR := s.pollR + 1 }

theorem polled_shreg (s : State) : (polled s).shreg = statusByte s.dev s.env :=
  afterFrame_shreg_received [0x05] [] (statusByte s.dev s.env) { s.dev with busy := afterPoll s.dev.busy, fbits := [] }
    (drawMisos 7 s.env).2 s

theorem rdsrCore_polled {s : State} (h : s.pins.busReady = true) (hpd : s.dev.pd = false) :
    ({ rdsrCore s with pollR := (rdsrCore s).pollR + 1 } : State) = polled s := by
  rw [rdsrCore, rdsr_eq h hpd, polled, afterFrame_pollR]

/-- A poll on an awake chip goes on exactly when the chip is still busy (42_sequences.md R180, 20_memory.md R70). -/
theorem poll_eq {s : State} (h : s.pins.busReady = true) (hpd : s.dev.pd = false) (op : Instr) (rest : List Task)
    (f : State → State) :
    poll op rest f s =
      if stillBusy s.dev.busy then pollAgain op rest (polled s) else f { polled s with sess := .idle } := by
  have hp : ∀ t, ({ rdsrCore s with pollR := (rdsrCore s).pollR + 1 } : State) = t → poll op rest f s =
      if busyFlag t.shreg then pollAgain op rest t else f { t with sess := .idle } := by
    rintro t rfl
    rfl
  have hb : busyFlag (polled s).shreg = stillBusy s.dev.busy := by rw [polled_shreg, busyFlag_statusByte]
  rw [hp _ (rdsrCore_polled h hpd), hb]

/-- What a poll leaves on the bus (10_state.md R41, 40_softspi.md R138). -/
theorem polled_pins (s : State) : (polled s).pins = { s.pins with mosi := .output true } :=
  afterFrame_pins [0x05] _ _ _ s

theorem polled_tr (s : State) : (polled s).tr = (frameEvents [0x05] [statusByte s.dev s.env]).reverse ++ s.tr :=
  afterFrame_tr [0x05] _ _ _ s

theorem polled_dev (s : State) : (polled s).dev = { s.dev with busy := afterPoll s.dev.busy, fbits := [] } :=
  afterFrame_dev [0x05] _ _ _ s

theorem polled_env (s : State) : (polled s).env = (drawMisos 7 s.env).2 := afterFrame_env [0x05] _ _ _ s

/-- A poll leaves every register but shreg, bitcnt and poll_r, and the rest of the machine off the bus, as it was. -/
theorem polled_offBus (s : State) :
    (polled s).cfg = s.cfg ∧ (polled s).sess = s.sess ∧ (polled s).busOwner = s.busOwner ∧ (polled s).addrR = s.addrR ∧
      (polled s).lenR = s.lenR ∧ (polled s).offR = s.offR ∧ (polled s).lastCode = s.lastCode ∧
      (polled s).sessErr = s.sessErr ∧ (polled s).errInfo = s.errInfo ∧ (polled s).progress = s.progress ∧
      (polled s).seq = s.seq ∧ (polled s).host = s.host ∧ (polled s).out = s.out := by
  simp [polled]

/-- POLL_LIMIT is not reached (42_sequences.md R180). -/
theorem pollsUsedUp_below {s : State} (h : ∀ n, s.cfg.pollLimit = .count n → s.pollR < n) : pollsUsedUp s = false := by
  unfold pollsUsedUp
  split
  · rfl
  · rename_i n hn
    have := h n hn
    simp
    omega

/-! Awaits. -/

/-- What an await leaves, on a chip that reports busy k more times, with the status bytes it read (42_sequences.md R180). -/
structure Awaited (k : Nat) (statuses : List Byte) (s u : State) : Prop where
  ready : ReadyAfter k statuses
  shreg : statuses.getLast? = some u.shreg
  cfg : u.cfg = s.cfg
  pins : u.pins = { s.pins with mosi := .output true }
  sess : u.sess = .idle
  busOwner : u.busOwner = s.busOwner
  addrR : u.addrR = s.addrR
  lenR : u.lenR = s.lenR
  offR : u.offR = s.offR
  pollR : u.pollR = s.pollR + k + 1
  lastCode : u.lastCode = s.lastCode
  sessErr : u.sessErr = s.sessErr
  errInfo : u.errInfo = s.errInfo
  progress : u.progress = s.progress
  host : u.host = s.host
  out : u.out = s.out
  tr : u.tr = (pollEvents statuses).reverse ++ s.tr
  dev : u.dev = { s.dev with busy := .polls 0, fbits := [] }
  busy : u.env.busy = s.env.busy

/-- An await on an awake chip with k busy polls left, k polls below the limit: k more steps, k + 1 status reads, and what
follows the await runs (42_sequences.md R180, R187). -/
theorem await_reaches (op : Instr) (rest : List Task) : ∀ (k : Nat) {s : State}, s.pins.busReady = true → BusyFor k s →
    (∀ n, s.cfg.pollLimit = .count n → s.pollR + k < n) →
    ∃ statuses u, Awaited k statuses s u ∧
      Host.Core.run Sys2Proof.core k (poll op rest (runTasks op rest) s) = .next (runTasks op rest u)
  | 0, s, h, hb, _ => by
    refine ⟨[statusByte s.dev s.env], { polled s with sess := .idle }, ?_, ?_⟩
    · obtain ⟨h1, h2, h3, h4, h5, h6, h7, h8, h9, h10, h11, h12, h13⟩ := polled_offBus s
      have hf : busyFlag (statusByte s.dev s.env) = false := by rw [busyFlag_statusByte, hb.2]; rfl
      exact { ready := by simp [ReadyAfter, hf], shreg := by simp [polled_shreg], cfg := h1, pins := polled_pins s,
              sess := rfl, busOwner := h3, addrR := h4, lenR := h5, offR := h6, pollR := rfl, lastCode := h7,
              sessErr := h8, errInfo := h9, progress := h10, host := h12, out := h13,
              tr := by simp [polled_tr, pollEvents], dev := by simp [polled_dev, hb.2, afterPoll],
              busy := by simp [polled_env] }
    · rw [poll_eq h hb.1, hb.2, if_neg (by decide)]
      rfl
  | k + 1, s, h, hb, hl => by
    have hs : stillBusy s.dev.busy = true := by rw [hb.2]; simp [stillBusy]
    obtain ⟨g1, g2, g3, g4, g5, g6, g7, g8, g9, g10, g11, g12, g13⟩ := polled_offBus s
    have hu : pollsUsedUp (polled s) = false := by
      apply pollsUsedUp_below
      intro n hn
      have := hl n (g1 ▸ hn)
      show s.pollR + 1 < n
      omega
    have hp : poll op rest (runTasks op rest) s = { polled s with seq := .awaiting op rest } := by
      rw [poll_eq h hb.1, if_pos hs, pollAgain, hu]
      rfl
    have hr : (polled s).pins.busReady = true := by rw [polled_pins]; exact busReady_mosi h true
    have hstep : step { polled s with seq := .awaiting op rest } =
        .next (poll op rest (runTasks op rest) { polled s with seq := .awaiting op rest }) := by
      rw [step_awaiting rfl]
      exact if_pos hr
    obtain ⟨statuses, u, hu, hrun⟩ := await_reaches op rest k (s := { polled s with seq := .awaiting op rest }) hr
      ⟨by rw [polled_dev]; exact hb.1, by rw [polled_dev, hb.2]; rfl⟩
      (by
        intro n hn
        have := hl n (g1 ▸ hn)
        show s.pollR + 1 + k < n
        omega)
    refine ⟨statusByte s.dev s.env :: statuses, u, ?_, ?_⟩
    · have hf : busyFlag (statusByte s.dev s.env) = true := by rw [busyFlag_statusByte, hb.2]; simp [stillBusy]
      exact {
        ready := by simpa [ReadyAfter, hf, List.replicate_succ] using hu.ready
        shreg := by
          have := hu.shreg
          cases statuses with
          | nil => simp at this
          | cons x xs => simpa [List.getLast?_cons_cons] using this
        cfg := hu.cfg.trans g1
        pins := by rw [hu.pins]; simp [polled_pins]
        sess := hu.sess
        busOwner := hu.busOwner.trans g3
        addrR := hu.addrR.trans g4
        lenR := hu.lenR.trans g5
        offR := hu.offR.trans g6
        pollR := by
          rw [hu.pollR]
          show s.pollR + 1 + k + 1 = s.pollR + (k + 1) + 1
          omega
        lastCode := hu.lastCode.trans g7
        sessErr := hu.sessErr.trans g8
        errInfo := hu.errInfo.trans g9
        progress := hu.progress.trans g10
        host := hu.host.trans g12
        out := hu.out.trans g13
        tr := by rw [hu.tr]; simp [polled_tr, pollEvents]
        dev := by rw [hu.dev]; simp [polled_dev]
        busy := by rw [hu.busy]; simp [polled_env] }
    · rw [hp, run_succ k hstep]
      exact hrun

/-! Awaits of a chip that stays busy. -/

/-- What n + 1 polls of an await leave that all read busy, with their status bytes (42_sequences.md R180). -/
structure BusyPolled (n : Nat) (statuses : List Byte) (s u : State) : Prop where
  busy : BusyOn (n + 1) statuses u.shreg
  cfg : u.cfg = s.cfg
  pins : u.pins = { s.pins with mosi := .output true }
  sess : u.sess = s.sess
  busOwner : u.busOwner = s.busOwner
  addrR : u.addrR = s.addrR
  lenR : u.lenR = s.lenR
  offR : u.offR = s.offR
  pollR : u.pollR = s.pollR + n + 1
  lastCode : u.lastCode = s.lastCode
  sessErr : u.sessErr = s.sessErr
  errInfo : u.errInfo = s.errInfo
  progress : u.progress = s.progress
  host : u.host = s.host
  out : u.out = s.out
  tr : u.tr = (pollEvents statuses).reverse ++ s.tr
  dev : u.dev = { s.dev with busy := u.dev.busy, fbits := [] }

theorem busyPolled_one {s : State} (h : StaysBusy 1 s) : BusyPolled 0 [statusByte s.dev s.env] s (polled s) := by
  obtain ⟨h1, h2, h3, h4, h5, h6, h7, h8, h9, h10, h11, h12, h13⟩ := polled_offBus s
  have hs : stillBusy s.dev.busy = true := by
    cases hb : s.dev.busy with
    | polls k => have := h.2 k hb; simp [stillBusy]; omega
    | forever => rfl
  exact { busy := ⟨by simp [busyFlag_statusByte, hs], by simp [polled_shreg]⟩, cfg := h1, pins := polled_pins s, sess := h2,
          busOwner := h3, addrR := h4, lenR := h5, offR := h6, pollR := rfl, lastCode := h7, sessErr := h8, errInfo := h9,
          progress := h10, host := h12, out := h13, tr := by simp [polled_tr, pollEvents], dev := by simp [polled_dev] }

/-- An await on an awake chip that stays busy, with no limit reached before poll n + 1: n more steps, and that poll is the
last or the loop goes on (42_sequences.md R180). -/
theorem busyPolls_reach (op : Instr) (rest : List Task) : ∀ (n : Nat) {s : State}, s.pins.busReady = true →
    StaysBusy (n + 1) s → (∀ m, s.cfg.pollLimit = .count m → s.pollR + n < m) →
    ∃ statuses u, BusyPolled n statuses s u ∧
      Host.Core.run Sys2Proof.core n (poll op rest (runTasks op rest) s) = .next (pollAgain op rest u)
  | n, s, h, hb, hl => by
    have h1 : StaysBusy 1 s := ⟨hb.1, fun k hk => by have := hb.2 k hk; omega⟩
    have hone := busyPolled_one h1
    have hs : stillBusy s.dev.busy = true := by
      have := hone.busy.1
      simpa [busyFlag_statusByte] using this
    have hp : poll op rest (runTasks op rest) s = pollAgain op rest (polled s) := by rw [poll_eq h hb.1, if_pos hs]
    match n with
    | 0 => exact ⟨_, _, hone, by rw [hp]; rfl⟩
    | n + 1 =>
      have hu : pollsUsedUp (polled s) = false := by
        apply pollsUsedUp_below
        intro m hm
        have := hl m (hone.cfg ▸ hm)
        show s.pollR + 1 < m
        omega
      have hp' : poll op rest (runTasks op rest) s = { polled s with seq := .awaiting op rest } := by
        rw [hp, pollAgain, hu]
        rfl
      have hr : (polled s).pins.busReady = true := by rw [hone.pins]; exact busReady_mosi h true
      have hstep : step { polled s with seq := .awaiting op rest } =
          .next (poll op rest (runTasks op rest) { polled s with seq := .awaiting op rest }) := by
        rw [step_awaiting rfl]
        exact if_pos hr
      have hstay : StaysBusy (n + 1) { polled s with seq := .awaiting op rest } := by
        refine ⟨by rw [polled_dev]; exact hb.1, fun k hk => ?_⟩
        rw [polled_dev] at hk
        cases hd : s.dev.busy with
        | polls j =>
          have := hb.2 j hd
          simp only [hd, afterPoll, Busy.polls.injEq] at hk
          omega
        | forever => rw [hd] at hk; cases hk
      obtain ⟨statuses, u, hu', hrun⟩ := busyPolls_reach op rest n (s := { polled s with seq := .awaiting op rest }) hr hstay
        (by
          intro m hm
          have := hl m (hone.cfg ▸ hm)
          show s.pollR + 1 + n < m
          omega)
      refine ⟨statusByte s.dev s.env :: statuses, u, ?_, ?_⟩
      · have hf : busyFlag (statusByte s.dev s.env) = true := by rw [busyFlag_statusByte, hs]
        exact {
          busy := by
            obtain ⟨h2, h3⟩ := hu'.busy
            refine ⟨by rw [List.map_cons, h2, hf]; rfl, ?_⟩
            cases statuses with
            | nil => simp at h3
            | cons x xs => simpa [List.getLast?_cons_cons] using h3
          cfg := hu'.cfg.trans hone.cfg
          pins := by rw [hu'.pins]; simp [polled_pins]
          sess := hu'.sess.trans hone.sess
          busOwner := hu'.busOwner.trans hone.busOwner
          addrR := hu'.addrR.trans hone.addrR
          lenR := hu'.lenR.trans hone.lenR
          offR := hu'.offR.trans hone.offR
          pollR := by
            rw [hu'.pollR]
            show s.pollR + 1 + n + 1 = s.pollR + (n + 1) + 1
            omega
          lastCode := hu'.lastCode.trans hone.lastCode
          sessErr := hu'.sessErr.trans hone.sessErr
          errInfo := hu'.errInfo.trans hone.errInfo
          progress := hu'.progress.trans hone.progress
          host := hu'.host.trans hone.host
          out := hu'.out.trans hone.out
          tr := by rw [hu'.tr]; simp [polled_tr, pollEvents]
          dev := by rw [hu'.dev]; simp [polled_dev] }
      · rw [hp', run_succ n hstep]
        exact hrun

/-- A busy poll at the limit ends the op (42_sequences.md R180). -/
theorem pollAgain_limit (op : Instr) (rest : List Task) {u : State} (h : u.cfg.pollLimit = .count u.pollR) :
    pollAgain op rest u = raise ⟨.deviceNotResponding, .polls (BitVec.ofNat 32 u.pollR) u.shreg⟩ u := by
  rw [pollAgain, if_pos (by simp [pollsUsedUp, h])]

/-- With no limit a busy poll goes on (42_sequences.md R180). -/
theorem pollAgain_unbounded (op : Instr) (rest : List Task) {u : State} (h : u.cfg.pollLimit = .unbounded) :
    pollAgain op rest u = { u with seq := .awaiting op rest } := by
  rw [pollAgain, if_neg (by simp [pollsUsedUp, h])]

/-- The exit of an await that read busy to its limit (60_exceptions.md R232). -/
theorem raise_timedOut {n : Nat} {s u : State} (hs : u.sess ≠ .released) (hp : u.pollR = n) (h1 : u.out = s.out)
    (h2 : u.sessErr = s.sessErr) :
    TimedOut n u.shreg s (raise ⟨.deviceNotResponding, .polls (BitVec.ofNat 32 u.pollR) u.shreg⟩ u) := by
  subst hp
  refine ⟨by rw [← h1]; rfl, rfl, rfl, rfl, ?_, rfl⟩
  rw [← h2]
  show (if (_ : Prop) then _ else _) = _
  split <;> split <;> simp_all

end Sys2Proof.Laws
end

