-- ==== Sys2Proof/Laws/Plans.lean ====
section
/-! SUPPORT. FLASH_DATA (42_sequences.md R181) on a chip that becomes ready in every await: the BEs and PPs it sends, in order,
each after an await, and what they leave. -/

namespace Sys2Proof.Laws

open Sys2Proof.Machine Sys2Proof.Safety

/-- The BEs and PPs among tasks, in order. -/
def planOf : List Task → List FlashStep
  | [] => []
  | .erase a :: tasks => .erase a :: planOf tasks
  | .program a page :: tasks => .program a page :: planOf tasks
  | _ :: tasks => planOf tasks

/-- Every BE and PP has an await right before it, and nothing else happens but off_r (42_sequences.md R181). -/
def Paired : List Task → Prop
  | [] => True
  | .setOff _ :: tasks => Paired tasks
  | .await :: .erase _ :: tasks => Paired tasks
  | .await :: .program _ _ :: tasks => Paired tasks
  | _ => False

/-- What a BE or a PP does to the flash (20_memory.md R74, R75). -/
def applyStep (m : Memory) : FlashStep → Memory
  | .erase a => m.fill (blockBase a) Config.blockSize 0xFF
  | .program a page => Memory.programFrom a 0 page m

/-- What a plan does to the flash. -/
def applyPlan (plan : List FlashStep) (m : Memory) : Memory := plan.foldl applyStep m

/-- The address a step is sent with. -/
def stepAddr : FlashStep → Addr
  | .erase a => a
  | .program a _ => a

/-- One BE or PP of a sequence, its address loaded (42_sequences.md R181). -/
def runStep (st : FlashStep) (s : State) : State :=
  match st with
  | .erase a => beCore a (loadAddr a s)
  | .program a page => programPage a page s

/-- What a BE or PP of a sequence leaves, on a chip that is ready. -/
structure Stepped (st : FlashStep) (s u : State) : Prop where
  cfg : u.cfg = s.cfg
  pins : u.pins = { s.pins with mosi := u.pins.mosi }
  ready : u.pins.busReady = true
  sess : u.sess = st.sess
  busOwner : u.busOwner = s.busOwner
  addrR : u.addrR = stepAddr st
  lenR : u.lenR = s.lenR
  offR : u.offR = s.offR
  lastCode : u.lastCode = s.lastCode
  sessErr : u.sessErr = s.sessErr
  errInfo : u.errInfo = s.errInfo
  progress : u.progress = s.progress + BitVec.ofNat 32 (st.bytes)
  host : u.host = s.host
  out : u.out = s.out
  tr : u.tr = st.frames.reverse ++ s.tr
  mem : st.inside s.dev.flashSize → u.dev.mem = applyStep s.dev.mem st
  wel : st.inside s.dev.flashSize → u.dev.wel = false
  pd : u.dev.pd = false
  flashSize : u.dev.flashSize = s.dev.flashSize
  busy : u.dev.busy = s.env.drawBusy.1
  fbits : u.dev.fbits = []
  envBusy : u.env.busy = s.env.drawBusy.2.busy

theorem runStep_stepped (st : FlashStep) {s : State} (h : s.pins.busReady = true) (hb : BusyFor 0 s) :
    Stepped st s (runStep st s) := by
  cases st with
  | erase a =>
    obtain ⟨m, w, c, hd, he⟩ := erasedChip_turnsBusy a s.dev s.env
    have hc := beCore_eq (s := loadAddr a s) h hb.1 hb.2 a
    rw [runStep, hc]
    exact {
      cfg := by simp, pins := by simp, sess := rfl, busOwner := by simp, addrR := by simp [stepAddr], lenR := by simp
      offR := by simp, lastCode := by simp, sessErr := by simp, errInfo := by simp, progress := by simp [FlashStep.bytes]
      host := by simp, out := by simp, wel := fun hi => by simp [erasedChip_inside hi]
      pd := by simp [hd, hb.1], flashSize := by simp [hd], busy := by simp [hd], fbits := by simp [hd]
      envBusy := by simp [he]
      mem := fun hi => by simp [erasedChip_inside hi, applyStep]
      tr := by simp [FlashStep.frames, beFrames]
      ready := afterFrame_ready (afterFrame_ready (s := loadAddr a s) h _ _ _ _) _ _ _ _ }
  | program a page =>
    obtain ⟨m, w, c, hd, he⟩ := programmedChip_turnsBusy a page s.dev s.env
    have hc := ppCore_eq (s := loadAddr a s) h hb.1 hb.2 a page
    rw [runStep, programPage, hc]
    exact {
      cfg := by simp, pins := by simp, sess := rfl, busOwner := by simp, addrR := by simp [stepAddr], lenR := by simp
      offR := by simp, lastCode := by simp, sessErr := by simp, errInfo := by simp, progress := by simp [FlashStep.bytes]
      host := by simp, out := by simp, wel := fun hi => by simp [programmedChip_inside hi]
      pd := by simp [hd, hb.1], flashSize := by simp [hd], busy := by simp [hd], fbits := by simp [hd]
      envBusy := by simp [he]
      mem := fun hi => by simp [programmedChip_inside hi, applyStep]
      tr := by simp [FlashStep.frames, ppFrames]
      ready := afterFrame_ready (afterFrame_ready (s := loadAddr a s) h _ _ _ _) _ _ _ _ }

/-- The task of a step. -/
def stepTask : FlashStep → Task
  | .erase a => .erase a
  | .program a page => .program a page

theorem runTasks_step (op : Instr) (st : FlashStep) (tasks : List Task) (s : State) :
    runTasks op (stepTask st :: tasks) s = runTasks op tasks (runStep st s) := by
  cases st <;> rfl

theorem planOf_step (st : FlashStep) (tasks : List Task) : planOf (stepTask st :: tasks) = st :: planOf tasks := by
  cases st <;> rfl

/-- off_r after the tasks. -/
def finalOff : List Task → Count → Count
  | [], off => off
  | .setOff off :: tasks, _ => finalOff tasks off
  | _ :: tasks, off => finalOff tasks off

theorem finalOff_step (st : FlashStep) (tasks : List Task) (off : Count) :
    finalOff (.await :: stepTask st :: tasks) off = finalOff tasks off := by
  cases st <;> rfl

/-- What paired tasks leave, on a chip that reports busy the given numbers of polls in each await, with the status bytes read
in each. -/
structure Planned (tasks : List Task) (ks : List Nat) (busy : List Busy) (awaits : List (List Byte)) (s u : State) :
    Prop where
  polls : List.Forall₂ ReadyAfter ks awaits
  cfg : u.cfg = s.cfg
  pins : u.pins = { s.pins with mosi := u.pins.mosi }
  ready : u.pins.busReady = true
  sess : u.sess = ((planOf tasks).getLast?.map FlashStep.sess).getD s.sess
  busOwner : u.busOwner = s.busOwner
  addrR : u.addrR = ((planOf tasks).getLast?.map stepAddr).getD s.addrR
  lenR : u.lenR = s.lenR
  offR : u.offR = finalOff tasks s.offR
  lastCode : u.lastCode = s.lastCode
  sessErr : u.sessErr = s.sessErr
  errInfo : u.errInfo = s.errInfo
  progress : u.progress = s.progress + BitVec.ofNat 32 ((planOf tasks).map FlashStep.bytes).sum
  host : u.host = s.host
  out : u.out = s.out
  tr : u.tr = (planEvents (planOf tasks) awaits).reverse ++ s.tr
  mem : (∀ st ∈ planOf tasks, st.inside s.dev.flashSize) → u.dev.mem = applyPlan (planOf tasks) s.dev.mem
  wel : (∀ st ∈ planOf tasks, st.inside s.dev.flashSize) → u.dev.wel = if planOf tasks = [] then s.dev.wel else false
  pd : u.dev.pd = false
  flashSize : u.dev.flashSize = s.dev.flashSize
  busy : some u.dev.busy = (s.dev.busy :: busy).getLast?
  fbits : u.dev.fbits = if planOf tasks = [] then s.dev.fbits else []

theorem getLast_cons_map {α β : Type} (f : α → β) (x : α) (xs : List α) (d : β) :
    ((x :: xs).getLast?.map f).getD d = (xs.getLast?.map f).getD (f x) := by
  cases xs with
  | nil => rfl
  | cons y ys => rw [List.getLast?_cons_cons]; cases h : (y :: ys).getLast? <;> simp_all

/-- The first of the awaits that AwaitsBusyFor counts, and the busy count drawn after it. -/
theorem awaitsBusyFor_succ {n : Nat} {ks : List Nat} {busy : List Busy} {s : State}
    (h : AwaitsBusyFor (n + 1) ks busy s) :
    ∃ k ks' b busy', ks = k :: ks' ∧ busy = b :: busy' ∧ BusyFor k s ∧ s.env.drawBusy.1 = b ∧
      ∀ v : State, v.dev.pd = false → v.dev.busy = b → v.env.busy = s.env.drawBusy.2.busy →
        AwaitsBusyFor n ks' busy' v := by
  obtain ⟨hpd, hl, ht, more, he⟩ := h
  match busy, ks, hl, ht with
  | b :: busy', k :: ks', hl, ht =>
    rw [List.take_succ_cons, List.map_cons, List.cons.injEq] at ht
    have hd : s.env.drawBusy = (b, { s.env with busy := busy' ++ more }) := by
      unfold Env.drawBusy
      rw [he]
      rfl
    rw [hd]
    exact ⟨k, ks', b, busy', rfl, rfl, ⟨hpd, ht.1⟩, rfl, fun v h1 h2 h3 =>
      ⟨h1, by simpa using hl, by rw [h2]; exact ht.2, more, h3⟩⟩

/-- One await and its step, and then the rest. -/
theorem pair_reaches (op : Instr) (st : FlashStep) (tasks after : List Task)
    (ih : ∀ {s : State} {ks : List Nat} {busy : List Busy}, s.pins.busReady = true →
      AwaitsBusyFor (planOf tasks).length ks busy s → (∀ j ∈ ks, belowLimit s.cfg.pollLimit j) →
      ∃ awaits u, Planned tasks ks busy awaits s u ∧
        Host.Core.run Sys2Proof.core ks.sum (runTasks op (tasks ++ after) s) = .next (runTasks op after u))
    {s : State} {ks : List Nat} {busy : List Busy} (h : s.pins.busReady = true)
    (hb : AwaitsBusyFor ((planOf tasks).length + 1) ks busy s) (hl : ∀ j ∈ ks, belowLimit s.cfg.pollLimit j) :
    ∃ awaits u, Planned (.await :: stepTask st :: tasks) ks busy awaits s u ∧
      Host.Core.run Sys2Proof.core ks.sum (runTasks op (.await :: stepTask st :: tasks ++ after) s) =
        .next (runTasks op after u) := by
  obtain ⟨k, ks', b, busy', rfl, rfl, hk, hd, hrest⟩ := awaitsBusyFor_succ hb
  have hkl : belowLimit s.cfg.pollLimit k := hl k List.mem_cons_self
  obtain ⟨statuses, v, hv, hrun⟩ := await_reaches op (stepTask st :: tasks ++ after) k (s := { s with pollR := 0 }) h hk (by
    intro n hc
    have hc' : s.cfg.pollLimit = .count n := hc
    rw [hc'] at hkl
    show 0 + k < n
    unfold belowLimit at hkl
    omega)
  have hvr : v.pins.busReady = true := by rw [hv.pins]; exact busReady_mosi h true
  have hvb : BusyFor 0 v := ⟨by rw [hv.dev]; exact hk.1, by rw [hv.dev]⟩
  have hw := runStep_stepped st hvr hvb
  have hsize : v.dev.flashSize = s.dev.flashSize := by rw [hv.dev]
  have hve : v.env.busy = s.env.busy := hv.busy
  have hvd : v.env.drawBusy.1 = b ∧ v.env.drawBusy.2.busy = s.env.drawBusy.2.busy := by
    obtain ⟨-, -, -, more, he⟩ := hb
    rw [he] at hve
    unfold Env.drawBusy
    rw [hve, he]
    exact ⟨rfl, rfl⟩
  have hplan : planOf (.await :: stepTask st :: tasks) = st :: planOf tasks := planOf_step st tasks
  obtain ⟨awaits, u, hu, hrun'⟩ := ih (s := runStep st v) (ks := ks') (busy := busy') hw.ready
    (hrest _ hw.pd (by rw [hw.busy, hvd.1]) (by rw [hw.envBusy, hvd.2])) (by
      intro i hi
      rw [hw.cfg, hv.cfg]
      exact hl i (List.mem_cons_of_mem _ hi))
  have hin : (∀ x ∈ planOf (.await :: stepTask st :: tasks), x.inside s.dev.flashSize) →
      st.inside v.dev.flashSize ∧ ∀ x ∈ planOf tasks, x.inside (runStep st v).dev.flashSize := by
    intro hall
    rw [hplan] at hall
    rw [hw.flashSize, hsize]
    exact ⟨hall st List.mem_cons_self, fun x hx => hall x (List.mem_cons_of_mem _ hx)⟩
  refine ⟨statuses :: awaits, u, ?_, ?_⟩
  · exact {
      polls := List.Forall₂.cons hv.ready hu.polls
      cfg := by rw [hu.cfg, hw.cfg, hv.cfg]
      pins := by
        have h1 := hu.pins
        rw [hw.pins, hv.pins] at h1
        exact h1
      ready := hu.ready
      sess := by rw [hplan, getLast_cons_map, hu.sess, hw.sess]
      busOwner := by rw [hu.busOwner, hw.busOwner, hv.busOwner]
      addrR := by rw [hplan, getLast_cons_map, hu.addrR, hw.addrR]
      lenR := by rw [hu.lenR, hw.lenR, hv.lenR]
      offR := by rw [finalOff_step, hu.offR, hw.offR, hv.offR]
      lastCode := by rw [hu.lastCode, hw.lastCode, hv.lastCode]
      sessErr := by rw [hu.sessErr, hw.sessErr, hv.sessErr]
      errInfo := by rw [hu.errInfo, hw.errInfo, hv.errInfo]
      progress := by
        rw [hplan, hu.progress, hw.progress, hv.progress, List.map_cons, List.sum_cons, BitVec.ofNat_add]
        exact BitVec.add_assoc _ _ _
      host := by rw [hu.host, hw.host, hv.host]
      out := by rw [hu.out, hw.out, hv.out]
      tr := by
        rw [hplan, hu.tr, hw.tr, hv.tr]
        simp [planEvents]
      mem := fun hall => by
        rw [hplan, hu.mem (hin hall).2, hw.mem (hin hall).1, hv.dev]
        rfl
      wel := fun hall => by
        rw [hplan, if_neg (by simp), hu.wel (hin hall).2]
        split
        · exact hw.wel (hin hall).1
        · rfl
      pd := hu.pd
      flashSize := by rw [hu.flashSize, hw.flashSize, hsize]
      busy := by
        rw [hu.busy, hw.busy, hvd.1]
        rfl
      fbits := by
        rw [hplan, if_neg (by simp), hu.fbits]
        split
        · exact hw.fbits
        · rfl }
  · rw [List.sum_cons, List.cons_append, List.cons_append, runTasks]
    rw [List.cons_append] at hrun
    rw [run_add k _ hrun, runTasks_step]
    exact hrun'

/-- Paired tasks on a chip whose busy counts stay below the limit: the run gets to what follows them, one step for each poll that
read busy (42_sequences.md R181). -/
theorem paired_reach (op : Instr) (after : List Task) : ∀ (tasks : List Task), Paired tasks → ∀ {s : State} {ks : List Nat}
    {busy : List Busy}, s.pins.busReady = true → AwaitsBusyFor (planOf tasks).length ks busy s →
    (∀ j ∈ ks, belowLimit s.cfg.pollLimit j) →
    ∃ awaits u, Planned tasks ks busy awaits s u ∧
      Host.Core.run Sys2Proof.core ks.sum (runTasks op (tasks ++ after) s) = .next (runTasks op after u)
  | [], _, s, ks, busy, h, hb, _ => by
    obtain ⟨hpd, hn, ht, -, -⟩ := hb
    obtain rfl : busy = [] := List.length_eq_zero_iff.mp hn
    obtain rfl : ks = [] := by cases ks with
      | nil => rfl
      | cons _ _ => simp [planOf] at ht
    exact ⟨[], s, {
      polls := List.Forall₂.nil, cfg := rfl, pins := rfl, ready := h, sess := rfl, busOwner := rfl, addrR := rfl
      lenR := rfl, offR := rfl, lastCode := rfl, sessErr := rfl, errInfo := rfl, progress := (BitVec.add_zero _).symm
      host := rfl, out := rfl, tr := rfl, mem := fun _ => rfl, wel := fun _ => rfl, pd := hpd, flashSize := rfl
      busy := rfl, fbits := rfl }, rfl⟩
  | .setOff off :: tasks, hp, s, ks, busy, h, hb, hl => by
    obtain ⟨awaits, u, hu, hr⟩ := paired_reach op after tasks hp (s := { s with offR := off }) h hb hl
    exact ⟨awaits, u, {
      polls := hu.polls, cfg := hu.cfg, pins := hu.pins, ready := hu.ready, sess := hu.sess, busOwner := hu.busOwner
      addrR := hu.addrR, lenR := hu.lenR, offR := hu.offR, lastCode := hu.lastCode, sessErr := hu.sessErr
      errInfo := hu.errInfo, progress := hu.progress, host := hu.host, out := hu.out, tr := hu.tr, mem := hu.mem
      wel := hu.wel, pd := hu.pd, flashSize := hu.flashSize, busy := hu.busy, fbits := hu.fbits }, hr⟩
  | .await :: .erase a :: tasks, hp, s, ks, busy, h, hb, hl =>
    pair_reaches op (.erase a) tasks after (paired_reach op after tasks hp) h hb hl
  | .await :: .program a page :: tasks, hp, s, ks, busy, h, hb, hl =>
    pair_reaches op (.program a page) tasks after (paired_reach op after tasks hp) h hb hl

/-- As paired_reach, where the op ends with the tasks. -/
theorem paired_reaches (op : Instr) (tasks : List Task) (hp : Paired tasks) {s : State} {ks : List Nat} {busy : List Busy}
    (h : s.pins.busReady = true) (hb : AwaitsBusyFor (planOf tasks).length ks busy s)
    (hl : ∀ j ∈ ks, belowLimit s.cfg.pollLimit j) :
    ∃ awaits u, Planned tasks ks busy awaits s u ∧
      Host.Core.run Sys2Proof.core ks.sum (runTasks op tasks s) = .next (succeed [] u) := by
  have hr := paired_reach op [] tasks hp h hb hl
  rw [List.append_nil] at hr
  exact hr

/-- Paired tasks cut before the await of their step j. -/
theorem paired_split : ∀ (tasks : List Task), Paired tasks → ∀ (j : Nat), j < (planOf tasks).length →
    ∃ before st after, tasks = before ++ .await :: stepTask st :: after ∧ Paired before ∧
      planOf before = (planOf tasks).take j
  | [], _, j, h => absurd h (Nat.not_lt_zero j)
  | .setOff off :: tasks, hp, j, h => by
    obtain ⟨before, st, after, h1, h2, h3⟩ := paired_split tasks hp j h
    exact ⟨.setOff off :: before, st, after, by rw [h1]; rfl, h2, h3⟩
  | .await :: .erase a :: tasks, _, 0, _ => ⟨[], .erase a, tasks, rfl, trivial, rfl⟩
  | .await :: .program a page :: tasks, _, 0, _ => ⟨[], .program a page, tasks, rfl, trivial, rfl⟩
  | .await :: .erase a :: tasks, hp, j + 1, h => by
    obtain ⟨before, st, after, h1, h2, h3⟩ := paired_split tasks hp j (Nat.lt_of_succ_lt_succ h)
    exact ⟨.await :: .erase a :: before, st, after, by rw [h1]; rfl, h2, congrArg (FlashStep.erase a :: ·) h3⟩
  | .await :: .program a page :: tasks, hp, j + 1, h => by
    obtain ⟨before, st, after, h1, h2, h3⟩ := paired_split tasks hp j (Nat.lt_of_succ_lt_succ h)
    exact ⟨.await :: .program a page :: before, st, after, by rw [h1]; rfl, h2, congrArg (FlashStep.program a page :: ·) h3⟩

end Sys2Proof.Laws
end

