-- ==== Sys2Proof/Laws/FlashPlan.lean ====
section
/-! SUPPORT. The tasks of FLASH_DATA (42_sequences.md R181) are the BEs and PPs of Safety.flashPlan, each with its await; and
what that plan leaves in the flash. -/

namespace Sys2Proof.Laws

open Sys2Proof.Machine Sys2Proof.Safety

/-! From tasks to the plan. -/

/-- The PPs of a list of pages, from buffer offset p on, each page a piece of 256 bytes of buf. -/
theorem planOf_pageTasks (base : Nat) (rest : List Task) : ∀ (fuel : Nat) (buf : List Byte) (p : Nat), buf.length ≤ fuel →
    planOf (pageTasks base p (cutWith 256 fuel buf) ++ rest) =
      (List.range (pageCount buf.length)).map (fun j =>
        .program (BitVec.ofNat 24 (base + (p + 256 * j))) ((buf.drop (256 * j)).take 256)) ++ planOf rest
  | fuel, [], p, _ => by cases fuel <;> rfl
  | 0, b :: buf, p, h => by simp at h
  | fuel + 1, b :: buf, p, h => by
    have hlen : ((b :: buf).drop 256).length ≤ fuel := by simp at h ⊢; omega
    have hcount : pageCount (b :: buf).length = pageCount ((b :: buf).drop 256).length + 1 := by
      simp only [pageCount, List.length_drop, List.length_cons]; omega
    have hstep : planOf (pageTasks base p (cutWith 256 (fuel + 1) (b :: buf)) ++ rest) =
        .program (BitVec.ofNat 24 (base + p)) ((b :: buf).take 256) ::
          planOf (pageTasks base (p + ((b :: buf).take 256).length) (cutWith 256 fuel ((b :: buf).drop 256)) ++ rest) := rfl
    rw [hstep, planOf_pageTasks base rest fuel _ _ hlen, hcount, List.range_succ_eq_map, List.map_cons, List.map_map,
      List.cons_append]
    congr 2
    apply List.map_congr_left
    intro j hj
    have hj' : j < pageCount ((b :: buf).drop 256).length := List.mem_range.mp hj
    have hl : ((b :: buf).take 256).length = 256 := by
      unfold pageCount at hj'
      rw [List.length_drop] at hj'
      rw [List.length_take]
      omega
    simp only [hl, Function.comp, List.drop_drop, Nat.succ_eq_add_one]
    rw [show base + (p + 256 + 256 * j) = base + (p + 256 * (j + 1)) by omega,
      show 256 + 256 * j = 256 * (j + 1) by omega]

theorem paired_pageTasks (base : Nat) {rest : List Task} (hr : Paired rest) : ∀ (pages : List (List Byte)) (p : Nat),
    Paired (pageTasks base p pages ++ rest)
  | [], _ => hr
  | _ :: pages, _ => paired_pageTasks base hr pages _

theorem finalOff_pageTasks (base : Nat) (rest : List Task) (off : Count) : ∀ (pages : List (List Byte)) (p : Nat),
    finalOff (pageTasks base p pages ++ rest) off = finalOff rest off
  | [], _ => rfl
  | _ :: pages, _ => finalOff_pageTasks base rest off pages _

theorem paired_chunkTasks (base : Nat) : ∀ (chunks : List (List Byte)) (off : Nat), Paired (chunkTasks base off chunks)
  | [], _ => trivial
  | _ :: chunks, _ =>
    paired_pageTasks base (rest := .setOff _ :: chunkTasks base _ chunks) (paired_chunkTasks base chunks _) _ _

theorem paired_flashTasks (base : Addr) (buf : List Byte) : Paired (flashTasks base buf) := paired_chunkTasks _ _ _

/-- The BEs and PPs of the chunks of buf, from buffer offset off on. -/
theorem planOf_chunkTasks (base : Nat) : ∀ (fuel : Nat) (buf : List Byte) (off : Nat), buf.length ≤ fuel →
    planOf (chunkTasks base off (cutWith 65536 fuel buf)) =
      (List.range (chunkCount buf.length)).flatMap fun c =>
        .erase (BitVec.ofNat 24 (base + (off + 65536 * c))) ::
          (List.range (pageCount (min 65536 (buf.length - 65536 * c)))).map fun j =>
            .program (BitVec.ofNat 24 (base + (off + 65536 * c + 256 * j))) ((buf.drop (65536 * c + 256 * j)).take 256)
  | fuel, [], off, _ => by cases fuel <;> rfl
  | 0, b :: buf, off, h => by simp at h
  | fuel + 1, b :: buf, off, h => by
    have hlen : ((b :: buf).drop 65536).length ≤ fuel := by simp at h ⊢; omega
    have hcount : chunkCount (b :: buf).length = chunkCount ((b :: buf).drop 65536).length + 1 := by
      simp only [chunkCount, List.length_drop, List.length_cons]; omega
    have hstep : planOf (chunkTasks base off (cutWith 65536 (fuel + 1) (b :: buf))) =
        .erase (BitVec.ofNat 24 (base + off)) ::
          planOf (pageTasks base off (cutWith 256 ((b :: buf).take 65536).length ((b :: buf).take 65536)) ++
            .setOff (BitVec.ofNat 32 (off + ((b :: buf).take 65536).length)) ::
              chunkTasks base (off + ((b :: buf).take 65536).length) (cutWith 65536 fuel ((b :: buf).drop 65536))) := rfl
    have hset : ∀ o tasks, planOf (.setOff o :: tasks) = planOf tasks := fun _ _ => rfl
    rw [hstep, planOf_pageTasks base _ _ _ _ (Nat.le_refl _), hset, planOf_chunkTasks base fuel _ _ hlen, hcount,
      List.range_succ_eq_map, List.flatMap_cons, List.flatMap_map]
    simp only [Nat.mul_zero, Nat.add_zero, Nat.sub_zero, Nat.zero_add, List.length_take, List.cons_append]
    refine congrArg₂ (fun xs ys => FlashStep.erase (BitVec.ofNat 24 (base + off)) :: (xs ++ ys)) ?_ ?_
    · apply List.map_congr_left
      intro j hj
      have hj' : j < pageCount (min 65536 (b :: buf).length) := List.mem_range.mp hj
      unfold pageCount at hj'
      rw [List.drop_take, List.take_take, show min 256 (65536 - 256 * j) = 256 by omega]
    · apply List.flatMap_congr
      intro c hc
      have hc' : c < chunkCount ((b :: buf).drop 65536).length := List.mem_range.mp hc
      unfold chunkCount at hc'
      rw [List.length_drop] at hc'
      have hm : min 65536 (b :: buf).length = 65536 := by omega
      simp only [hm, List.length_drop, List.drop_drop]
      rw [show base + (off + 65536 + 65536 * c) = base + (off + 65536 * (c + 1)) by omega,
        show (b :: buf).length - 65536 - 65536 * c = (b :: buf).length - 65536 * (c + 1) by omega]
      congr 1
      apply List.map_congr_left
      intro j _
      rw [show off + 65536 + 65536 * c + 256 * j = off + 65536 * (c + 1) + 256 * j by omega,
        show 65536 + (65536 * c + 256 * j) = 65536 * (c + 1) + 256 * j by omega]

/-- FLASH_DATA's tasks are the plan (42_sequences.md R181). -/
theorem planOf_flashTasks (base : Addr) (buf : List Byte) : planOf (flashTasks base buf) = flashPlan base buf := by
  have h := planOf_chunkTasks base.toNat buf.length buf 0 (Nat.le_refl _)
  simp only [Nat.zero_add] at h
  exact h

theorem finalOff_chunkTasks (base : Nat) : ∀ (fuel : Nat) (buf : List Byte) (off : Nat), buf.length ≤ fuel →
    finalOff (chunkTasks base off (cutWith 65536 fuel buf)) (BitVec.ofNat 32 off) = BitVec.ofNat 32 (off + buf.length)
  | fuel, [], off, _ => by cases fuel <;> rfl
  | 0, b :: buf, off, h => by simp at h
  | fuel + 1, b :: buf, off, h => by
    have hlen : ((b :: buf).drop 65536).length ≤ fuel := by simp at h ⊢; omega
    have hstep : finalOff (chunkTasks base off (cutWith 65536 (fuel + 1) (b :: buf))) (BitVec.ofNat 32 off) =
        finalOff (pageTasks base off (cut 256 ((b :: buf).take 65536)) ++
            .setOff (BitVec.ofNat 32 (off + ((b :: buf).take 65536).length)) ::
              chunkTasks base (off + ((b :: buf).take 65536).length) (cutWith 65536 fuel ((b :: buf).drop 65536)))
          (BitVec.ofNat 32 off) := rfl
    rw [hstep, finalOff_pageTasks]
    show finalOff (chunkTasks base _ (cutWith 65536 fuel ((b :: buf).drop 65536))) (BitVec.ofNat 32 _) = _
    rw [finalOff_chunkTasks base fuel _ _ hlen]
    congr 1
    rw [List.length_take, List.length_drop]
    omega

/-- off_r ends at the buffer's length (42_sequences.md R181). -/
theorem finalOff_flashTasks (base : Addr) (buf : List Byte) :
    finalOff (flashTasks base buf) 0 = BitVec.ofNat 32 buf.length := by
  have h := finalOff_chunkTasks base.toNat buf.length buf 0 (Nat.le_refl _)
  rw [Nat.zero_add] at h
  exact h

/-! From the plan to the flash. -/

theorem applyPlan_append (p q : List FlashStep) (m : Memory) : applyPlan (p ++ q) m = applyPlan q (applyPlan p m) :=
  List.foldl_append

/-- A page-aligned page program ANDs its bytes in, in place (20_memory.md R74). -/
theorem read_alignedPage (m : Memory) {a : Nat} {page : List Byte} (x : Nat) (ha : a % 256 = 0) (hl : page.length ≤ 256)
    (ht : page = [] ∨ a < 16777216) :
    (applyStep m (.program (BitVec.ofNat 24 a) page)).read x =
      if a ≤ x ∧ x < a + page.length then m.read x &&& page.getD (x - a) 0 else m.read x := by
  rcases ht with rfl | ht
  · rw [if_neg (by simp)]
    rfl
  have hn : (BitVec.ofNat 24 a).toNat = a := by simp; omega
  have hp : ∀ i, i < page.length → programAddr (BitVec.ofNat 24 a) i = a + i := by
    intro i hi
    rw [programAddr_inside _ _ (by rw [hn]; omega), hn]
  show (Memory.programFrom (BitVec.ofNat 24 a) 0 page m).read x = _
  split
  · rename_i hx
    have hi : x - a < page.length := by omega
    have h := read_programFrom_at (a := BitVec.ofNat 24 a) (i := 0) (m := m) hi hl
    rw [Nat.zero_add, hp _ hi, show a + (x - a) = x by omega] at h
    rw [h, List.getD_eq_getElem _ _ hi]
  · rename_i hx
    apply read_programFrom_other
    intro j _ hj hjx
    rw [Nat.zero_add] at hj
    rw [hp j hj] at hjx
    omega

/-- The first k pages of a chunk at offset o of the buffer. -/
theorem read_pages {base : Addr} {buf : List Byte} {o : Nat} (hb : base.toNat % 256 = 0) (ho : o % 256 = 0)
    (hn : base.toNat + buf.length ≤ 16777216) (m : Memory) (x : Nat) : ∀ k : Nat,
    (applyPlan ((List.range k).map fun j => .program (BitVec.ofNat 24 (base.toNat + (o + 256 * j))) (pageAt buf (o + 256 * j)))
      m).read x =
      if base.toNat + o ≤ x ∧ x < base.toNat + min (o + 256 * k) buf.length then m.read x &&& buf.getD (x - base.toNat) 0
      else m.read x
  | 0 => by
    rw [if_neg (by omega)]
    rfl
  | k + 1 => by
    have hlen : (pageAt buf (o + 256 * k)).length = min 256 (buf.length - (o + 256 * k)) := by
      simp [pageAt]
    rw [List.range_succ, List.map_append, applyPlan_append]
    show (applyStep _ (.program _ _)).read x = _
    rw [read_alignedPage _ x (by omega) (by omega) (by
      by_cases h : o + 256 * k < buf.length
      · exact Or.inr (by omega)
      · exact Or.inl (List.length_eq_zero_iff.mp (by omega))), read_pages hb ho hn m x k, hlen]
    by_cases hx : base.toNat + (o + 256 * k) ≤ x ∧ x < base.toNat + (o + 256 * k) + min 256 (buf.length - (o + 256 * k))
    · have hget : (pageAt buf (o + 256 * k)).getD (x - (base.toNat + (o + 256 * k))) 0 = buf.getD (x - base.toNat) 0 := by
        rw [List.getD_eq_getElem _ _ (by omega), List.getD_eq_getElem _ _ (by omega)]
        simp only [pageAt, List.getElem_take, List.getElem_drop]
        congr 1
        omega
      rw [if_pos hx, if_neg (by omega), if_pos (by omega), hget]
    · rw [if_neg hx]
      by_cases hy : base.toNat + o ≤ x ∧ x < base.toNat + min (o + 256 * k) buf.length
      · rw [if_pos hy, if_pos (by omega)]
      · rw [if_neg hy, if_neg (by omega)]

/-- A whole chunk at a block-aligned base: its block holds the buffer's bytes, and FF after the buffer's end (42_sequences.md
R181, 70_reset_and_hazards.md R287). -/
theorem read_chunk {base : Addr} {buf : List Byte} {c : Nat} (hb : base.toNat % 65536 = 0) (hc : 65536 * c < buf.length)
    (hn : base.toNat + buf.length ≤ 16777216) (m : Memory) (x : Nat) :
    (applyPlan (.erase (BitVec.ofNat 24 (base.toNat + 65536 * c)) :: chunkPages base buf (65536 * c)) m).read x =
      if base.toNat + 65536 * c ≤ x ∧ x < base.toNat + 65536 * (c + 1) then
        if x - base.toNat < buf.length then buf.getD (x - base.toNat) 0 else 0xFF
      else m.read x := by
  have ha : (BitVec.ofNat 24 (base.toNat + 65536 * c)).toNat = base.toNat + 65536 * c := by simp; omega
  have hblock : blockBase (BitVec.ofNat 24 (base.toNat + 65536 * c)) = base.toNat + 65536 * c := by
    rw [blockBase_eq, ha]; omega
  show (applyPlan (chunkPages base buf (65536 * c)) (m.fill _ Config.blockSize 0xFF)).read x = _
  rw [chunkPages, read_pages (by omega) (by omega) hn, hblock]
  have hk : min (65536 * c + 256 * pageCount (min 65536 (buf.length - 65536 * c))) buf.length =
      min (65536 * (c + 1)) buf.length := by
    unfold pageCount; omega
  have hsize : Config.blockSize = 65536 := rfl
  rw [hk]
  by_cases hin : base.toNat + 65536 * c ≤ x ∧ x < base.toNat + 65536 * (c + 1)
  · have hfill : (m.fill (base.toNat + 65536 * c) Config.blockSize 0xFF).read x = 0xFF :=
      read_fill_inside m 0xFF ⟨hin.1, by rw [hsize]; omega⟩
    rw [hfill, if_pos hin]
    by_cases hx : x - base.toNat < buf.length
    · rw [if_pos (by omega), if_pos hx]
      exact BitVec.allOnes_and
    · rw [if_neg (by omega), if_neg hx]
  · have hfill : (m.fill (base.toNat + 65536 * c) Config.blockSize 0xFF).read x = m.read x :=
      read_fill_outside m 0xFF (by rw [hsize]; omega)
    rw [hfill, if_neg hin, if_neg (by omega)]

/-- The first k chunks of FLASH_DATA at a block-aligned base. -/
theorem read_chunks {base : Addr} {buf : List Byte} (hb : base.toNat % 65536 = 0)
    (hn : base.toNat + buf.length ≤ 16777216) (m : Memory) (x : Nat) : ∀ k : Nat, k ≤ chunkCount buf.length →
    (applyPlan ((List.range k).flatMap fun c =>
      .erase (BitVec.ofNat 24 (base.toNat + 65536 * c)) :: chunkPages base buf (65536 * c)) m).read x =
      if base.toNat ≤ x ∧ x < base.toNat + 65536 * k then
        if x - base.toNat < buf.length then buf.getD (x - base.toNat) 0 else 0xFF
      else m.read x
  | 0, _ => by
    rw [if_neg (by omega)]
    rfl
  | k + 1, hk => by
    have hc : 65536 * k < buf.length := by unfold chunkCount at hk; omega
    rw [List.range_succ, List.flatMap_append, applyPlan_append, List.flatMap_cons, List.flatMap_nil, List.append_nil,
      read_chunk hb hc hn, read_chunks hb hn m x k (by omega)]
    by_cases hin : base.toNat + 65536 * k ≤ x ∧ x < base.toNat + 65536 * (k + 1)
    · rw [if_pos hin, if_pos (show base.toNat ≤ x ∧ x < base.toNat + 65536 * (k + 1) by omega)]
    · rw [if_neg hin]
      by_cases hlow : base.toNat ≤ x ∧ x < base.toNat + 65536 * k
      · rw [if_pos hlow, if_pos (show base.toNat ≤ x ∧ x < base.toNat + 65536 * (k + 1) by omega)]
      · rw [if_neg hlow, if_neg (by omega)]

/-- What FLASH_DATA leaves in the flash at a block-aligned base (20_memory.md R93, 70_reset_and_hazards.md R287). -/
theorem read_flashPlan {base : Addr} {buf : List Byte} (hb : base.toNat % 65536 = 0)
    (hn : base.toNat + buf.length ≤ 16777216) (m : Memory) (x : Nat) :
    (applyPlan (flashPlan base buf) m).read x =
      if base.toNat ≤ x ∧ x < base.toNat + 65536 * chunkCount buf.length then
        if x - base.toNat < buf.length then buf.getD (x - base.toNat) 0 else 0xFF
      else m.read x :=
  read_chunks hb hn m x _ (Nat.le_refl _)

/-! The counts of the plan (42_sequences.md R184). -/

theorem chunkPages_length (base : Addr) (buf : List Byte) (off : Nat) :
    (chunkPages base buf off).length = pageCount (min 65536 (buf.length - off)) := by
  simp [chunkPages]

theorem flashPlan_counts (base : Addr) (buf : List Byte) : ∀ k : Nat, k ≤ chunkCount buf.length →
    (((List.range k).flatMap fun c =>
      .erase (BitVec.ofNat 24 (base.toNat + 65536 * c)) :: chunkPages base buf (65536 * c)) : List FlashStep).length =
      k + pageCount (min (65536 * k) buf.length)
  | 0, _ => by simp [pageCount]
  | k + 1, hk => by
    have hc : 65536 * k < buf.length := by unfold chunkCount at hk; omega
    rw [List.range_succ, List.flatMap_append, List.length_append, flashPlan_counts base buf k (by omega)]
    simp only [List.flatMap_cons, List.flatMap_nil, List.append_nil, List.length_cons, chunkPages_length]
    unfold pageCount
    omega

/-- FLASH_DATA sends E + P pairs (42_sequences.md R184). -/
theorem flashPlan_length (base : Addr) (buf : List Byte) :
    (flashPlan base buf).length = chunkCount buf.length + pageCount buf.length := by
  have h := flashPlan_counts base buf (chunkCount buf.length) (Nat.le_refl _)
  rw [show min (65536 * chunkCount buf.length) buf.length = buf.length by unfold chunkCount; omega] at h
  exact h

/-! The awaits of FLASH_DATA. -/

/-- FLASH_DATA gets to its await before step j of its plan (42_sequences.md R181). -/
theorem flash_reachesAwait {s : State} {base : Addr} {buf : List Byte} {j : Nat} {ks : List Nat} {busy : List Busy}
    (h : InSession s) (hr : base.toNat + buf.length ≤ 16777216) (hj : j < (flashPlan base buf).length)
    (hb : AwaitsBusyFor j ks busy s) (hl : ∀ k ∈ ks, belowLimit s.cfg.pollLimit k) :
    ∃ before rest awaits u v, exec (.flashData base buf) s = .next u ∧
      planOf before = (flashPlan base buf).take j ∧
      Planned before ks busy awaits { loadLen buf.length s with progress := 0, offR := 0 } v ∧
      ∀ n, Host.Core.run Sys2Proof.core (ks.sum + n) u =
        Host.Core.run Sys2Proof.core n
          (poll (.flashData base buf) rest (runTasks (.flashData base buf) rest) { v with pollR := 0 }) := by
  obtain ⟨before, st, after, h1, h2, h3⟩ := paired_split (flashTasks base buf) (paired_flashTasks base buf) j
    (by rw [planOf_flashTasks]; exact hj)
  rw [planOf_flashTasks] at h3
  have hlen : (planOf before).length = j := by rw [h3, List.length_take]; omega
  obtain ⟨awaits, v, hv, hrun⟩ := paired_reach (.flashData base buf) (.await :: stepTask st :: after) before h2
    (s := { loadLen buf.length s with progress := 0, offR := 0 }) (ks := ks) (busy := busy) h.2 (by rw [hlen]; exact hb) hl
  refine ⟨before, stepTask st :: after, awaits,
    runTasks (.flashData base buf) (flashTasks base buf) { loadLen buf.length s with progress := 0, offR := 0 }, v,
    ?_, h3, hv, ?_⟩
  · show execFlashData base buf s = _
    unfold execFlashData
    rw [runBusOp_checked _ (by simp [checkSession_active h.1, checkRange_fits hr]) h.2]
  · intro n
    rw [h1]
    rw [run_add _ _ hrun]
    rfl

end Sys2Proof.Laws
end

