-- ==== Sys2Proof/Laws/Invariant.lean ====
section
/-! SUPPORT. The parts of the machine's invariant: that a request is a host op, the offsets a sequence writes, and what the end of
an op keeps. -/

namespace Sys2Proof.Laws

open Sys2Proof.Machine Sys2Proof.Safety

/-! What a request decodes to. -/

/-- A request is never a micro-op (30_encoding.md R104). -/
theorem decodeOp_host {h : Header} {r l : List Byte} {i : Instr} (hd : decodeOp h r = .ok (i, l)) :
    isHostInstr i = true := by
  have key : ∀ f : List Byte → Instr,
      (takeData h.len r).map (fun (x : List Byte × List Byte) => (f x.1, x.2)) = .ok (i, l) → ∃ d, i = f d := by
    intro f hf
    cases ht : takeData h.len r with
    | error e =>
      rw [ht] at hf
      cases hf
    | ok p =>
      rw [ht] at hf
      cases hf
      exact ⟨_, rfl⟩
  have part : ∀ {c : Prop} [Decidable c] {a b : Except DecodeError (Instr × List Byte)},
      (if c then a else b) = .ok (i, l) → a = .ok (i, l) ∨ b = .ok (i, l) := by
    intro c _ a b hx
    split at hx
    · exact Or.inl hx
    · exact Or.inr hx
  unfold decodeOp at hd
  rcases part hd with hd | hd
  · obtain ⟨d, rfl⟩ := key _ hd
    rfl
  iterate 7
    rcases part hd with hd | hd
    · cases hd
      rfl
  iterate 2
    rcases part hd with hd | hd
    · obtain ⟨d, rfl⟩ := key _ hd
      rfl
  iterate 4
    rcases part hd with hd | hd
    · cases hd
      rfl
  cases hd

theorem decodeRequest_host {bytes l : List Byte} {i : Instr} (hd : decodeRequest bytes = .ok (i, l)) :
    isHostInstr i = true := by
  unfold decodeRequest at hd
  split at hd
  · exact decodeOp_host hd
  · cases hd

/-! The offsets a sequence writes to off_r (42_sequences.md R181, R182). -/

theorem setOff_compareTasks {base bound : Nat} {off : Count} : ∀ (fuel : Nat) (buf : List Byte) (o : Nat),
    o + buf.length ≤ bound → bound < 4294967296 → Task.setOff off ∈ compareTasks base o (cutWith 256 fuel buf) →
    off.toNat ≤ bound
  | fuel, [], o, _, _, h => by
    cases fuel <;> simp [cutWith, compareTasks] at h
  | 0, _ :: _, o, _, _, h => by simp [cutWith, compareTasks] at h
  | fuel + 1, b :: buf, o, hb, hlt, h => by
    have hl : ((b :: buf).take 256).length + ((b :: buf).drop 256).length = (b :: buf).length := by
      rw [← List.length_append, List.take_append_drop]
    have htasks : compareTasks base o (cutWith 256 (fuel + 1) (b :: buf)) =
        .compare o (BitVec.ofNat 24 (base + o)) ((b :: buf).take 256) ::
          .setOff (BitVec.ofNat 32 (o + ((b :: buf).take 256).length)) ::
            compareTasks base (o + ((b :: buf).take 256).length) (cutWith 256 fuel ((b :: buf).drop 256)) := rfl
    rw [htasks, List.mem_cons, List.mem_cons] at h
    rcases h with h | h | h
    · cases h
    · cases h
      simp only [BitVec.toNat_ofNat]
      omega
    · exact setOff_compareTasks fuel _ _ (by omega) hlt h

theorem setOff_pageTasks {base : Nat} {off : Count} : ∀ (pages : List (List Byte)) (p : Nat),
    Task.setOff off ∉ pageTasks base p pages
  | [], _, h => by simp [pageTasks] at h
  | _ :: pages, _, h => by
    rw [pageTasks, List.mem_cons, List.mem_cons] at h
    rcases h with h | h | h
    · cases h
    · cases h
    · exact setOff_pageTasks pages _ h

theorem setOff_chunkTasks {base bound : Nat} {off : Count} : ∀ (fuel : Nat) (buf : List Byte) (o : Nat),
    o + buf.length ≤ bound → bound < 4294967296 → Task.setOff off ∈ chunkTasks base o (cutWith 65536 fuel buf) →
    off.toNat ≤ bound
  | fuel, [], o, _, _, h => by
    cases fuel <;> simp [cutWith, chunkTasks] at h
  | 0, _ :: _, o, _, _, h => by simp [cutWith, chunkTasks] at h
  | fuel + 1, b :: buf, o, hb, hlt, h => by
    have hl : ((b :: buf).take 65536).length + ((b :: buf).drop 65536).length = (b :: buf).length := by
      rw [← List.length_append, List.take_append_drop]
    have htasks : chunkTasks base o (cutWith 65536 (fuel + 1) (b :: buf)) =
        .await :: .erase (BitVec.ofNat 24 (base + o)) ::
          (pageTasks base o (cut Config.pageSize ((b :: buf).take 65536)) ++
            .setOff (BitVec.ofNat 32 (o + ((b :: buf).take 65536).length)) ::
              chunkTasks base (o + ((b :: buf).take 65536).length) (cutWith 65536 fuel ((b :: buf).drop 65536))) := rfl
    rw [htasks, List.mem_cons, List.mem_cons, List.mem_append, List.mem_cons] at h
    rcases h with h | h | h | h | h
    · cases h
    · cases h
    · exact absurd h (setOff_pageTasks _ _)
    · cases h
      simp only [BitVec.toNat_ofNat]
      omega
    · exact setOff_chunkTasks fuel _ _ (by omega) hlt h

/-- off_r stays at most 2^24 (10_state.md R32). -/
theorem setOff_bound {op : Instr} {off : Count} (hp : pastTheTop op = false) (h : Task.setOff off ∈ opTasks op) :
    off.toNat ≤ 16777216 := by
  cases op <;> simp only [opTasks, List.not_mem_nil, List.mem_cons, reduceCtorEq, or_self] at h
  case flashData addr data =>
    simp only [pastTheTop, decide_eq_false_iff_not] at hp
    exact setOff_chunkTasks _ _ 0 (by omega) (by omega) h
  case verifyData addr data =>
    simp only [pastTheTop, decide_eq_false_iff_not] at hp
    rw [verifyTasks, List.mem_cons, List.mem_cons] at h
    rcases h with h | h | h
    · cases h
    · cases h
      decide
    · exact setOff_compareTasks _ _ 0 (by omega) (by omega) h

/-! The end of an op. -/

/-- The invariant after what an op that sends frames keeps (10_state.md R29, R41). -/
theorem inv_of_kept {s u : State} (hi : Inv s) (hs : s.sess ≠ .released) (hk : OpKept s u) (hse : SequenceSess s u)
    (hoff : u.offR.toNat ≤ 16777216) (hpoll : PollBound u) (hlen : u.lenR.toNat ≤ 16777216)
    (hw : ∀ op rest, u.seq = .awaiting op rest → pollsUsedUp u = false) (hq : SeqInv u) : Inv u := by
  obtain ⟨hb, hq', hf, hp, hbc, hr, hl⟩ := hi
  have husess : u.sess ≠ .released := by
    rcases hse with h | h | h | h
    · rw [h]
      exact hs
    all_goals
      rw [h]
      simp
  refine ⟨⟨fun h => absurd h husess, fun _ => ?_, ?_⟩, hq, ⟨hk.mem hf.1, hk.fbits hf.2⟩, ?_, hk.bitcnt hbc, ⟨hlen, hoff⟩,
    by rw [hk.cfg, hk.flashSize]; exact hl⟩
  · obtain ⟨h1, h2, h3⟩ := hb.2.1 hs
    refine ⟨hk.busOwner.trans h1, ⟨?_, ?_, hk.ready⟩, hk.pd h3⟩
    · rw [hk.pins, hk.cfg]
      exact h2.1
    · rw [hk.pins, hk.cfg]
      exact h2.2.1
  · rcases hse with h | h | h | h
    · rw [h]
      exact hb.2.2
    all_goals
      rw [h]
      simp
  · intro n hn
    refine ⟨hpoll n hn, fun op rest hs => ?_⟩
    have := hw op rest hs
    have hle := hpoll n hn
    rw [pollsUsedUp, hn] at this
    simp at this
    omega

/-- Ending an op keeps the invariant (60_exceptions.md R232). -/
theorem inv_finish {s : State} (hi : Inv s) (c : Code) (i : Info) (d : List Byte) : Inv (finish c i d s) := by
  obtain ⟨hb, hq', hf, hp, hbc, hr, hl⟩ := hi
  exact ⟨hb, trivial, hf, fun n hn => ⟨(hp n hn).1, fun op rest h => by cases h⟩, hbc, hr, hl⟩

theorem legal_poll {c : Cfg} (h : Config.legal c) : ∀ n, c.pollLimit = .count n → 1 ≤ n := by
  intro n hn
  have hl := h.2.2.2
  simp only [hn, Config.pollLimitLegal, decide_eq_true_eq] at hl
  omega

/-- However the tasks of an op end, the invariant holds. -/
theorem tasksEnd_inv {op : Instr} {s u t : State} {tasks before : List Task} (hop : opTasks op = before ++ tasks)
    (hpt : pastTheTop op = false) (hi : Inv s) (hs : s.sess ≠ .released) (hk : OpKept s u) (hse : SequenceSess s u)
    (hoff : u.offR.toNat ≤ 16777216) (hpoll : PollBound u) (hlen : u.lenR.toNat ≤ 16777216)
    (he : TasksEnd op tasks u t) : Inv t := by
  have husess : u.sess ≠ .released := by
    rcases hse with h | h | h | h
    · rw [h]
      exact hs
    all_goals
      rw [h]
      simp
  have base : Inv { u with seq := .portIdle } := by
    have hk' : OpKept { s with seq := .portIdle } { u with seq := .portIdle } :=
      ⟨hk.cfg, hk.pins, hk.ready, hk.busOwner, hk.lenR, hk.lastCode, hk.sessErr, hk.errInfo, rfl, hk.host, hk.out, hk.tr,
        hk.mem, hk.flashSize, hk.pd, hk.fbits, hk.bitcnt⟩
    have hi' : Inv { s with seq := .portIdle } := by
      obtain ⟨hb, hq', hf, hp, hbc, hr, hl⟩ := hi
      exact ⟨hb, trivial, hf, fun n hn => ⟨(hp n hn).1, fun op rest h => by cases h⟩, hbc, hr, hl⟩
    exact inv_of_kept hi' hs hk' hse hoff hpoll hlen (fun op rest h => by cases h) trivial
  cases he with
  | done data h =>
    rw [h]
    exact inv_finish (s := { u with seq := .portIdle }) base _ _ _
  | silent e hc hm h =>
    rw [h]
    exact inv_finish (s := { u with seq := .portIdle }) base _ _ _
  | differs e off a x hc hm h =>
    rw [h]
    exact inv_finish (s := { u with seq := .portIdle }) base _ _ _
  | waits b' rest hb hp h =>
    subst h
    obtain ⟨h1, -, h3, h4, h5, h6, h7⟩ := base
    refine ⟨h1, ⟨husess, hpt, before ++ b', by rw [hop, hb, List.append_assoc]⟩, h3,
      fun n hn => ⟨(h4 n hn).1, fun op' rest' _ => ?_⟩, h5, h6, h7⟩
    have hle := (h4 n hn).1
    rw [pollsUsedUp, show u.cfg.pollLimit = .count n from hn] at hp
    simp at hp
    show u.pollR < n
    have : u.pollR ≤ n := hle
    omega

end Sys2Proof.Laws
end

