-- ==== Sys2Proof/Laws/Micro.lean ====
section
/-! SUPPORT. The micro-ops on a held bus, whatever the levels of FL_CS and SCK are, and the trace each micro-op and each frame
leaves, whatever the pins are. -/

namespace Sys2Proof.Laws

open Sys2Proof.Machine Sys2Proof.Safety

/-! A held bus. -/

/-- The pins of a held bus (40_softspi.md's precondition). -/
theorem held_pins {s : State} (h : BusHeld s) : ∃ c m k, s.pins.flCs = .output c ∧ s.pins.mosi = .output m ∧
    s.pins.sck = .output k ∧ s.pins.miso = .input := by
  unfold BusHeld Pins.busHeld at h
  revert h
  cases s.pins.flCs <;> cases s.pins.mosi <;> cases s.pins.sck <;> cases s.pins.miso <;> simp [Pin.dir]

/-- WRITE_BIT with FL_CS at c and SCK at k: the chip gets the bit inside a frame, at a rising edge (R132; 20_memory.md R66). -/
theorem writeBit_held {s : State} {c k : Bool} (b : Bool) (h1 : s.pins.flCs = .output c) (h2 : s.pins.sck = .output k) :
    writeBit b s =
      { s with
        pins := { s.pins with mosi := .output b, sck := .output false }
        tr := (writeBitEvents b).reverse ++ s.tr
        dev := { s.dev with fbits := if c = false ∧ k = false then b :: s.dev.fbits else s.dev.fbits } } := by
  obtain ⟨cfg, ⟨p0, p1, p2, p3, p4, p5⟩, sess, owner, sh, bc, ar, lr, off, pr, lc, se, ei, pg, seq, tr, host, out, env, dev⟩ := s
  simp only at h1 h2
  subst h1 h2
  cases c <;> cases k <;> cases b <;> rfl

/-- READ_BIT with FL_CS at c, MOSI at m and SCK at k (R133; 20_memory.md R65, R66). -/
theorem readBit_held {s : State} {c m k : Bool} (h1 : s.pins.flCs = .output c) (h2 : s.pins.mosi = .output m)
    (h3 : s.pins.sck = .output k) :
    readBit s =
      let d : Device := { s.dev with fbits := if c = false ∧ k = false then m :: s.dev.fbits else s.dev.fbits }
      ((d.present s.env).1,
        { s with
          pins := { s.pins with sck := .output false }
          tr := (readBitEvents (d.present s.env).1).reverse ++ s.tr
          dev := d
          env := (d.present s.env).2 }) := by
  obtain ⟨cfg, ⟨p0, p1, p2, p3, p4, p5⟩, sess, owner, sh, bc, ar, lr, off, pr, lc, se, ei, pg, seq, tr, host, out, env, dev⟩ := s
  simp only at h1 h2 h3
  subst h1 h2 h3
  cases c <;> cases k <;> cases m <;> rfl

/-- The bits the chip gets with FL_CS at c and SCK at k: none outside a frame, and not the first where SCK is already high. -/
def heldClocks (c k : Bool) (bits : List Bool) (d : Device) : Device :=
  if c then d else clockBits (if k then bits.drop 1 else bits) d

theorem sendBits_low {c : Bool} (bits : List Bool) : ∀ {s : State}, s.pins.flCs = .output c → s.pins.sck = .output false →
    sendBits bits s =
      afterBits (mosiAfter bits s.pins.mosi) (bits.flatMap writeBitEvents) (heldClocks c false bits s.dev) s.env s := by
  induction bits with
  | nil =>
    intro s _ _
    cases c <;> rfl
  | cons b bits ih =>
    intro s h1 h2
    rw [sendBits, writeBit_held b h1 h2, ih (by exact h1) rfl]
    cases c <;> cases bits <;> simp [afterBits, mosiAfter, heldClocks, clockBits, List.getLast?_cons, h1, h2]

/-- WRITE_BIT of one bit after the other on a held bus. -/
theorem sendBits_held (b : Bool) (bits : List Bool) {c k : Bool} {s : State} (h1 : s.pins.flCs = .output c)
    (h2 : s.pins.sck = .output k) :
    sendBits (b :: bits) s =
      { s with
        pins := { s.pins with mosi := mosiAfter (b :: bits) s.pins.mosi, sck := .output false }
        tr := ((b :: bits).flatMap writeBitEvents).reverse ++ s.tr
        dev := heldClocks c k (b :: bits) s.dev } := by
  rw [sendBits, writeBit_held b h1 h2, sendBits_low (c := c) bits (by exact h1) rfl]
  cases c <;> cases k <;> cases bits <;> simp [afterBits, mosiAfter, heldClocks, clockBits, List.getLast?_cons]

theorem readBit_outcome {s : State} {c m k : Bool} (h1 : s.pins.flCs = .output c) (h2 : s.pins.mosi = .output m)
    (h3 : s.pins.sck = .output k) :
    ∃ v e, readBit s =
      (v, { s with
        pins := { s.pins with sck := .output false }
        tr := (readBitEvents v).reverse ++ s.tr
        dev := heldClocks c k [m] s.dev
        env := e }) := by
  have h := readBit_held h1 h2 h3
  cases c <;> cases k <;> exact ⟨_, _, h⟩

theorem replicate_comm {α : Type} (m : α) (l : List α) : ∀ n : Nat,
    List.replicate n m ++ m :: l = m :: (List.replicate n m ++ l)
  | 0 => rfl
  | n + 1 => by rw [List.replicate_succ, List.cons_append, replicate_comm m l n, List.cons_append]

theorem listenBits_low {c m : Bool} : ∀ (n : Nat) {s : State}, s.pins.flCs = .output c → s.pins.mosi = .output m →
    s.pins.sck = .output false →
    ∃ bits e, bits.length = n ∧ listenBits n s =
      (bits, { s with
        tr := (bits.flatMap readBitEvents).reverse ++ s.tr
        dev := heldClocks c false (List.replicate n m) s.dev
        env := e })
  | 0, s, _, _, _ => ⟨[], s.env, rfl, by cases c <;> rfl⟩
  | n + 1, s, h1, h2, h3 => by
    obtain ⟨v, e, hv⟩ := readBit_outcome h1 h2 h3
    rw [listenBits, hv]
    simp only
    obtain ⟨bits, e', hl, hr⟩ := listenBits_low n (s := { s with
      pins := { s.pins with sck := .output false }
      tr := (readBitEvents v).reverse ++ s.tr
      dev := heldClocks c false [m] s.dev
      env := e }) h1 h2 rfl
    refine ⟨v :: bits, e', by simp [hl], ?_⟩
    have hp : ({ s.pins with sck := .output false } : Pins) = s.pins := by rw [← h3]
    rw [hr, hp]
    cases c <;> simp [heldClocks, clockBits, replicate_comm, List.replicate_succ]

/-- READ_BIT one or more times on a held bus. -/
theorem listenBits_held {c m k : Bool} (n : Nat) {s : State} (h1 : s.pins.flCs = .output c) (h2 : s.pins.mosi = .output m)
    (h3 : s.pins.sck = .output k) :
    ∃ bits e, bits.length = n + 1 ∧ listenBits (n + 1) s =
      (bits, { s with
        pins := { s.pins with sck := .output false }
        tr := (bits.flatMap readBitEvents).reverse ++ s.tr
        dev := heldClocks c k (List.replicate (n + 1) m) s.dev
        env := e }) := by
  rw [listenBits]
  obtain ⟨v, e, hv⟩ := readBit_outcome h1 h2 h3
  rw [hv]
  simp only
  obtain ⟨bits, e', hl, hr⟩ := listenBits_low n (s := { s with
    pins := { s.pins with sck := .output false }
    tr := (readBitEvents v).reverse ++ s.tr
    dev := heldClocks c k [m] s.dev
    env := e }) h1 h2 rfl
  refine ⟨v :: bits, e', by simp [hl], ?_⟩
  rw [hr]
  cases c <;> cases k <;> simp [heldClocks, clockBits, replicate_comm, List.replicate_succ]

/-- READ_BYTE on a held bus: eight bits, and their byte in shreg (R135). -/
theorem readByte_held {s : State} {c m k : Bool} (h1 : s.pins.flCs = .output c) (h2 : s.pins.mosi = .output m)
    (h3 : s.pins.sck = .output k) :
    ∃ bits e, bits.length = 8 ∧ readByte s =
      withShift (byteOfList bits) 8
        { s with
          pins := { s.pins with sck := .output false }
          tr := (bits.flatMap readBitEvents).reverse ++ s.tr
          dev := heldClocks c k (List.replicate 8 m) s.dev
          env := e } := by
  obtain ⟨bits, e, hl, hr⟩ := listenBits_held 7 h1 h2 h3
  exact ⟨bits, e, hl, by rw [readByte_eq, hr]⟩

/-- The events of eight bits read are those of their byte. -/
theorem readBits_events {bits : List Bool} (h : bits.length = 8) :
    bits.flatMap readBitEvents = readByteEvents (byteOfList bits) := by
  rw [readByteEvents, (bits_of_eight h []).1]

/-! The trace. -/

theorem writeBit_tr (b : Bool) (s : State) : (writeBit b s).tr = (writeBitEvents b).reverse ++ s.tr := rfl

theorem readBit_tr (s : State) : (readBit s).2.tr = (readBitEvents (readBit s).1).reverse ++ s.tr := rfl

theorem sendBits_tr : ∀ (bits : List Bool) (s : State),
    (sendBits bits s).tr = (bits.flatMap writeBitEvents).reverse ++ s.tr
  | [], _ => rfl
  | b :: bits, s => by
    rw [sendBits, sendBits_tr bits, writeBit_tr]
    simp

theorem listenBits_tr : ∀ (n : Nat) (s : State), (listenBits n s).1.length = n ∧
    (listenBits n s).2.tr = ((listenBits n s).1.flatMap readBitEvents).reverse ++ s.tr
  | 0, _ => ⟨rfl, rfl⟩
  | n + 1, s => by
    obtain ⟨h1, h2⟩ := listenBits_tr n (readBit s).2
    refine ⟨by simp [listenBits, h1], ?_⟩
    simp only [listenBits, h2, readBit_tr]
    simp

theorem writeByte_tr (x : Byte) (s : State) : (writeByte x s).tr = (writeByteEvents x).reverse ++ s.tr := by
  rw [writeByte_eq]
  exact sendBits_tr (bitsOfByte x) s

theorem readByte_tr (s : State) : (readByte s).tr = (readByteEvents (readByte s).shreg).reverse ++ s.tr := by
  obtain ⟨h1, h2⟩ := listenBits_tr 8 s
  rw [readByte_eq]
  show (listenBits 8 s).2.tr = (readByteEvents (byteOfList (listenBits 8 s).1)).reverse ++ s.tr
  rw [h2, readBits_events h1]

theorem sendBytes_tr : ∀ (out : List Byte) (s : State),
    (sendBytes out s).tr = (out.flatMap writeByteEvents).reverse ++ s.tr
  | [], _ => rfl
  | x :: out, s => by
    rw [sendBytes, sendBytes_tr out, writeByte_tr]
    simp

theorem receiveBytes_tr : ∀ (n : Nat) (s : State), (receiveBytes n s).1.length = n ∧
    (receiveBytes n s).2.tr = ((receiveBytes n s).1.flatMap readByteEvents).reverse ++ s.tr
  | 0, _ => ⟨rfl, rfl⟩
  | n + 1, s => by
    obtain ⟨h1, h2⟩ := receiveBytes_tr n (readByte s)
    refine ⟨by simp [receiveBytes, h1], ?_⟩
    simp only [receiveBytes, h2, readByte_tr s]
    simp

/-- The trace of FRAME, whatever the pins are (R136). -/
theorem frame_tr (out : List Byte) (n : Nat) (s : State) : (frame out n s).1.length = n ∧
    (frame out n s).2.tr = (frameEvents out (frame out n s).1).reverse ++ s.tr := by
  obtain ⟨h1, h2⟩ := receiveBytes_tr n (sendBytes out (csAssert s))
  refine ⟨h1, ?_⟩
  show .set .flCs true :: (receiveBytes n (sendBytes out (csAssert s))).2.tr =
    (frameEvents out (receiveBytes n (sendBytes out (csAssert s))).1).reverse ++ s.tr
  rw [h2, sendBytes_tr]
  simp [frameEvents, csAssert, drive]

/-- A count over the events of a list of bytes, each of which has the same count. -/
theorem countP_flatMap_const (xs : List Byte) (f : Byte → List Event) (k : Nat) (p : Event → Bool)
    (h : ∀ x, (f x).countP p = k) : (xs.flatMap f).countP p = k * xs.length := by
  induction xs with
  | nil => simp
  | cons x xs ih =>
    simp [h, ih, Nat.mul_succ]
    omega

/-- A frame is one frame (30_encoding.md R100). -/
theorem framesSent_frame (out ins : List Byte) : framesSent (frameEvents out ins) = 1 := by
  have hw := countP_flatMap_const out writeByteEvents 0 (· == Event.set .flCs false) fun x => by revert x; decide
  have hr := countP_flatMap_const ins readByteEvents 0 (· == Event.set .flCs false) fun x => by revert x; decide
  simp only [framesSent, List.count, frameEvents, List.countP_cons, List.countP_append, hw, hr]
  simp

theorem framesSent_append (a b : List Event) : framesSent (a ++ b) = framesSent a + framesSent b := List.count_append

theorem framesSent_reverse (a : List Event) : framesSent a.reverse = framesSent a := by simp [framesSent]

end Sys2Proof.Laws
end

