-- ==== Sys2Proof/Laws/PerInstr.lean ====
section
/-! SUPPORT. Laws per instruction: the shape of each encoding (30_encoding.md R104 to R106). -/

namespace Sys2Proof.Laws

/-- The data bytes an instruction's request carries (30_encoding.md R105). -/
def dataBytes : Instr → List Byte
  | .pp _ data | .flashData _ data | .verifyData _ data => data
  | .read _ _ | .wrdi | .rdsr | .wren | .be _ | .wake | .awaitReady | .readArbitrary _ _ | .status | .sessionStart
  | .sessionEnd | .csAssert | .csDeassert | .writeBit _ | .readBit | .writeByte _ | .readByte => []

/-- A host op is encoded as an op byte of R104 and 8 + |data| bytes in all, with data only behind the three op bytes that carry
it; a micro-op as a code below 6. -/
def EncodingShape.Statement (i : Instr) : Prop :=
  match encode i with
  | .request [] => False
  | .request (op :: rest) =>
    isHostOp op = true ∧ rest.length = 7 + (dataBytes i).length ∧ (carriesData op = false → dataBytes i = [])
  | .micro code _ => code.toNat < 6

namespace EncodingShape

theorem of_micro {i : Instr} {code : BitVec 4} {operand : Byte} (h : encode i = .micro code operand)
    (hc : code.toNat < 6) : Statement i := by
  rw [Statement, h]
  exact hc

theorem pp (addr : Addr) (data : List Byte) : Statement (.pp addr data) := by
  refine ⟨by decide, ?_, by intro h; cases h⟩
  simp [addrBytes, countBytes, dataBytes]; omega

theorem read (addr : Addr) (len : Count) : Statement (.read addr len) := ⟨by decide, rfl, fun _ => rfl⟩

theorem wrdi : Statement .wrdi := ⟨by decide, rfl, fun _ => rfl⟩

theorem rdsr : Statement .rdsr := ⟨by decide, rfl, fun _ => rfl⟩

theorem wren : Statement .wren := ⟨by decide, rfl, fun _ => rfl⟩

theorem be (addr : Addr) : Statement (.be addr) := ⟨by decide, rfl, fun _ => rfl⟩

theorem wake : Statement .wake := ⟨by decide, rfl, fun _ => rfl⟩

theorem awaitReady : Statement .awaitReady := ⟨by decide, rfl, fun _ => rfl⟩

theorem flashData (addr : Addr) (data : List Byte) : Statement (.flashData addr data) := by
  refine ⟨by decide, ?_, by intro h; cases h⟩
  simp [addrBytes, countBytes, dataBytes]; omega

theorem verifyData (addr : Addr) (data : List Byte) : Statement (.verifyData addr data) := by
  refine ⟨by decide, ?_, by intro h; cases h⟩
  simp [addrBytes, countBytes, dataBytes]; omega

theorem readArbitrary (addr : Addr) (len : Count) : Statement (.readArbitrary addr len) := ⟨by decide, rfl, fun _ => rfl⟩

theorem status : Statement .status := ⟨by decide, rfl, fun _ => rfl⟩

theorem sessionStart : Statement .sessionStart := ⟨by decide, rfl, fun _ => rfl⟩

theorem sessionEnd : Statement .sessionEnd := ⟨by decide, rfl, fun _ => rfl⟩

theorem csAssert : Statement .csAssert := of_micro rfl (by decide)

theorem csDeassert : Statement .csDeassert := of_micro rfl (by decide)

theorem writeBit (b : Bool) : Statement (.writeBit b) := of_micro rfl (by decide)

theorem readBit : Statement .readBit := of_micro rfl (by decide)

theorem writeByte (x : Byte) : Statement (.writeByte x) := of_micro rfl (by decide)

theorem readByte : Statement .readByte := of_micro rfl (by decide)

end EncodingShape

end Sys2Proof.Laws
end

