-- ==== Sys2Proof/Laws/Sequencer.lean ====
section
/-! SUPPORT. The sequencer bit by bit (10_state.md R42): a byte is a run of its bits, a frame a run of its bytes, and the tasks
of a sequence a run of their frames. -/

namespace Sys2Proof.Laws

open Sys2Proof.Machine Sys2Proof.Safety

/-! Runs of the sequencer. -/

theorem sequencer_run_add : ∀ (j k : Nat) {s t : State}, Host.Core.run sequencer j s = .next t →
    Host.Core.run sequencer (j + k) s = Host.Core.run sequencer k t
  | 0, k, s, t, h => by
    cases h
    rw [Nat.zero_add]
  | j + 1, k, s, t, h => by
    obtain ⟨u, hu, hr⟩ := core_run_succ_next sequencer h
    rw [show j + 1 + k = (j + k) + 1 by omega, core_run_succ sequencer _ hu]
    exact sequencer_run_add j k hr

/-- The sequencer gets from s to t in any number of its steps, none among them. -/
def Runs (s t : State) : Prop := ∃ n, Host.Core.run sequencer n s = .next t

theorem Runs.refl (s : State) : Runs s s := ⟨0, rfl⟩

theorem Runs.trans {s t u : State} (h : Runs s t) (h' : Runs t u) : Runs s u := by
  obtain ⟨j, hj⟩ := h
  obtain ⟨k, hk⟩ := h'
  exact ⟨j + k, (sequencer_run_add j k hj).trans hk⟩

theorem Runs.head {s t u : State} (h : sequencerStep s = .next t) (h' : Runs t u) : Runs s u := by
  obtain ⟨n, hn⟩ := h'
  exact ⟨n + 1, (core_run_succ sequencer n h).trans hn⟩

theorem sequencerReaches_of {s t u : State} (h : sequencerStep s = .next t) (h' : Runs t u) : SequencerReaches s u := by
  obtain ⟨n, hn⟩ := h'
  exact ⟨n, (core_run_succ sequencer n h).trans hn⟩

/-! The position is overwritten at every step of a frame and at the end of an op. -/

/-- The state at another sequencer position. -/
def withSeq (q : Seq) (s : State) : State := { s with seq := q }

theorem moveBit_withSeq (f : FrameRun) (k : Nat) (q : Seq) (s : State) :
    moveBit f k (withSeq q s) = withSeq q (moveBit f k s) := by
  unfold moveBit
  split <;> rfl

theorem enterByte_withSeq (f : FrameRun) (k : Nat) (q : Seq) (s : State) : enterByte f k (withSeq q s) = enterByte f k s := by
  unfold enterByte
  split
  · rfl
  · split <;> rfl

theorem proceed_withSeq (op : Instr) (q : Seq) : ∀ (tasks : List Task) (s : State),
    proceed op tasks (withSeq q s) = proceed op tasks s
  | [], _ => rfl
  | .await :: _, _ => rfl
  | .erase _ :: _, _ => rfl
  | .program _ _ :: _, _ => rfl
  | .setOff off :: tasks, s => proceed_withSeq op q tasks { s with offR := off }
  | .compare _ _ _ :: _, _ => rfl
  | .returnStatus :: _, _ => rfl

theorem endFrame_withSeq (op : Instr) (after : FrameEnd) (got : List Byte) (q : Seq) (s : State) :
    endFrame op after got (withSeq q s) = endFrame op after got s := by
  cases after with
  | wake => rfl
  | reply => rfl
  | program a page grow rest => rfl
  | programmed grow rest =>
    exact proceed_withSeq op q rest
      { s with sess := .busyProgramming, progress := s.progress + BitVec.ofNat 32 grow }
  | erase a rest => rfl
  | erased rest => exact proceed_withSeq op q rest { s with sess := .busyErasing }
  | polled rest =>
    have h := proceed_withSeq op q rest { s with pollR := s.pollR + 1, sess := .idle }
    show (if busyFlag s.shreg then pollAgain op rest (withSeq q { s with pollR := s.pollR + 1 })
      else proceed op rest (withSeq q { s with pollR := s.pollR + 1, sess := .idle })) = _
    rw [h]
    rfl
  | compared off expected rest =>
    have h := proceed_withSeq op q rest s
    show compareChunk off expected got (proceed op rest) (withSeq q s) = _
    unfold compareChunk
    rw [h]
    rfl

/-! A bit. -/

theorem busHeld_mosi {p : Pins} (h : p.busHeld = true) (b : Bool) : ({ p with mosi := .output b } : Pins).busHeld = true := by
  simp only [Pins.busHeld, Pin.dir, Bool.and_eq_true, decide_eq_true_eq] at h ⊢
  simp_all

theorem busHeld_sck {p : Pins} (h : p.busHeld = true) (b : Bool) : ({ p with sck := .output b } : Pins).busHeld = true := by
  simp only [Pins.busHeld, Pin.dir, Bool.and_eq_true, decide_eq_true_eq] at h ⊢
  simp_all

theorem busHeld_flCs {p : Pins} (h : p.busHeld = true) (b : Bool) : ({ p with flCs := .output b } : Pins).busHeld = true := by
  simp only [Pins.busHeld, Pin.dir, Bool.and_eq_true, decide_eq_true_eq] at h ⊢
  simp_all

theorem shiftOut_held {s : State} (h : BusHeld s) : BusHeld (shiftOut s) :=
  busHeld_sck (busHeld_sck (busHeld_mosi h _) true) false

theorem shiftIn_held {s : State} (h : BusHeld s) : BusHeld (shiftIn s) := busHeld_sck (busHeld_sck h true) false

/-- One bit sent or received: the bus stays held, the position stands, and bitcnt counts it (40_softspi.md R134, R135). -/
theorem moveBit_spec {s : State} (h : BusHeld s) (f : FrameRun) (k : Nat) :
    BusHeld (moveBit f k s) ∧ (moveBit f k s).seq = s.seq ∧ (moveBit f k s).bitcnt = s.bitcnt + 1 := by
  unfold moveBit
  split
  · exact ⟨shiftOut_held h, rfl, rfl⟩
  · exact ⟨shiftIn_held h, rfl, rfl⟩

theorem loop_withSeq {body : State → State} (hb : ∀ q s, body (withSeq q s) = withSeq q (body s)) (q : Seq) :
    ∀ (n : Nat) (s : State), loop body n (withSeq q s) = withSeq q (loop body n s)
  | 0, _ => rfl
  | n + 1, s => by rw [loop, hb, loop_withSeq hb q n]; rfl

theorem advance_held {s : State} (h : BusHeld s) (f : FrameRun) : advance f s = .next (moveOn f s) := if_pos h

theorem sequencerStep_inFrame {s : State} {f : FrameRun} (hs : s.seq = .inFrame f) : sequencerStep s = advance f s := by
  simp [sequencerStep, fetch, hs]

/-- A step inside a byte that is not its last bit. -/
theorem step_bit {s : State} {f : FrameRun} {k : Nat} (hq : s.seq = .inFrame f) (hs : f.spot = .byte k) (h : BusHeld s)
    (hb : s.bitcnt < 7) : sequencerStep s = .next (moveBit f k s) := by
  have hc := (moveBit_spec h f k).2.2
  rw [sequencerStep_inFrame hq, advance_held h, moveOn, hs]
  simp only
  rw [if_pos (by omega)]

/-- The step of a byte's last bit: the next byte is entered. -/
theorem step_lastBit {s : State} {f : FrameRun} {k : Nat} (hq : s.seq = .inFrame f) (hs : f.spot = .byte k) (h : BusHeld s)
    (hb : s.bitcnt = 7) :
    sequencerStep s = .next (enterByte (collect f k (moveBit f k s).shreg) (k + 1) (moveBit f k s)) := by
  have hc := (moveBit_spec h f k).2.2
  rw [sequencerStep_inFrame hq, advance_held h, moveOn, hs]
  simp only
  rw [if_neg (by omega)]

/-- The bits left of a byte. -/
theorem byte_runs {f : FrameRun} {k : Nat} (hs : f.spot = .byte k) : ∀ (m : Nat) {s : State}, s.seq = .inFrame f → BusHeld s →
    s.bitcnt + m + 1 = 8 →
    Runs s (enterByte (collect f k (loop (moveBit f k) (m + 1) s).shreg) (k + 1) (loop (moveBit f k) (m + 1) s)) ∧
      BusHeld (loop (moveBit f k) (m + 1) s)
  | 0, s, hq, h, hb => ⟨.head (step_lastBit hq hs h (by omega)) (.refl _), (moveBit_spec h f k).1⟩
  | m + 1, s, hq, h, hb => by
    obtain ⟨h1, h2, h3⟩ := moveBit_spec h f k
    obtain ⟨hr, hh⟩ := byte_runs hs m (h2.trans hq) h1 (by omega)
    exact ⟨.head (step_bit hq hs h (by omega)) hr, hh⟩

/-- What the frame's coming to byte k does: no event and no pin, the next place, and shreg and bitcnt loaded for a byte. -/
theorem enterByte_spec (f : FrameRun) (k : Nat) (s : State) :
    (enterByte f k s).tr = s.tr ∧ (enterByte f k s).pins = s.pins ∧
      (enterByte f k s).seq = .inFrame { f with spot := if k < f.out.length + f.nin then .byte k else .deassert } ∧
      (k < f.out.length + f.nin → (enterByte f k s).bitcnt = 0 ∧ (enterByte f k s).shreg = f.out.getD k 0) := by
  unfold enterByte
  split
  · rename_i x hx
    have hk : k < f.out.length := (List.getElem?_eq_some_iff.mp hx).1
    refine ⟨rfl, rfl, ?_, fun _ => ⟨rfl, ?_⟩⟩
    · rw [if_pos (by omega)]
    · simp [List.getD, hx]
  · rename_i hx
    split
    · refine ⟨rfl, rfl, rfl, fun _ => ⟨rfl, ?_⟩⟩
      simp [List.getD, hx]
    · rename_i hk
      exact ⟨rfl, rfl, rfl, fun h => absurd h hk⟩

/-- The state t stands where an op comes to between frames: at the start of its next frame or at its next poll, nothing
answered, or at PORT_IDLE with one response more (10_state.md R42). -/
def Between (op : Instr) (s t : State) : Prop :=
  (∃ out nin after, t.seq = atFrame op out nin after ∧ t.out = s.out) ∨
    (∃ rest, t.seq = .awaiting op rest ∧ t.out = s.out) ∨ ∃ r, t.seq = .portIdle ∧ t.out = r :: s.out

/-- Going on with tasks makes no event and drives no pin, up to the next frame or the op's end. -/
theorem proceed_spec (op : Instr) : ∀ (tasks : List Task) {s u : State}, u.tr = s.tr → u.pins = s.pins → u.out = s.out →
    (proceed op tasks u).tr = s.tr ∧ (proceed op tasks u).pins = s.pins ∧ Between op s (proceed op tasks u)
  | [], _, _, h1, h2, h3 => ⟨h1, h2, .inr (.inr ⟨_, rfl, congrArg _ h3⟩)⟩
  | .await :: _, _, _, h1, h2, h3 => ⟨h1, h2, .inl ⟨_, _, _, rfl, h3⟩⟩
  | .erase _ :: _, _, _, h1, h2, h3 => ⟨h1, h2, .inl ⟨_, _, _, rfl, h3⟩⟩
  | .program _ _ :: _, _, _, h1, h2, h3 => ⟨h1, h2, .inl ⟨_, _, _, rfl, h3⟩⟩
  | .setOff off :: tasks, _, u, h1, h2, h3 => proceed_spec op tasks (u := { u with offR := off }) h1 h2 h3
  | .compare _ _ _ :: _, _, _, h1, h2, h3 => ⟨h1, h2, .inl ⟨_, _, _, rfl, h3⟩⟩
  | .returnStatus :: _, _, _, h1, h2, h3 => ⟨h1, h2, .inr (.inr ⟨_, rfl, congrArg _ h3⟩)⟩

/-- What follows a frame makes no event and drives no pin. -/
theorem endFrame_spec (op : Instr) (after : FrameEnd) (got : List Byte) (s : State) :
    (endFrame op after got s).tr = s.tr ∧ (endFrame op after got s).pins = s.pins ∧
      Between op s (endFrame op after got s) := by
  cases after with
  | wake => exact ⟨rfl, rfl, .inr (.inr ⟨_, rfl, rfl⟩)⟩
  | reply => exact ⟨rfl, rfl, .inr (.inr ⟨_, rfl, rfl⟩)⟩
  | program a page grow rest => exact ⟨rfl, rfl, .inl ⟨_, _, _, rfl, rfl⟩⟩
  | programmed grow rest => exact proceed_spec op rest rfl rfl rfl
  | erase a rest => exact ⟨rfl, rfl, .inl ⟨_, _, _, rfl, rfl⟩⟩
  | erased rest => exact proceed_spec op rest rfl rfl rfl
  | polled rest =>
    unfold endFrame
    simp only
    split
    · unfold pollAgain
      split
      · exact ⟨rfl, rfl, .inr (.inr ⟨_, rfl, rfl⟩)⟩
      · exact ⟨rfl, rfl, .inr (.inl ⟨_, rfl, rfl⟩)⟩
    · exact proceed_spec op rest rfl rfl rfl
  | compared off expected rest =>
    unfold endFrame compareChunk
    simp only
    split
    · exact ⟨rfl, rfl, .inr (.inr ⟨_, rfl, rfl⟩)⟩
    · exact proceed_spec op rest rfl rfl rfl

/-! The bytes of a frame. -/

theorem moveBit_sends {f : FrameRun} {k : Nat} (h : k < f.out.length) : moveBit f k = shiftOut := by
  funext s
  rw [moveBit, if_pos h]

theorem moveBit_receives {f : FrameRun} {k : Nat} (h : ¬k < f.out.length) : moveBit f k = shiftIn := by
  funext s
  rw [moveBit, if_neg h]

/-- The position at byte k. -/
def atByte (f : FrameRun) (k : Nat) : Seq := .inFrame { f with spot := .byte k }

/-- A byte to be sent, and then the next place of the frame (40_softspi.md R134, R136). -/
theorem sendByte_runs {f : FrameRun} {pre xs : List Byte} {x : Byte} (hf : f.out = pre ++ x :: xs) {s : State}
    (h : BusHeld s) :
    Runs (enterByte f pre.length s) (enterByte { f with spot := .byte pre.length } (pre.length + 1) (writeByte x s)) ∧
      BusHeld (writeByte x s) := by
  have hget : f.out[pre.length]? = some x := by rw [hf]; simp
  have hlt : pre.length < f.out.length := by rw [hf]; simp
  have hin : enterByte f pre.length s = withSeq (atByte f pre.length) { s with shreg := x, bitcnt := 0 } := by
    rw [enterByte, hget]
    rfl
  have hm : moveBit { f with spot := .byte pre.length } pre.length = shiftOut := moveBit_sends hlt
  have hc : ∀ y, collect { f with spot := .byte pre.length } pre.length y = { f with spot := .byte pre.length } := fun y =>
    if_pos hlt
  obtain ⟨hr, hh⟩ := byte_runs (f := { f with spot := .byte pre.length }) (k := pre.length) rfl 7
    (s := withSeq (atByte f pre.length) { s with shreg := x, bitcnt := 0 }) rfl h rfl
  rw [hm, hc, loop_withSeq (fun _ _ => rfl), enterByte_withSeq] at hr
  rw [hm, loop_withSeq (fun _ _ => rfl)] at hh
  rw [hin]
  exact ⟨hr, hh⟩

/-- A byte to be received, which joins those received (40_softspi.md R135, R136). -/
theorem receiveByte_runs {f : FrameRun} {k : Nat} (h1 : f.out.length ≤ k) (h2 : k < f.out.length + f.nin) {s : State}
    (h : BusHeld s) :
    Runs (enterByte f k s)
      (enterByte { f with spot := .byte k, got := f.got ++ [(readByte s).shreg] } (k + 1) (readByte s)) ∧
      BusHeld (readByte s) := by
  have hin : enterByte f k s = withSeq (atByte f k) { s with shreg := 0, bitcnt := 0 } := by
    rw [enterByte, List.getElem?_eq_none h1]
    exact if_pos h2
  have hm : moveBit { f with spot := .byte k } k = shiftIn := moveBit_receives (Nat.not_lt.mpr h1)
  have hc : ∀ y, collect { f with spot := .byte k } k y = { f with spot := .byte k, got := f.got ++ [y] } := fun y =>
    if_neg (Nat.not_lt.mpr h1)
  obtain ⟨hr, hh⟩ := byte_runs (f := { f with spot := .byte k }) (k := k) rfl 7
    (s := withSeq (atByte f k) { s with shreg := 0, bitcnt := 0 }) rfl h rfl
  rw [hm, hc, loop_withSeq (fun _ _ => rfl), enterByte_withSeq] at hr
  rw [hm, loop_withSeq (fun _ _ => rfl)] at hh
  rw [hin]
  exact ⟨hr, hh⟩

theorem enterByte_spot (f : FrameRun) (sp : Spot) (k : Nat) (s : State) :
    enterByte { f with spot := sp } k s = enterByte f k s := rfl

/-- The bytes still to be sent. -/
theorem sendBytes_runs {f : FrameRun} : ∀ (xs pre : List Byte), f.out = pre ++ xs → ∀ {s : State}, BusHeld s →
    Runs (enterByte f pre.length s) (enterByte f f.out.length (sendBytes xs s)) ∧ BusHeld (sendBytes xs s)
  | [], pre, hf, s, h => by
    rw [hf, List.append_nil]
    exact ⟨.refl _, h⟩
  | x :: xs, pre, hf, s, h => by
    obtain ⟨h1, h2⟩ := sendByte_runs hf h
    obtain ⟨h3, h4⟩ := sendBytes_runs xs (pre ++ [x]) (by rw [hf]; simp) h2
    rw [List.length_append, List.length_singleton] at h3
    rw [enterByte_spot] at h1
    exact ⟨h1.trans h3, h4⟩

/-- The bytes still to be received. -/
theorem receiveBytes_runs : ∀ (m : Nat) {f : FrameRun} {k : Nat}, f.out.length ≤ k → k + m = f.out.length + f.nin →
    ∀ {s : State}, BusHeld s →
    Runs (enterByte f k s)
      (enterByte { f with got := f.got ++ (receiveBytes m s).1 } (f.out.length + f.nin) (receiveBytes m s).2) ∧
      BusHeld (receiveBytes m s).2
  | 0, f, k, _, hk, s, h => by
    obtain rfl : k = f.out.length + f.nin := by omega
    rw [receiveBytes, List.append_nil]
    exact ⟨.refl _, h⟩
  | m + 1, f, k, h1, hk, s, h => by
    obtain ⟨h2, h3⟩ := receiveByte_runs h1 (by omega) h
    obtain ⟨h4, h5⟩ := receiveBytes_runs m (f := { f with got := f.got ++ [(readByte s).shreg] }) (k := k + 1)
      (by show f.out.length ≤ k + 1; omega) (by show k + 1 + m = f.out.length + f.nin; omega) h3
    refine ⟨?_, h5⟩
    have h6 := h2.trans h4
    rw [List.append_assoc] at h6
    exact h6

/-- A whole frame, and then what follows it (40_softspi.md R136). -/
theorem frame_runs (op : Instr) (out : List Byte) (nin : Nat) (after : FrameEnd) {s : State} (h : BusHeld s) :
    Runs (beginFrame op out nin after s) (endFrame op after (frame out nin s).1 (frame out nin s).2) := by
  generalize hf : ({ op := op, out := out, nin := nin, spot := .assert, got := [], after := after } : FrameRun) = f
  have hb : beginFrame op out nin after s = withSeq (.inFrame f) s := by rw [← hf]; rfl
  have hspot : f.spot = .assert := by rw [← hf]
  have hout : f.out = out := by rw [← hf]
  have hnin : f.nin = nin := by rw [← hf]
  have hgot : f.got = [] := by rw [← hf]
  have hop : f.op = op := by rw [← hf]
  have hafter : f.after = after := by rw [← hf]
  have hheld : BusHeld (csAssert s) := busHeld_flCs h false
  have hfirst : sequencerStep (withSeq (.inFrame f) s) = .next (enterByte f 0 (csAssert s)) := by
    have hc : csAssert (withSeq (.inFrame f) s) = withSeq (.inFrame f) (csAssert s) := rfl
    rw [sequencerStep_inFrame rfl, advance_held (s := withSeq (.inFrame f) s) h, moveOn, hspot]
    simp only
    rw [hc, enterByte_withSeq]
  obtain ⟨h1, h2⟩ := sendBytes_runs (f := f) out [] (by rw [hout]; rfl) hheld
  obtain ⟨h3, h4⟩ := receiveBytes_runs nin (f := f) (k := f.out.length) (Nat.le_refl _) (by rw [hnin]) h2
  generalize hr : receiveBytes nin (sendBytes out (csAssert s)) = r at h3 h4
  have hend : enterByte { f with got := f.got ++ r.1 } (f.out.length + f.nin) r.2 =
      withSeq (.inFrame { f with got := f.got ++ r.1, spot := .deassert }) r.2 := by
    rw [enterByte, List.getElem?_eq_none (by simp)]
    exact if_neg (Nat.lt_irrefl _)
  have hlast : sequencerStep (withSeq (.inFrame { f with got := f.got ++ r.1, spot := .deassert }) r.2) =
      .next (endFrame op after r.1 (csDeassert r.2)) := by
    have hc : ∀ q, csDeassert (withSeq q r.2) = withSeq q (csDeassert r.2) := fun _ => rfl
    rw [sequencerStep_inFrame rfl,
      advance_held (s := withSeq (.inFrame { f with got := f.got ++ r.1, spot := .deassert }) r.2) h4, moveOn]
    simp only
    rw [hc, endFrame_withSeq, hgot, List.nil_append, hop, hafter]
  have hframe : frame out nin s = (r.1, csDeassert r.2) := by rw [frame, hr]
  rw [hb, hframe]
  rw [hend] at h3
  exact .head hfirst (h1.trans (h3.trans (.head hlast (.refl _))))

/-! The tasks of a sequence. -/

theorem held_of_ready {s : State} (h : s.pins.busReady = true) : BusHeld s := by
  unfold Pins.busReady at h
  simp only [Bool.and_eq_true] at h
  exact h.1.1

/-- The frames of a PP, and then what follows it (41_commands.md R155). -/
theorem program_runs (op : Instr) (a : Addr) (page : List Byte) (grow : Nat) (rest : List Task) {s : State}
    (h : s.pins.busReady = true) :
    Runs (beginFrame op [0x06] 0 (.program a page grow rest) s)
      (proceed op rest { ppCore a page s with progress := (ppCore a page s).progress + BitVec.ofNat 32 grow }) := by
  have h1 := frame_runs op [0x06] 0 (.program a page grow rest) (held_of_ready h)
  have hk := frame_kept h (out := [0x06]) rfl 0
  have h2 := frame_runs op (addressed 0x02 a ++ page) 0 (.programmed grow rest) (held_of_ready hk.ready)
  exact h1.trans h2

/-- The frames of a BE, and then what follows it (41_commands.md R156). -/
theorem erase_runs (op : Instr) (a : Addr) (rest : List Task) {s : State} (h : s.pins.busReady = true) :
    Runs (beginFrame op [0x06] 0 (.erase a rest) s) (proceed op rest (beCore a s)) := by
  have h1 := frame_runs op [0x06] 0 (.erase a rest) (held_of_ready h)
  have hk := frame_kept h (out := [0x06]) rfl 0
  have h2 := frame_runs op (addressed 0xD8 a) 0 (.erased rest) (held_of_ready hk.ready)
  exact h1.trans h2

/-- A status poll, and then what follows it (42_sequences.md R180). -/
theorem poll_runs (op : Instr) (rest : List Task)
    (ih : ∀ {v : State}, v.pins.busReady = true → Runs (proceed op rest v) (runTasks op rest v)) {s : State}
    (h : s.pins.busReady = true) :
    Runs (beginFrame op [0x05] 1 (.polled rest) s) (poll op rest (runTasks op rest) s) := by
  have h1 := frame_runs op [0x05] 1 (.polled rest) (held_of_ready h)
  have hk := frame_kept h (out := [0x05]) rfl 1
  refine h1.trans ?_
  show Runs (if busyFlag (frame [0x05] 1 s).2.shreg then _ else _) (if busyFlag (rdsrCore s).shreg then _ else _)
  rw [rdsrCore]
  split
  · exact .refl _
  · exact ih hk.ready

/-- A list of tasks, from its start or from an await of its own, is a run of its frames (10_state.md R42). -/
theorem tasks_run (op : Instr) : ∀ (tasks : List Task) {s : State}, s.pins.busReady = true →
    Runs (proceed op tasks s) (runTasks op tasks s)
  | [], s, _ => .refl _
  | .await :: rest, s, h => poll_runs op rest (tasks_run op rest) (s := { s with pollR := 0 }) h
  | .erase a :: rest, s, h => by
    have hk := beCore_kept (s := loadAddr a s) h a
    exact (erase_runs op a rest (s := loadAddr a s) h).trans (tasks_run op rest hk.ready)
  | .program a page :: rest, s, h => by
    have hk := ppCore_kept (s := loadAddr a s) h a page
    exact (program_runs op a page page.length rest (s := loadAddr a s) h).trans (tasks_run op rest hk.ready)
  | .setOff off :: rest, s, h => tasks_run op rest (s := { s with offR := off }) h
  | .compare off a expected :: rest, s, h => by
    have h1 := frame_runs op (addressed 0x03 a) expected.length (.compared off expected rest) (s := loadAddr a s)
      (held_of_ready h)
    have hk := frame_kept (s := loadAddr a s) h (isWholeCommand_read a) expected.length
    refine h1.trans ?_
    show Runs (compareChunk off expected _ (proceed op rest) _) (compareChunk off expected _ (runTasks op rest) _)
    unfold compareChunk
    rw [readCore]
    split
    · exact .refl _
    · exact tasks_run op rest hk.ready
  | .returnStatus :: _, s, _ => .refl _

end Sys2Proof.Laws
end

