-- ==== Sys2Proof/Laws/Verify.lean ====
section
/-! SUPPORT. The chunk loop of VERIFY_DATA (42_sequences.md R182) on a chip that is ready: the READ frames it sends, and the
first difference it finds. -/

namespace Sys2Proof.Laws

open Sys2Proof.Machine Sys2Proof.Safety

/-! The first difference of two lists. -/

theorem firstDifference_self : ∀ xs : List Byte, firstDifference xs xs = none
  | [] => rfl
  | x :: xs => by simp [firstDifference, firstDifference_self xs]

theorem firstDifference_append : ∀ (r x r' x' : List Byte), r.length = x.length →
    firstDifference (r ++ r') (x ++ x') =
      match firstDifference r x with
      | some i => some i
      | none => (firstDifference r' x').map (· + x.length)
  | [], [], r', x', _ => by
    show firstDifference r' x' = (firstDifference r' x').map (· + 0)
    cases firstDifference r' x' <;> rfl
  | a :: r, b :: x, r', x', h => by
    have hl : r.length = x.length := by simpa using h
    by_cases hab : a = b
    · simp only [List.cons_append, firstDifference, hab, if_true, firstDifference_append r x r' x' hl]
      cases firstDifference r x with
      | some i => rfl
      | none => cases firstDifference r' x' with
        | none => rfl
        | some i => simp only [Option.map_some, List.length_cons]; rfl
    · simp [firstDifference, hab]
  | [], _ :: _, _, _, h => by simp at h
  | _ :: _, [], _, _, h => by simp at h

/-- The first difference is a difference, and every element before it agrees (42_sequences.md R182). -/
theorem firstDifference_some : ∀ {r x : List Byte} {i : Nat}, r.length = x.length → firstDifference r x = some i →
    i < x.length ∧ r.getD i 0 ≠ x.getD i 0 ∧ ∀ j, j < i → r.getD j 0 = x.getD j 0
  | [], [], i, _, h => by simp [firstDifference] at h
  | a :: r, b :: x, i, hl, h => by
    by_cases hab : a = b
    · simp only [firstDifference, hab, if_true, Option.map_eq_some_iff] at h
      obtain ⟨k, hk, rfl⟩ := h
      obtain ⟨h1, h2, h3⟩ := firstDifference_some (by simpa using hl) hk
      refine ⟨by simpa using h1, by simpa using h2, fun j hj => ?_⟩
      cases j with
      | zero => simpa using hab
      | succ j => simpa using h3 j (by omega)
    · simp only [firstDifference, hab, if_false, Option.some.injEq] at h
      subst h
      exact ⟨by simp, by simpa using hab, fun j hj => by omega⟩
  | [], _ :: _, _, h, _ => by simp at h
  | _ :: _, [], _, h, _ => by simp at h

/-- Where the first difference is: the place that differs while every one before it agrees. -/
theorem firstDifference_eq : ∀ {r x : List Byte} {i : Nat}, r.length = x.length → i < x.length → r.getD i 0 ≠ x.getD i 0 →
    (∀ j, j < i → r.getD j 0 = x.getD j 0) → firstDifference r x = some i := by
  intro r x i hl hi hne hbefore
  cases h : firstDifference r x with
  | none =>
    exfalso
    have hself : ∀ {r x : List Byte}, r.length = x.length → firstDifference r x = none → r = x := by
      intro r
      induction r with
      | nil => intro x hl _; exact (List.length_eq_zero_iff.mp hl.symm).symm
      | cons a r ih =>
        intro x hl hn
        cases x with
        | nil => simp at hl
        | cons b x =>
          by_cases hab : a = b
          · simp only [firstDifference, hab, if_true, Option.map_eq_none_iff] at hn
            rw [hab, ih (by simpa using hl) hn]
          · simp [firstDifference, hab] at hn
    exact hne (by rw [hself hl h])
  | some k =>
    obtain ⟨h1, h2, h3⟩ := firstDifference_some hl h
    rcases Nat.lt_trichotomy k i with hk | hk | hk
    · exact absurd (hbefore k hk) h2
    · rw [hk]
    · exact absurd (h3 i hk) hne

/-! The chunk loop. -/

/-- The bytes of the flash from address b on. -/
def memBytes (m : Memory) (b n : Nat) : List Byte := (List.range n).map fun i => m.read (b + i)

@[simp] theorem memBytes_length (m : Memory) (b n : Nat) : (memBytes m b n).length = n := by simp [memBytes]

theorem memBytes_append (m : Memory) (b j k : Nat) : memBytes m b (j + k) = memBytes m b j ++ memBytes m (b + j) k := by
  simp [memBytes, List.range_add, Nat.add_assoc]

theorem memBytes_getD {m : Memory} {b n i : Nat} (h : i < n) : (memBytes m b n).getD i 0 = m.read (b + i) := by
  rw [List.getD_eq_getElem _ _ (by simpa using h)]
  simp [memBytes]

/-- A read that stays inside the flash is of consecutive addresses (20_memory.md R73). -/
theorem flashBytes_memBytes (m : Memory) {b n : Nat} (h : b + n ≤ 16777216) :
    flashBytes m (BitVec.ofNat 24 b) n = memBytes m b n := by
  unfold flashBytes memBytes
  apply List.map_congr_left
  intro i hi
  have hi' := List.mem_range.mp hi
  have hb : (BitVec.ofNat 24 b).toNat = b := by simp; omega
  rw [readAddr_inside _ _ (by rw [hb]; unfold Config.addressCount; omega), hb]

/-- The READ frames of m chunks of n bytes from address b on. -/
def readEvents (mem : Memory) (b n m : Nat) : List Event :=
  (List.range m).flatMap fun j =>
    frameEvents (addressed 0x03 (BitVec.ofNat 24 (b + 256 * j))) (memBytes mem (b + 256 * j) (min 256 (n - 256 * j)))

theorem readEvents_succ (mem : Memory) (b n m : Nat) :
    readEvents mem b n (m + 1) =
      frameEvents (addressed 0x03 (BitVec.ofNat 24 b)) (memBytes mem b (min 256 n)) ++
        readEvents mem (b + 256) (n - 256) m := by
  unfold readEvents
  rw [List.range_succ_eq_map, List.flatMap_cons, List.flatMap_map]
  congr 1
  apply List.flatMap_congr
  intro j _
  simp only [Nat.succ_eq_add_one]
  rw [show b + 256 * (j + 1) = b + 256 + 256 * j by omega, show n - 256 * (j + 1) = n - 256 - 256 * j by omega]

/-- What the chunk loop leaves after m READ frames. -/
structure Compared (base off n m : Nat) (s u : State) : Prop where
  cfg : u.cfg = s.cfg
  pins : u.pins = { s.pins with mosi := u.pins.mosi }
  ready : u.pins.busReady = true
  sess : u.sess = s.sess
  busOwner : u.busOwner = s.busOwner
  lenR : u.lenR = s.lenR
  pollR : u.pollR = s.pollR
  lastCode : u.lastCode = s.lastCode
  sessErr : u.sessErr = s.sessErr
  errInfo : u.errInfo = s.errInfo
  progress : u.progress = s.progress
  host : u.host = s.host
  out : u.out = s.out
  tr : u.tr = (readEvents s.dev.mem (base + off) n m).reverse ++ s.tr
  mem : u.dev.mem = s.dev.mem
  wel : u.dev.wel = s.dev.wel
  flashSize : u.dev.flashSize = s.dev.flashSize
  busy : BusyFor 0 u
  fbits : u.dev.fbits = s.dev.fbits ∨ u.dev.fbits = []
  env : u.env = s.env

/-- One chunk read. -/
def readChunk (base off : Nat) (m : Memory) (n : Nat) (s : State) : State :=
  afterFrame (addressed 0x03 (BitVec.ofNat 24 (base + off))) (memBytes m (base + off) n) { s.dev with fbits := [] } s.env
    (loadAddr (BitVec.ofNat 24 (base + off)) s)

theorem readChunk_compared {base off : Nat} {s : State} (h : s.pins.busReady = true) (hb : BusyFor 0 s) {k n : Nat}
    (hk : k = min 256 n) : Compared base off n 1 s (readChunk base off s.dev.mem k s) where
  cfg := by simp [readChunk]
  pins := by simp [readChunk]
  ready := by
    rw [readChunk]
    exact afterFrame_ready (s := loadAddr (BitVec.ofNat 24 (base + off)) s) h _ _ _ _
  sess := by simp [readChunk]
  busOwner := by simp [readChunk]
  lenR := by simp [readChunk]
  pollR := by simp [readChunk]
  lastCode := by simp [readChunk]
  sessErr := by simp [readChunk]
  errInfo := by simp [readChunk]
  progress := by simp [readChunk]
  host := by simp [readChunk]
  out := by simp [readChunk]
  tr := by simp [readChunk, ← hk, readEvents]
  mem := by rw [readChunk, afterFrame_dev]
  wel := by rw [readChunk, afterFrame_dev]
  flashSize := by rw [readChunk, afterFrame_dev]
  busy := by rw [readChunk, BusyFor, afterFrame_dev]; exact hb
  fbits := Or.inr (by rw [readChunk, afterFrame_dev])
  env := by simp [readChunk]

theorem readChunk_offR (base off : Nat) (m : Memory) (n : Nat) (s : State) : (readChunk base off m n s).offR = s.offR := by
  simp [readChunk]

/-- The read of a chunk, and what is compared with it (42_sequences.md R182). -/
theorem compare_first (op : Instr) {base off : Nat} (page : List Byte) (rest : List Task) {s : State}
    (h : s.pins.busReady = true) (hb : BusyFor 0 s) (hfit : base + off + page.length ≤ 16777216)
    (hin : base + off + page.length ≤ s.dev.flashSize) :
    runTasks op (.compare off (BitVec.ofNat 24 (base + off)) page :: rest) s =
      match firstDifference (memBytes s.dev.mem (base + off) page.length) page with
      | some i => raise ⟨.verificationError, .mismatch (BitVec.ofNat 32 (off / 256)) (BitVec.ofNat 32 (off + i))⟩
          (readChunk base off s.dev.mem page.length s)
      | none => runTasks op rest (readChunk base off s.dev.mem page.length s) := by
  have hread := readCore_eq (s := loadAddr (BitVec.ofNat 24 (base + off)) s) h
    (not_ignores_of_ready hb.1 hb.2 0x03) (a := BitVec.ofNat 24 (base + off)) (n := page.length) (by
      intro k hk
      have hn : (BitVec.ofNat 24 (base + off)).toNat = base + off := by simp; omega
      rw [readAddr_inside _ _ (by rw [hn]; unfold Config.addressCount; omega), hn]
      exact Nat.lt_of_lt_of_le (by omega) hin)
  rw [loadAddr_dev, loadAddr_env, flashBytes_memBytes s.dev.mem hfit] at hread
  have hstep : runTasks op (.compare off (BitVec.ofNat 24 (base + off)) page :: rest) s =
      compareChunk off page (readCore (BitVec.ofNat 24 (base + off)) page.length (loadAddr (BitVec.ofNat 24 (base + off)) s)).1
        (runTasks op rest)
        (readCore (BitVec.ofNat 24 (base + off)) page.length (loadAddr (BitVec.ofNat 24 (base + off)) s)).2 := rfl
  rw [hstep, hread]
  unfold compareChunk
  cases firstDifference (memBytes s.dev.mem (base + off) page.length) page <;> rfl

theorem compared_cons {base off k n m : Nat} {s v u : State} {o : Count} (hv : Compared base off (k + n) 1 s v)
    (hk : k = 256) (hm : Compared base (off + k) n m { v with offR := o } u) :
    Compared base off (k + n) (m + 1) s u where
  cfg := hm.cfg.trans hv.cfg
  pins := by
    have h1 := hm.pins
    have h2 : ({ v with offR := o } : State).pins = v.pins := rfl
    rw [h2, hv.pins] at h1
    exact h1
  ready := hm.ready
  sess := hm.sess.trans hv.sess
  busOwner := hm.busOwner.trans hv.busOwner
  lenR := hm.lenR.trans hv.lenR
  pollR := hm.pollR.trans hv.pollR
  lastCode := hm.lastCode.trans hv.lastCode
  sessErr := hm.sessErr.trans hv.sessErr
  errInfo := hm.errInfo.trans hv.errInfo
  progress := hm.progress.trans hv.progress
  host := hm.host.trans hv.host
  out := hm.out.trans hv.out
  tr := by
    have h1 := hm.tr
    have h3 : ({ v with offR := o } : State).tr = v.tr := rfl
    have h4 : ({ v with offR := o } : State).dev.mem = s.dev.mem := hv.mem
    rw [h3, h4, hv.tr, readEvents_succ] at h1
    rw [h1, readEvents_succ, hk, show base + (off + 256) = base + off + 256 by omega,
      show 256 + n - 256 = n by omega]
    simp [readEvents]
  mem := hm.mem.trans hv.mem
  wel := hm.wel.trans hv.wel
  flashSize := hm.flashSize.trans hv.flashSize
  busy := hm.busy
  fbits := by
    rcases hm.fbits with h1 | h1
    · rcases hv.fbits with h2 | h2
      · exact Or.inl (h1.trans h2)
      · exact Or.inr (h1.trans h2)
    · exact Or.inr h1
  env := hm.env.trans hv.env

/-- How the chunk loop over n bytes from offset off ends, by the first difference: at it, after the READ of its chunk, or with
every chunk read (42_sequences.md R182). -/
def CompareEnds (base off n : Nat) (d : Option Nat) (s u t : State) : Prop :=
  match d with
  | none => Compared base off n (pageCount n) s u ∧ u.offR = BitVec.ofNat 32 (off + n) ∧ t = succeed [] u
  | some d => Compared base off n (d / 256 + 1) s u ∧ u.offR = BitVec.ofNat 32 (off + 256 * (d / 256)) ∧
      t = raise ⟨.verificationError, .mismatch (BitVec.ofNat 32 ((off + d) / 256)) (BitVec.ofNat 32 (off + d))⟩ u

theorem compareEnds_cons {base off k n : Nat} {d : Option Nat} {s v u t : State} (hv : Compared base off (k + n) 1 s v)
    (hk : k = 256) (h : CompareEnds base (off + k) n d { v with offR := BitVec.ofNat 32 (off + k) } u t) :
    CompareEnds base off (k + n) (d.map (· + k)) s u t := by
  cases d with
  | none =>
    obtain ⟨h1, h2, h3⟩ := h
    refine ⟨?_, ?_, h3⟩
    · rw [show pageCount (k + n) = pageCount n + 1 by unfold pageCount; omega]
      exact compared_cons hv hk h1
    · rw [h2, show off + k + n = off + (k + n) by omega]
  | some d =>
    obtain ⟨h1, h2, h3⟩ := h
    have hdiv : (d + k) / 256 = d / 256 + 1 := by omega
    refine ⟨?_, ?_, ?_⟩
    · rw [hdiv]
      exact compared_cons hv hk h1
    · rw [h2, hdiv, show off + k + 256 * (d / 256) = off + 256 * (d / 256 + 1) by omega]
    · rw [h3, show off + k + d = off + (d + k) by omega]

/-- How many of the n bytes of a buffer VERIFY_DATA reads back: all, or up to the end of the chunk of the first difference
(42_sequences.md R182). -/
def bytesRead (n : Nat) : Option Nat → Nat
  | none => n
  | some d => min (256 * (d / 256 + 1)) n

/-- The chunk loop on a ready chip, the bytes it reads below FLASH_SIZE. -/
theorem compare_run (op : Instr) (base : Nat) : ∀ (fuel : Nat) (buf : List Byte) (off : Nat) {s : State},
    buf.length ≤ fuel → off % 256 = 0 → base + off + buf.length ≤ 16777216 → s.pins.busReady = true → BusyFor 0 s →
    s.offR = BitVec.ofNat 32 off →
    base + off + bytesRead buf.length (firstDifference (memBytes s.dev.mem (base + off) buf.length) buf) ≤
      s.dev.flashSize →
    ∃ u, CompareEnds base off buf.length (firstDifference (memBytes s.dev.mem (base + off) buf.length) buf) s u
      (runTasks op (compareTasks base off (cutWith 256 fuel buf)) s)
  | fuel, [], off, s, _, _, _, h, hb, ho, _ => by
    refine ⟨s, ⟨rfl, rfl, h, rfl, rfl, rfl, rfl, rfl, rfl, rfl, rfl, rfl, rfl, rfl, rfl, rfl, rfl, hb, Or.inl rfl, rfl⟩, ho, ?_⟩
    cases fuel <;> rfl
  | 0, _ :: _, _, _, hl, _, _, _, _, _, _ => by simp at hl
  | fuel + 1, b :: buf, off, s, hl, hoff, hfit, h, hb, ho, hin => by
    have hlen : ((b :: buf).drop 256).length ≤ fuel := by simp at hl ⊢; omega
    have htasks : compareTasks base off (cutWith 256 (fuel + 1) (b :: buf)) =
        .compare off (BitVec.ofNat 24 (base + off)) ((b :: buf).take 256) ::
          .setOff (BitVec.ofNat 32 (off + ((b :: buf).take 256).length)) ::
            compareTasks base (off + ((b :: buf).take 256).length) (cutWith 256 fuel ((b :: buf).drop 256)) := rfl
    have hpl : ((b :: buf).take 256).length = min 256 (b :: buf).length := List.length_take
    have hml : ((b :: buf).drop 256).length = (b :: buf).length - 256 := List.length_drop
    have hpos : 0 < (b :: buf).length := by simp
    have hsplit : (b :: buf).take 256 ++ (b :: buf).drop 256 = b :: buf := List.take_append_drop _ _
    rw [htasks]
    generalize (b :: buf).take 256 = page at hpl hsplit
    generalize (b :: buf).drop 256 = more at hlen hml hsplit
    generalize b :: buf = whole at hl hfit hin hpl hml hpos hsplit
    subst hsplit
    rw [List.length_append] at hl hfit hpl hml hpos
    rw [List.length_append, memBytes_append, firstDifference_append _ _ _ _ (memBytes_length _ _ _)] at hin
    have hpage : base + off + page.length ≤ s.dev.flashSize := by
      refine Nat.le_trans ?_ hin
      unfold bytesRead
      split <;> omega
    rw [compare_first op page _ h hb (by omega) hpage, List.length_append, memBytes_append,
      firstDifference_append _ _ _ _ (memBytes_length _ _ _)]
    have hv := readChunk_compared (base := base) (off := off) h hb (k := page.length) (n := page.length + more.length) hpl
    have hvoff := readChunk_offR base off s.dev.mem page.length s
    cases hd : firstDifference (memBytes s.dev.mem (base + off) page.length) page with
    | some d =>
      have hdl := (firstDifference_some (memBytes_length _ _ _) hd).1
      have hd0 : d / 256 = 0 := by omega
      refine ⟨_, by rw [hd0]; exact hv, by rw [hvoff, ho, hd0, Nat.mul_zero, Nat.add_zero], ?_⟩
      rw [show off / 256 = (off + d) / 256 by omega]
    | none =>
      rw [hd] at hin
      replace hin : base + off + bytesRead (page.length + more.length)
        ((firstDifference (memBytes s.dev.mem (base + off + page.length) more.length) more).map (· + page.length)) ≤
          s.dev.flashSize := hin
      show ∃ u, CompareEnds base off (page.length + more.length)
        ((firstDifference (memBytes s.dev.mem (base + off + page.length) more.length) more).map (· + page.length)) s u
        (runTasks op (compareTasks base (off + page.length) (cutWith 256 fuel more))
          { readChunk base off s.dev.mem page.length s with offR := BitVec.ofNat 32 (off + page.length) })
      by_cases hmore : more = []
      · subst hmore
        refine ⟨{ readChunk base off s.dev.mem page.length s with offR := BitVec.ofNat 32 (off + page.length) }, ?_, rfl, ?_⟩
        · rw [show pageCount (page.length + ([] : List Byte).length) = 1 by
            simp only [pageCount, List.length_nil] at hpl hpos ⊢; omega]
          exact ⟨hv.cfg, hv.pins, hv.ready, hv.sess, hv.busOwner, hv.lenR, hv.pollR, hv.lastCode, hv.sessErr, hv.errInfo,
            hv.progress, hv.host, hv.out, hv.tr, hv.mem, hv.wel, hv.flashSize, hv.busy, hv.fbits, hv.env⟩
        · cases fuel <;> rfl
      · have hne := List.length_pos_iff.mpr hmore
        have h256 : page.length = 256 := by omega
        obtain ⟨u, hu⟩ := compare_run op base fuel more (off + page.length)
          (s := { readChunk base off s.dev.mem page.length s with offR := BitVec.ofNat 32 (off + page.length) }) hlen (by omega)
          (by omega) hv.ready hv.busy rfl (by
            rw [show ({ readChunk base off s.dev.mem page.length s with
                offR := BitVec.ofNat 32 (off + page.length) } : State).dev.mem = s.dev.mem from hv.mem,
              show ({ readChunk base off s.dev.mem page.length s with
                offR := BitVec.ofNat 32 (off + page.length) } : State).dev.flashSize = s.dev.flashSize from hv.flashSize,
              show base + (off + page.length) = base + off + page.length by omega]
            cases hf : firstDifference (memBytes s.dev.mem (base + off + page.length) more.length) more with
            | none =>
              rw [hf] at hin
              simp only [bytesRead, Option.map_none] at hin ⊢
              omega
            | some d =>
              rw [hf] at hin
              simp only [bytesRead, Option.map_some] at hin ⊢
              omega)
        rw [show ({ readChunk base off s.dev.mem page.length s with
            offR := BitVec.ofNat 32 (off + page.length) } : State).dev.mem = s.dev.mem from hv.mem,
          show base + (off + page.length) = base + off + page.length by omega] at hu
        exact ⟨u, compareEnds_cons hv h256 hu⟩

end Sys2Proof.Laws
end

