-- ==== Sys2Proof/Machine/Asm.lean ====
section
/-! DEFINITION. The host-program syntax (30_encoding.md R111), one op per line, as a function from a line's characters to the
op it stands for. Labels and comments carry no meaning. -/

namespace Sys2Proof.Machine

/-- What one line stands for: a host op, or a pseudo-instruction of 30_encoding.md R112. -/
inductive Statement where
  | op (i : Instr)
  | pseudo (p : Pseudo)
  deriving DecidableEq, Repr

/-- The tokens of a line: words (mnemonics, labels and numbers), and the marks : , [ ] ( ). -/
inductive Token where
  | word (w : List Char)
  | mark (c : Char)
  deriving DecidableEq, Repr

/-- The characters of words (DESIGN CHOICE, log entry 26). -/
def isWordChar (c : Char) : Bool := c.isAlphanum || c == '_'

/-- A word put before tokens, if it has characters; it is collected last character first. -/
def flushWord (w : List Char) (ts : List Token) : List Token := if w.isEmpty then ts else .word w.reverse :: ts

/-- The tokens of a line up to its comment; w is the word being read, last character first. None where a character has no
place in a line. -/
def tokensFrom (w : List Char) : List Char → Option (List Token)
  | [] => some (flushWord w [])
  | c :: cs =>
    if c == ';' then some (flushWord w [])
    else if c == ' ' || c == '\t' then (tokensFrom [] cs).map (flushWord w)
    else if c == ':' || c == ',' || c == '[' || c == ']' || c == '(' || c == ')' then
      (tokensFrom [] cs).map fun ts => flushWord w (.mark c :: ts)
    else if isWordChar c then tokensFrom (c :: w) cs
    else none

/-- The value of a decimal digit. -/
def decimalDigit (c : Char) : Option Nat := if '0' ≤ c ∧ c ≤ '9' then some (c.toNat - 48) else none

/-- The value of a hexadecimal digit. -/
def hexDigit (c : Char) : Option Nat :=
  if '0' ≤ c ∧ c ≤ '9' then some (c.toNat - 48)
  else if 'A' ≤ c ∧ c ≤ 'F' then some (c.toNat - 55)
  else if 'a' ≤ c ∧ c ≤ 'f' then some (c.toNat - 87)
  else none

/-- A number of digits in a base, most significant digit first, continued from acc. -/
def digitsFrom (digit : Char → Option Nat) (base acc : Nat) : List Char → Option Nat
  | [] => some acc
  | c :: cs => (digit c).bind fun d => digitsFrom digit base (base * acc + d) cs

/-- A hexadecimal number of exactly n digits (0xHH, 0xHHHHHH, 0xHHHHHHHH). -/
def hexNumber (n : Nat) (w : List Char) : Option Nat :=
  match w with
  | '0' :: 'x' :: ds => if ds.length = n then digitsFrom hexDigit 16 0 ds else none
  | _ => none

/-- A decimal number. -/
def decimalNumber (w : List Char) : Option Nat := if w.isEmpty then none else digitsFrom decimalDigit 10 0 w

/-- ADDR := 0xHHHHHH | decimal, below 2^24. -/
def addrOfWord (w : List Char) : Option Addr :=
  ((hexNumber 6 w).or (decimalNumber w)).bind fun n => if n < 2 ^ 24 then some (BitVec.ofNat 24 n) else none

/-- LEN := decimal | 0xHHHHHHHH, below 2^32. -/
def lenOfWord (w : List Char) : Option Count :=
  ((hexNumber 8 w).or (decimalNumber w)).bind fun n => if n < 2 ^ 32 then some (BitVec.ofNat 32 n) else none

/-- BYTE := 0xHH. -/
def byteOfWord (w : List Char) : Option Byte := (hexNumber 2 w).map (BitVec.ofNat 8)

/-- The rest of a byte list after its first byte: {',' BYTE} ']', and nothing after it. -/
def moreBytes : List Token → Option (List Byte)
  | [.mark ']'] => some []
  | .mark ',' :: .word w :: ts => (byteOfWord w).bind fun b => (moreBytes ts).map (b :: ·)
  | _ => none

/-- BYTES := '[' BYTE {',' BYTE} ']', to the end of the line. -/
def bytesOfTokens : List Token → Option (List Byte)
  | .mark '[' :: .word w :: ts => (byteOfWord w).bind fun b => (moreBytes ts).map (b :: ·)
  | _ => none

/-- The buffer of FLASH_DATA and VERIFY_DATA: BYTES, or LEN ',' FILL(BYTE). -/
def bufferOfTokens : List Token → Option (List Byte)
  | [.word len, .mark ',', .word ['F', 'I', 'L', 'L'], .mark '(', .word b, .mark ')'] =>
    (lenOfWord len).bind fun n => (byteOfWord b).map (List.replicate n.toNat)
  | ts => bytesOfTokens ts

/-- The op of a mnemonic without operands. -/
def bareOp (m : List Char) : Option Instr :=
  if m = ['W', 'A', 'K', 'E'] then some .wake
  else if m = ['R', 'D', 'S', 'R'] then some .rdsr
  else if m = ['W', 'R', 'E', 'N'] then some .wren
  else if m = ['W', 'R', 'D', 'I'] then some .wrdi
  else if m = ['A', 'W', 'A', 'I', 'T', '_', 'R', 'E', 'A', 'D', 'Y'] then some .awaitReady
  else if m = ['S', 'T', 'A', 'T', 'U', 'S'] then some .status
  else if m = ['S', 'E', 'S', 'S', 'I', 'O', 'N', '_', 'S', 'T', 'A', 'R', 'T'] then some .sessionStart
  else if m = ['S', 'E', 'S', 'S', 'I', 'O', 'N', '_', 'E', 'N', 'D'] then some .sessionEnd
  else none

/-- The statement of a mnemonic with an address and a length. -/
def spanOp (m : List Char) (a : Addr) (n : Count) : Option Statement :=
  if m = ['R', 'E', 'A', 'D'] then some (.op (.read a n))
  else if m = ['R', 'E', 'A', 'D', '_', 'A', 'R', 'B', 'I', 'T', 'R', 'A', 'R', 'Y'] then some (.op (.readArbitrary a n))
  else if m = ['D', 'U', 'M', 'P'] then some (.pseudo (.dump a n))
  else none

/-- The op of a mnemonic with an address and what follows its comma. -/
def bufferOp (m : List Char) (a : Addr) (ts : List Token) : Option Instr :=
  if m = ['P', 'P'] then (bytesOfTokens ts).map (.pp a)
  else if m = ['F', 'L', 'A', 'S', 'H', '_', 'D', 'A', 'T', 'A'] then (bufferOfTokens ts).map (.flashData a)
  else if m = ['V', 'E', 'R', 'I', 'F', 'Y', '_', 'D', 'A', 'T', 'A'] then (bufferOfTokens ts).map (.verifyData a)
  else none

/-- The statement of a mnemonic and its operands: the forms of 30_encoding.md R111 and R112. -/
def statementOf (m : List Char) (operands : List Token) : Option Statement :=
  match operands with
  | [] => (bareOp m).map .op
  | .mark '[' :: ts =>
    if m = ['F', 'L', 'A', 'S', 'H', '_', 'I', 'M', 'A', 'G', 'E'] then
      (bytesOfTokens (.mark '[' :: ts)).map fun image => .pseudo (.flashImage image)
    else none
  | [.word a] => if m = ['B', 'E'] then (addrOfWord a).map fun a => .op (.be a) else none
  | [.word a, .mark ',', .word n] => (addrOfWord a).bind fun a => (lenOfWord n).bind (spanOp m a)
  | .word a :: .mark ',' :: ts => (addrOfWord a).bind fun a => (bufferOp m a ts).map .op
  | _ => none

/-- line := [label ':'] mnemonic [operands] [';' comment] (30_encoding.md R111). -/
def parseLine (line : List Char) : Option Statement :=
  match tokensFrom [] line with
  | some (.word _ :: .mark ':' :: .word m :: operands) => statementOf m operands
  | some (.word m :: operands) => statementOf m operands
  | _ => none

end Sys2Proof.Machine
end

