-- ==== Sys2Proof/Tests/Slice0.lean ====
section
/-! SUPPORT. Tests: expected values from 95_test_vectors.md (V<n>, X<n>, P<n>) and from the rules named; and for each statement
with hypotheses a witness that meets them. -/

namespace Sys2Proof.Tests

open Sys2Proof Sys2Proof.Machine Sys2Proof.Safety

/-! Well-formedness refuses a buffer that no len field can give (R105). -/

theorem long_buffer (data : List Byte) (h : data.length = 2 ^ 32) : bufferFits data = false := by
  simp [bufferFits, h]

theorem short_buffer (data : List Byte) (h : data.length < 2 ^ 32) : bufferFits data = true :=
  decide_eq_true h

theorem test_wf_refuses_pp : (Instr.pp 0 (List.replicate (2 ^ 32) 0)).wf = false :=
  long_buffer _ List.length_replicate

theorem test_wf_refuses_flashData : (Instr.flashData 0 (List.replicate (2 ^ 32) 0)).wf = false :=
  long_buffer _ List.length_replicate

theorem test_wf_refuses_verifyData : (Instr.verifyData 0 (List.replicate (2 ^ 32) 0)).wf = false :=
  long_buffer _ List.length_replicate

/-! Decoding: one word of every row, written out from 30_encoding.md R104 to R106. -/

/-- A decoded instruction with nothing left over. -/
def reads (im : Image) (i : Instr) : Prop := decode im = .ok (i, [])

theorem test_decode_pp : reads (.request [0x02, 0x01, 0x23, 0x45, 0x00, 0x00, 0x00, 0x02, 0xA5, 0x5A])
    (.pp 0x012345 [0xA5, 0x5A]) := rfl

theorem test_decode_read : reads (.request [0x03, 0x00, 0xFF, 0xFE, 0x01, 0x02, 0x03, 0x04])
    (.read 0x00FFFE 0x01020304) := rfl

theorem test_decode_wrdi : reads (.request [0x04, 0, 0, 0, 0, 0, 0, 0]) .wrdi := rfl

theorem test_decode_rdsr : reads (.request [0x05, 0, 0, 0, 0, 0, 0, 0]) .rdsr := rfl

theorem test_decode_wren : reads (.request [0x06, 0, 0, 0, 0, 0, 0, 0]) .wren := rfl

theorem test_decode_be : reads (.request [0xD8, 0x01, 0xFF, 0xFF, 0, 0, 0, 0]) (.be 0x01FFFF) := rfl

theorem test_decode_wake : reads (.request [0xAB, 0, 0, 0, 0, 0, 0, 0]) .wake := rfl

theorem test_decode_awaitReady : reads (.request [0xE0, 0, 0, 0, 0, 0, 0, 0]) .awaitReady := rfl

theorem test_decode_flashData : reads (.request [0xE1, 0, 0, 0, 0, 0, 0, 3, 0x12, 0x34, 0x56])
    (.flashData 0 [0x12, 0x34, 0x56]) := rfl

theorem test_decode_verifyData : reads (.request [0xE2, 0x02, 0, 0, 0, 0, 0, 1, 0xF0]) (.verifyData 0x020000 [0xF0]) := rfl

theorem test_decode_readArbitrary : reads (.request [0xE3, 0x00, 0x01, 0xFE, 0, 0, 0, 4]) (.readArbitrary 0x0001FE 4) := rfl

theorem test_decode_status : reads (.request [0xE4, 0, 0, 0, 0, 0, 0, 0]) .status := rfl

theorem test_decode_sessionStart : reads (.request [0xE8, 0, 0, 0, 0, 0, 0, 0]) .sessionStart := rfl

theorem test_decode_sessionEnd : reads (.request [0xE9, 0, 0, 0, 0, 0, 0, 0]) .sessionEnd := rfl

theorem test_decode_micro_ops :
    reads (.micro 0x0 0) .csAssert ∧ reads (.micro 0x1 0) .csDeassert ∧ reads (.micro 0x2 0x01) (.writeBit true) ∧
      reads (.micro 0x2 0x00) (.writeBit false) ∧ reads (.micro 0x3 0) .readBit ∧
      reads (.micro 0x4 0xAB) (.writeByte 0xAB) ∧ reads (.micro 0x5 0) .readByte :=
  ⟨rfl, rfl, rfl, rfl, rfl, rfl, rfl⟩

/-- The operand fields an op ignores may hold anything (92_eei_decisions.md D15). -/
theorem test_ignored_fields : decode (.request [0x06, 1, 2, 3, 4, 5, 6, 7]) = .ok (.wren, []) := rfl

/-- Illegal op bytes (V64, V65, R108 b), an unused micro-op code (R108 d), and requests of which a byte is missing. -/
theorem test_decode_rejects :
    decode (.request [0x07, 0, 0, 0, 0, 0, 0, 0]) = .error (.illegalOp 0x07) ∧
      decode (.request [0xE5, 0, 0, 0, 0, 0, 0, 0]) = .error (.illegalOp 0xE5) ∧
      decode (.micro 0x6 0) = .error (.unusedMicroOp 0x6) ∧ decode (.micro 0xF 0) = .error (.unusedMicroOp 0xF) ∧
      decode (.request [0xE9, 0, 0, 0, 0, 0, 0]) = .error .incomplete ∧
      decode (.request [0x02, 0, 0, 0, 0, 0, 0, 2, 0xA5]) = .error .incomplete := by
  refine ⟨rfl, rfl, rfl, rfl, rfl, rfl⟩

/-- Every host-op row of the opcode table, and the micro-op rows, as the table numbers them. -/
theorem test_table_words :
    [0x02, 0x03, 0x04, 0x05, 0x06, 0xD8, 0xAB, 0xE0, 0xE1, 0xE2, 0xE3, 0xE4, 0xE8, 0xE9].map (decodeTableWord 8) =
        [some (.pp 0 []), some (.read 0 0), some .wrdi, some .rdsr, some .wren, some (.be 0), some .wake,
          some .awaitReady, some (.flashData 0 []), some (.verifyData 0 []), some (.readArbitrary 0 0), some .status,
          some .sessionStart, some .sessionEnd] ∧
      [0, 1, 2, 3, 4, 5, 6].map (decodeTableWord 4) =
        [some .csAssert, some .csDeassert, some (.writeBit false), some .readBit, some (.writeByte 0),
          some .readByte, none] := by
  decide

/-! States. -/

/-- HOLD_RESET. -/
def holdCfg (l : PollLimit) : Cfg :=
  { pinMap := Config.pinMapA, variant := .holdReset, tHalf := .rational 1000, tRst := .openReset 0, pollLimit := l }

theorem legal_holdCfg {l : PollLimit} (h : Config.pollLimitLegal l = true) : Config.legal (holdCfg l) :=
  ⟨show (Config.lines Config.pinMapA).Nodup by decide, by simp [holdCfg, Config.nanoseconds], (Config.freeReset 0).2, h⟩

/-- T_HALF and T_RST are real numbers, 0 and negative ones illegal (00_scope.md R5, 92_eei_decisions.md D9). -/
theorem test_durations {c : Cfg} (h : Config.legal c) : 0 < Config.nanoseconds c.tHalf ∧ 0 < Config.nanoseconds c.tRst :=
  ⟨lt_of_lt_of_le (by norm_num) h.2.1, lt_of_lt_of_le Config.minResetPulse.2 h.2.2.1⟩

/-- The configuration at construction is legal, whatever the OPEN parameters are (00_scope.md R5). -/
theorem test_built_legal : Config.legal Config.built := by
  refine ⟨?_, (Config.freeHalf 0).2, (Config.freeReset 0).2, ?_⟩
  · unfold Config.built
    dsimp only
    split
    · assumption
    · decide
  · unfold Config.built
    dsimp only
    split
    · assumption
    · rfl

/-- A chip of the reference size (20_memory.md R80) whose flash holds b everywhere. -/
def chip (b : Byte) (busy : Busy) (pd : Bool) : Device :=
  { flashSize := 16777216, mem := { start := .uniform b, cells := [] }, wel := false, busy := busy, pd := pd, fbits := [] }

/-- The pins of a session under HOLD_RESET (43_session.md R219). -/
def sessionPins : Pins :=
  { fpgaRst := .output false, fpgaCs := .input, flCs := .output true, mosi := .output false, miso := .input,
    sck := .output false }

/-- The inside of a frame: FL_CS is low. -/
def framePins : Pins := { sessionPins with flCs := .output false }

/-- A session in a state v. -/
def inSession (v : Sess) (l : PollLimit) (d : Device) (busy : List Busy) : State :=
  { cfg := holdCfg l, pins := sessionPins, sess := v, busOwner := .flashSession, shreg := 0, bitcnt := 0, addrR := 0,
    lenR := 0, offR := 0, pollR := 0, lastCode := .ok, sessErr := .ok, errInfo := .absent, progress := 0,
    seq := .portIdle, tr := [], host := [], out := [],
    env := { acq := [], rel := List.replicate 6 true, miso := List.replicate 60 true, busy := busy, count := 0 },
    dev := d }

/-- IDLE, with a chip that is ready and holds FF. -/
def idle : State := inSession .idle (.count 3) (chip 0xFF (.polls 0) false) [.polls 2]

/-- AWAKE. -/
def awake : State := inSession .awake (.count 3) (chip 0x00 (.polls 0) false) [.polls 1, .polls 0]

/-- No session, all six pins to be had. -/
def released : State :=
  { idle with
    pins := Pins.allReleased, sess := .released, busOwner := .fpga, dev := chip 0xFF (.polls 0) true,
    env := { idle.env with acq := List.replicate 6 true } }

/-- Inside a frame, nothing received yet. -/
def inFrame : State := { idle with pins := framePins }

/-- The next state of an outcome. -/
def nextOf (s : State) : Host.Outcome State Fault Refusal → State
  | .next t => t
  | .fault _ => s
  | .refused _ => s

/-- The outcome is a next state. -/
def goesOn : Host.Outcome State Fault Refusal → Bool
  | .next _ => true
  | .fault _ => false
  | .refused _ => false

theorem next_of {o : Host.Outcome State Fault Refusal} (s : State) (h : goesOn o = true) : o = .next (nextOf s o) := by
  cases o with
  | next t => rfl
  | fault _ => cases h
  | refused _ => cases h

/-- The state after an instruction. -/
def after (i : Instr) (s : State) : State := nextOf s (exec i s)

/-- The serialized responses, newest first. -/
def responses (s : State) : List (List Byte) := s.out.map Response.bytes

/-- The state after n steps. -/
def steps : Nat → State → State
  | 0, s => s
  | n + 1, s => steps n (nextOf s (step s))

set_option maxRecDepth 100000

/-! One instruction each. -/

/-- V11: the 42 events of the WAKE frame (V8). -/
theorem test_wake : (after .wake awake).trace = frameEvents [0xAB] [] ∧ (after .wake awake).sess = .awake ∧
    responses (after .wake awake) = [[0, 0, 0, 0, 0]] := by decide

/-- V13: RDSR of a busy chip. -/
theorem test_rdsr :
    let t := after .rdsr { idle with sess := .busyProgramming, dev := chip 0xFF (.polls 2) false }
    responses t = [[0, 0, 0, 0, 1, 0xFF]] ∧ t.dev.busy = .polls 1 ∧ t.sess = .busyProgramming := by decide

/-- V14, V15. -/
theorem test_wren : (after .wren idle).dev.wel = true := by decide

theorem test_wrdi : (after .wrdi { idle with dev := { idle.dev with wel := true } }).dev.wel = false := by decide

/-- V16: the two frames, their bits, and the page. -/
theorem test_pp :
    let t := after (.pp 0x012345 [0xA5, 0x5A]) idle
    clockEdges t.trace = 56 ∧ t.sess = .busyProgramming ∧ t.dev.mem.read 0x012345 = 0xA5 ∧
      t.dev.mem.read 0x012346 = 0x5A ∧ t.dev.busy = .polls 2 := by decide

/-- V18: the wrap inside a page; V21: past the top. -/
theorem test_pp_wraps :
    let t := after (.pp 0x0001FE [0x11, 0x22, 0x33, 0x44]) idle
    [0x1FE, 0x1FF, 0x100, 0x101].map t.dev.mem.read = [0x11, 0x22, 0x33, 0x44] ∧
      responses (after (.pp 0xFFFFF8 (List.replicate 16 0)) idle) = [[1, 1, 0, 0, 0, 0]] := by decide

/-- V22: the frame carries the address as given; V23. The erase itself is tested on the last byte's neighbours. -/
theorem test_be :
    let t := after (.be 0x01FFFF) { idle with dev := chip 0xFF (.polls 0) false }
    t.trace = frameEvents [0x06] [] ++ frameEvents [0xD8, 0x01, 0xFF, 0xFF] [] ∧ t.sess = .busyErasing ∧
      responses (after (.be 0) { idle with sess := .busyErasing }) = [[8, 4, 0, 0, 0, 0]] := by decide

/-- P4: a read across a page boundary (V24); V26. -/
theorem test_read :
    let d : Device := { idle.dev with mem := { start := .uniform 0, cells := [(0x1FF, 0xBB), (0x200, 0xCC)] } }
    responses (after (.read 0x0001FF 2) { idle with dev := d }) = [[0, 0, 0, 0, 2, 0xBB, 0xCC]] ∧
      responses (after (.read 0xFFFFFF 2) idle) = [[1, 1, 0, 0, 0, 0]] := by decide

theorem test_readArbitrary :
    let d : Device := { idle.dev with mem := { start := .uniform 0, cells := [(0x1FF, 0xBB), (0x200, 0xCC)] } }
    responses (after (.readArbitrary 0x0001FF 2) { idle with dev := d }) = [[0, 0, 0, 0, 2, 0xBB, 0xCC]] := by decide

/-- V30 (two busy polls, the op goes on) and V31 (the limit is met). -/
theorem test_awaitReady :
    let s := { awake with dev := chip 0 (.polls 2) false }
    (after .awaitReady s).seq = .awaiting .awaitReady [.returnStatus] ∧
      (steps 2 (after .awaitReady s)).sess = .idle ∧
      responses (steps 2 (after .awaitReady s)) = [[0, 0, 0, 0, 1, 0xFE]] := by decide

theorem test_awaitReady_times_out :
    let s := { awake with dev := chip 0 (.polls 3) false }
    responses (steps 2 (after .awaitReady s)) = [[3, 0, 0, 0, 3, 0xFF, 0, 0, 0, 0]] ∧
      (steps 2 (after .awaitReady s)).sess = .awake := by decide

/-- V42: FLASH_DATA past the top; V35: an empty buffer sends nothing. -/
theorem test_flashData :
    responses (after (.flashData 0xFFFF00 (List.replicate 512 0)) idle) = [[1, 1, 0, 0, 0, 0]] ∧
      (after (.flashData 0 []) idle).trace = [] ∧ responses (after (.flashData 0 []) idle) = [[0, 0, 0, 0, 0]] := by
  decide

/-- X6 and V38: the BEs and PPs of a buffer, by their addresses and lengths. -/
theorem test_flash_plan : (flashPlan 0x020000 (List.replicate 257 0)).map (fun st =>
    match st with
    | .erase a => (a, 0)
    | .program a page => (a, page.length)) = [(0x020000, 0), (0x020000, 256), (0x020100, 1)] := by decide

/-- V45 and V47 (the first byte differs). -/
theorem test_verifyData :
    responses (after (.verifyData 0 [0xFF]) idle) = [[0, 0, 0, 0, 0]] ∧
      responses (after (.verifyData 0 [0x00]) idle) = [[2, 0, 0, 0, 0, 0, 0, 0, 0, 0, 0, 0, 0]] := by decide

/-- V55. -/
theorem test_status :
    responses (after .status (after (.verifyData 0 [0x00]) idle)) =
      [[0, 0, 0, 0, 6, 0x02, 0x2B, 0, 0, 0, 0], [2, 0, 0, 0, 0, 0, 0, 0, 0, 0, 0, 0, 0]] := by decide

/-- V56: SESSION_START under HOLD_RESET. -/
theorem test_sessionStart :
    let t := after .sessionStart released
    t.trace = [.acq .fpgaRst .out (some false), .acq .fpgaCs .inp none, .acq .flCs .out (some true),
      .acq .mosi .out (some false), .acq .miso .inp none, .acq .sck .out (some false), .hold] ++ frameEvents [0xAB] [] ∧
      t.sess = .awake ∧ t.dev.pd = false := by decide

/-- V58: MOSI cannot be claimed; V59. -/
theorem test_sessionStart_fails :
    let t := after .sessionStart { released with env := { released.env with acq := [true, true, true, false] } }
    t.trace = [.acq .fpgaRst .out (some false), .acq .fpgaCs .inp none, .acq .flCs .out (some true), .acqFail .mosi,
      .rel .fpgaRst, .rel .fpgaCs, .rel .flCs] ∧ responses t = [[4, 3, 0, 0, 0, 0]] ∧ t.sess = .released ∧
      responses (after .sessionStart idle) = [[9, 0, 0, 0, 0]] := by decide

/-- V61. -/
theorem test_sessionEnd :
    (after .sessionEnd idle).trace = [.rel .fpgaRst, .rel .fpgaCs, .rel .flCs, .rel .mosi, .rel .miso, .rel .sck] ∧
      responses (after .sessionEnd idle) = [[0, 0, 0, 0, 1, 0]] := by decide

/-- V62. -/
theorem test_sessionEnd_both_failed :
    let t := after .sessionEnd { idle with
      sessErr := .verificationError, env := { idle.env with rel := [true, true, true, true, false, true] } }
    responses t = [[5, 4, 0, 0, 0, 1, 3]] ∧ t.sess = .released ∧ t.sessErr = .verificationError := by decide

/-- A falling edge of FL_CS starts a frame (20_memory.md R66). -/
theorem test_csAssert :
    let t := after .csAssert { idle with dev := { idle.dev with fbits := [true] } }
    t.trace = [.set .flCs false] ∧ t.pins = framePins ∧ t.dev.fbits = [] := by decide

/-- CS_DEASSERT ends any frame (R131): WREN sets the latch, a frame of no bits changes nothing, and a chip in low-power state
ignores an odd opcode (20_memory.md R67). -/
theorem test_csDeassert :
    (after .csDeassert { inFrame with dev := { inFrame.dev with fbits := (bitsOfByte 0x06).reverse } }).dev.wel = true ∧
      (after .csDeassert inFrame).dev = inFrame.dev ∧
      (after .csDeassert { inFrame with
        dev := { chip 0 (.polls 0) true with fbits := (bitsOfBytes [0x9F, 0x00]).reverse } }).dev =
          chip 0 (.polls 0) true := by decide

/-- A program cut inside its address: the run goes on, FL_CS is 1, no frame is being received, and busy is drawn. -/
theorem test_csDeassert_strange :
    let t := after .csDeassert { inFrame with dev := { inFrame.dev with fbits := (bitsOfBytes [0x02, 0x00]).reverse } }
    t.trace = [.set .flCs true] ∧ t.dev.fbits = [] ∧ t.dev.busy = .polls 2 := by decide

/-- V1. -/
theorem test_writeBit :
    (after (.writeBit true) inFrame).trace = [.set .mosi true, .set .sck true, .delay, .set .sck false, .delay] ∧
      (after (.writeBit true) inFrame).dev.fbits = [true] := by decide

/-- V3: the 16th clock of RDSR presents the busy flag, here 1. -/
theorem test_readBit :
    let d : Device := { chip 0 (.polls 1) false with fbits := List.replicate 7 true ++ (bitsOfByte 0x05).reverse }
    (after .readBit { inFrame with dev := d }).trace =
      [.set .sck true, .delay, .sample true, .set .sck false, .delay] := by decide

/-- V4. -/
theorem test_writeByte :
    let t := after (.writeByte 0xAB) inFrame
    mosiAtEdges false t.trace = [true, false, true, false, true, false, true, true] ∧ t.trace.length = 40 ∧
      t.shreg = 0 ∧ t.bitcnt = 8 ∧ t.pins.mosi = .output true := by decide

/-- V6. -/
theorem test_readByte :
    let t := after .readByte { inFrame with
      env := { inFrame.env with miso := [true, false, true, true, false, false, true, false] } }
    t.shreg = 0xB2 ∧ t.bitcnt = 8 ∧ t.trace.length = 40 := by decide

/-! The device. -/

/-- X3: a program clears bits and sets none (20_memory.md R74). -/
theorem test_program_clears : (Memory.programFrom 0x000010 0 [0x0F] { start := .uniform 0xF0, cells := [] }).read 0x10 =
    0x00 := by decide

/-- An erase of a small range removes the bytes that differ (20_memory.md R75). -/
theorem test_fill : (Memory.fill { start := .uniform 0xFF, cells := [(2, 0), (4, 1), (9, 2)] } 3 5 0xFF).cells =
    [(2, 0), (9, 2)] := by decide

/-- A part of 64 KiB (20_memory.md R80): a program above FLASH_SIZE turns the chip busy all the same, and a read there is a draw
(the MISO draws are 1s). -/
theorem test_small_part :
    let s : State := { idle with dev := { chip 0 (.polls 0) false with flashSize := 65536 } }
    (after (.pp 0x010000 [0xA5]) s).dev.busy = .polls 2 ∧ responses (after (.pp 0x010000 [0xA5]) s) = [[0, 0, 0, 0, 0]] ∧
      responses (after (.read 0x00FFFF 2) s) = [[0, 0, 0, 0, 2, 0x00, 0xFF]] := by decide

/-! The sequencer (10_state.md R42). -/

/-- The frame of WAKE, at its start. -/
def wakeRun : FrameRun := { op := .wake, out := [0xAB], nin := 0, spot := .assert, got := [], after := .wake }

/-- WAKE starts, FL_CS falls, and the first bit goes out. -/
theorem test_sequencer :
    (nextOf awake (beginInstr .wake awake)).seq = .inFrame wakeRun ∧
      (nextOf awake (advance wakeRun awake)).trace = [.set .flCs false] ∧
      (nextOf awake (advance wakeRun awake)).seq = .inFrame { wakeRun with spot := .byte 0 } ∧
      let s : State := { inFrame with shreg := 0xAB, seq := .inFrame { wakeRun with spot := .byte 0 } }
      (nextOf s (sequencerStep s)).trace = writeBitEvents true ∧ (nextOf s (sequencerStep s)).bitcnt = 1 := by decide

/-! The host's side. -/

theorem test_parse_line :
    parseLine ['s', '1', ':', ' ', 'P', 'P', ' ', '0', 'x', '0', '0', '0', '0', '1', '0', ',', ' ', '[', '0', 'x', '0', 'F', ',',
        '0', 'x', 'f', '0', ']', ' ', ';', ' ', '!'] = some (.op (.pp 0x000010 [0x0F, 0xF0])) ∧
      parseLine ['V', 'E', 'R', 'I', 'F', 'Y', '_', 'D', 'A', 'T', 'A', ' ', '2', '5', '6', ',', '3', ',', 'F', 'I', 'L', 'L', '(',
        '0', 'x', 'F', 'F', ')'] = some (.op (.verifyData 256 [0xFF, 0xFF, 0xFF])) ∧
      parseLine ['D', 'U', 'M', 'P', ' ', '0', 'x', '0', '0', '0', '1', 'F', 'E', ',', ' ', '4'] =
        some (.pseudo (.dump 0x0001FE 4)) ∧
      parseLine ['B', 'E'] = none := by decide

/-- DUMP runs SESSION_START, READ_ARBITRARY and SESSION_END (P4, with one byte at the boundary). -/
theorem test_dump : (runPseudo 8 (.dump 0x0001FE 1) released).map responses =
    some [[0, 0, 0, 0, 1, 0], [0, 0, 0, 0, 1, 0xFF], [0, 0, 0, 0, 0]] := by decide

/-! Witnesses: for each statement with hypotheses, a state and operands that meet them together. -/

theorem witness_DecodeEncodeRoundTrip :
    (Instr.pp 0xFFFFFF [0xA5]).wf = true ∧ (Instr.flashData 0 []).wf = true ∧ Instr.readByte.wf = true := by decide

/-- The longest buffer that a len field can give. -/
theorem witness_DecodeEncodeRoundTrip_longest : (Instr.verifyData 0 (List.replicate (2 ^ 32 - 1) 0)).wf = true :=
  short_buffer _ (by rw [List.length_replicate]; decide)

theorem witness_RequestIsReadFromTheFront :
    (Instr.pp 1 [0xA5]).wf = true ∧ encode (.pp 1 [0xA5]) = .request [0x02, 0, 0, 1, 0, 0, 0, 1, 0xA5] ∧
      8 < [0x02, 0, 0, 1, 0, 0, 0, 1, (0xA5 : Byte)].length := by decide

theorem witness_FrameBitPositions : idle.pins.busReady = true := rfl

/-- The bits and the samples of a frame with one byte in each phase, at every clock (R102). -/
theorem witness_FrameBitPositions_clauses :
    let r := frame (addressed 0x03 0x000001 ++ [0x80]) 1 idle
    r.2.pins.busReady = true ∧ mosiAtEdges true r.2.trace =
      [false, false, false, false, false, false, true, true] ++ List.replicate 23 false ++ [true] ++
        (true :: List.replicate 7 false) ++ List.replicate 8 false ∧
      sampleAtEdges r.2.trace = List.replicate 40 none ++ (bitsOfBytes r.1).map some := by decide

theorem witness_PseudoExpansions : Code.teardownFailure ≠ .ok := by decide

theorem witness_StepRunsRequest :
    ({ idle with host := [0xE9, 0, 0, 0, 0, 0, 0, 0, 0xAB] } : State).seq = .portIdle ∧
      decodeRequest ({ idle with host := [0xE9, 0, 0, 0, 0, 0, 0, 0, 0xAB] } : State).host = .ok (.sessionEnd, [0xAB]) :=
  ⟨rfl, rfl⟩

theorem witness_StepRunsRequest_waits : idle.seq = .portIdle ∧ decodeRequest idle.host = .error .incomplete := ⟨rfl, rfl⟩

theorem witness_StepRunsMicroOp :
    ({ idle with seq := .micro [(0x0, 0)] } : State).seq = .micro ((0x0, 0) :: []) ∧ decodeMicro 0x0 0 = .ok .csAssert :=
  ⟨rfl, rfl⟩

theorem witness_StepRunsMicroOp_more :
    ({ idle with seq := .micro (frameWords [0xAB] 0) } : State).seq = .micro ((0x0, 0) :: [(0x4, 0xAB), (0x1, 0)]) ∧
      decodeMicro 0x0 0 = .ok .csAssert := ⟨rfl, rfl⟩

theorem witness_StepRunsTableWord :
    decodeTableWord 8 0xAB = some .wake ∧ decodeTableWord 4 0x5 = some .readByte ∧
      decodeTableWord 8 0x01 = some .csDeassert := by decide

theorem witness_CsAssertDrivesLow : BusHeld idle ∧ BusHeld inFrame := ⟨rfl, rfl⟩

/-- At the end of a WREN frame, of a frame of no bits, of a frame a chip in low-power state ignores, and with FL_CS already
high. -/
theorem witness_CsDeassertDrivesHigh :
    let s : State := { inFrame with dev := { inFrame.dev with fbits := (bitsOfByte 0x06).reverse } }
    BusHeld s ∧ s.pins.flCs = .output false ∧ s.dev.wholeCommand = true ∧ inFrame.dev.fbits = [] ∧
      ({ chip 0 (.polls 0) true with fbits := (bitsOfByte 0x9F).reverse } : Device).ignoresReceived = true ∧
      BusHeld idle ∧ idle.pins.flCs = .output true := ⟨rfl, rfl, rfl, rfl, rfl, rfl, rfl⟩

/-- A program frame cut after its address, and one cut inside it. -/
theorem witness_WholeCommandsTaken :
    ({ inFrame.dev with fbits := (bitsOfBytes [0x02, 0, 0, 0]).reverse } : Device).wholeCommand = true ∧
      ({ inFrame.dev with fbits := (bitsOfBytes [0x02, 0, 0]).reverse } : Device).wholeCommand = false := by decide

theorem witness_WriteBitSendsOneBit : BusHeld inFrame := rfl

theorem witness_ReadBitSamplesMiso : BusHeld inFrame ∧ (after .readBit inFrame).dev.answer = none := ⟨rfl, by decide⟩

/-- The 16th clock of RDSR: the device has an answer. -/
theorem witness_ReadBitSamplesMiso_answer :
    let s : State := { inFrame with dev := { inFrame.dev with fbits := List.replicate 7 true ++ (bitsOfByte 0x05).reverse } }
    BusHeld s ∧ (after .readBit s).dev.answer = some false := ⟨rfl, by decide⟩

theorem witness_WriteByteSendsEightBits : BusHeld inFrame ∧ inFrame.pins.sck = .output false := ⟨rfl, rfl⟩

theorem witness_ReadByteReceivesEightBits : BusHeld inFrame ∧ inFrame.pins.sck = .output false := ⟨rfl, rfl⟩

theorem witness_WhereMicroOpsStop : isHostInstr .csAssert = false ∧ ¬BusHeld released ∧ BusHeld idle := ⟨rfl, nofun, rfl⟩

theorem witness_WhereMicroOpsStop_unused :
    ({ idle with seq := .micro [(0x6, 0)] } : State).seq = .micro ((0x6, 0) :: []) ∧ 6 ≤ (0x6 : BitVec 4).toNat :=
  ⟨rfl, by decide⟩

theorem witness_MosiKeepsLastBitSent_readByte : exec .readByte inFrame = .next (after .readByte inFrame) :=
  next_of _ (by decide)

theorem witness_MosiKeepsLastBitSent_rdsr : InSession idle ∧ exec .rdsr idle = .next (after .rdsr idle) :=
  ⟨⟨nofun, rfl⟩, next_of _ (by decide)⟩

theorem witness_MosiKeepsLastBitSent_read :
    InSession idle ∧ (0xFFFFFF : Addr).toNat + (1 : Count).toNat ≤ 16777216 ∧
      exec (.read 0xFFFFFF 1) idle = .next (after (.read 0xFFFFFF 1) idle) :=
  ⟨⟨nofun, rfl⟩, by decide, next_of _ (by decide)⟩

theorem witness_FrameIsItsMicroOps :
    WireFrame [0x05] 1 ∧ ({ idle with seq := .micro (frameWords [0x05] 1) } : State).pins.busReady = true ∧
      ({ idle with seq := .micro (frameWords [0x05] 1) } : State).seq = .micro (frameWords [0x05] 1) :=
  ⟨.rdsr, rfl, rfl⟩

/-- The longest page program is a frame of the block. -/
theorem witness_FrameIsItsMicroOps_page : WireFrame (addressed 0x02 0 ++ List.replicate 256 0) 0 :=
  .pp _ _ (by simp)

theorem witness_GatedFramesAreIgnored :
    (chip 0 (.polls 0) true).pd = true ∧ (0x05 : Byte) ≠ 0xAB ∧ (chip 0 (.polls 1) false).pd = false ∧
      (chip 0 (.polls 1) false).busy ≠ .polls 0 ∧ (0x02 : Byte) ≠ 0x05 ∧ (chip 0 .forever false).busy ≠ .polls 0 := by
  decide

/-- The last page of the reference part, the latch clear and set. -/
theorem witness_PageProgramClearsBits :
    let d : Device := { idle.dev with wel := true }
    idle.dev.pd = false ∧ idle.dev.busy = .polls 0 ∧ idle.dev.wel = false ∧ d.pd = false ∧ d.busy = .polls 0 ∧
      d.wel = true ∧ (List.replicate 256 (0 : Byte)).length ≤ 256 ∧ (0xFFFFFF : Addr).toNat < d.flashSize ∧
      ∀ i, i < (List.replicate 256 (0 : Byte)).length →
        (0xFFFFFF : Addr).toNat / 256 * 256 + ((0xFFFFFF : Addr).toNat % 256 + i) % 256 < d.flashSize := by
  refine ⟨rfl, rfl, rfl, rfl, rfl, rfl, by simp, by decide, fun i _ => ?_⟩
  show 16776960 + (255 + i) % 256 < 16777216
  omega

/-- The last block of the reference part. -/
theorem witness_BlockEraseSetsBits :
    let d : Device := { idle.dev with wel := true }
    idle.dev.pd = false ∧ idle.dev.busy = .polls 0 ∧ idle.dev.wel = false ∧ d.pd = false ∧ d.busy = .polls 0 ∧
      d.wel = true ∧ (0xFFFFFF : Addr).toNat / 65536 * 65536 + 65536 ≤ d.flashSize :=
  ⟨rfl, rfl, rfl, rfl, rfl, rfl, by decide⟩

theorem witness_RepeatedCommands :
    ({ start := .uniform 0, cells := [(0xFFFFFF, 1)] } : Memory).wf ∧ (List.replicate 256 (0 : Byte)).length ≤ 256 ∧
      [(0x0F : Byte)].length ≤ 256 ∧ 0 < [(0x0F : Byte)].length := by decide

/-- The command ops in a session: the chip ready, asleep, and busy; sess RESET for WAKE. -/
theorem witness_InSession :
    InSession idle ∧ ChipReady idle ∧ InSession { idle with dev := chip 0 (.polls 0) true } ∧
      InSession { idle with dev := chip 0 .forever false } ∧ ¬ChipReady { idle with dev := chip 0 .forever false } ∧
      InSession { idle with sess := .reset } :=
  ⟨⟨nofun, rfl⟩, ⟨rfl, rfl⟩, ⟨nofun, rfl⟩, ⟨nofun, rfl⟩, nofun, ⟨nofun, rfl⟩⟩

theorem witness_WakeWakesTheChip : InSession { awake with sess := .reset, dev := chip 0 (.polls 0) true } := ⟨nofun, rfl⟩

theorem witness_RdsrReturnsStatus :
    InSession awake ∧ awake.dev.pd = false ∧ InSession { awake with dev := chip 0 (.polls 0) true } :=
  ⟨⟨nofun, rfl⟩, rfl, ⟨nofun, rfl⟩⟩

theorem witness_WrenSetsLatch : InSession idle ∧ ChipReady idle := ⟨⟨nofun, rfl⟩, rfl, rfl⟩

theorem witness_WrdiClearsLatch : InSession idle ∧ ChipReady idle := ⟨⟨nofun, rfl⟩, rfl, rfl⟩

/-- The last page of the reference part, and a part it does not fit. -/
theorem witness_PpProgramsPage :
    InSession idle ∧ idle.sess = .idle ∧ (List.replicate 256 (0 : Byte)).length ≤ 256 ∧
      (0xFFFF00 : Addr).toNat + (List.replicate 256 (0 : Byte)).length ≤ 16777216 ∧ ChipReady idle ∧
      ProgramInside idle.dev.flashSize 0xFFFF00 256 ∧ ¬ProgramInside 65536 0xFFFF00 256 := by
  refine ⟨⟨nofun, rfl⟩, rfl, by simp, by simp, ⟨rfl, rfl⟩, ⟨by decide, by decide⟩, ?_⟩
  rintro ⟨h, -⟩
  exact absurd h (by decide)

theorem witness_BeErasesBlock :
    InSession idle ∧ idle.sess = .idle ∧ ChipReady idle ∧ EraseInside idle.dev.flashSize 0xFFFFFF :=
  ⟨⟨nofun, rfl⟩, rfl, ⟨rfl, rfl⟩, by show blockBase 0xFFFFFF + 65536 ≤ 16777216; decide⟩

theorem witness_ReadReturnsFlashBytes :
    InSession idle ∧ (0xFFFFFF : Addr).toNat + (1 : Count).toNat ≤ 16777216 ∧ ChipReady idle ∧ 0 < (1 : Count).toNat ∧
      (0xFFFFFF : Addr).toNat + 0 < idle.dev.flashSize ∧ (0 : Addr).toNat + (16777216 : Count).toNat ≤ 16777216 :=
  ⟨⟨nofun, rfl⟩, by decide, ⟨rfl, rfl⟩, by decide, by decide, by decide⟩

theorem witness_AwaitReadyCompletes :
    InSession { awake with dev := chip 0 (.polls 2) false } ∧ BusyFor 2 { awake with dev := chip 0 (.polls 2) false } ∧
      belowLimit (.count 3) 2 ∧ belowLimit .unbounded 2 :=
  ⟨⟨nofun, rfl⟩, ⟨rfl, rfl⟩, by show 2 < 3; decide, trivial⟩

/-- V31, and a chip that never becomes ready. -/
theorem witness_AwaitReadyTimesOut :
    let s : State := { awake with dev := chip 0 (.polls 3) false }
    let t : State := { awake with dev := chip 0 .forever false }
    InSession s ∧ s.dev.pd = false ∧ s.cfg.pollLimit = .count 3 ∧ 1 ≤ 3 ∧ (∀ k, s.dev.busy = .polls k → 3 ≤ k) ∧
      InSession t ∧ ∀ k, t.dev.busy = .polls k → 3 ≤ k := by
  refine ⟨⟨nofun, rfl⟩, rfl, rfl, by decide, ?_, ⟨nofun, rfl⟩, nofun⟩
  intro k h
  injection h with h
  omega

/-- A poll loop with polls left. -/
def polling : State :=
  { awake with dev := chip 0 .forever false, seq := .awaiting .awaitReady [.returnStatus], pollR := 1 }

theorem witness_BusyPollGoesOnOrEndsTheOp :
    polling.seq = .awaiting .awaitReady [.returnStatus] ∧ polling.sess ≠ .released ∧ polling.pins.busReady = true ∧
      polling.dev.pd = false ∧ polling.dev.busy ≠ .polls 0 ∧ polling.cfg.pollLimit ≠ .count (polling.pollR + 1) ∧
      ({ polling with pollR := 2 } : State).cfg.pollLimit = .count (({ polling with pollR := 2 } : State).pollR + 1) :=
  ⟨rfl, nofun, rfl, rfl, nofun, by decide, rfl⟩

/-- POLL_LIMIT = 1 (00_scope.md R5), the BE's busy count 2. -/
def onePoll : State := { inSession .awake (.count 1) (chip 0x00 (.polls 0) false) [] with
  env := { awake.env with busy := [.polls 2] } }

/-- From VERIFY_DATA's start, and from FLASH_DATA's, at its first await and at its second. -/
theorem witness_BusyPollGoesOnOrEndsTheOp_start :
    let s : State := { onePoll with dev := chip 0 .forever false }
    InSession s ∧ (0 : Addr).toNat + [(0x12 : Byte)].length ≤ 16777216 ∧ s.cfg.pollLimit = .count 1 ∧ StaysBusy 1 s ∧
      (flashPlan 0 [0x12]).length = 2 ∧ AwaitsBusyFor 0 [] [] s ∧
      (∀ k, (s.dev.busy :: []).getLast? = some (.polls k) → 1 ≤ k) ∧ InSession onePoll ∧
      onePoll.cfg.pollLimit = .count 1 ∧ AwaitsBusyFor 1 [0] [.polls 2] onePoll ∧ (∀ k ∈ [0], k < 1) ∧
      ∀ k, (onePoll.dev.busy :: [.polls 2]).getLast? = some (.polls k) → 1 ≤ k := by
  refine ⟨⟨nofun, rfl⟩, by decide, rfl, ⟨rfl, nofun⟩, by decide, ⟨rfl, rfl, rfl, [.polls 2], rfl⟩, nofun, ⟨nofun, rfl⟩, rfl,
    ⟨rfl, rfl, rfl, [], rfl⟩, by decide, ?_⟩
  intro k h
  injection h with h
  injection h with h
  omega

/-- FLASH_DATA with POLL_LIMIT = 1: the first await is ready, the second, after the BE, is not (42_sequences.md R181). -/
theorem test_flashData_timesOut :
    let t := nextOf onePoll (exec (.flashData 0 [0x12]) onePoll)
    t.out.map Response.code = [.deviceNotResponding] ∧ t.progress = 0 ∧ t.sess = .busyErasing ∧ t.pollR = 1 ∧
      framesSent t.tr = 4 := by decide

theorem witness_NeverReadyHangs :
    let s : State := { polling with cfg := holdCfg .unbounded }
    s.seq = .awaiting .awaitReady [.returnStatus] ∧ s.pins.busReady = true ∧ s.dev.pd = false ∧ s.dev.busy = .forever ∧
      s.cfg.pollLimit = .unbounded := ⟨rfl, rfl, rfl, rfl, rfl⟩

/-- From the start: of AWAIT_READY and VERIFY_DATA, and of FLASH_DATA, whose second await meets such a chip. -/
theorem witness_NeverReadyHangs_start :
    let s : State := { awake with dev := chip 0 .forever false, cfg := holdCfg .unbounded }
    let f : State := { awake with cfg := holdCfg .unbounded, env := { awake.env with busy := [.forever] } }
    InSession s ∧ s.dev.pd = false ∧ s.dev.busy = .forever ∧ s.cfg.pollLimit = .unbounded ∧ InSession f ∧
      f.cfg.pollLimit = .unbounded ∧ 1 < (flashPlan 0 [0x12]).length ∧ AwaitsBusyFor 1 [0] [.forever] f ∧
      (f.dev.busy :: [.forever]).getLast? = some .forever :=
  ⟨⟨nofun, rfl⟩, rfl, rfl, rfl, ⟨nofun, rfl⟩, rfl, by decide, ⟨rfl, rfl, rfl, [], rfl⟩, rfl⟩

/-- P1: a busy draw of 1 for the BE, and one that never ends for the PP. -/
def flashing : State := { awake with env := { awake.env with busy := [.polls 1, .forever] } }

theorem witness_FlashDataFollowsPlan :
    InSession flashing ∧ (0 : Addr).toNat + [(0x12 : Byte)].length ≤ 16777216 ∧
      AwaitsBusyFor (chunkCount 1 + pageCount 1) [0, 1] [.polls 1, .forever] flashing ∧
      ∀ j ∈ [0, 1], belowLimit flashing.cfg.pollLimit j := by
  refine ⟨⟨nofun, rfl⟩, by decide, ⟨rfl, rfl, rfl, [], rfl⟩, ?_⟩
  intro j h
  show j < 3
  simp at h
  omega

/-- The plan of one byte at address 0 is a BE and a PP, below the reference FLASH_SIZE. -/
theorem witness_FlashDataFollowsPlan_inside : ∀ st ∈ flashPlan 0 [0x12], st.inside flashing.dev.flashSize := by
  have h : flashPlan 0 [0x12] = [.erase 0, .program 0 [0x12]] := by decide
  rw [h]
  intro st hst
  simp at hst
  rcases hst with rfl | rfl
  · show blockBase 0 + 65536 ≤ 16777216
    decide
  · exact ⟨by decide, by decide⟩

/-- An address that the plan stores to, and one that it does not. -/
theorem witness_FlashDataFollowsPlan_frame :
    (∃ st ∈ flashPlan 0 [0x12], st.storesTo 0xFFFF) ∧ ∀ st ∈ flashPlan 0 [0x12], ¬st.storesTo 0x10000 := by
  have h : flashPlan 0 [0x12] = [.erase 0, .program 0 [0x12]] := by decide
  rw [h]
  refine ⟨⟨.erase 0, by simp, by decide, by decide⟩, ?_⟩
  intro st hst
  simp at hst
  rcases hst with rfl | rfl
  · rintro ⟨-, h2⟩
    exact absurd h2 (by decide)
  · rintro ⟨i, hi, h2⟩
    have hi : i = 0 := by
      simp at hi
      exact hi
    subst hi
    exact absurd h2 (by decide)

/-- The last block of the reference part. -/
theorem witness_FlashDataContents :
    InSession flashing ∧ (0xFF0000 : Addr).toNat % 65536 = 0 ∧ (0xFF0000 : Addr).toNat + [(0x12 : Byte)].length ≤ 16777216 ∧
      (0xFF0000 : Addr).toNat + 65536 * chunkCount 1 ≤ flashing.dev.flashSize ∧
      AwaitsBusyFor (chunkCount 1 + pageCount 1) [0, 1] [.polls 1, .forever] flashing ∧
      (∀ j ∈ [0, 1], belowLimit flashing.cfg.pollLimit j) ∧ [(0x12 : Byte)] ≠ [] := by
  obtain ⟨h1, -, h3, h4⟩ := witness_FlashDataFollowsPlan
  exact ⟨h1, by decide, by decide, by decide, h3, h4, nofun⟩

/-- An empty buffer sends nothing and needs no draw. -/
theorem witness_PartitionCounts_empty :
    InSession idle ∧ (0 : Addr).toNat + ([] : List Byte).length ≤ 16777216 ∧ belowLimit idle.cfg.pollLimit 0 ∧
      AwaitsBusyFor ((0 + 65535) / 65536 + (0 + 255) / 256) [] [] idle ∧
      exec (.flashData 0 []) idle = .next (after (.flashData 0 []) idle) :=
  ⟨⟨nofun, rfl⟩, by decide, by show 0 < 3; decide, ⟨rfl, rfl, rfl, [.polls 2], rfl⟩, next_of _ (by decide)⟩

/-- One byte: a BE and a PP, each met at its first poll (V36). -/
theorem witness_PartitionCounts :
    let s : State := { awake with dev := chip 0xFF (.polls 0) false, env := { awake.env with busy := [.polls 0, .polls 1] } }
    InSession s ∧ (0 : Addr).toNat + [(0x12 : Byte)].length ≤ 16777216 ∧ belowLimit s.cfg.pollLimit 0 ∧
      AwaitsBusyFor ((1 + 65535) / 65536 + (1 + 255) / 256) [0, 0] [.polls 0, .polls 1] s ∧ (∀ k ∈ [0, 0], k = 0) ∧
      exec (.flashData 0 [0x12]) s = .next (after (.flashData 0 [0x12]) s) :=
  ⟨⟨nofun, rfl⟩, by decide, by show 0 < 3; decide, ⟨rfl, rfl, rfl, [], rfl⟩, by decide, next_of _ (by decide)⟩

theorem witness_PartitionCounts_verify :
    InSession idle ∧ (0 : Addr).toNat + [(0xFF : Byte)].length ≤ 16777216 ∧ BusyFor 0 idle ∧
      (0 : Addr).toNat + [(0xFF : Byte)].length ≤ idle.dev.flashSize ∧ belowLimit idle.cfg.pollLimit 0 ∧
      idle.dev.mem.read 0 = [(0xFF : Byte)].getD 0 0 ∧
      exec (.verifyData 0 [0xFF]) idle = .next (after (.verifyData 0 [0xFF]) idle) :=
  ⟨⟨nofun, rfl⟩, by decide, ⟨rfl, rfl⟩, by decide, by show 0 < 3; decide, rfl, next_of _ (by decide)⟩

theorem witness_VerifyDataAccepts :
    InSession idle ∧ (0xFFFFFF : Addr).toNat + [(0xFF : Byte)].length ≤ 16777216 ∧ BusyFor 0 idle ∧
      (0xFFFFFF : Addr).toNat + [(0xFF : Byte)].length ≤ idle.dev.flashSize ∧ belowLimit idle.cfg.pollLimit 0 ∧
      ∀ i, i < [(0xFF : Byte)].length → idle.dev.mem.read ((0xFFFFFF : Addr).toNat + i) = [(0xFF : Byte)].getD i 0 := by
  refine ⟨⟨nofun, rfl⟩, by decide, ⟨rfl, rfl⟩, by decide, by show 0 < 3; decide, ?_⟩
  intro i h
  have h : i = 0 := by
    simp at h
    exact h
  subst h
  decide

/-- The second byte of two differs. -/
theorem witness_VerifyDataReportsFirstDifference :
    InSession idle ∧ (0 : Addr).toNat + [(0xFF : Byte), 0x00].length ≤ 16777216 ∧ BusyFor 0 idle ∧
      (0 : Addr).toNat + min (256 * (1 / 256 + 1)) [(0xFF : Byte), 0x00].length ≤ idle.dev.flashSize ∧
      belowLimit idle.cfg.pollLimit 0 ∧ 1 < [(0xFF : Byte), 0x00].length ∧
      idle.dev.mem.read ((0 : Addr).toNat + 1) ≠ [(0xFF : Byte), 0x00].getD 1 0 ∧
      ∀ i, i < 1 → idle.dev.mem.read ((0 : Addr).toNat + i) = [(0xFF : Byte), 0x00].getD i 0 := by
  refine ⟨⟨nofun, rfl⟩, by decide, ⟨rfl, rfl⟩, by decide, by show 0 < 3; decide, by decide, by decide, ?_⟩
  intro i h
  have h : i = 0 := by omega
  subst h
  decide

theorem witness_RoundTripLaw :
    let s : State := { awake with host := requestBytes 0xE1 0x010000 1 [0x12] ++ requestBytes 0xE2 0x010000 1 [0x12] }
    InSession s ∧ s.seq = .portIdle ∧ (0x010000 : Addr).toNat % 65536 = 0 ∧
      (0x010000 : Addr).toNat + [(0x12 : Byte)].length ≤ 16777216 ∧
      (0x010000 : Addr).toNat + 65536 * chunkCount 1 ≤ s.dev.flashSize ∧ BusyFor 0 s ∧
      s.env.busy = [1, 0].map .polls ++ [] ∧ [1, 0].length = chunkCount 1 + pageCount 1 ∧
      ∀ j ∈ [0, 1, 0], belowLimit s.cfg.pollLimit j := by
  refine ⟨⟨nofun, rfl⟩, rfl, by decide, by decide, by decide, ⟨rfl, rfl⟩, rfl, rfl, ?_⟩
  intro j h
  show j < 3
  simp at h
  omega

/-- The worked value of R185. -/
theorem witness_StatusReportsCsr :
    let s : State := { idle with sess := .busyProgramming, progress := 3 }
    s.lastCode = .ok ∧ s.sessErr = .ok ∧ s.busOwner = .flashSession ∧ s.sess = .busyProgramming ∧ s.progress = 3 :=
  ⟨rfl, rfl, rfl, rfl, rfl⟩

theorem witness_SessionStartTakesTheBus :
    released.sess = .released ∧ released.env.acq = [true, true, true, true, true, true] ++ [] := ⟨rfl, rfl⟩

theorem witness_PinLevelsAfterStart :
    let k : State := { released with cfg := { holdCfg .unbounded with variant := .releaseKeepCs } }
    released.sess = .released ∧ released.env.acq = [true, true, true, true, true, true] ++ [] ∧
      released.cfg.variant = .holdReset ∧ k.sess = .released ∧
      k.env.acq = [true, true, true, true, true, true] ++ [] ∧ k.cfg.variant = .releaseKeepCs :=
  ⟨rfl, rfl, rfl, rfl, rfl, rfl⟩

/-- The last pin cannot be claimed; with k = 0 it is the first. -/
theorem witness_AcquisitionFailureCleansUp :
    let s : State := { released with env := { released.env with acq := List.replicate 5 true ++ [false] } }
    s.sess = .released ∧ s.busOwner = .fpga ∧ s.pins = Pins.allReleased ∧
      s.env.acq = List.replicate 5 true ++ false :: [] ∧
      [Role.fpgaRst, .fpgaCs, .flCs, .mosi, .miso, .sck][5]? = some .sck ∧
      [Role.fpgaRst, .fpgaCs, .flCs, .mosi, .miso, .sck][0]? = some .fpgaRst := ⟨rfl, rfl, rfl, rfl, rfl, rfl⟩

/-- All six owned, and none. -/
theorem witness_ReleaseAllReleasesEveryPin :
    (List.replicate 6 true).length =
        ([Role.fpgaRst, .fpgaCs, .flCs, .mosi, .miso, .sck].filter fun r => (idle.pins.get r).own).length ∧
      idle.env.rel = List.replicate 6 true ++ [] ∧
      ([] : List Bool).length =
        ([Role.fpgaRst, .fpgaCs, .flCs, .mosi, .miso, .sck].filter fun r => (released.pins.get r).own).length := by decide

/-- One release fails; with no session. -/
theorem witness_SessionEndReportsBothOutcomes :
    let s : State := { idle with env := { idle.env with rel := [true, true, false, true, true, true] } }
    s.sess ≠ .released ∧
      roleOrder = ([Role.fpgaRst, .fpgaCs, .flCs, .mosi, .miso, .sck].filter fun r => (s.pins.get r).own) ∧
      [true, true, false, true, true, true].length = roleOrder.length ∧
      s.env.rel = [true, true, false, true, true, true] ++ [] ∧
      some Role.flCs = ((roleOrder.zip [true, true, false, true, true, true]).find? fun x => !x.2).map Prod.fst ∧
      released.sess = .released ∧ exec .wake released = .next (after .wake released) :=
  ⟨nofun, by decide, by decide, rfl, by decide, rfl, rfl⟩

/-- Each check at the value where it starts to fail. -/
theorem witness_ChecksRunInOrder :
    checkTable .sessionStart idle = some ⟨.sessionActive, .absent⟩ ∧
      checkTable .wake released = some ⟨.noSession, .absent⟩ ∧
      checkTable (.pp 0xFFFFFF (List.replicate 257 0)) idle = some ⟨.invalidArgument, .reason .pageTooLong⟩ ∧
      checkTable (.read 0xFFFFFF 2) idle = some ⟨.invalidArgument, .reason .range⟩ ∧
      checkTable (.be 0) awake = some ⟨.notReady, .sess .awake⟩ ∧ checkTable (.read 0xFFFFFF 1) idle = none := by decide

theorem witness_ChecksRunInOrder_none :
    isHostInstr .wake = true ∧ checkTable .wake idle = none ∧ exec .wake idle = .next (after .wake idle) ∧
      (after .wake idle).out = ⟨.ok, .absent, []⟩ :: idle.out := ⟨rfl, by decide, next_of _ (by decide), by decide⟩

/-- An illegal op byte at PORT_IDLE (V64). -/
theorem witness_ChecksRunInOrder_illegal :
    let s : State := { idle with host := [0x07, 0, 0, 0, 0, 0, 0, 0] }
    s.seq = .portIdle ∧ s.host = [0x07, 0, 0, 0, 0, 0, 0, 0] ++ [] ∧ isHostOp 0x07 = false ∧
      responses (nextOf s (step s)) = [[6, 7, 0, 0, 0, 0]] := ⟨rfl, rfl, by decide, by decide⟩

/-- An op that ends OK, one that fails in a session, and SESSION_START in RELEASED. -/
theorem witness_ResultRegistersFollowResponse :
    exec .rdsr idle = .next (after .rdsr idle) ∧ (after .rdsr idle).out = ⟨.ok, .absent, [0xFE]⟩ :: idle.out ∧
      exec (.be 0) awake = .next (after (.be 0) awake) ∧
      (after (.be 0) awake).out = ⟨.notReady, .sess .awake, []⟩ :: awake.out ∧
      exec .sessionStart released = .next (after .sessionStart released) ∧
      (after .sessionStart released).out = ⟨.ok, .absent, []⟩ :: released.out ∧ released.sess = .released ∧
      exec .status idle = .next (after .status idle) :=
  ⟨next_of _ (by decide), by decide, next_of _ (by decide), by decide, next_of _ (by decide), by decide, rfl, rfl⟩

/-- A running op that ends at its last poll. -/
def lastPoll : State := { polling with pollR := 2 }

theorem witness_ResultRegistersFollowResponse_polling :
    lastPoll.seq = .awaiting .awaitReady [.returnStatus] ∧ step lastPoll = .next (nextOf lastPoll (step lastPoll)) ∧
      (nextOf lastPoll (step lastPoll)).out = ⟨.deviceNotResponding, .polls 3 0xFF, []⟩ :: lastPoll.out :=
  ⟨rfl, next_of _ (by decide), by decide⟩

/-- A session between ops meets the invariant. -/
theorem inv_idle : Inv idle := by
  refine ⟨⟨nofun, fun _ => ⟨rfl, ⟨rfl, rfl, rfl⟩, rfl⟩, nofun⟩, trivial, ⟨by decide, rfl⟩, ?_,
    Nat.zero_le 8, ⟨by decide, by decide⟩, legal_holdCfg (by decide), by decide⟩
  intro n h
  injection h with h
  subst h
  exact ⟨by decide, nofun⟩

/-- So does one inside an op's poll loop, at its last poll. -/
theorem inv_lastPoll : Inv lastPoll := by
  refine ⟨⟨nofun, fun _ => ⟨rfl, ⟨rfl, rfl, rfl⟩, rfl⟩, nofun⟩, ⟨nofun, rfl, [], rfl⟩, ⟨by decide, rfl⟩, ?_,
    Nat.zero_le 8, ⟨by decide, by decide⟩, legal_holdCfg (by decide), by decide⟩
  intro n h
  injection h with h
  subst h
  exact ⟨by decide, fun _ _ _ => by decide⟩

theorem witness_CodesAnOpCanReturn :
    Inv lastPoll ∧ lastPoll.seq = .awaiting .awaitReady [.returnStatus] ∧
      step lastPoll = .next (nextOf lastPoll (step lastPoll)) ∧
      (nextOf lastPoll (step lastPoll)).out = ⟨.deviceNotResponding, .polls 3 0xFF, []⟩ :: lastPoll.out :=
  ⟨inv_lastPoll, witness_ResultRegistersFollowResponse_polling⟩

theorem witness_CodesAnOpCanReturn_illegal :
    let s : State := { idle with host := [0x07, 0, 0, 0, 0, 0, 0, 0] }
    s.seq = .portIdle ∧ isHostOp 0x07 = false ∧ step s = .next (nextOf s (step s)) :=
  ⟨rfl, by decide, next_of _ (by decide)⟩

/-- A request that is due in a session. -/
def requested : State := { idle with host := [0xD8, 0, 0, 0, 0, 0, 0, 0] }

theorem witness_EveryStepKeepsInv : Inv requested ∧ step requested = .next (nextOf requested (step requested)) :=
  ⟨inv_idle, next_of _ (by decide)⟩

theorem witness_EveryStepKeepsInv_polling : Inv lastPoll ∧ step lastPoll = .next (nextOf lastPoll (step lastPoll)) :=
  ⟨inv_lastPoll, next_of _ (by decide)⟩

theorem witness_NoStepStops : Inv requested := inv_idle

theorem witness_SessionHoldsBusBetweenOps :
    Inv requested ∧ step requested = .next (nextOf requested (step requested)) := witness_EveryStepKeepsInv

theorem witness_NoBusActivityWithoutSession :
    isHostInstr .wake = true ∧ released.sess = .released ∧ exec .wake released = .next (after .wake released) ∧
      exec .status released = .next (after .status released) ∧
      exec .sessionEnd released = .next (after .sessionEnd released) := ⟨rfl, rfl, rfl, rfl, rfl⟩

/-- Right after the session has begun, one ACQ of each role stands in the trace. -/
theorem witness_EveryStepKeepsReleaseBalance :
    let s : State := { requested with tr := (acquireEvents .holdReset).reverse }
    Inv s ∧ ReleaseBalance s ∧ step s = .next (nextOf s (step s)) := by
  refine ⟨inv_idle, ?_, next_of _ (by decide)⟩
  intro r
  cases r <;> decide

theorem witness_ResponsesAndTraceOnlyGrow : step requested = .next (nextOf requested (step requested)) :=
  next_of _ (by decide)

theorem witness_WiringAndTimesDoNotMatter :
    let c : Cfg := { holdCfg (.count 3) with pinMap := Config.pinMapB, tHalf := .rational 2000 }
    c.variant = idle.cfg.variant ∧ c.pollLimit = idle.cfg.pollLimit ∧ c ≠ idle.cfg := by decide

/-- A request of an active session, one of SESSION_START, and a poll loop. -/
theorem witness_StepIsASequencerRun_start :
    let p : State := { released with host := [0xE8, 0, 0, 0, 0, 0, 0, 0] }
    requested.seq = .portIdle ∧ decodeRequest requested.host = .ok (.be 0, []) ∧ InSession requested ∧
      checkTable (.be 0) requested = none ∧ firstFrame (.be 0) = some ([0x06], 0) ∧ p.seq = .portIdle ∧
      decodeRequest p.host = .ok (.sessionStart, []) ∧ p.sess = .released ∧
      p.env.acq = [true, true, true, true, true, true] ++ [] ∧ polling.seq = .awaiting .awaitReady [.returnStatus] ∧
      polling.pins.busReady = true :=
  ⟨rfl, by decide, ⟨nofun, rfl⟩, by decide, rfl, rfl, by decide, rfl, rfl, rfl, rfl⟩

/-- At each place of a frame: before FL_CS falls, in a byte sent and in one received, at its first bit and at its last, and
before FL_CS rises, after a WREN frame. -/
theorem witness_StepIsASequencerRun_frame :
    let r : FrameRun := { op := .rdsr, out := [0x05], nin := 1, spot := .assert, got := [], after := .reply }
    let place : Spot → Nat → State := fun spot n =>
      { inFrame with bitcnt := n, seq := .inFrame { r with spot := spot } }
    let f : FrameRun :=
      { op := .pp 0 [1], out := [0x06], nin := 0, spot := .deassert, got := [], after := .program 0 [1] 0 [] }
    BusHeld (place .assert 0) ∧ BusHeld (place (.byte 0) 0) ∧ (place (.byte 0) 0).bitcnt < 7 ∧ BusHeld (place (.byte 1) 7) ∧
      (place (.byte 1) 7).bitcnt = 7 ∧ ({ inFrame with seq := .inFrame f } : State).seq = .inFrame f ∧ f.spot = .deassert ∧
      f.after = .program 0 [1] 0 [] :=
  ⟨rfl, rfl, by decide, rfl, rfl, rfl, rfl, rfl⟩

/-- A step, and the stops. -/
theorem witness_StepIsASequencerRun_step :
    step requested = .next (nextOf requested (step requested)) ∧
      step { requested with seq := .micro [(0x6, 0)] } = .refused (.unusedMicroOp 0x6) ∧
      step { polling with pins := Pins.allReleased } = .fault .busNotReady :=
  ⟨next_of _ (by decide), rfl, rfl⟩

end Sys2Proof.Tests
end

section
/-! PROOFS. Every step keeps the invariant of the machine (10_state.md R29, R41, R42; 43_session.md R219). -/

namespace Sys2Proof.Proofs

open Sys2Proof.Machine Sys2Proof.Safety Sys2Proof.Laws

/-- A response leaves the machine at PORT_IDLE and what the invariant speaks of else as it was (41_commands.md R150). -/
theorem inv_answerHost {s : State} (hi : Inv s) (r : Response) : Inv (answerHost r s) := by
  obtain ⟨hbus, -, hflash, hpoll, hrest⟩ := hi
  exact ⟨hbus, trivial, hflash, fun n hn => ⟨(hpoll n hn).1, nofun⟩, hrest⟩

theorem seqInv_of_idle {s : State} (h : s.seq = .portIdle) : SeqInv s := by
  rw [SeqInv, h]
  trivial

/-- Every pin released and the bus given back: the state between sessions (43_session.md R215, R216). -/
theorem inv_giveBackBus {s u : State} (hi : Inv s) (hq : s.seq = .portIdle) (hu : PinsOnly s u)
    (hpins : u.pins = Pins.allReleased) : Inv (giveBackBus u) := by
  obtain ⟨-, -, hflash, hpoll, hrest⟩ := hi
  rw [hu.rest, hpins]
  exact ⟨⟨fun _ => ⟨rfl, rfl⟩, fun h => absurd rfl h, nofun⟩, seqInv_of_idle hq, hflash, hpoll, hrest⟩

/-- Before a session the bus is given back already. -/
theorem giveBackBus_of_released {s u : State} (hi : Inv s) (hs : s.sess = .released) (hu : PinsOnly s u) :
    giveBackBus u = u := by
  obtain ⟨⟨hreleased, -⟩, -⟩ := hi
  have howner : s.busOwner = .fpga := (hreleased hs).1
  rw [hu.rest, giveBackBus, ← hs, ← howner]

/-- A state of a session, reached by a frame from a state of the acquired pins that meets the invariant in all but its bus
(43_session.md R219). -/
theorem inv_of_opened {v w : State} (hi : Inv (giveBackBus { v with pins := Pins.allReleased })) (hq : v.seq = .portIdle)
    (hpins : v.pins = heldPins v.cfg.variant) (howner : v.busOwner = .flashSession) (hk : OpKept v w)
    (hsess : w.sess = .awake) (hdev : w.dev = { v.dev with pd := false, fbits := [] }) (hoffR : w.offR = v.offR)
    (hpollR : w.pollR = v.pollR) : Inv w := by
  obtain ⟨-, -, ⟨hmem, -⟩, hpoll, hbit, ⟨hlen, hoff⟩, hlegal, hsize⟩ := hi
  have hidle : w.seq = .portIdle := hk.seq.trans hq
  have hpins' : SessionPins w.cfg.variant w.pins := by
    refine ⟨?_, ?_, hk.ready⟩ <;> rw [hk.pins, hk.cfg, hpins] <;> rfl
  have hbus : BusInv w := by
    refine ⟨?_, fun _ => ⟨hk.busOwner.trans howner, hpins', by rw [hdev]⟩, ?_⟩ <;> rw [hsess] <;> nofun
  have hpoll' : PollInv w := by
    refine fun n hn => ⟨?_, fun _ _ h => ?_⟩
    · rw [hpollR]
      exact (hpoll n (hk.cfg ▸ hn)).1
    · rw [hidle] at h
      cases h
  refine ⟨hbus, seqInv_of_idle hidle, ⟨hk.mem hmem, by rw [hdev]⟩, hpoll', hk.bitcnt hbit, ⟨?_, ?_⟩, ?_, ?_⟩
  · rw [hk.lenR]
    exact hlen
  · rw [hoffR]
    exact hoff
  · rw [hk.cfg]
    exact hlegal
  · rw [hk.flashSize]
    exact hsize

/-- The WAKE frame on the acquired pins begins a session (43_session.md R214). -/
theorem inv_wakeCore {v : State} (hi : Inv (giveBackBus { v with pins := Pins.allReleased })) (hq : v.seq = .portIdle)
    (hpins : v.pins = heldPins v.cfg.variant) (howner : v.busOwner = .flashSession) (hreset : v.sess = .reset) :
    Inv (wakeCore v) := by
  have hready : v.pins.busReady = true := by rw [hpins]; exact heldPins_busReady _
  refine inv_of_opened hi hq hpins howner (wakeCore_kept hready) ?_ ?_ ?_ ?_ <;> rw [wakeCore_eq hready]
  · exact if_pos hreset
  · exact afterFrame_dev ..
  · exact afterFrame_offR ..
  · exact afterFrame_pollR ..

/-- SESSION_START keeps the invariant: the pins of a failed acquisition are released again (43_session.md R210, R212). -/
theorem inv_startSession {s : State} (hi : Inv s) (hq : s.seq = .portIdle) (hs : s.sess = .released) :
    Inv (startSession s) := by
  have hi' : Inv { s with sessErr := .ok } := hi
  rcases startSession_ends s with ⟨role, u, hu, hpins, he⟩ | ⟨u, hu, hpins, he⟩ <;> rw [he]
  · have hgive := inv_giveBackBus hi' hq hu hpins
    rw [giveBackBus_of_released hi' hs hu] at hgive
    exact inv_finish hgive _ _ _
  · have hu' : PinsOnly { s with sessErr := .ok } { u with pins := Pins.allReleased } := ⟨by rw [hu.rest], hu.tr⟩
    have hgive : Inv (giveBackBus { u with pins := Pins.allReleased }) := inv_giveBackBus hi' hq hu' rfl
    have hpins' : (takeBus u).pins = heldPins (takeBus u).cfg.variant := by
      rw [takeBus_pins, takeBus_cfg, hpins, hu.rest]
    exact inv_finish (inv_wakeCore (v := takeBus u) hgive (by rw [takeBus_seq, hu.rest, hq]) hpins' rfl rfl) _ _ _

/-- SESSION_END keeps the invariant (43_session.md R216). -/
theorem inv_endSession {s : State} (hi : Inv s) (hq : s.seq = .portIdle) : Inv (endSession s) := by
  by_cases hs : s.sess = .released
  · rw [endSession_none hs]
    exact inv_finish hi _ _ _
  · obtain ⟨u, hu, hpins, he⟩ := endSession_ends hs
    have hgive := inv_giveBackBus hi hq hu hpins
    rw [he]
    cases (releaseAll roleOrder s).1 <;> exact inv_finish hgive _ _ _

/-- Loading the operands keeps the invariant (10_state.md R31, R32). -/
theorem inv_loaded {s v : State} (h : Loaded s v) (hi : Inv s) : Inv v := by
  obtain ⟨hbus, hseq, hflash, hpoll, hbit, ⟨hlen, hoff⟩, hrest⟩ := hi
  have hlen' : v.lenR.toNat ≤ 16777216 := h.lenR.elim (fun e => e ▸ hlen) id
  have hoff' : v.offR.toNat ≤ 16777216 := h.offR.elim (fun e => e ▸ hoff) (fun e => by rw [e]; decide)
  rw [h.rest]
  exact ⟨hbus, hseq, hflash, hpoll, hbit, ⟨hlen', hoff'⟩, hrest⟩

/-- However the tasks of an op end, from its start or from one of its awaits, the invariant holds: off_r and poll_r stay in range
(42_sequences.md R180 to R182; 10_state.md R32, R33). -/
theorem inv_of_tasksEnd {op : Instr} {s u t : State} {tasks before : List Task} (hop : opTasks op = before ++ tasks)
    (hfits : pastTheTop op = false) (hi : Inv s) (hs : s.sess ≠ .released) (hk : OpKept s u) (hse : SequenceSess s u)
    (hoff : u.offR = s.offR ∨ Task.setOff u.offR ∈ tasks) (hpoll : PollBound u) (he : TasksEnd op tasks u t) : Inv t := by
  obtain ⟨-, -, -, -, -, ⟨hlen, hoff₀⟩, -⟩ := id hi
  have hoffR : u.offR.toNat ≤ 16777216 := by
    rcases hoff with h | h
    · rwa [h]
    · exact setOff_bound hfits (by rw [hop]; exact List.mem_append_right _ h)
  exact tasksEnd_inv hop hfits hi hs hk hse hoffR hpoll (by rwa [hk.lenR]) he

/-- An op that sends frames keeps the invariant, from its checks on (41_commands.md R150). -/
theorem inv_sentFrames {i : Instr} {s t : State} (hi : Inv s) (hc : checkTable i s = none) (h : SentFrames i s t) : Inv t := by
  obtain ⟨hs, -, v, u, hl, hran, hend⟩ := h
  have hv : Inv v := inv_loaded hl hi
  obtain ⟨-, -, -, hpoll, -, -, hlegal, -⟩ := id hv
  have hsess : v.sess ≠ .released := by rw [hl.rest]; exact hs
  exact inv_of_tasksEnd (before := []) rfl (length_of_checked hc) hv hsess hran.kept hran.sess hran.offR
    (hran.pollR (legal_poll hlegal) fun n hn => (hpoll n hn).1) hend

/-- A host op at PORT_IDLE keeps the invariant. -/
theorem exec_keeps_inv {i : Instr} {s t : State} (hi : Inv s) (hq : s.seq = .portIdle) (hhost : isHostInstr i = true)
    (h : exec i s = .next t) : Inv t := by
  obtain ⟨⟨-, -, hreset⟩, -⟩ := id hi
  cases exec_host hhost hreset h with
  | stopped e _ ht => exact ht ▸ inv_finish hi _ _ _
  | status _ ht => exact ht ▸ inv_answerHost hi _
  | started _ hs ht => exact ht ▸ inv_startSession hi hq hs
  | ended _ ht => exact ht ▸ inv_endSession hi hq
  | sent hc hsent => exact inv_sentFrames hi hc hsent

/-- A pass of a poll loop keeps the invariant (42_sequences.md R180). -/
theorem resume_keeps_inv {op : Instr} {rest : List Task} {s t : State} (hi : Inv s) (hq : s.seq = .awaiting op rest)
    (h : resume op rest s = .next t) : Inv t := by
  obtain ⟨-, hseq, -, hpoll, -⟩ := id hi
  rw [SeqInv, hq] at hseq
  obtain ⟨hs, hfits, before, hop⟩ := hseq
  unfold resume at h
  split at h
  case isFalse => cases h
  case isTrue hready =>
    obtain ⟨u, hk, hse, hoff, hbound, hend⟩ := poll_ends op rest hready (runTasks_ends op rest)
    rw [Host.Outcome.next.inj h] at hend
    exact inv_of_tasksEnd hop hfits hi hs hk hse (hoff.imp_right (List.mem_cons_of_mem _))
      (hbound fun n hn => (hpoll n hn).2 op rest hq) hend

/-- Settles O53: by what the step has due, a request's op, an illegal request or a pass of a poll loop. -/
theorem everyStepKeepsInv : Obligations.EveryStepKeepsInv := by
  intro s t hi h
  have hbetween : (∀ words, s.seq ≠ .micro words) ∧ ∀ f, s.seq ≠ .inFrame f := by
    obtain ⟨-, hseq, -⟩ := hi
    rw [SeqInv] at hseq
    constructor <;> intro _ hq <;> rw [hq] at hseq <;> exact hseq
  rcases step_next hbetween.1 hbetween.2 h with ht | ⟨i, rest, hq, hd, he⟩ | ⟨op, -, -, ht⟩ | ⟨op, rest, hq, hr⟩
  · exact ht ▸ hi
  · exact exec_keeps_inv (s := { s with host := rest }) hi hq (decodeRequest_host hd) he
  · exact ht ▸ inv_finish (s := { s with host := s.host.drop headerLength }) hi _ _ _
  · exact resume_keeps_inv hi hq hr

end Sys2Proof.Proofs
end

section
/-! PROOFS. The bus between ops (10_state.md R29, R41), the machine at reset (R45), the request a step runs (R38, R42), and
where the micro-ops stop. -/

namespace Sys2Proof.Proofs

open Sys2Proof.Machine Sys2Proof.Safety Sys2Proof.Laws

/-- The pins of a ready bus (10_state.md R41). -/
theorem ready_pins {p : Pins} (h : p.busReady = true) :
    p.flCs = .output true ∧ (∃ m, p.mosi = .output m) ∧ p.miso = .input ∧ p.sck = .output false := by
  simp only [Pins.busReady, Pins.busHeld, Bool.and_eq_true, decide_eq_true_eq] at h
  obtain ⟨⟨⟨⟨⟨-, hmosi⟩, -⟩, hmiso⟩, hcs⟩, hsck⟩ := h
  cases hm : p.mosi <;> simp_all [Pin.dir]

/-- All six pins are owned in a session (10_state.md R29). -/
theorem own_of_sessionPins {v : ArbVariant} {p : Pins} (h : SessionPins v p) (r : Role) : (p.get r).own = true := by
  obtain ⟨hrst, hcs, hready⟩ := h
  obtain ⟨hflcs, ⟨m, hmosi⟩, hmiso, hsck⟩ := ready_pins hready
  cases r <;> simp only [Pins.get, hrst, hcs, hflcs, hmosi, hmiso, hsck, Pin.own]
  cases v <;> rfl

/-- Settles O55, from the invariant of the state the step leads to. -/
theorem sessionHoldsBusBetweenOps : Obligations.SessionHoldsBusBetweenOps := by
  intro s t hi h
  obtain ⟨⟨hreleased, hsession, -⟩, -⟩ := everyStepKeepsInv s t hi h
  by_cases hs : t.sess = .released
  · obtain ⟨howner, hpins⟩ := hreleased hs
    simp only [hs, howner, hpins, ne_eq, not_true_eq_false, iff_false, reduceCtorEq, false_implies, true_and,
      and_true]
    exact fun hown => absurd (hown .flCs) (by decide)
  · obtain ⟨howner, hpins, -⟩ := hsession hs
    obtain ⟨-, -, hready⟩ := id hpins
    obtain ⟨hflcs, -, -, hsck⟩ := ready_pins hready
    exact ⟨iff_of_true howner hs, iff_of_true (own_of_sessionPins hpins) hs, fun _ => ⟨hflcs, hsck⟩⟩

/-- Settles O43, by the registers of State.reset. -/
theorem resetState : Obligations.ResetState := by
  refine ⟨fun r => ?_, rfl, rfl, rfl, rfl, rfl, rfl, rfl, rfl, rfl, rfl, rfl, rfl, rfl, rfl⟩
  cases r <;> exact ⟨rfl, rfl⟩

/-- The configuration at construction is a legal one (00_scope.md R5). -/
theorem legal_built : Config.legal Config.built := by
  refine ⟨?_, (Config.freeHalf 0).property, (Config.freeReset 0).property, ?_⟩
  · show (Config.lines (if (Config.lines Config.rawPinMap).Nodup then Config.rawPinMap else Config.pinMapA)).Nodup
    split
    · assumption
    · decide
  · show Config.pollLimitLegal (if Config.pollLimitLegal Config.rawPollLimit then Config.rawPollLimit else .unbounded) = true
    split
    · assumption
    · rfl

theorem flashSizeLegal_flashSize : Config.flashSizeLegal Config.flashSize = true := by
  unfold Config.flashSize
  split
  · assumption
  · decide

/-- Settles O52: no session and no pin, an array none of whose bytes is written, registers at 0, legal parameters. -/
theorem invAtReset : Obligations.InvAtReset :=
  ⟨⟨fun _ => ⟨rfl, rfl⟩, fun h => absurd rfl h, nofun⟩, trivial, ⟨wf_drawn 0, rfl⟩, fun n _ => ⟨Nat.zero_le n, nofun⟩,
    Nat.zero_le 8, ⟨by decide, by decide⟩, legal_built, flashSizeLegal_flashSize⟩

/-- With no whole request on the host port nothing is due (70_reset_and_hazards.md R272). -/
theorem step_waits {s : State} (hq : s.seq = .portIdle) (hd : decodeRequest s.host = .error .incomplete) :
    step s = .next s := by
  simp [step, fetch, hq, fetchRequest, hd]

/-- Settles O7, by the two ways a request can stand on the host port. -/
theorem stepRunsRequest : Obligations.StepRunsRequest :=
  ⟨fun _ _ _ hq hd => step_request hq hd, fun _ hq hd => step_waits hq hd⟩

/-- A micro-op as an instruction is its procedure behind the precondition (40_softspi.md). -/
theorem exec_micro {i : Instr} (h : isHostInstr i = false) : ∃ body, ∀ s, exec i s = runMicro body s := by
  cases i with
  | csAssert => exact ⟨csAssert, fun _ => rfl⟩
  | csDeassert => exact ⟨csDeassert, fun _ => rfl⟩
  | writeBit b => exact ⟨writeBit b, fun _ => rfl⟩
  | readBit => exact ⟨fun s => (readBit s).2, fun _ => rfl⟩
  | writeByte x => exact ⟨writeByte x, fun _ => rfl⟩
  | readByte => exact ⟨readByte, fun _ => rfl⟩
  | _ => cases h

/-- The codes 0x6 to 0xF are no micro-op (30_encoding.md R108 d). -/
theorem decodeMicro_unused {code : BitVec 4} (operand : Byte) (h : 6 ≤ code.toNat) :
    decodeMicro code operand = .error (.unusedMicroOp code) := by
  have hne : ∀ c : BitVec 4, c.toNat < 6 → code ≠ c := fun c hc he => by rw [he] at h; omega
  simp [decodeMicro, hne]

/-- Settles O17, by whether the bus is held, and by the decoder's answer to an unused code. -/
theorem whereMicroOpsStop : Obligations.WhereMicroOpsStop := by
  refine ⟨fun i s hi => ?_, fun s code operand words hq hc => ?_⟩
  · obtain ⟨body, hbody⟩ := exec_micro hi
    rw [hbody s]
    exact ⟨fun hb => if_neg hb, fun hb => ⟨_, runMicro_held body hb⟩⟩
  · simp [step, fetch, hq, decodeMicro_unused operand hc]

end Sys2Proof.Proofs
end

section
/-! PROOFS. A step returns at most one response, the trace only grows, and the configuration and FLASH_SIZE stay
(10_state.md R38, R42, R44, R25), in every state, whatever the pins are. -/

namespace Sys2Proof.Proofs

open Sys2Proof.Machine Sys2Proof.Safety Sys2Proof.Laws

/-! One step, by what is due. -/

/-- Everything a step that answers a next state can be, in any state. -/
theorem step_due {s t : State} (h : step s = .next t) :
    (fetch s = .nothing ∧ t = s) ∨ (∃ i v, fetch s = .instr i v ∧ exec i v = .next t) ∨
      (∃ op v, fetch s = .illegal op v ∧ t = illegalCommand op v) ∨
      (∃ op rest, fetch s = .pollLoop op rest ∧ resume op rest s = .next t) ∨
      ∃ f, fetch s = .frame f ∧ advance f s = .next t := by
  unfold step at h
  split at h
  case h_1 hf => exact .inl ⟨hf, (Host.Outcome.next.inj h).symm⟩
  case h_2 i v hf => exact .inr (.inl ⟨i, v, hf, h⟩)
  case h_3 op v hf => exact .inr (.inr (.inl ⟨op, v, hf, (Host.Outcome.next.inj h).symm⟩))
  case h_4 op rest hf => exact .inr (.inr (.inr (.inl ⟨op, rest, hf, h⟩)))
  case h_5 f hf => exact .inr (.inr (.inr (.inr ⟨f, hf, h⟩)))
  case h_6 => cases h

/-- What is taken off when an instruction or an illegal request is due: bytes of the host port, or a word of the sequencer. -/
theorem fetch_takes {s v : State} (h : (∃ i, fetch s = .instr i v) ∨ ∃ op, fetch s = .illegal op v) :
    v = { s with seq := v.seq, host := v.host } := by
  have hport : (∃ i, fetchRequest s = .instr i v) ∨ (∃ op, fetchRequest s = .illegal op v) →
      v = { s with seq := v.seq, host := v.host } := by
    rcases fetchRequest_cases s with hc | ⟨i, rest, -, hc⟩ | ⟨op, -, hc⟩ <;> rw [hc] <;>
      rintro (⟨_, he⟩ | ⟨_, he⟩) <;> cases he <;> rfl
  unfold fetch at h
  split at h
  case h_1 => exact hport h
  case h_4 => exact hport h
  case h_5 code operand words _ =>
    split at h <;> rcases h with ⟨_, he⟩ | ⟨_, he⟩ <;> cases he
    rfl
  all_goals rcases h with ⟨_, he⟩ | ⟨_, he⟩ <;> cases he

/-! What no operation does before an op ends. -/

/-- No response, no event lost, the same configuration and FLASH_SIZE. -/
structure Quiet (s u : State) : Prop where
  out : u.out = s.out
  tr : ∃ events, u.tr = events ++ s.tr
  cfg : u.cfg = s.cfg
  flashSize : u.dev.flashSize = s.dev.flashSize

theorem Quiet.refl (s : State) : Quiet s s := ⟨rfl, ⟨[], rfl⟩, rfl, rfl⟩

theorem Quiet.trans {s u v : State} (h : Quiet s u) (h' : Quiet u v) : Quiet s v := by
  obtain ⟨events, he⟩ := h.tr
  obtain ⟨events', he'⟩ := h'.tr
  exact ⟨h'.out.trans h.out, ⟨events' ++ events, by rw [he', he, List.append_assoc]⟩, h'.cfg.trans h.cfg,
    h'.flashSize.trans h.flashSize⟩

/-- A change of registers only. -/
theorem Quiet.registers {s u v : State} (h : Quiet s u) (hout : v.out = u.out) (htr : v.tr = u.tr) (hcfg : v.cfg = u.cfg)
    (hdev : v.dev = u.dev) : Quiet s v :=
  h.trans ⟨hout, ⟨[], htr⟩, hcfg, congrArg Device.flashSize hdev⟩

theorem quiet_of_opKept {s u : State} (h : OpKept s u) : Quiet s u := ⟨h.out, h.tr, h.cfg, h.flashSize⟩

theorem quiet_of_pinsOnly {s u : State} (h : PinsOnly s u) : Quiet s u :=
  ⟨by rw [h.rest], h.tr, by rw [h.rest], by rw [h.rest]⟩

/-- A step's end: no response, or one and the sequencer at PORT_IDLE (10_state.md R38, R42). -/
def Answered (s t : State) : Prop := ∃ u, Quiet s u ∧ (t = u ∨ ∃ r, t = answerHost r u)

theorem Quiet.answered {s u : State} (h : Quiet s u) : Answered s u := ⟨u, h, .inl rfl⟩

/-- The op goes on: only registers have changed since. -/
theorem Quiet.goesOn {s u v : State} (h : Quiet s u) (hout : v.out = u.out) (htr : v.tr = u.tr) (hcfg : v.cfg = u.cfg)
    (hdev : v.dev = u.dev) : Answered s v :=
  (h.registers hout htr hcfg hdev).answered

theorem Quiet.finish {s u : State} (h : Quiet s u) (c : Code) (i : Info) (data : List Byte) :
    Answered s (finish c i data u) :=
  ⟨recordResult c i u, h.registers rfl rfl rfl rfl, .inr ⟨_, rfl⟩⟩

theorem Quiet.tasksEnd {op : Instr} {tasks : List Task} {s u t : State} (h : Quiet s u) (he : TasksEnd op tasks u t) :
    Answered s t := by
  cases he with
  | done data ht => exact ht ▸ h.finish _ _ _
  | silent e _ _ ht => exact ht ▸ h.finish _ _ _
  | differs e off a x _ _ ht => exact ht ▸ h.finish _ _ _
  | waits before rest _ _ ht =>
    subst ht
    exact h.goesOn rfl rfl rfl rfl

/-! The micro-ops, whatever the pins are. -/

theorem deselect_flashSize (d : Device) (e : Env) : (d.deselect e).1.flashSize = d.flashSize := by
  unfold Device.deselect
  split
  · exact (takeFrame_keeps _ e).2.2
  · rfl

theorem edge_flashSize (r : Role) (b : Bool) (p : Pins) (d : Device) (e : Env) :
    (edge r b p d e).1.flashSize = d.flashSize := by
  cases r <;> unfold edge <;> simp only
  case flCs =>
    split
    · rfl
    · exact deselect_flashSize d e
    · rfl
  case sck => split <;> rfl

theorem drive_quiet (r : Role) (b : Bool) (s : State) : Quiet s (drive r b s) :=
  ⟨rfl, ⟨[.set r b], rfl⟩, rfl, edge_flashSize ..⟩

theorem delay_quiet (s : State) : Quiet s (delay s) := ⟨rfl, ⟨[.delay], rfl⟩, rfl, rfl⟩

theorem sampleMiso_quiet (s : State) : Quiet s (sampleMiso s).2 := ⟨rfl, ⟨[_], rfl⟩, rfl, rfl⟩

theorem writeBit_quiet (b : Bool) (s : State) : Quiet s (writeBit b s) :=
  (drive_quiet .mosi b s).trans ((drive_quiet ..).trans ((delay_quiet _).trans ((drive_quiet ..).trans (delay_quiet _))))

theorem readBit_quiet (s : State) : Quiet s (readBit s).2 :=
  (drive_quiet .sck true s).trans ((delay_quiet _).trans ((sampleMiso_quiet _).trans ((drive_quiet ..).trans (delay_quiet _))))

theorem shiftOut_quiet (s : State) : Quiet s (shiftOut s) := (writeBit_quiet _ s).registers rfl rfl rfl rfl

theorem shiftIn_quiet (s : State) : Quiet s (shiftIn s) := (readBit_quiet s).registers rfl rfl rfl rfl

theorem loop_quiet {body : State → State} (hb : ∀ s, Quiet s (body s)) : ∀ (n : Nat) (s : State), Quiet s (loop body n s)
  | 0, s => .refl s
  | n + 1, s => (hb s).trans (loop_quiet hb n (body s))

theorem writeByte_quiet (x : Byte) (s : State) : Quiet s (writeByte x s) :=
  ((Quiet.refl s).registers (v := withShift x 0 s) rfl rfl rfl rfl).trans (loop_quiet shiftOut_quiet 8 _)

theorem readByte_quiet (s : State) : Quiet s (readByte s) :=
  ((Quiet.refl s).registers (v := withShift 0 0 s) rfl rfl rfl rfl).trans (loop_quiet shiftIn_quiet 8 _)

/-! A step inside a frame. -/

theorem enterByte_quiet (f : FrameRun) (k : Nat) (s : State) : Quiet s (enterByte f k s) := by
  unfold enterByte
  split
  · exact (Quiet.refl s).registers rfl rfl rfl rfl
  · split <;> exact (Quiet.refl s).registers rfl rfl rfl rfl

theorem Quiet.proceed {op : Instr} : ∀ (tasks : List Task) {s u : State}, Quiet s u → Answered s (proceed op tasks u)
  | [], _, _, h => h.finish _ _ _
  | .await :: _, _, _, h => h.goesOn rfl rfl rfl rfl
  | .erase _ :: _, _, _, h => h.goesOn rfl rfl rfl rfl
  | .program _ _ :: _, _, _, h => h.goesOn rfl rfl rfl rfl
  | .setOff off :: tasks, _, u, h => Quiet.proceed tasks (u := { u with offR := off }) (h.registers rfl rfl rfl rfl)
  | .compare _ _ _ :: _, _, _, h => h.goesOn rfl rfl rfl rfl
  | .returnStatus :: _, _, _, h => h.finish _ _ _

theorem endFrame_answered {op : Instr} {got : List Byte} {s u : State} (h : Quiet s u) (after : FrameEnd) :
    Answered s (endFrame op after got u) := by
  cases after with
  | wake => exact (h.registers (v := wokenUp u) rfl rfl rfl rfl).finish _ _ _
  | reply => exact h.finish _ _ _
  | program a page grow rest => exact h.goesOn rfl rfl rfl rfl
  | programmed grow rest => exact Quiet.proceed rest (h.registers rfl rfl rfl rfl)
  | erase a rest => exact h.goesOn rfl rfl rfl rfl
  | erased rest => exact Quiet.proceed rest (h.registers rfl rfl rfl rfl)
  | polled rest =>
    have hp : Quiet s { u with pollR := u.pollR + 1 } := h.registers rfl rfl rfl rfl
    simp only [endFrame, pollAgain]
    split
    · split
      · exact hp.finish _ _ _
      · exact hp.goesOn rfl rfl rfl rfl
    · exact Quiet.proceed rest (hp.registers rfl rfl rfl rfl)
  | compared off expected rest =>
    simp only [endFrame, compareChunk]
    split
    · exact h.finish _ _ _
    · exact Quiet.proceed rest h

theorem moveBit_quiet (f : FrameRun) (k : Nat) (s : State) : Quiet s (moveBit f k s) := by
  unfold moveBit
  split
  · exact shiftOut_quiet s
  · exact shiftIn_quiet s

theorem moveOn_answered (f : FrameRun) (s : State) : Answered s (moveOn f s) := by
  unfold moveOn
  split
  · exact ((drive_quiet .flCs false s).trans (enterByte_quiet f 0 _)).answered
  · rename_i k _
    simp only
    split
    · exact (moveBit_quiet f k s).answered
    · exact ((moveBit_quiet f k s).trans (enterByte_quiet ..)).answered
  · exact endFrame_answered (drive_quiet .flCs true s) f.after

/-! The instructions. -/

theorem runMicro_answered {body : State → State} {s t : State} (h : runMicro body s = .next t)
    (hb : Answered s (body s)) : Answered s t :=
  (runMicro_next h).2 ▸ hb

theorem startSession_answered (s : State) : Answered s (startSession s) := by
  have hs : Quiet s { s with sessErr := .ok } := (Quiet.refl s).registers rfl rfl rfl rfl
  rcases startSession_ends s with ⟨role, u, hu, -, he⟩ | ⟨u, hu, hpins, he⟩ <;> rw [he]
  · exact (hs.trans (quiet_of_pinsOnly hu)).finish _ _ _
  · have hready : (takeBus u).pins.busReady = true := by
      rw [takeBus_pins, hpins]
      exact heldPins_busReady _
    have ht : Quiet s (takeBus u) := (hs.trans (quiet_of_pinsOnly hu)).registers rfl rfl rfl rfl
    exact (ht.trans (quiet_of_opKept (wakeCore_kept hready))).finish _ _ _

theorem endSession_answered (s : State) : Answered s (endSession s) := by
  by_cases hs : s.sess = .released
  · rw [endSession_none hs]
    exact (Quiet.refl s).finish _ _ _
  · obtain ⟨u, hu, -, he⟩ := endSession_ends hs
    have hg : Quiet s (giveBackBus u) := (quiet_of_pinsOnly hu).registers rfl rfl rfl rfl
    rw [he]
    cases (releaseAll roleOrder s).1 <;> exact hg.finish _ _ _

/-- The one inversion of exec over the host ops, in any state: WAKE alone may find the session in its transient RESET. -/
theorem exec_host_any {i : Instr} {s t : State} (hi : isHostInstr i = true) (h : exec i s = .next t) :
    i = .wake ∨ HostOp i s t := by
  cases i with
  | pp a data => exact .inr (execPp_host h)
  | read a n => exact .inr (execRead_host h)
  | wrdi => exact .inr (execWrdi_host h)
  | rdsr => exact .inr (execRdsr_host h)
  | wren => exact .inr (execWren_host h)
  | be a => exact .inr (execBe_host h)
  | wake => exact .inl rfl
  | awaitReady => exact .inr (execAwaitReady_host h)
  | flashData a data => exact .inr (execFlashData_host h)
  | verifyData a data => exact .inr (execVerifyData_host h)
  | readArbitrary a n => exact .inr (execReadArbitrary_host h)
  | status => exact .inr (execStatus_host h)
  | sessionStart => exact .inr (execSessionStart_host h)
  | sessionEnd => exact .inr (execSessionEnd_host h)
  | _ => cases hi

theorem hostOp_answered {i : Instr} {s t : State} (h : HostOp i s t) : Answered s t := by
  have hs := Quiet.refl s
  cases h with
  | stopped e _ ht => exact ht ▸ hs.finish _ _ _
  | status _ ht => exact ⟨s, hs, .inr ⟨_, ht⟩⟩
  | started _ _ ht => exact ht ▸ startSession_answered s
  | ended _ ht => exact ht ▸ endSession_answered s
  | sent _ hsent =>
    obtain ⟨-, -, v, u, hl, hran, hend⟩ := hsent
    have hv : Quiet s v := by
      rw [hl.rest]
      exact hs.registers rfl rfl rfl rfl
    exact (hv.trans (quiet_of_opKept hran.kept)).tasksEnd hend

theorem wake_answered {s t : State} (h : exec .wake s = .next t) : Answered s t := by
  have h' : runBusOp [checkSession s] (fun s => succeed [] (wakeCore s)) s = .next t := h
  rcases runBusOp_next h' with ⟨e, -, ht⟩ | ⟨-, hready, ht⟩
  · exact ht ▸ (Quiet.refl s).finish _ _ _
  · exact ht ▸ (quiet_of_opKept (wakeCore_kept hready)).finish _ _ _

theorem exec_answered {i : Instr} {s t : State} (h : exec i s = .next t) : Answered s t := by
  cases hi : isHostInstr i
  case true =>
    rcases exec_host_any hi h with rfl | hop
    · exact wake_answered h
    · exact hostOp_answered hop
  case false =>
    cases i with
    | csAssert => exact runMicro_answered h (drive_quiet .flCs false s).answered
    | csDeassert => exact runMicro_answered h (drive_quiet .flCs true s).answered
    | writeBit b => exact runMicro_answered h (writeBit_quiet b s).answered
    | readBit => exact runMicro_answered (body := fun s => (readBit s).2) h (readBit_quiet s).answered
    | writeByte x => exact runMicro_answered h (writeByte_quiet x s).answered
    | readByte => exact runMicro_answered h (readByte_quiet s).answered
    | _ => cases hi

theorem resume_answered {op : Instr} {rest : List Task} {s t : State} (h : resume op rest s = .next t) : Answered s t := by
  unfold resume at h
  split at h
  case isFalse => cases h
  case isTrue hready =>
    obtain ⟨u, hk, -, -, -, hend⟩ := poll_ends op rest hready (runTasks_ends op rest)
    exact Host.Outcome.next.inj h ▸ (quiet_of_opKept hk).tasksEnd hend

theorem step_answered {s t : State} (h : step s = .next t) : Answered s t := by
  have htaken : ∀ {v : State}, (∃ i, fetch s = .instr i v) ∨ (∃ op, fetch s = .illegal op v) → Quiet s v := fun hv => by
    rw [fetch_takes hv]
    exact (Quiet.refl s).registers rfl rfl rfl rfl
  rcases step_due h with ⟨-, ht⟩ | ⟨i, v, hf, he⟩ | ⟨op, v, hf, ht⟩ | ⟨op, rest, -, hr⟩ | ⟨f, -, ha⟩
  · exact ht ▸ (Quiet.refl s).answered
  · obtain ⟨u, hu, hend⟩ := exec_answered he
    exact ⟨u, (htaken (.inl ⟨i, hf⟩)).trans hu, hend⟩
  · exact ht ▸ (htaken (.inr ⟨op, hf⟩)).finish _ _ _
  · exact resume_answered hr
  · exact runMicro_answered ha (moveOn_answered f s)

/-- Settles O58, from what every operation does up to an op's end, and the one response there. -/
theorem responsesAndTraceOnlyGrow : Obligations.ResponsesAndTraceOnlyGrow := by
  intro s t h
  obtain ⟨u, hu, hend⟩ := step_answered h
  obtain ⟨events, he⟩ := hu.tr
  have htrace : u.trace = s.trace ++ events.reverse := by rw [State.trace, he, List.reverse_append]; rfl
  rcases hend with rfl | ⟨r, rfl⟩
  · exact ⟨.inl hu.out, ⟨_, htrace⟩, hu.cfg, hu.flashSize⟩
  · exact ⟨.inr ⟨r, congrArg (r :: ·) hu.out, rfl⟩, ⟨_, htrace⟩, hu.cfg, hu.flashSize⟩

end Sys2Proof.Proofs
end

section
/-! PROOFS. No op and no step depends on a line number, on T_HALF or on T_RST (10_state.md R21, 70_reset_and_hazards.md R291):
every operation commutes with a change of the configuration that keeps the variant and the poll limit. -/

namespace Sys2Proof.Proofs

open Sys2Proof.Machine Sys2Proof.Safety Sys2Proof.Laws

/-! The notion, and how it goes through compositions. -/

/-- The configuration c has the variant and the poll limit of s. -/
def AlikeCfg (c : Cfg) (s : State) : Prop := c.variant = s.cfg.variant ∧ c.pollLimit = s.cfg.pollLimit

/-- The operation does the same with another configuration, and returns the same value. -/
def BlindWith {α : Type} (f : State → α × State) : Prop :=
  ∀ c s, AlikeCfg c s → f (withCfg c s) = ((f s).1, withCfg c (f s).2)

/-- The operation does the same with another configuration. -/
def Blind (f : State → State) : Prop := ∀ c s, AlikeCfg c s → f (withCfg c s) = withCfg c (f s)

/-- Such an operation leaves the configuration alone: with the state's own configuration nothing changes. -/
theorem BlindWith.alike {α : Type} {f : State → α × State} (hf : BlindWith f) {c : Cfg} {s : State} (h : AlikeCfg c s) :
    AlikeCfg c (f s).2 := by
  have hcfg : (f s).2.cfg = s.cfg := congrArg (fun x => x.2.cfg) (hf s.cfg s ⟨rfl, rfl⟩)
  rw [AlikeCfg, hcfg]
  exact h

theorem Blind.alike {f : State → State} (hf : Blind f) {c : Cfg} {s : State} (h : AlikeCfg c s) : AlikeCfg c (f s) := by
  have hown : f s = withCfg s.cfg (f s) := hf s.cfg s ⟨rfl, rfl⟩
  have hcfg : (f s).cfg = s.cfg := by rw [hown]; rfl
  rw [AlikeCfg, hcfg]
  exact h

theorem Blind.id : Blind fun s => s := fun _ _ _ => rfl

theorem Blind.comp {f g : State → State} (hg : Blind g) (hf : Blind f) : Blind fun s => g (f s) := fun c s h => by
  show g (f (withCfg c s)) = _
  rw [hf c s h, hg c (f s) (hf.alike h)]

theorem Blind.bind {α : Type} {f : State → α × State} {g : α → State → State} (hf : BlindWith f) (hg : ∀ a, Blind (g a)) :
    Blind fun s => g (f s).1 (f s).2 := fun c s h => by
  show g (f (withCfg c s)).1 (f (withCfg c s)).2 = _
  rw [hf c s h, hg _ c (f s).2 (hf.alike h)]

theorem Blind.ite {p : State → Prop} [DecidablePred p] {f g : State → State}
    (hp : ∀ c s, AlikeCfg c s → (p (withCfg c s) ↔ p s)) (hf : Blind f) (hg : Blind g) :
    Blind fun s => if p s then f s else g s := fun c s h => by
  show (if p (withCfg c s) then f (withCfg c s) else g (withCfg c s)) = withCfg c (if p s then f s else g s)
  rw [if_congr (hp c s h) (hf c s h) (hg c s h)]
  split <;> rfl

/-! The micro-ops and frames. -/

theorem writeBit_blind (b : Bool) : Blind (writeBit b) := fun _ _ _ => rfl

theorem readBit_blind : BlindWith readBit := fun _ _ _ => rfl

theorem shiftOut_blind : Blind shiftOut := fun _ _ _ => rfl

theorem shiftIn_blind : Blind shiftIn := fun _ _ _ => rfl

theorem csAssert_blind : Blind csAssert := fun _ _ _ => rfl

theorem csDeassert_blind : Blind csDeassert := fun _ _ _ => rfl

theorem loop_blind {body : State → State} (hb : Blind body) : ∀ n : Nat, Blind (loop body n)
  | 0 => .id
  | n + 1 => (loop_blind hb n).comp hb

theorem writeByte_blind (x : Byte) : Blind (writeByte x) :=
  (loop_blind shiftOut_blind 8).comp (f := withShift x 0) fun _ _ _ => rfl

theorem readByte_blind : Blind readByte :=
  (loop_blind shiftIn_blind 8).comp (f := withShift 0 0) fun _ _ _ => rfl

theorem sendBytes_blind : ∀ out : List Byte, Blind (sendBytes out)
  | [] => .id
  | x :: out => (sendBytes_blind out).comp (writeByte_blind x)

theorem receiveBytes_blind : ∀ n : Nat, BlindWith (receiveBytes n)
  | 0 => fun _ _ _ => rfl
  | n + 1 => fun c s h => by
    simp only [receiveBytes, readByte_blind c s h, receiveBytes_blind n c _ (readByte_blind.alike h)]
    rfl

theorem frame_blind (out : List Byte) (n : Nat) : BlindWith (frame out n) := fun c s h => by
  have hsent := (sendBytes_blind out).comp csAssert_blind
  simp only [frame, hsent c s h, receiveBytes_blind n c _ (hsent.alike h)]
  rfl

theorem sendFrame_blind (out : List Byte) : Blind (sendFrame out) :=
  Blind.bind (frame_blind out 0) (g := fun _ s => s) fun _ => .id

/-! The core procedures and the tasks. -/

theorem wakeCore_blind : Blind wakeCore := Blind.comp (g := wokenUp) (fun _ _ _ => rfl) (sendFrame_blind [0xAB])

theorem rdsrCore_blind : Blind rdsrCore := Blind.bind (frame_blind [0x05] 1) (g := fun _ s => s) fun _ => .id

theorem loadAddr_blind (a : Addr) : Blind (loadAddr a) := fun _ _ _ => rfl

theorem finish_blind (c : Code) (i : Info) (data : List Byte) : Blind (finish c i data) := fun _ _ _ => rfl

theorem beginFrame_blind (op : Instr) (out : List Byte) (n : Nat) (after : FrameEnd) : Blind (beginFrame op out n after) :=
  fun _ _ _ => rfl

theorem ppCore_blind (a : Addr) (data : List Byte) : Blind (ppCore a data) :=
  Blind.comp (g := fun s => { s with sess := .busyProgramming }) (fun _ _ _ => rfl)
    ((sendFrame_blind (addressed 0x02 a ++ data)).comp (sendFrame_blind [0x06]))

theorem beCore_blind (a : Addr) : Blind (beCore a) :=
  Blind.comp (g := fun s => { s with sess := .busyErasing }) (fun _ _ _ => rfl)
    ((sendFrame_blind (addressed 0xD8 a)).comp (sendFrame_blind [0x06]))

theorem pollsUsedUp_withCfg {c : Cfg} {s : State} (h : AlikeCfg c s) : pollsUsedUp (withCfg c s) = pollsUsedUp s := by
  show (match c.pollLimit with | .unbounded => false | .count n => decide (s.pollR = n)) = _
  rw [h.2]
  rfl

theorem pollAgain_blind (op : Instr) (rest : List Task) : Blind (pollAgain op rest) :=
  Blind.ite (fun _ _ h => by rw [pollsUsedUp_withCfg h]) (fun _ _ _ => rfl) (fun _ _ _ => rfl)

theorem poll_blind (op : Instr) (rest : List Task) {andThen : State → State} (h : Blind andThen) :
    Blind (poll op rest andThen) := by
  have hread : Blind fun s => { rdsrCore s with pollR := (rdsrCore s).pollR + 1 } :=
    Blind.comp (g := fun s => { s with pollR := s.pollR + 1 }) (fun _ _ _ => rfl) rdsrCore_blind
  have hnext : Blind fun s => andThen { s with sess := .idle } := h.comp fun _ _ _ => rfl
  exact (Blind.ite (p := fun s => busyFlag s.shreg = true) (fun _ _ _ => .rfl) (pollAgain_blind op rest) hnext).comp hread

theorem compareChunk_blind (off : Nat) (expected r : List Byte) {andThen : State → State} (h : Blind andThen) :
    Blind (compareChunk off expected r andThen) := by
  unfold compareChunk
  split
  · exact finish_blind _ _ _
  · exact h

theorem programPage_blind (a : Addr) (page : List Byte) : Blind (programPage a page) :=
  Blind.comp (g := fun s => { s with progress := s.progress + BitVec.ofNat 32 page.length }) (fun _ _ _ => rfl)
    ((ppCore_blind a page).comp (loadAddr_blind a))

theorem runTasks_blind (op : Instr) (tasks : List Task) : Blind (runTasks op tasks) := by
  induction tasks with
  | nil => exact finish_blind _ _ _
  | cons task rest ih =>
    cases task with
    | await => exact (poll_blind op rest ih).comp (f := fun s => { s with pollR := 0 }) fun _ _ _ => rfl
    | erase a => exact ih.comp ((beCore_blind a).comp (loadAddr_blind a))
    | program a page => exact ih.comp (programPage_blind a page)
    | setOff off => exact ih.comp (f := fun s => { s with offR := off }) fun _ _ _ => rfl
    | compare off a expected =>
      exact (Blind.bind (frame_blind (addressed 0x03 a) expected.length) fun r =>
        compareChunk_blind off expected r ih).comp (loadAddr_blind a)
    | returnStatus => exact fun _ _ _ => rfl

theorem readBody_blind (a : Addr) (n : Count) : Blind (readBody a n) :=
  Blind.comp (f := fun s => loadLen n.toNat (loadAddr a s))
    (Blind.bind (frame_blind (addressed 0x03 a) n.toNat) fun data => finish_blind .ok .absent data) fun _ _ _ => rfl

/-! Sessions. -/

theorem acquireAll_blind : ∀ roles : List Role, BlindWith (acquireAll roles)
  | [] => fun _ _ _ => rfl
  | r :: roles => fun c s h => by
    have hacquire : ∀ e, acquire r (withCfg c { s with env := e }) = withCfg c (acquire r { s with env := e }) := fun e => by
      simp only [acquire, withCfg, h.1]
    have hdraw : ({ withCfg c s with env := s.env.drawAcq.2 } : State) = withCfg c { s with env := s.env.drawAcq.2 } := rfl
    simp only [acquireAll, show (withCfg c s).env = s.env from rfl, hdraw, hacquire,
      acquireAll_blind roles c (acquire r { s with env := s.env.drawAcq.2 }) h]
    split <;> rfl

theorem releaseAll_blind : ∀ roles : List Role, BlindWith (releaseAll roles)
  | [] => fun _ _ _ => rfl
  | r :: roles => fun c s h => by
    have hrelease : release r (withCfg c s) = withCfg c (release r s) := rfl
    simp only [releaseAll, show (withCfg c s).pins = s.pins from rfl, show (withCfg c s).env = s.env from rfl, hrelease,
      releaseAll_blind roles c (release r s) h, releaseAll_blind roles c s h]
    split <;> rfl

theorem fpgaResetSeq_blind : Blind fpgaResetSeq := fun c s h => by
  have hv : (hold (withCfg c s)).cfg.variant = (hold s).cfg.variant := h.1
  unfold fpgaResetSeq
  simp only [hv]
  split <;> rfl

theorem takeBus_blind : Blind takeBus := fun _ _ _ => rfl

/-- SESSION_START after its acquisition, for whatever follows the transfer of the bus. -/
theorem afterAcquisition_blind {began : State → State} (hb : Blind began) (failed : Option Role) :
    Blind fun s => match failed with
      | some role => raise ⟨.acquisitionFailure, .role role⟩ (releaseAll roleOrder s).2
      | none => began (takeBus (fpgaResetSeq s)) := by
  cases failed with
  | some role => exact Blind.bind (releaseAll_blind roleOrder) (g := fun _ => raise _) fun _ => finish_blind _ _ _
  | none => exact hb.comp (takeBus_blind.comp fpgaResetSeq_blind)

theorem startSession_blind : Blind startSession :=
  Blind.comp (f := fun s => { s with sessErr := .ok })
    (Blind.bind (acquireAll_blind roleOrder)
      (afterAcquisition_blind ((finish_blind .ok .absent []).comp wakeCore_blind)))
    fun _ _ _ => rfl

theorem reportSession_blind (failed : Option Role) : Blind (reportSession failed) := by
  cases failed <;> exact fun _ _ _ => rfl

theorem endSession_blind : Blind endSession := fun c s h => by
  have hend : Blind fun s => reportSession (releaseAll roleOrder s).1 (giveBackBus (releaseAll roleOrder s).2) :=
    Blind.bind (releaseAll_blind roleOrder) (g := fun failed s => reportSession failed (giveBackBus s)) fun failed =>
      (reportSession_blind failed).comp fun _ _ _ => rfl
  exact Blind.ite (p := fun s => s.sess = .released) (fun _ _ _ => .rfl) (finish_blind .ok .absent []) hend c s h

/-! A step inside a frame. -/

theorem enterByte_blind (f : FrameRun) (k : Nat) : Blind (enterByte f k) := fun c s _ => by
  unfold enterByte
  split
  · rfl
  · split <;> rfl

theorem proceed_blind (op : Instr) : ∀ tasks : List Task, Blind (proceed op tasks)
  | [] => finish_blind _ _ _
  | .await :: _ => fun _ _ _ => rfl
  | .erase _ :: _ => fun _ _ _ => rfl
  | .program _ _ :: _ => fun _ _ _ => rfl
  | .setOff off :: rest => (proceed_blind op rest).comp (f := fun s => { s with offR := off }) fun _ _ _ => rfl
  | .compare _ _ _ :: _ => fun _ _ _ => rfl
  | .returnStatus :: _ => fun _ _ _ => rfl

theorem endFrame_blind (op : Instr) (after : FrameEnd) (got : List Byte) : Blind (endFrame op after got) := by
  cases after with
  | wake => exact fun _ _ _ => rfl
  | reply => exact finish_blind _ _ _
  | program a page grow rest => exact beginFrame_blind _ _ _ _
  | programmed grow rest => exact (proceed_blind op rest).comp fun _ _ _ => rfl
  | erase a rest => exact beginFrame_blind _ _ _ _
  | erased rest => exact (proceed_blind op rest).comp fun _ _ _ => rfl
  | polled rest =>
    have hnext : Blind fun s => proceed op rest { s with sess := .idle } := (proceed_blind op rest).comp fun _ _ _ => rfl
    exact (Blind.ite (p := fun s => busyFlag s.shreg = true) (fun _ _ _ => .rfl) (pollAgain_blind op rest) hnext).comp
      (f := fun s => { s with pollR := s.pollR + 1 }) fun _ _ _ => rfl
  | compared off expected rest => exact compareChunk_blind off expected got (proceed_blind op rest)

theorem moveBit_blind (f : FrameRun) (k : Nat) : Blind (moveBit f k) := by
  by_cases h : k < f.out.length
  · rw [moveBit_sends h]
    exact shiftOut_blind
  · rw [moveBit_receives h]
    exact shiftIn_blind

theorem moveOn_blind (f : FrameRun) : Blind (moveOn f) := by
  unfold moveOn
  split
  · exact (enterByte_blind f 0).comp csAssert_blind
  · rename_i k _
    have hnext : Blind fun s => enterByte (collect f k s.shreg) (k + 1) s := fun c s h => enterByte_blind _ _ c s h
    exact (Blind.ite (p := fun s => s.bitcnt < 8) (fun _ _ _ => .rfl) .id hnext).comp (moveBit_blind f k)
  · exact (endFrame_blind f.op f.after f.got).comp csDeassert_blind

/-! The instructions. -/

theorem runOp_withCfg {checks : List (Option Stop)} {body : State → State} (hb : Blind body) {c : Cfg} {s : State}
    (h : AlikeCfg c s) : runOp checks body (withCfg c s) = mapNext (withCfg c) (runOp checks body s) := by
  unfold runOp
  split
  · rfl
  · rw [hb c s h]
    rfl

theorem runBusOp_withCfg {checks : List (Option Stop)} {body : State → State} (hb : Blind body) {c : Cfg} {s : State}
    (h : AlikeCfg c s) : runBusOp checks body (withCfg c s) = mapNext (withCfg c) (runBusOp checks body s) := by
  unfold runBusOp
  split
  · rfl
  · rw [hb c s h, show (withCfg c s).pins = s.pins from rfl]
    split <;> rfl

theorem runMicro_withCfg {body : State → State} (hb : Blind body) {c : Cfg} {s : State} (h : AlikeCfg c s) :
    runMicro body (withCfg c s) = mapNext (withCfg c) (runMicro body s) := by
  unfold runMicro
  rw [hb c s h, show (withCfg c s).pins = s.pins from rfl]
  split <;> rfl

theorem exec_withCfg (i : Instr) {c : Cfg} {s : State} (h : AlikeCfg c s) :
    exec i (withCfg c s) = mapNext (withCfg c) (exec i s) := by
  have hok : ∀ data, Blind (succeed data) := fun data => finish_blind .ok .absent data
  cases i with
  | pp a data =>
    have hload : Blind fun s => loadLen data.length (loadAddr a s) := fun _ _ _ => rfl
    exact runBusOp_withCfg ((hok []).comp ((ppCore_blind a data).comp hload)) h
  | read a n => exact runBusOp_withCfg (readBody_blind a n) h
  | wrdi => exact runBusOp_withCfg ((hok []).comp (sendFrame_blind [0x04])) h
  | rdsr => exact runBusOp_withCfg (Blind.bind (frame_blind [0x05] 1) hok) h
  | wren => exact runBusOp_withCfg ((hok []).comp (sendFrame_blind [0x06])) h
  | be a => exact runBusOp_withCfg ((hok []).comp ((beCore_blind a).comp (loadAddr_blind a))) h
  | wake => exact runBusOp_withCfg ((hok []).comp wakeCore_blind) h
  | awaitReady => exact runBusOp_withCfg (runTasks_blind _ _) h
  | flashData a data =>
    have hload : Blind fun s => { loadLen data.length s with progress := 0, offR := 0 } := fun _ _ _ => rfl
    exact runBusOp_withCfg ((runTasks_blind _ _).comp hload) h
  | verifyData a data =>
    have hload : Blind (loadLen data.length) := fun _ _ _ => rfl
    exact runBusOp_withCfg ((runTasks_blind _ _).comp hload) h
  | readArbitrary a n => exact runBusOp_withCfg (readBody_blind a n) h
  | status => rfl
  | sessionStart => exact runOp_withCfg startSession_blind h
  | sessionEnd => exact runOp_withCfg (checks := []) endSession_blind h
  | csAssert => exact runMicro_withCfg csAssert_blind h
  | csDeassert => exact runMicro_withCfg csDeassert_blind h
  | writeBit b => exact runMicro_withCfg (writeBit_blind b) h
  | readBit => exact runMicro_withCfg (Blind.bind readBit_blind (g := fun _ s => s) fun _ => .id) h
  | writeByte x => exact runMicro_withCfg (writeByte_blind x) h
  | readByte => exact runMicro_withCfg readByte_blind h

/-! One step. -/

/-- What is due, with the configuration of the state it is due in changed. -/
def dueWithCfg (c : Cfg) : Due → Due
  | .nothing => .nothing
  | .instr i s => .instr i (withCfg c s)
  | .illegal op s => .illegal op (withCfg c s)
  | .pollLoop op rest => .pollLoop op rest
  | .frame f => .frame f
  | .unused code => .unused code

theorem fetchRequest_withCfg (c : Cfg) (s : State) : fetchRequest (withCfg c s) = dueWithCfg c (fetchRequest s) := by
  unfold fetchRequest
  rw [show (withCfg c s).host = s.host from rfl]
  cases decodeRequest s.host with
  | ok request => rfl
  | error e => cases e <;> rfl

theorem fetch_withCfg (c : Cfg) (s : State) : fetch (withCfg c s) = dueWithCfg c (fetch s) := by
  unfold fetch
  rw [show (withCfg c s).seq = s.seq from rfl]
  split
  · exact fetchRequest_withCfg c s
  · rfl
  · rfl
  · exact fetchRequest_withCfg c s
  · split <;> rfl

theorem resume_withCfg (op : Instr) (rest : List Task) {c : Cfg} {s : State} (h : AlikeCfg c s) :
    resume op rest (withCfg c s) = mapNext (withCfg c) (resume op rest s) := by
  unfold resume
  rw [poll_blind op rest (runTasks_blind op rest) c s h, show (withCfg c s).pins = s.pins from rfl]
  split <;> rfl

theorem step_withCfg {c : Cfg} {s : State} (h : AlikeCfg c s) : step (withCfg c s) = mapNext (withCfg c) (step s) := by
  rw [step, step, fetch_withCfg]
  cases hf : fetch s with
  | nothing => rfl
  | instr i v =>
    have hv : AlikeCfg c v := by
      rw [fetch_takes (.inl ⟨i, hf⟩)]
      exact h
    exact exec_withCfg i hv
  | illegal op v => rfl
  | pollLoop op rest => exact resume_withCfg op rest h
  | frame f => exact runMicro_withCfg (moveOn_blind f) h
  | unused code => rfl

/-- Settles O59: every operation commutes with the change of configuration. -/
theorem wiringAndTimesDoNotMatter : Obligations.WiringAndTimesDoNotMatter :=
  fun _ _ hv hp => ⟨fun i => exec_withCfg i ⟨hv, hp⟩, step_withCfg ⟨hv, hp⟩⟩

end Sys2Proof.Proofs
end

section
/-! PROOFS. The sequencer goes through an op frame by frame and bit by bit, and a step of the machine is a run of it
(10_state.md R42, 40_softspi.md R130 to R136). -/

namespace Sys2Proof.Proofs

open Sys2Proof.Machine Sys2Proof.Safety Sys2Proof.Laws

theorem traceGrew_of_tr {events : List Event} {s t : State} (h : t.tr = events.reverse ++ s.tr) : TraceGrew events s t := by
  rw [TraceGrew, State.trace, h, List.reverse_append, List.reverse_reverse]
  rfl

/-! The start of an op. -/

theorem sequencerStep_request {s : State} {i : Instr} {rest : List Byte} (hq : s.seq = .portIdle)
    (hd : decodeRequest s.host = .ok (i, rest)) : sequencerStep s = beginInstr i { s with host := rest } := by
  simp [sequencerStep, fetch, hq, fetchRequest, hd]

/-- What the checks of page length and session state let through, read off the table of 60_exceptions.md R233. -/
theorem page_and_idle_of_checked {s : State} {i : Instr} (h : checkTable i s = none) :
    pageTooLong i = false ∧ (isProgramOrErase i = true → s.sess = .idle) := by
  unfold checkTable at h
  split_ifs at h with _ _ hpage _ hidle
  exact ⟨by simpa using hpage, fun hi => by_contra fun hs => hidle ⟨hi, hs⟩⟩

/-- The op i stands at the start of its first frame, nothing sent yet, and all but its registers is as in s. -/
def AtFirstFrame (i : Instr) (out : List Byte) (nin : Nat) (s t : State) : Prop :=
  ∃ after, t.seq = atFrame i out nin after ∧ t.tr = s.tr ∧ t.pins = s.pins ∧ t.dev = s.dev ∧ t.sess = s.sess ∧
    t.out = s.out ∧ t.host = s.host

theorem busOp_atFirstFrame {i : Instr} {checks : List (Option Stop)} {begun : State → State} {s : State} {out : List Byte}
    {nin : Nat} (hc : firstStop checks = none) (hready : s.pins.busReady = true) (h : AtFirstFrame i out nin s (begun s)) :
    ∃ t, runBusOp checks begun s = .next t ∧ AtFirstFrame i out nin s t :=
  ⟨_, runBusOp_checked begun hc hready, h⟩

theorem beginInstr_atFirstFrame {i : Instr} {s : State} {out : List Byte} {nin : Nat} (hs : InSession s)
    (hc : checkTable i s = none) (hf : firstFrame i = some (out, nin)) :
    ∃ t, beginInstr i s = .next t ∧ AtFirstFrame i out nin s t := by
  obtain ⟨hsess, hready⟩ := hs
  obtain ⟨hpage, hidle⟩ := page_and_idle_of_checked hc
  have hfits := length_of_checked hc
  have h₁ : firstStop [checkSession s] = none := by rw [checkSession_active hsess]; rfl
  have h₂ : ∀ (a : Addr) (n : Nat), pastTheTop i = decide (16777216 < a.toNat + n) →
      firstStop [checkSession s, checkRange a n] = none := fun a n hn => by
    have hle : a.toNat + n ≤ 16777216 := by simpa [hn] using hfits
    rw [checkSession_active hsess, checkRange_fits hle]
    rfl
  cases i with
  | pp a data =>
    simp only [pageTooLong, pastTheTop, decide_eq_false_iff_not, Nat.not_lt] at hpage hfits
    have hchecks : firstStop [checkSession s, checkPageLength data.length, checkRange a data.length, checkIdle s] = none := by
      rw [checkSession_active hsess, checkPageLength_fits hpage, checkRange_fits hfits, checkIdle_idle (hidle rfl)]
      rfl
    cases hf
    rw [beginInstr]
    exact busOp_atFirstFrame hchecks hready ⟨_, rfl, rfl, rfl, rfl, rfl, rfl, rfl⟩
  | be a =>
    have hchecks : firstStop [checkSession s, checkIdle s] = none := by
      rw [checkSession_active hsess, checkIdle_idle (hidle rfl)]
      rfl
    cases hf
    rw [beginInstr]
    exact busOp_atFirstFrame hchecks hready ⟨_, rfl, rfl, rfl, rfl, rfl, rfl, rfl⟩
  | read a n =>
    cases hf
    rw [beginInstr]
    exact busOp_atFirstFrame (h₂ a n.toNat rfl) hready ⟨_, rfl, rfl, rfl, rfl, rfl, rfl, rfl⟩
  | readArbitrary a n =>
    cases hf
    rw [beginInstr]
    exact busOp_atFirstFrame (h₂ a n.toNat rfl) hready ⟨_, rfl, rfl, rfl, rfl, rfl, rfl, rfl⟩
  | verifyData a data =>
    cases hf
    rw [beginInstr]
    exact busOp_atFirstFrame (h₂ a data.length rfl) hready ⟨_, rfl, rfl, rfl, rfl, rfl, rfl, rfl⟩
  | flashData a data =>
    cases data with
    | nil => cases hf
    | cons b buf =>
      cases hf
      rw [beginInstr]
      exact busOp_atFirstFrame (h₂ a (b :: buf).length rfl) hready ⟨_, rfl, rfl, rfl, rfl, rfl, rfl, rfl⟩
  | wrdi | rdsr | wren | wake | awaitReady =>
    cases hf
    rw [beginInstr]
    exact busOp_atFirstFrame h₁ hready ⟨_, rfl, rfl, rfl, rfl, rfl, rfl, rfl⟩
  | status | sessionStart | sessionEnd | csAssert | csDeassert | writeBit | readBit | writeByte | readByte => cases hf

/-- An acquisition that succeeds leaves the pins of a ready bus after the FPGA reset sequence (43_session.md R211, R213). -/
theorem fpgaResetSeq_acquired {s : State} (h : (acquireAll roleOrder s).1 = none) :
    (fpgaResetSeq (acquireAll roleOrder s).2).pins = heldPins s.cfg.variant := by
  have hcfg : (acquireAll roleOrder s).2.cfg = s.cfg := by rw [(acquireAll_pinsOnly roleOrder s).rest]
  rw [fpgaResetSeq_eq (by rw [acquireAll_pins h, hcfg]), hcfg]
  rfl

/-- SESSION_START, its six pins claimed, stands at the start of its WAKE frame (43_session.md R210 to R214). -/
theorem beginInstr_sessionStart {s : State} {more : List Bool} (hs : s.sess = .released)
    (hacq : s.env.acq = List.replicate 6 true ++ more) :
    ∃ t, beginInstr .sessionStart s = .next t ∧ t.seq = atFrame .sessionStart [0xAB] 0 .wake ∧
      TraceGrew (acquireEvents s.cfg.variant ++
        (.hold :: (if s.cfg.variant = .releaseKeepCs then [.set .fpgaRst true] else []))) s t ∧
      t.dev = s.dev ∧ t.out = s.out ∧ t.host = s.host := by
  have hcheck : firstStop [checkNoSession s] = none := by rw [checkNoSession, if_pos hs]; rfl
  obtain ⟨u, hu, hpins, hcfg, htr, hdev, hout, hhost⟩ : ∃ u, acquireAll roleOrder { s with sessErr := .ok } = (none, u) ∧
      u.pins = acquiredPins s.cfg.variant ∧ u.cfg = s.cfg ∧ u.tr = (acquireEvents s.cfg.variant).reverse ++ s.tr ∧
      u.dev = s.dev ∧ u.out = s.out ∧ u.host = s.host :=
    ⟨_, acquireAll_succeeds (s := { s with sessErr := .ok }) hacq, rfl, rfl, rfl, rfl, rfl, rfl⟩
  have hbegin : beginSession s = beginFrame .sessionStart [0xAB] 0 .wake (takeBus (fpgaResetSeq u)) := by
    unfold beginSession
    rw [hu]
  refine ⟨_, (runOp_checked beginSession s hcheck).trans (congrArg _ hbegin), rfl, traceGrew_of_tr ?_, ?_⟩ <;>
    rw [fpgaResetSeq_eq (hcfg ▸ hpins)]
  · show _ ++ u.tr = _
    rw [htr, hcfg, List.reverse_append, List.append_assoc]
  · exact ⟨hdev, hout, hhost⟩

/-! A step inside a frame. -/

theorem step_assert {s : State} {f : FrameRun} (hq : s.seq = .inFrame f) (hs : f.spot = .assert) (h : BusHeld s) :
    sequencerStep s = .next (enterByte f 0 (csAssert s)) := by
  rw [sequencerStep_inFrame hq, advance_held h, moveOn, hs]

theorem step_deassert {s : State} {f : FrameRun} (hq : s.seq = .inFrame f) (hs : f.spot = .deassert) (h : BusHeld s) :
    sequencerStep s = .next (endFrame f.op f.after f.got (csDeassert s)) := by
  rw [sequencerStep_inFrame hq, advance_held h, moveOn, hs]

/-- A bit sent: the top bit of shreg goes to MOSI (40_softspi.md R134). -/
theorem moveBit_sent {f : FrameRun} {k : Nat} (h : k < f.out.length) (s : State) :
    TraceGrew (writeBitEvents (s.shreg.getLsbD 7)) s (moveBit f k s) ∧ (moveBit f k s).shreg = s.shreg <<< 1 := by
  rw [moveBit_sends h]
  exact ⟨traceGrew_of_tr (writeBit_tr _ s), rfl⟩

/-- A bit received: the level sampled goes into shreg (40_softspi.md R135). -/
theorem moveBit_received {f : FrameRun} {k : Nat} (h : f.out.length ≤ k) (s : State) :
    ∃ v, TraceGrew (readBitEvents v) s (moveBit f k s) ∧ (moveBit f k s).shreg = shiftInBit s.shreg v := by
  rw [moveBit_receives (Nat.not_lt.mpr h)]
  exact ⟨(readBit s).1, traceGrew_of_tr (readBit_tr s), rfl⟩

theorem collect_eq (f : FrameRun) (k : Nat) (y : Byte) :
    collect f k y = { f with got := if k < f.out.length then f.got else f.got ++ [y] } := by
  unfold collect
  split <;> rfl

/-- The step of any bit of a byte: its events, shreg and bitcnt, and with the eighth bit the next place of the frame. -/
theorem sequencerStep_byte {s : State} {f : FrameRun} {k : Nat} (hq : s.seq = .inFrame f) (hs : f.spot = .byte k)
    (h : BusHeld s) (hb : s.bitcnt < 8) :
    ∃ t, sequencerStep s = .next t ∧ t.trace = (moveBit f k s).trace ∧
      (s.bitcnt < 7 → t.seq = s.seq ∧ t.bitcnt = s.bitcnt + 1 ∧ t.shreg = (moveBit f k s).shreg) ∧
      (s.bitcnt = 7 →
        t.seq = .inFrame { f with
          spot := if k + 1 < f.out.length + f.nin then .byte (k + 1) else .deassert
          got := if k < f.out.length then f.got else f.got ++ [(moveBit f k s).shreg] } ∧
        (k + 1 < f.out.length + f.nin → t.bitcnt = 0 ∧ t.shreg = f.out.getD (k + 1) 0)) := by
  obtain ⟨-, hseq, hcount⟩ := moveBit_spec h f k
  by_cases hlast : s.bitcnt = 7
  · obtain ⟨htr, -, hnext, hloaded⟩ := enterByte_spec (collect f k (moveBit f k s).shreg) (k + 1) (moveBit f k s)
    rw [collect_eq] at htr hnext hloaded
    refine ⟨_, step_lastBit hq hs h hlast, ?_, fun h7 => absurd hlast (by omega), fun _ => ⟨?_, ?_⟩⟩ <;> rw [collect_eq]
    · exact congrArg List.reverse htr
    · exact hnext
    · exact hloaded
  · exact ⟨_, step_bit hq hs h (by omega), rfl, fun _ => ⟨hseq, hcount, rfl⟩, fun h7 => absurd h7 hlast⟩

/-! A step of the machine. -/

/-- The outcome of the machine's step is that of the sequencer's, and where it is a next state the sequencer runs on to it. -/
inductive Begins : Host.Outcome State Fault Refusal → Host.Outcome State Fault Refusal → Prop
  | next {t u : State} : Runs u t → Begins (.next t) (.next u)
  | fault (r : Fault) : Begins (.fault r) (.fault r)
  | refused (r : Refusal) : Begins (.refused r) (.refused r)

theorem Begins.refl : ∀ o, Begins o o
  | .next t => .next (.refl t)
  | .fault r => .fault r
  | .refused r => .refused r

theorem Begins.runs {t : State} {o : Host.Outcome State Fault Refusal} (h : Begins (.next t) o) :
    ∃ u, o = .next u ∧ Runs u t := by
  cases h with
  | next hruns => exact ⟨_, rfl, hruns⟩

theorem Begins.stops {r : Fault} {o : Host.Outcome State Fault Refusal} (h : Begins (.fault r) o) : o = .fault r := by
  cases h
  rfl

theorem Begins.refuses {r : Refusal} {o : Host.Outcome State Fault Refusal} (h : Begins (.refused r) o) :
    o = .refused r := by
  cases h
  rfl

theorem runBusOp_begins {checks : List (Option Stop)} {body begun : State → State} {s : State}
    (h : s.pins.busReady = true → Runs (begun s) (body s)) : Begins (runBusOp checks body s) (runBusOp checks begun s) := by
  unfold runBusOp
  split
  · exact .refl _
  · split
    case isTrue hready => exact .next (h hready)
    case isFalse => exact .refl _

/-- A frame that receives nothing, and the op's response (40_softspi.md R136). -/
theorem sendFrame_runs (op : Instr) (out : List Byte) {s : State} (h : s.pins.busReady = true) :
    Runs (beginFrame op out 0 .reply s) (succeed [] (sendFrame out s)) :=
  frame_runs op out 0 .reply (held_of_ready h)

theorem wake_runs (op : Instr) {s : State} (h : s.pins.busReady = true) :
    Runs (beginFrame op [0xAB] 0 .wake s) (succeed [] (wakeCore s)) :=
  frame_runs op [0xAB] 0 .wake (held_of_ready h)

theorem readBody_runs (op : Instr) (a : Addr) (n : Count) {s : State} (h : s.pins.busReady = true) :
    Runs (beginFrame op (addressed 0x03 a) n.toNat .reply (loadLen n.toNat (loadAddr a s))) (readBody a n s) :=
  frame_runs op (addressed 0x03 a) n.toNat .reply (held_of_ready (s := loadLen n.toNat (loadAddr a s)) h)

/-- SESSION_START is a run to its WAKE frame and through it (43_session.md R210 to R214). -/
theorem beginSession_runs (s : State) : Runs (beginSession s) (startSession s) := by
  cases hr : (acquireAll roleOrder { s with sessErr := .ok }).1 with
  | some role =>
    have hsame : beginSession s = startSession s := by simp only [beginSession, startSession, hr]
    rw [hsame]
    exact .refl _
  | none =>
    simp only [beginSession, startSession, hr]
    refine wake_runs .sessionStart ?_
    rw [takeBus_pins, fpgaResetSeq_acquired hr]
    exact heldPins_busReady _

theorem exec_begins (i : Instr) (s : State) : Begins (exec i s) (beginInstr i s) := by
  cases i with
  | pp a data =>
    rw [exec, beginInstr, execPp]
    refine runBusOp_begins fun hr => ?_
    have h := program_runs (.pp a data) a data 0 [] (s := loadLen data.length (loadAddr a s)) hr
    rw [BitVec.ofNat_eq_ofNat, BitVec.add_zero] at h
    exact h
  | read a n =>
    rw [exec, beginInstr, execRead]
    exact runBusOp_begins (readBody_runs (.read a n) a n)
  | wrdi =>
    rw [exec, beginInstr, execWrdi]
    exact runBusOp_begins (sendFrame_runs .wrdi [0x04])
  | rdsr =>
    rw [exec, beginInstr, execRdsr]
    exact runBusOp_begins fun hr => frame_runs .rdsr [0x05] 1 .reply (held_of_ready hr)
  | wren =>
    rw [exec, beginInstr, execWren]
    exact runBusOp_begins (sendFrame_runs .wren [0x06])
  | be a =>
    rw [exec, beginInstr, execBe]
    exact runBusOp_begins fun hr => erase_runs (.be a) a [] (s := loadAddr a s) hr
  | wake =>
    rw [exec, beginInstr, execWake]
    exact runBusOp_begins (wake_runs .wake)
  | awaitReady =>
    rw [exec, beginInstr, execAwaitReady]
    exact runBusOp_begins (tasks_run .awaitReady _)
  | flashData a data =>
    rw [exec, beginInstr, execFlashData]
    exact runBusOp_begins fun hr => tasks_run (.flashData a data) (flashTasks a data)
      (s := { loadLen data.length s with progress := 0, offR := 0 }) hr
  | verifyData a data =>
    rw [exec, beginInstr, execVerifyData]
    exact runBusOp_begins fun hr => tasks_run (.verifyData a data) (verifyTasks a data) (s := loadLen data.length s) hr
  | readArbitrary a n =>
    rw [exec, beginInstr, execReadArbitrary]
    exact runBusOp_begins (readBody_runs (.readArbitrary a n) a n)
  | sessionStart =>
    rw [exec, beginInstr, execSessionStart, runOp, runOp]
    split
    · exact .refl _
    · exact .next (beginSession_runs s)
  | status | sessionEnd | csAssert | csDeassert | writeBit | readBit | writeByte | readByte => exact .refl _

theorem resume_begins (op : Instr) (rest : List Task) (s : State) : Begins (resume op rest s) (beginPoll op rest s) := by
  unfold resume beginPoll
  split
  case isTrue hready => exact .next (poll_runs op rest (tasks_run op rest) hready)
  case isFalse => exact .refl _

theorem step_begins (s : State) : Begins (step s) (sequencerStep s) := by
  unfold step sequencerStep
  cases fetch s with
  | instr i t => exact exec_begins i t
  | pollLoop op rest => exact resume_begins op rest s
  | nothing | illegal | frame | unused => exact .refl _

/-- Settles O60: the sequencer's step at each place of an op, and the run of it that every step of the machine is. -/
theorem stepIsASequencerRun : Obligations.StepIsASequencerRun := by
  refine ⟨fun s i rest out nin hq hd hs hc hf => ?_, fun s rest more hq hd hs hacq => ?_, fun s op rest hq hready => ?_,
    fun s f hq hspot hheld => ?_, fun s f k hq hspot hheld hbit => ?_, fun s f hq hspot hheld => ?_, fun s t h => ?_,
    fun s r h => ?_, fun s r h => ?_⟩
  · obtain ⟨t, ht, after, hseq, htr, hpins, hdev, hsess, hout, hhost⟩ :=
      beginInstr_atFirstFrame (s := { s with host := rest }) hs hc hf
    exact ⟨after, t, (sequencerStep_request hq hd).trans ht, hseq, htr, hpins, hdev, hsess, hout, hhost⟩
  · obtain ⟨t, ht, hseq, htrace, hdev, hout, hhost⟩ := beginInstr_sessionStart (s := { s with host := rest }) hs hacq
    exact ⟨_, t, (sequencerStep_request hq hd).trans ht, hseq, htrace, hdev, hout, hhost⟩
  · simp only [sequencerStep, fetch, hq, beginPoll, if_pos hready]
    rfl
  · obtain ⟨htr, hpins, hseq, hloaded⟩ := enterByte_spec f 0 (csAssert s)
    exact ⟨_, step_assert hq hspot hheld, traceGrew_of_tr htr, hpins, hseq, hloaded⟩
  · obtain ⟨t, ht, htrace, hmore, hlast⟩ := sequencerStep_byte hq hspot hheld hbit
    refine ⟨t, (moveBit f k s).shreg, ht, fun hk => ?_, fun hk => ?_, hmore, hlast⟩
    · obtain ⟨hsent, hshreg⟩ := moveBit_sent hk s
      exact ⟨htrace.trans hsent, hshreg⟩
    · obtain ⟨v, hreceived, hshreg⟩ := moveBit_received hk s
      exact ⟨v, htrace.trans hreceived, hshreg⟩
  · obtain ⟨htr, hpins, hbetween⟩ := endFrame_spec f.op f.after f.got (csDeassert s)
    refine ⟨_, step_deassert hq hspot hheld, traceGrew_of_tr htr, hpins, hbetween, fun a page grow rest ha => ?_,
      fun a rest ha => ?_⟩ <;> rw [ha] <;> rfl
  · obtain ⟨u, hu, hruns⟩ := (h ▸ step_begins s).runs
    exact sequencerReaches_of hu hruns
  · exact (h ▸ step_begins s).stops
  · exact (h ▸ step_begins s).refuses

end Sys2Proof.Proofs
end

section
/-! PROOFS. The chip's gates (20_memory.md R67, R68), what PAGE_PROGRAM and BLOCK_ERASE leave in the array (R74, R75, R80), and
commands given twice (R86). -/

namespace Sys2Proof.Proofs

open Sys2Proof.Machine Sys2Proof.Safety Sys2Proof.Laws

/-! The gates. -/

theorem stillBusy_iff (b : Busy) : stillBusy b = true ↔ b ≠ .polls 0 := by
  cases b with
  | polls k => simp [stillBusy, Nat.pos_iff_ne_zero]
  | forever => simp [stillBusy]

theorem ignores_of_asleep {d : Device} {op : Byte} (hpd : d.pd = true) (hop : op ≠ 0xAB) : d.ignores op = true := by
  simpa [Device.ignores, hpd] using hop

theorem ignores_of_busy {d : Device} {op : Byte} (hpd : d.pd = false) (hb : d.busy ≠ .polls 0) (hop : op ≠ 0x05) :
    d.ignores op = true := by
  simpa [Device.ignores, hpd, (stillBusy_iff d.busy).mpr hb] using hop

theorem answerTo_ignored {d : Device} {op : Byte} (h : d.ignores op = true) (bytes : List Byte) (n : Nat) :
    d.answerTo op bytes n = none := by
  unfold Device.answerTo
  rw [if_pos h]

/-- WAKE to a chip that is awake changes nothing (20_memory.md R69). -/
theorem takeFrame_wake_awake {d : Device} (hpd : d.pd = false) (rest : List Byte) (e : Env) :
    d.takeFrame (0xAB :: rest) e = (d, e) := by
  rw [takeFrame_wake, ← hpd]

/-- Settles O21: a sleeping chip ignores every opcode but WAKE, a busy one every opcode but RDSR, where a WAKE finds pd false
already. -/
theorem gatedFramesAreIgnored : Obligations.GatedFramesAreIgnored := by
  refine fun d e op rest => ⟨fun hpd hop => ?_, fun hpd hb hop => ?_⟩
  · have hi := ignores_of_asleep hpd hop
    exact ⟨takeFrame_ignored rest e hop hi, answerTo_ignored hi⟩
  · have hi := ignores_of_busy hpd hb hop
    refine ⟨?_, answerTo_ignored hi⟩
    by_cases hwake : op = 0xAB
    · subst hwake
      exact takeFrame_wake_awake hpd rest e
    · exact takeFrame_ignored rest e hwake hi

/-! PAGE_PROGRAM and BLOCK_ERASE on a chip that is not gated. -/

theorem takeFrame_pp {d : Device} (hpd : d.pd = false) (hb : d.busy = .polls 0) (a : Addr) (data : List Byte) (e : Env) :
    d.takeFrame (addressed 0x02 a ++ data) e = d.program a data e := by
  rw [addressed, List.cons_append, takeFrame_obeyed _ _ (not_ignores_of_ready hpd hb _), obey_pp]

theorem takeFrame_be {d : Device} (hpd : d.pd = false) (hb : d.busy = .polls 0) (a : Addr) (e : Env) :
    d.takeFrame (addressed 0xD8 a) e = d.eraseBlock a e := by
  rw [addressed, takeFrame_obeyed _ _ (not_ignores_of_ready hpd hb _), obey_be]

theorem program_unlatched {d : Device} (h : d.wel = false) (a : Addr) (data : List Byte) (e : Env) :
    d.program a data e = (d, e) := by
  simp [Device.program, h]

theorem eraseBlock_unlatched {d : Device} (h : d.wel = false) (a : Addr) (e : Env) : d.eraseBlock a e = (d, e) := by
  simp [Device.eraseBlock, h]

/-- Byte i of a page program of at most 256 bytes, counted from the start of the data (20_memory.md R74). -/
theorem read_programFrom_index {a : Addr} {data : List Byte} {i : Nat} (m : Memory) (hlen : data.length ≤ 256)
    (hi : i < data.length) :
    (Memory.programFrom a 0 data m).read (programAddr a i) = m.read (programAddr a i) &&& data.getD i 0 := by
  have h := read_programFrom_at (a := a) (i := 0) (m := m) hi hlen
  rwa [Nat.zero_add, ← List.getD_eq_getElem data 0 hi] at h

/-- An address that no byte of the data goes to. -/
theorem read_programFrom_away {a : Addr} {data : List Byte} {x : Nat} (m : Memory)
    (h : ∀ i, i < data.length → programAddr a i ≠ x) : (Memory.programFrom a 0 data m).read x = m.read x :=
  read_programFrom_other fun j _ hj => h j (by omega)

/-- Settles O22, from what a page program leaves at the address of each byte and at every other one. -/
theorem pageProgramClearsBits : Obligations.PageProgramClearsBits := by
  intro d e a data hpd hb hlen
  rw [takeFrame_pp hpd hb]
  refine ⟨fun hw => program_unlatched hw a data e, fun hw ha hin => ?_, fun hw => ?_⟩
  · simp only [← programAddr_eq] at hin ⊢
    have hinside : d.insideProgram a data = true := (insideProgram_iff d a data).mpr ⟨ha, hin⟩
    exact ⟨_, program_latched a data e hw hinside, fun i hi => read_programFrom_index d.mem hlen hi,
      fun x hx => read_programFrom_away d.mem fun i hi => (hx i hi).symm⟩
  · obtain ⟨m, w, c, h⟩ := program_turnsBusy a data e hw
    exact ⟨m, w, by rw [h]⟩

theorem read_fill (m : Memory) (lo n x : Nat) (v : Byte) :
    (m.fill lo n v).read x = if lo ≤ x ∧ x < lo + n then v else m.read x := by
  split
  · exact read_fill_inside m v (by assumption)
  · exact read_fill_outside m v (by omega)

/-- Settles O23, from what a fill leaves inside and outside its range. -/
theorem blockEraseSetsBits : Obligations.BlockEraseSetsBits := by
  intro d e a hpd hb
  rw [takeFrame_be hpd hb]
  refine ⟨fun hw => eraseBlock_unlatched hw a e, fun hw hin => ?_, fun hw => ?_⟩
  · rw [← blockBase_eq] at hin ⊢
    have hinside : d.insideErase a = true := (insideErase_iff d a).mpr hin
    exact ⟨_, eraseBlock_latched a e hw hinside, fun x => read_fill d.mem (blockBase a) 65536 x 0xFF⟩
  · obtain ⟨m, w, c, h⟩ := eraseBlock_turnsBusy a e hw
    exact ⟨m, w, by rw [h]⟩

/-! Commands given twice. -/

/-- What holds of the chip as it was and of the chip that obeys the frame holds after the frame, which may be ignored. -/
theorem takeFrame_ignored_or_obeyed {d : Device} {op : Byte} {rest : List Byte} {e : Env} (p : Device × Env → Prop)
    (hd : p (d, e)) (ho : p (d.obey op rest e)) : p (d.takeFrame (op :: rest) e) := by
  rw [Device.takeFrame]
  split
  · exact hd
  · exact ho

theorem fill_twice {m : Memory} (hm : m.wf) {lo n : Nat} (h : lo + n ≤ Config.addressCount) (v : Byte) :
    (m.fill lo n v).fill lo n v = m.fill lo n v := by
  refine memory_ext (fill_wf (fill_wf hm h) h) (fill_wf hm h) rfl fun x => ?_
  simp only [read_fill]
  split <;> rfl

/-- Two page programs of the same address: where both have a byte, the array has been ANDed with both. -/
theorem read_programFrom_twice {a : Addr} {d1 d2 : List Byte} {i : Nat} (m : Memory) (h1 : d1.length ≤ 256)
    (h2 : d2.length ≤ 256) (hi1 : i < d1.length) (hi2 : i < d2.length) :
    (Memory.programFrom a 0 d2 (Memory.programFrom a 0 d1 m)).read (programAddr a i) =
      m.read (programAddr a i) &&& d1.getD i 0 &&& d2.getD i 0 := by
  rw [read_programFrom_index _ h2 hi2, read_programFrom_index _ h1 hi1]

theorem programFrom_twice {m : Memory} (hm : m.wf) {a : Addr} {data : List Byte} (hlen : data.length ≤ 256) :
    Memory.programFrom a 0 data (Memory.programFrom a 0 data m) = Memory.programFrom a 0 data m := by
  refine memory_ext (programFrom_wf (programFrom_wf hm)) (programFrom_wf hm) programFrom_start fun x => ?_
  by_cases hx : ∃ i, i < data.length ∧ programAddr a i = x
  · obtain ⟨i, hi, rfl⟩ := hx
    rw [read_programFrom_twice m hlen hlen hi hi, read_programFrom_index m hlen hi, BitVec.and_assoc, BitVec.and_self]
  · exact read_programFrom_away _ fun i hi hix => hx ⟨i, hi, hix⟩

/-- Settles O24: each frame is ignored or changes its one field, and canonical memories that read alike are equal. -/
theorem repeatedCommands : Obligations.RepeatedCommands := by
  refine ⟨fun d e rest => ⟨?_, ?_, ?_, ?_, ?_⟩, fun m a hm => fill_twice hm (blockBase_le a) 0xFF,
    fun _ _ _ hm hlen => programFrom_twice hm hlen, fun m _ _ _ _ h1 h2 hi1 hi2 => read_programFrom_twice m h1 h2 hi1 hi2⟩
  · exact takeFrame_ignored_or_obeyed (· = (d, e)) rfl (obey_read rest d e)
  · exact takeFrame_ignored_or_obeyed (fun r => ∃ k, r.1 = { d with busy := k }) ⟨d.busy, rfl⟩ ⟨_, by rw [obey_status]⟩
  · exact takeFrame_ignored_or_obeyed (fun r => ∃ w, r.1 = { d with wel := w }) ⟨d.wel, rfl⟩ ⟨_, by rw [obey_wren]⟩
  · exact takeFrame_ignored_or_obeyed (fun r => ∃ w, r.1 = { d with wel := w }) ⟨d.wel, rfl⟩ ⟨_, by rw [obey_wrdi]⟩
  · exact ⟨_, by rw [takeFrame_wake]⟩

end Sys2Proof.Proofs
end

section
/-! PROOFS. What FLASH_DATA leaves in the flash at a block-aligned base, and the round trip with VERIFY_DATA (20_memory.md R93,
42_sequences.md R181, R182, 70_reset_and_hazards.md R287). -/

namespace Sys2Proof.Proofs

open Sys2Proof.Machine Sys2Proof.Safety Sys2Proof.Laws

/-! The plan of FLASH_DATA. -/

theorem length_le_chunks (buf : List Byte) : buf.length ≤ 65536 * chunkCount buf.length := by
  unfold chunkCount
  omega

/-- The BEs are at the chunks of the buffer, the PPs at its pages (42_sequences.md R181). -/
theorem mem_flashPlan {base : Addr} {buf : List Byte} {st : FlashStep} (h : st ∈ flashPlan base buf) :
    ∃ c, 65536 * c < buf.length ∧ (st = .erase (BitVec.ofNat 24 (base.toNat + 65536 * c)) ∨
      ∃ p, p < 256 ∧ 65536 * c + 256 * p < buf.length ∧
        st = .program (BitVec.ofNat 24 (base.toNat + (65536 * c + 256 * p))) (pageAt buf (65536 * c + 256 * p))) := by
  obtain ⟨c, hc, hst⟩ := List.mem_flatMap.mp h
  rw [List.mem_range, chunkCount] at hc
  refine ⟨c, by omega, ?_⟩
  rcases List.mem_cons.mp hst with rfl | hst
  · exact .inl rfl
  · obtain ⟨p, hp, rfl⟩ := List.mem_map.mp hst
    rw [List.mem_range, pageCount] at hp
    exact .inr ⟨p, by omega, by omega, rfl⟩

/-- At a block-aligned base whose blocks lie below size, so does every BE and PP of the plan (20_memory.md R80). -/
theorem flashPlan_inside {base : Addr} {buf : List Byte} {size : Nat} (hb : base.toNat % 65536 = 0)
    (hn : base.toNat + buf.length ≤ 16777216) (hs : base.toNat + 65536 * chunkCount buf.length ≤ size) :
    ∀ st ∈ flashPlan base buf, st.inside size := by
  intro st hst
  obtain ⟨c, hc, hst⟩ := mem_flashPlan hst
  have hchunk : c + 1 ≤ chunkCount buf.length := by unfold chunkCount; omega
  rcases hst with rfl | ⟨p, hp, hcp, rfl⟩
  · show blockBase _ + 65536 ≤ size
    rw [blockBase_eq, BitVec.toNat_ofNat]
    omega
  · refine ⟨?_, fun i _ => ?_⟩
    · rw [BitVec.toNat_ofNat]
      omega
    · rw [programAddr_eq, BitVec.toNat_ofNat]
      omega

theorem flashPlan_ne_nil {base : Addr} {buf : List Byte} (h : buf ≠ []) : flashPlan base buf ≠ [] := by
  have hpos := List.length_pos_iff.mpr h
  intro hnil
  have hlen := flashPlan_length base buf
  rw [hnil, List.length_nil, pageCount] at hlen
  omega

/-! FLASH_DATA and VERIFY_DATA, from their request to their response. -/

/-- FLASH_DATA on a chip whose awaits all succeed runs its whole plan and answers OK (42_sequences.md R181). -/
theorem flashData_completes {s : State} {base : Addr} {buf : List Byte} {ks : List Nat} {busy : List Busy} (h : InSession s)
    (hr : base.toNat + buf.length ≤ 16777216)
    (hb : AwaitsBusyFor (chunkCount buf.length + pageCount buf.length) ks busy s)
    (hl : ∀ j ∈ ks, belowLimit s.cfg.pollLimit j) :
    ∃ awaits u v, exec (.flashData base buf) s = .next u ∧ Host.Core.run Sys2Proof.core ks.sum u = .next (succeed [] v) ∧
      Planned (flashTasks base buf) ks busy awaits { loadLen buf.length s with progress := 0, offR := 0 } v := by
  have hexec : exec (.flashData base buf) s = .next (runTasks (.flashData base buf) (flashTasks base buf)
      { loadLen buf.length s with progress := 0, offR := 0 }) := by
    show execFlashData base buf s = _
    rw [execFlashData, runBusOp_checked _ (by simp [checkSession_active h.1, checkRange_fits hr]) h.2]
  rw [← flashPlan_length base buf, ← planOf_flashTasks] at hb
  obtain ⟨awaits, v, hv, hrun⟩ := paired_reaches (.flashData base buf) (flashTasks base buf) (paired_flashTasks base buf)
    (s := { loadLen buf.length s with progress := 0, offR := 0 }) h.2 hb hl
  exact ⟨awaits, _, v, hexec, hrun, hv⟩

/-- What the plan leaves in the flash (20_memory.md R93, 70_reset_and_hazards.md R287). -/
theorem planned_read {s v : State} {base : Addr} {buf : List Byte} {ks : List Nat} {busy : List Busy}
    {awaits : List (List Byte)} (hv : Planned (flashTasks base buf) ks busy awaits s v) (hb : base.toNat % 65536 = 0)
    (hn : base.toNat + buf.length ≤ 16777216) (hs : base.toNat + 65536 * chunkCount buf.length ≤ s.dev.flashSize) (x : Nat) :
    v.dev.mem.read x =
      if base.toNat ≤ x ∧ x < base.toNat + 65536 * chunkCount buf.length then
        if x - base.toNat < buf.length then buf.getD (x - base.toNat) 0 else 0xFF
      else s.dev.mem.read x := by
  have hmem := hv.mem
  rw [planOf_flashTasks] at hmem
  rw [hmem (flashPlan_inside hb hn hs), read_flashPlan hb hn]

/-- The buffer itself. -/
theorem planned_read_buffer {s v : State} {base : Addr} {buf : List Byte} {ks : List Nat} {busy : List Busy}
    {awaits : List (List Byte)} (hv : Planned (flashTasks base buf) ks busy awaits s v) (hb : base.toNat % 65536 = 0)
    (hn : base.toNat + buf.length ≤ 16777216) (hs : base.toNat + 65536 * chunkCount buf.length ≤ s.dev.flashSize) {i : Nat}
    (hi : i < buf.length) : v.dev.mem.read (base.toNat + i) = buf.getD i 0 := by
  have hcount := length_le_chunks buf
  rw [planned_read hv hb hn hs, if_pos (by omega), Nat.add_sub_cancel_left, if_pos hi]

/-- Settles O37, from what the plan of FLASH_DATA leaves at each address. -/
theorem flashDataContents : Obligations.FlashDataContents := by
  intro s base buf ks busy h hb hn hs hbusy hl
  obtain ⟨awaits, u, v, hexec, hrun, hv⟩ := flashData_completes h hn hbusy hl
  have hread := planned_read hv hb hn hs
  have hcount := length_le_chunks buf
  have hwel := hv.wel
  rw [planOf_flashTasks] at hwel
  refine ⟨u, succeed [] v, hexec, hrun, ⟨by rw [succeed_out, hv.out]; rfl, rfl, rfl⟩,
    fun i hi => planned_read_buffer hv hb hn hs hi, fun x hlo hhi => ?_, fun x hx => ?_, hv.pd, fun hne => ?_, hv.busy⟩
  · rw [succeed_dev, hread, if_pos (by omega), if_neg (by omega)]
  · rw [succeed_dev, hread, if_neg (by omega)]
    rfl
  · rw [succeed_dev, hwel (flashPlan_inside hb hn hs), if_neg (flashPlan_ne_nil hne)]

/-- Flash bytes that are all the buffer's have no difference. -/
theorem firstDifference_memBytes {m : Memory} {b : Nat} {buf : List Byte}
    (h : ∀ i, i < buf.length → m.read (b + i) = buf.getD i 0) : firstDifference (memBytes m b buf.length) buf = none := by
  have heq : memBytes m b buf.length = buf := by
    refine List.ext_getElem (memBytes_length ..) fun i hi hi' => ?_
    have hget := h i hi'
    rwa [← memBytes_getD hi', List.getD_eq_getElem _ _ hi, List.getD_eq_getElem _ _ hi'] at hget
  rw [heq, firstDifference_self]

theorem lt_of_belowLimit {l : PollLimit} {k n : Nat} (h : belowLimit l k) (hn : l = .count n) : k < n := by
  subst hn
  exact h

/-- VERIFY_DATA on a chip whose await succeeds compares its chunks and ends by the first difference (42_sequences.md R182). -/
theorem verifyData_completes {s : State} {base : Addr} {buf : List Byte} {k : Nat} {d : Option Nat} (h : InSession s)
    (hr : base.toNat + buf.length ≤ 16777216) (hb : BusyFor k s) (hl : belowLimit s.cfg.pollLimit k)
    (hd : firstDifference (memBytes s.dev.mem base.toNat buf.length) buf = d)
    (hs : base.toNat + bytesRead buf.length d ≤ s.dev.flashSize) :
    ∃ statuses u v w t, exec (.verifyData base buf) s = .next u ∧ Host.Core.run Sys2Proof.core k u = .next t ∧
      Awaited k statuses { loadLen buf.length s with pollR := 0 } v ∧
      CompareEnds base.toNat 0 buf.length d { v with offR := 0 } w t := by
  have hexec : exec (.verifyData base buf) s =
      .next (runTasks (.verifyData base buf) (verifyTasks base buf) (loadLen buf.length s)) := by
    show execVerifyData base buf s = _
    rw [execVerifyData, runBusOp_checked _ (by simp [checkSession_active h.1, checkRange_fits hr]) h.2]
  obtain ⟨statuses, v, hv, hrun⟩ := await_reaches (.verifyData base buf)
    (.setOff 0 :: compareTasks base.toNat 0 (cut Config.pageSize buf)) k (s := { loadLen buf.length s with pollR := 0 })
    h.2 hb (fun n hn => by
      show 0 + k < n
      rw [Nat.zero_add]
      exact lt_of_belowLimit hl hn)
  have hmem : v.dev.mem = s.dev.mem := by rw [hv.dev]; rfl
  have hsize : v.dev.flashSize = s.dev.flashSize := by rw [hv.dev]; rfl
  have hready : v.pins.busReady = true := by rw [hv.pins]; exact busReady_mosi h.2 true
  have hbusy : BusyFor 0 v := by rw [BusyFor, hv.dev]; exact ⟨hb.1, rfl⟩
  subst hd
  obtain ⟨w, hw⟩ := compare_run (.verifyData base buf) base.toNat buf.length buf 0 (s := { v with offR := 0 }) (Nat.le_refl _)
    rfl hr hready hbusy rfl (by
      show base.toNat + 0 + bytesRead buf.length (firstDifference (memBytes v.dev.mem (base.toNat + 0) buf.length) buf) ≤
        v.dev.flashSize
      rw [hmem, hsize]
      exact hs)
  refine ⟨statuses, _, v, w, _, hexec, hrun, hv, ?_⟩
  rw [← hmem]
  exact hw

/-- VERIFY_DATA of a buffer the flash holds answers OK and leaves the flash as it was (42_sequences.md R182). -/
theorem verifyData_accepts {s : State} {base : Addr} {buf : List Byte} {k : Nat} (h : InSession s)
    (hr : base.toNat + buf.length ≤ 16777216) (hb : BusyFor k s) (hl : belowLimit s.cfg.pollLimit k)
    (hs : base.toNat + buf.length ≤ s.dev.flashSize)
    (hbuf : ∀ i, i < buf.length → s.dev.mem.read (base.toNat + i) = buf.getD i 0) :
    ∃ u t, exec (.verifyData base buf) s = .next u ∧ Host.Core.run Sys2Proof.core k u = .next t ∧ AnsweredOk [] s t ∧
      t.host = s.host ∧ t.dev.mem = s.dev.mem := by
  obtain ⟨statuses, u, v, w, t, hexec, hrun, hv, hw, -, rfl⟩ :=
    verifyData_completes h hr hb hl (firstDifference_memBytes hbuf) hs
  refine ⟨u, _, hexec, hrun, ⟨?_, rfl, rfl⟩, hw.host.trans hv.host, hw.mem.trans ?_⟩
  · rw [succeed_out, hw.out]
    exact congrArg _ hv.out
  · show v.dev.mem = _
    rw [hv.dev]
    rfl

/-! The round trip. -/

/-- FLASH_DATA's request is read off the front of the host port (30_encoding.md R104, R105). -/
theorem decodeRequest_flashData {base : Addr} {buf : List Byte} (rest : List Byte) (h : buf.length < 2 ^ 32) :
    decodeRequest (requestBytes 0xE1 base (BitVec.ofNat 32 buf.length) buf ++ rest) = .ok (.flashData base buf, rest) := by
  simp [decodeRequest, splitHeader_requestBytes, decodeOp, takeData_own rest h, Except.map]

/-- VERIFY_DATA's request is read off the front of the host port (30_encoding.md R104, R105). -/
theorem decodeRequest_verifyData {base : Addr} {buf : List Byte} (rest : List Byte) (h : buf.length < 2 ^ 32) :
    decodeRequest (requestBytes 0xE2 base (BitVec.ofNat 32 buf.length) buf ++ rest) = .ok (.verifyData base buf, rest) := by
  simp [decodeRequest, splitHeader_requestBytes, decodeOp, takeData_own rest h, Except.map]

/-- A request at PORT_IDLE whose op ends after k polls more. -/
theorem reaches_request {s u t : State} {i : Instr} {rest : List Byte} {k : Nat} (hq : s.seq = .portIdle)
    (hd : decodeRequest s.host = .ok (i, rest)) (he : exec i { s with host := rest } = .next u)
    (hr : Host.Core.run Sys2Proof.core k u = .next t) : Reaches s t :=
  reaches_trans (reaches_step ((step_request hq hd).trans he)) ⟨k, hr⟩

/-- Busy counts listed in the environment, as the awaits of a sequence meet them: all but the last (20_memory.md R78). -/
theorem awaitsBusyFor_of_listed {s : State} {k : Nat} {ks : List Nat} {more : List Busy} (hb : BusyFor k s)
    (he : s.env.busy = ks.map .polls ++ more) : AwaitsBusyFor ks.length ((k :: ks).take ks.length) (ks.map .polls) s :=
  ⟨hb.1, List.length_map .., by rw [hb.2, ← List.map_cons, List.map_take], more, he⟩

/-- No session is given up by a BE or a PP. -/
theorem planned_inSession {tasks : List Task} {ks : List Nat} {busy : List Busy} {awaits : List (List Byte)} {s v : State}
    (hv : Planned tasks ks busy awaits s v) (h : s.sess ≠ .released) : InSession v := by
  refine ⟨?_, hv.ready⟩
  rw [hv.sess]
  cases (planOf tasks).getLast? with
  | none => exact h
  | some st => cases st <;> nofun

/-- The chip after a sequence whose busy counts are listed is busy for the last of them. -/
theorem planned_busyFor {tasks : List Task} {k : Nat} {ks ks' : List Nat} {awaits : List (List Byte)} {s v : State}
    (hv : Planned tasks ks' (ks.map .polls) awaits s v) (hb : BusyFor k s) : ∃ j ∈ k :: ks, BusyFor j v := by
  have hbusy := hv.busy
  rw [hb.2, ← List.map_cons, List.getLast?_map, Eq.comm, Option.map_eq_some_iff] at hbusy
  obtain ⟨j, hj, hjv⟩ := hbusy
  exact ⟨j, List.mem_of_getLast? hj, hv.pd, hjv.symm⟩

/-- Settles O41: FLASH_DATA leaves the buffer in the flash, so VERIFY_DATA, the next request, finds no difference. -/
theorem roundTripLaw : Obligations.RoundTripLaw := by
  intro s base buf k ks more h hq hb hn hs hk henv hlen hl hhost
  have hcount := length_le_chunks buf
  have hfits : buf.length < 2 ^ 32 := by omega
  have hawaits := awaitsBusyFor_of_listed hk henv
  rw [hlen] at hawaits
  obtain ⟨awaits, u, v, hexec, hrun, hv⟩ := flashData_completes
    (s := { s with host := requestBytes 0xE2 base (BitVec.ofNat 32 buf.length) buf }) h hn hawaits
    fun j hj => hl j (List.mem_of_mem_take hj)
  have hbuffer : ∀ i, i < buf.length → v.dev.mem.read (base.toNat + i) = buf.getD i 0 := fun i hi =>
    planned_read_buffer hv hb hn hs hi
  have hsession : InSession v := planned_inSession hv h.1
  obtain ⟨j, hj, hjv⟩ := planned_busyFor hv hk
  have hlimit : belowLimit v.cfg.pollLimit j := by
    rw [hv.cfg]
    exact hl j hj
  have hsize : base.toNat + buf.length ≤ v.dev.flashSize := by
    rw [hv.flashSize]
    exact Nat.le_trans (Nat.add_le_add_left hcount _) hs
  obtain ⟨u', t, hexec', hrun', ⟨hout, -, hseq⟩, hhost', hmem⟩ := verifyData_accepts (s := { succeed [] v with host := [] })
    hsession hn hjv hlimit hsize hbuffer
  have hvhost : (succeed [] v).host = requestBytes 0xE2 base (BitVec.ofNat 32 buf.length) buf ++ [] := by
    rw [List.append_nil]
    exact hv.host
  refine ⟨t, reaches_trans (reaches_request hq (hhost ▸ decodeRequest_flashData _ hfits) hexec hrun)
    (reaches_request rfl (hvhost ▸ decodeRequest_verifyData _ hfits) hexec' hrun'), ?_, hhost', hseq, fun i hi => ?_⟩
  · have hvout : v.out = s.out := hv.out
    rw [hout, ← hvout]
    rfl
  · rw [hmem]
    exact hbuffer i hi

end Sys2Proof.Proofs
end

section
/-! PROOFS. A whole request is read from the front of the host port, the decoder undoes the encoder (30_encoding.md R104 to
R106, R110), a step runs what the decoder reads, and the expansions of the pseudo-instructions (R112). -/

namespace Sys2Proof.Proofs

open Sys2Proof.Machine Sys2Proof.Safety Sys2Proof.Laws

/-! Requests. -/

/-- Data of which a byte is missing is not taken (R105, R110). -/
theorem takeData_short {n : Count} {rest : List Byte} (h : rest.length < n.toNat) :
    takeData n rest = .error .incomplete :=
  if_neg (Nat.not_le_of_lt h)

/-- The header of a host op's request, and how the decoder reads on after it: the op's data, or too little of it (R105). -/
structure RequestHeader (i : Instr) (h : Header) : Prop where
  encoded : encode i = .request (requestBytes h.op h.addr h.len (dataBytes i))
  whole : ∀ rest, decodeOp h (dataBytes i ++ rest) = .ok (i, rest)
  part : ∀ data, data.length < (dataBytes i).length → decodeOp h data = .error .incomplete

/-- An op without data is read from its header alone. -/
theorem RequestHeader.of_bare {i : Instr} {h : Header} (hdata : dataBytes i = [])
    (he : encode i = .request (requestBytes h.op h.addr h.len [])) (hd : ∀ rest, decodeOp h rest = .ok (i, rest)) :
    RequestHeader i h where
  encoded := by rw [hdata]; exact he
  whole rest := by rw [hdata]; exact hd rest
  part data hlt := by rw [hdata] at hlt; exact absurd hlt (Nat.not_lt_zero _)

/-- An op with data is read once as many bytes as its len field says are there. -/
theorem RequestHeader.of_data {op : Byte} {addr : Addr} (instr : List Byte → Instr) {data : List Byte}
    (hdata : dataBytes (instr data) = data) (hfits : data.length < 2 ^ 32)
    (he : encode (instr data) = .request (requestBytes op addr (BitVec.ofNat 32 data.length) data))
    (hd : ∀ len rest, decodeOp ⟨op, addr, len⟩ rest = (takeData len rest).map fun p => (instr p.1, p.2)) :
    RequestHeader (instr data) ⟨op, addr, BitVec.ofNat 32 data.length⟩ where
  encoded := by rw [hdata]; exact he
  whole rest := by rw [hdata, hd, takeData_own rest hfits]; rfl
  part cut hlt := by
    rw [hdata] at hlt
    rw [hd, takeData_short (by rwa [lengthField hfits])]
    rfl

/-- A well-formed instruction is encoded as a request behind its header, or as a micro-op word that is read as it is. -/
theorem encode_cases {i : Instr} (hwf : i.wf = true) :
    (∃ h, RequestHeader i h) ∨ ∃ code operand, encode i = .micro code operand ∧ decodeMicro code operand = .ok i := by
  cases i with
  | pp addr data => exact .inl ⟨_, .of_data (.pp addr) rfl (of_decide_eq_true hwf) rfl fun _ _ => rfl⟩
  | flashData addr data => exact .inl ⟨_, .of_data (.flashData addr) rfl (of_decide_eq_true hwf) rfl fun _ _ => rfl⟩
  | verifyData addr data => exact .inl ⟨_, .of_data (.verifyData addr) rfl (of_decide_eq_true hwf) rfl fun _ _ => rfl⟩
  | read addr len => exact .inl ⟨⟨0x03, addr, len⟩, .of_bare rfl rfl fun _ => rfl⟩
  | readArbitrary addr len => exact .inl ⟨⟨0xE3, addr, len⟩, .of_bare rfl rfl fun _ => rfl⟩
  | be addr => exact .inl ⟨⟨0xD8, addr, 0⟩, .of_bare rfl rfl fun _ => rfl⟩
  | wrdi => exact .inl ⟨⟨0x04, 0, 0⟩, .of_bare rfl rfl fun _ => rfl⟩
  | rdsr => exact .inl ⟨⟨0x05, 0, 0⟩, .of_bare rfl rfl fun _ => rfl⟩
  | wren => exact .inl ⟨⟨0x06, 0, 0⟩, .of_bare rfl rfl fun _ => rfl⟩
  | wake => exact .inl ⟨⟨0xAB, 0, 0⟩, .of_bare rfl rfl fun _ => rfl⟩
  | awaitReady => exact .inl ⟨⟨0xE0, 0, 0⟩, .of_bare rfl rfl fun _ => rfl⟩
  | status => exact .inl ⟨⟨0xE4, 0, 0⟩, .of_bare rfl rfl fun _ => rfl⟩
  | sessionStart => exact .inl ⟨⟨0xE8, 0, 0⟩, .of_bare rfl rfl fun _ => rfl⟩
  | sessionEnd => exact .inl ⟨⟨0xE9, 0, 0⟩, .of_bare rfl rfl fun _ => rfl⟩
  | csAssert => exact .inr ⟨_, _, rfl, rfl⟩
  | csDeassert => exact .inr ⟨_, _, rfl, rfl⟩
  | writeBit b => exact .inr ⟨_, _, rfl, by cases b <;> rfl⟩
  | readBit => exact .inr ⟨_, _, rfl, rfl⟩
  | writeByte x => exact .inr ⟨_, _, rfl, rfl⟩
  | readByte => exact .inr ⟨_, _, rfl, rfl⟩

theorem decodeRequest_requestBytes (op : Byte) (a : Addr) (n : Count) (d rest : List Byte) :
    decodeRequest (requestBytes op a n d ++ rest) = decodeOp ⟨op, a, n⟩ (d ++ rest) := by
  rw [decodeRequest, splitHeader_requestBytes]

/-- The request of an op is read from the front, and what follows is left (R105, R110). -/
theorem RequestHeader.read {i : Instr} {h : Header} (hi : RequestHeader i h) (rest : List Byte) :
    decodeRequest (requestBytes h.op h.addr h.len (dataBytes i) ++ rest) = .ok (i, rest) := by
  rw [decodeRequest_requestBytes]
  exact hi.whole rest

/-- A front part of the request of an op is cut inside the header, or inside the data (R105, R110). -/
theorem RequestHeader.cut {i : Instr} {h : Header} (hi : RequestHeader i h) {k : Nat}
    (hk : k < 8 + (dataBytes i).length) :
    decodeRequest ((requestBytes h.op h.addr h.len (dataBytes i)).take k) = .error .incomplete := by
  by_cases h8 : k < 8
  · rw [decodeRequest, splitHeader_short (Nat.lt_of_le_of_lt (List.length_take_le ..) h8)]
  · have hdata : ((dataBytes i).take (k - 8)).length < (dataBytes i).length := by
      rw [List.length_take]
      omega
    rw [take_requestBytes _ _ _ _ (Nat.le_of_not_lt h8), ← List.append_nil (requestBytes ..), decodeRequest_requestBytes,
      List.append_nil]
    exact hi.part _ hdata

/-- Settles O1: a request is read back with nothing after it, a micro-op word as it is. -/
theorem decodeEncodeRoundTrip : Obligations.DecodeEncodeRoundTrip := by
  intro i hwf
  rcases encode_cases hwf with ⟨h, hi⟩ | ⟨code, operand, he, hd⟩
  · have hread := hi.read []
    rw [List.append_nil] at hread
    rw [hi.encoded]
    exact hread
  · rw [he, decode, hd]
    rfl

/-- Settles O2, from how a request is read whole and cut. -/
theorem requestIsReadFromTheFront : Obligations.RequestIsReadFromTheFront := by
  intro i bytes hwf he
  rcases encode_cases hwf with ⟨h, hi⟩ | ⟨code, operand, he', -⟩
  · obtain rfl : requestBytes h.op h.addr h.len (dataBytes i) = bytes := Image.request.inj (hi.encoded.symm.trans he)
    exact ⟨hi.read, fun k hk => hi.cut (requestBytes_length .. ▸ hk)⟩
  · cases he'.symm.trans he

/-- Settles O3: each word is the encoding of the instruction it stands for. -/
theorem specWordsDecode : Obligations.SpecWordsDecode :=
  ⟨decodeEncodeRoundTrip (.pp 0x012345 [0xA5, 0x5A]) rfl, decodeEncodeRoundTrip (.read 0x0000FE 4) rfl,
    decodeEncodeRoundTrip (.be 0x01FFFF) rfl, decodeEncodeRoundTrip (.flashData 0x000000 [0x12, 0x34, 0x56]) rfl,
    decodeEncodeRoundTrip (.readArbitrary 0x0001FE 4) rfl, decodeEncodeRoundTrip .sessionEnd rfl,
    decodeEncodeRoundTrip (.writeBit true) rfl, decodeEncodeRoundTrip (.writeByte 0xAB) rfl⟩

/-! Steps. -/

theorem afterMicro_eq (words : List (BitVec 4 × Byte)) :
    afterMicro words = if words = [] then .portIdle else .micro words := by
  cases words with
  | nil => rfl
  | cons word words => rw [if_neg (List.cons_ne_nil word words), afterMicro]

/-- Settles O8: the next micro-op word is taken off the sequencer. -/
theorem stepRunsMicroOp : Obligations.StepRunsMicroOp := by
  intro s i code operand words hq hd
  rw [step_micro hq hd, afterMicro_eq]

/-- A step runs what the decoder reads from an image, placed before what waits on the host port. -/
theorem step_placeImage {im : Image} {i : Instr} {left : List Byte} (hd : decode im = .ok (i, left)) (s : State) :
    step (placeImage im s) = exec i { s with seq := .portIdle, host := left ++ s.host } := by
  cases im with
  | request bytes =>
    rw [placeImage, step_request rfl (decodeRequest_more hd s.host)]
  | micro code operand =>
    cases hm : decodeMicro code operand with
    | error e =>
      rw [decode, hm] at hd
      cases hd
    | ok j =>
      rw [decode, hm] at hd
      cases hd
      rw [placeImage, step_micro rfl hm]
      rfl

theorem decode_of_decodeTableWord {nbits w : Nat} {i : Instr} (h : decodeTableWord nbits w = some i) :
    ∃ left, decode (tableImage nbits w) = .ok (i, left) := by
  unfold decodeTableWord at h
  split at h
  · next j left hd =>
    cases h
    exact ⟨left, hd⟩
  · cases h

/-- Settles O9, from the step on a placed image. -/
theorem stepRunsTableWord : Obligations.StepRunsTableWord := by
  intro s nbits w i h
  obtain ⟨left, hd⟩ := decode_of_decodeTableWord h
  exact ⟨left, step_placeImage hd s⟩

/-! The pseudo-instructions. -/

/-- After a failed SESSION_START neither expansion goes on (R112). -/
theorem next_of_failed_start (p : Pseudo) {c : Code} (h : c ≠ .ok) : p.next [c] = none := by
  cases c with
  | ok => exact absurd rfl h
  | _ => cases p <;> rfl

/-- A failed FLASH_DATA is followed by SESSION_END alone (R112). -/
theorem next_of_failed_flashData (image : List Byte) {c : Code} (h : c ≠ .ok) :
    (Pseudo.flashImage image).next [.ok, c] = some .sessionEnd ∧
      ∀ d, (Pseudo.flashImage image).next [.ok, c, d] = none := by
  cases c with
  | ok => exact absurd rfl h
  | _ => exact ⟨rfl, fun _ => rfl⟩

/-- Whatever READ_ARBITRARY answered, SESSION_END follows it and ends DUMP (R112). -/
theorem next_of_readArbitrary (a : Addr) (n : Count) (c : Code) :
    (Pseudo.dump a n).next [.ok, c] = some .sessionEnd ∧ ∀ d, (Pseudo.dump a n).next [.ok, c, d] = none := by
  cases c <;> exact ⟨rfl, fun _ => rfl⟩

/-- The result of two responses or more is the data of the last (R112). -/
theorem result_append {rs : List Response} (h : rs ≠ []) (r : Response) : Pseudo.result (rs ++ [r]) = some r.data := by
  obtain ⟨q, qs, rfl⟩ := List.exists_cons_of_ne_nil h
  have hlast : Pseudo.result (q :: (qs ++ [r])) = ((qs ++ [r]).getLast?).map Response.data := by
    cases qs <;> rfl
  rw [List.cons_append, hlast, List.getLast?_concat]
  rfl

/-- Settles O6, by the codes of the responses so far. -/
theorem pseudoExpansions : Obligations.PseudoExpansions := fun image a n =>
  ⟨rfl, rfl, rfl, fun _ => rfl, fun _ h => (next_of_failed_flashData image h).1, rfl, rfl,
    fun c => (next_of_readArbitrary a n c).1, fun p _ h => next_of_failed_start p h, fun _ _ => rfl,
    fun _ d h => (next_of_failed_flashData image h).2 d,
    fun c => (next_of_readArbitrary a n c).2, fun _ r => ⟨rfl, fun h => result_append h r⟩⟩

end Sys2Proof.Proofs
end

section
/-! PROOFS. The bit on the wire and the level sampled at each clock of a frame (30_encoding.md R102). -/

namespace Sys2Proof.Proofs

open Sys2Proof.Machine Sys2Proof.Safety Sys2Proof.Laws

/-! The bits of bytes. -/

/-- Bit t of the wire bits of bytes is bit 7 - t mod 8 of byte t / 8 (R102). -/
theorem bitsOfBytes_getElem? : ∀ (xs : List Byte) (t : Nat), t < 8 * xs.length →
    (bitsOfBytes xs)[t]? = some ((xs.getD (t / 8) 0).getLsbD (7 - t % 8))
  | [], t, h => absurd h (Nat.not_lt_zero t)
  | x :: xs, t, h => by
    rw [bitsOfBytes_cons]
    by_cases h8 : t < 8
    · rw [List.getElem?_append_left (by exact h8), Nat.div_eq_of_lt h8, Nat.mod_eq_of_lt h8]
      interval_cases t <;> rfl
    · obtain ⟨k, rfl⟩ : ∃ k, t = k + 8 := ⟨t - 8, by omega⟩
      rw [List.getElem?_append_right (by simp), bitsOfByte_length, Nat.add_sub_cancel,
        bitsOfBytes_getElem? xs k (by simp at h; omega), Nat.add_mod_right, Nat.add_div_right k (by decide)]
      rfl

/-! The phases of a frame. -/

/-- Bit t of the address phase is bit 23 - t of the address (R102, R107). -/
theorem addrBytes_bit (a : Addr) {t : Nat} (h : t < 24) :
    ((addrBytes a).getD (t / 8) 0).getLsbD (7 - t % 8) = a.getLsbD (23 - t) := by
  interval_cases t <;> simp [addrBytes]

/-- The opcode phase (R102): bits 7 to 0 of the first byte. -/
theorem opcode_bit (op : Byte) (xs : List Byte) {t : Nat} (h : t < 8) :
    ((op :: xs).getD (t / 8) 0).getLsbD (7 - t % 8) = op.getLsbD (7 - t) := by
  rw [Nat.div_eq_of_lt h, Nat.mod_eq_of_lt h]
  rfl

/-- The address phase (R102): bits 23 to 0 of the address. -/
theorem address_bit (op : Byte) (a : Addr) (d : List Byte) {t : Nat} (h1 : 8 ≤ t) (h2 : t < 32) :
    ((addressed op a ++ d).getD (t / 8) 0).getLsbD (7 - t % 8) = a.getLsbD (23 - (t - 8)) := by
  obtain ⟨k, rfl⟩ : ∃ k, t = k + 8 := ⟨t - 8, by omega⟩
  have hbyte : k / 8 < (addrBytes a).length := by
    show k / 8 < 3
    omega
  rw [Nat.add_div_right k (by decide), Nat.add_mod_right, Nat.add_sub_cancel, ← addrBytes_bit a (by omega),
    ← List.getD_append (addrBytes a) d 0 _ hbyte]
  rfl

/-- The data phase (R102): the bits of the data bytes. -/
theorem data_bit (op : Byte) (a : Addr) (d : List Byte) {t : Nat} (h : 32 ≤ t) :
    ((addressed op a ++ d).getD (t / 8) 0).getLsbD (7 - t % 8) = (d.getD ((t - 32) / 8) 0).getLsbD (7 - (t - 32) % 8) := by
  obtain ⟨k, rfl⟩ : ∃ k, t = k + 32 := ⟨t - 32, by omega⟩
  have hbyte : (k + 32) / 8 = k / 8 + 4 := by omega
  have hbit : (k + 32) % 8 = k % 8 := by omega
  rw [hbyte, hbit, Nat.add_sub_cancel]
  rfl

/-! The levels of MOSI and the samples, clock by clock. -/

/-- The last wire bit of bytes is bit 0 of the last byte. -/
theorem bitsOfBytes_getLastD (x : Byte) (lvl : Bool) : ∀ (xs : List Byte),
    (bitsOfBytes (x :: xs)).getLastD lvl = ((x :: xs).getLastD 0).getLsbD 0
  | [] => rfl
  | y :: xs => bitsOfBytes_getLastD y lvl xs

theorem flatMap_writeByteEvents (xs : List Byte) : xs.flatMap writeByteEvents = (bitsOfBytes xs).flatMap writeBitEvents :=
  List.flatMap_assoc.symm

theorem flatMap_readByteEvents (xs : List Byte) : xs.flatMap readByteEvents = (bitsOfBytes xs).flatMap readBitEvents :=
  List.flatMap_assoc.symm

theorem mosiAtEdges_writes (tr : List Event) : ∀ (bits : List Bool) (lvl : Bool),
    mosiAtEdges lvl (bits.flatMap writeBitEvents ++ tr) = bits ++ mosiAtEdges (bits.getLastD lvl) tr
  | [], _ => rfl
  | b :: bits, lvl => by
    rw [List.getLastD_cons]
    exact congrArg (b :: ·) (mosiAtEdges_writes tr bits b)

theorem mosiAtEdges_reads (lvl : Bool) (tr : List Event) : ∀ bits : List Bool,
    mosiAtEdges lvl (bits.flatMap readBitEvents ++ tr) = List.replicate bits.length lvl ++ mosiAtEdges lvl tr
  | [] => rfl
  | _ :: bits => congrArg (lvl :: ·) (mosiAtEdges_reads lvl tr bits)

theorem samples_writes (tr : List Event) : ∀ bits : List Bool, samples (bits.flatMap writeBitEvents ++ tr) = samples tr
  | [] => rfl
  | _ :: bits => samples_writes tr bits

theorem samples_reads (tr : List Event) : ∀ bits : List Bool, samples (bits.flatMap readBitEvents ++ tr) = bits ++ samples tr
  | [] => rfl
  | b :: bits => congrArg (b :: ·) (samples_reads tr bits)

section

variable {tr : List Event} (h : (samplesFrom tr).1 = none)
include h

theorem samplesFrom_writes : ∀ bits : List Bool,
    samplesFrom (bits.flatMap writeBitEvents ++ tr) = (none, List.replicate bits.length none ++ (samplesFrom tr).2)
  | [] => Prod.ext h rfl
  | _ :: bits => congrArg (fun p : Option Bool × List (Option Bool) => (none, p.1 :: p.2)) (samplesFrom_writes bits)

theorem samplesFrom_reads : ∀ bits : List Bool,
    samplesFrom (bits.flatMap readBitEvents ++ tr) = (none, bits.map some ++ (samplesFrom tr).2)
  | [] => Prod.ext h rfl
  | b :: bits => congrArg (fun p : Option Bool × List (Option Bool) => (none, some b :: p.2)) (samplesFrom_reads bits)

end

/-! FL_CS is no part of either view. -/

theorem mosiAtEdges_flCs (lvl b : Bool) (tr : List Event) :
    mosiAtEdges lvl (.set .flCs b :: tr) = mosiAtEdges lvl tr := rfl

theorem samplesFrom_flCs (b : Bool) (tr : List Event) : samplesFrom (.set .flCs b :: tr) = samplesFrom tr := rfl

theorem samples_flCs (b : Bool) (tr : List Event) : samples (.set .flCs b :: tr) = samples tr := rfl

/-! Frames. -/

theorem frameEvents_eq (out ins : List Byte) :
    frameEvents out ins = .set .flCs false :: ((bitsOfBytes out).flatMap writeBitEvents ++
      ((bitsOfBytes ins).flatMap readBitEvents ++ [.set .flCs true])) := by
  rw [frameEvents, flatMap_writeByteEvents, flatMap_readByteEvents, List.append_assoc]

/-- MOSI at each clock of a frame: the bits sent, and then the last of them (R102). -/
theorem mosiAtEdges_frame (x : Byte) (xs ins : List Byte) (lvl : Bool) :
    mosiAtEdges lvl (frameEvents (x :: xs) ins) =
      bitsOfBytes (x :: xs) ++ List.replicate (8 * ins.length) (((x :: xs).getLastD 0).getLsbD 0) := by
  rw [frameEvents_eq, mosiAtEdges_flCs, mosiAtEdges_writes, mosiAtEdges_reads, bitsOfBytes_getLastD, bitsOfBytes_length,
    mosiAtEdges_flCs, mosiAtEdges, List.append_nil]

/-- The samples at each clock of a frame: none while it sends, then the bits received (R102). -/
theorem sampleAtEdges_frame (out ins : List Byte) :
    sampleAtEdges (frameEvents out ins) = List.replicate (8 * out.length) none ++ (bitsOfBytes ins).map some := by
  have hreads := samplesFrom_reads (tr := [.set .flCs true]) rfl (bitsOfBytes ins)
  rw [frameEvents_eq, sampleAtEdges, samplesFrom_flCs, samplesFrom_writes (congrArg Prod.fst hreads), hreads,
    bitsOfBytes_length, samplesFrom_flCs, samplesFrom, List.append_nil]

theorem samples_frame (out ins : List Byte) : samples (frameEvents out ins) = bitsOfBytes ins := by
  rw [frameEvents_eq, samples_flCs, samples_writes, samples_reads, samples_flCs, samples, List.append_nil]

/-- The clocks of a frame that sends out in c clocks and receives the n bytes ins (R102): one MOSI level each, in the first c the
bits sent with nothing sampled, and in the others the last bit sent with a bit received. -/
structure FrameClocks (out ins : List Byte) (c n : Nat) (lvl : Bool) (events : List Event) : Prop where
  mosi_length : (mosiAtEdges lvl events).length = c + 8 * n
  sample_length : (sampleAtEdges events).length = c + 8 * n
  samples_length : (samples events).length = 8 * n
  sent : ∀ t, t < c → (mosiAtEdges lvl events)[t]? = some ((out.getD (t / 8) 0).getLsbD (7 - t % 8))
  held : ∀ t, c ≤ t → t < c + 8 * n → (mosiAtEdges lvl events)[t]? = some ((out.getLastD 0).getLsbD 0)
  silent : ∀ t, t < c → (sampleAtEdges events)[t]? = some none
  sampled : ∀ t, t < 8 * n →
    (sampleAtEdges events)[c + t]? = some (some ((ins.getD (t / 8) 0).getLsbD (7 - t % 8)))

theorem frameEvents_clocks (x : Byte) (xs ins : List Byte) (lvl : Bool) :
    FrameClocks (x :: xs) ins (8 * (x :: xs).length) ins.length lvl (frameEvents (x :: xs) ins) := by
  have hlen := bitsOfBytes_length (x :: xs)
  refine ⟨?_, ?_, ?_, fun t ht => ?_, fun t h1 h2 => ?_, fun t ht => ?_, fun t ht => ?_⟩
  · rw [mosiAtEdges_frame, List.length_append, hlen, List.length_replicate]
  · rw [sampleAtEdges_frame, List.length_append, List.length_replicate, List.length_map, bitsOfBytes_length]
  · rw [samples_frame, bitsOfBytes_length]
  · rw [mosiAtEdges_frame, List.getElem?_append_left (by rwa [hlen]), bitsOfBytes_getElem? _ _ ht]
  · rw [mosiAtEdges_frame, List.getElem?_append_right (by rwa [hlen]), hlen, List.getElem?_replicate_of_lt (by omega)]
  · rw [sampleAtEdges_frame, List.getElem?_append_left (by rwa [List.length_replicate]), List.getElem?_replicate_of_lt ht]
  · rw [sampleAtEdges_frame, List.getElem?_append_right (by simp), List.length_replicate, Nat.add_sub_cancel_left,
      List.getElem?_map, bitsOfBytes_getElem? _ _ ht]
    rfl

/-- The trace of FRAME has the clocks of what it sends and returns (40_softspi.md R136). -/
theorem frame_clocks (x : Byte) (xs : List Byte) (n : Nat) {c : Nat} (hc : 8 * (x :: xs).length = c) (lvl : Bool)
    (s : State) :
    ∃ events, (frame (x :: xs) n s).2.trace = s.trace ++ events ∧ (frame (x :: xs) n s).1.length = n ∧
      FrameClocks (x :: xs) (frame (x :: xs) n s).1 c n lvl events := by
  obtain ⟨hlen, htr⟩ := frame_tr (x :: xs) n s
  have hclocks := frameEvents_clocks x xs (frame (x :: xs) n s).1 lvl
  rw [hlen, hc] at hclocks
  exact ⟨_, traceGrew_of_tr htr, hlen, hclocks⟩

/-- Settles O4, from the clocks of a frame and the byte that each phase sends at a clock. -/
theorem frameBitPositions : Obligations.FrameBitPositions := by
  refine ⟨fun s op a d n lvl _ => ?_, fun s op n lvl _ => ?_⟩
  · have hc : 8 * (addressed op a ++ d).length = 32 + 8 * d.length := by
      rw [List.length_append]
      exact Nat.mul_add 8 4 d.length
    obtain ⟨events, htrace, hlen, h⟩ := frame_clocks op (addrBytes a ++ d) n hc lvl s
    refine ⟨events, htrace, hlen, h.mosi_length, h.sample_length, h.samples_length, fun t ht => ?_, fun t h1 h2 => ?_,
      fun t h1 h2 => ?_, h.held, h.silent, h.sampled⟩
    · rw [← opcode_bit op (addrBytes a ++ d) ht]
      exact h.sent t (by omega)
    · rw [← address_bit op a d h1 h2]
      exact h.sent t (by omega)
    · rw [← data_bit op a d h1]
      exact h.sent t h2
  · obtain ⟨events, htrace, hlen, h⟩ := frame_clocks op [] n rfl lvl s
    refine ⟨events, htrace, hlen, h.mosi_length, h.sample_length, h.samples_length, fun t ht => ?_, h.held, h.silent,
      h.sampled⟩
    rw [← opcode_bit op [] ht]
    exact h.sent t ht

end Sys2Proof.Proofs
end

section
/-! PROOFS. Which received frames are whole commands (30_encoding.md R103; 20_memory.md R66). -/

namespace Sys2Proof.Proofs

open Sys2Proof.Machine Sys2Proof.Laws

/-- Whole bytes of bits are the wire bits of the bytes they make. -/
theorem bitsOfBytes_bytesOfBits : ∀ (n : Nat) {bits : List Bool}, bits.length = 8 * n →
    bitsOfBytes (bytesOfBits bits) = bits
  | 0, bits, h => by
    rw [List.eq_nil_of_length_eq_zero h]
    rfl
  | n + 1, bits, h => by
    have hfirst : (bits.take 8).length = 8 := by
      rw [List.length_take]
      omega
    have hrest : (bits.drop 8).length = 8 * n := by
      rw [List.length_drop]
      omega
    obtain ⟨hbits, hbytes⟩ := bits_of_eight hfirst (bits.drop 8)
    rw [List.take_append_drop] at hbytes
    rw [hbytes, bitsOfBytes_cons, hbits, bitsOfBytes_bytesOfBits n hrest, List.take_append_drop]

theorem isWholeCommand_iff (bytes : List Byte) : isWholeCommand bytes = true ↔ ∃ op rest, bytes = op :: rest ∧
    (op ∈ [0xAB, 0x05, 0x06, 0x04, 0x03] ∨ op ∈ [0x02, 0xD8] ∧ 3 ≤ rest.length) := by
  constructor
  · intro h
    unfold isWholeCommand at h
    split at h
    case h_8 => cases h
    all_goals exact ⟨_, _, rfl, by simp⟩
  · rintro ⟨op, rest, rfl, h | ⟨h, hlen⟩⟩
    · simp only [List.mem_cons, List.not_mem_nil, or_false] at h
      rcases h with rfl | rfl | rfl | rfl | rfl <;> rfl
    · obtain ⟨a2, a1, a0, rest, rfl⟩ : ∃ a2 a1 a0 more, rest = a2 :: a1 :: a0 :: more := by
        match rest, hlen with
        | a2 :: a1 :: a0 :: more, _ => exact ⟨a2, a1, a0, more, rfl⟩
      simp only [List.mem_cons, List.not_mem_nil, or_false] at h
      rcases h with rfl | rfl <;> rfl

/-- Settles O12: whole bytes are the wire bits of the bytes they make, and those are looked up by their opcode. -/
theorem wholeCommandsTaken : Obligations.WholeCommandsTaken := by
  intro d
  rw [Device.wholeCommand, Bool.and_eq_true, beq_iff_eq, isWholeCommand_iff]
  constructor
  · rintro ⟨hlen, op, rest, hbytes, hop⟩
    have hwhole : d.received.length = 8 * (d.fbits.length / 8) := by
      rw [Device.received, List.length_reverse]
      omega
    exact ⟨op, rest, by rw [← hbytes, bitsOfBytes_bytesOfBits _ hwhole, Device.received], hop⟩
  · rintro ⟨op, rest, hbits, hop⟩
    have hlen : d.fbits.length = 8 * (op :: rest).length := by
      rw [← List.length_reverse, hbits, bitsOfBytes_length]
    exact ⟨by omega, op, rest, by rw [Device.received, hbits, bytesOfBits_bitsOfBytes], hop⟩

end Sys2Proof.Proofs
end

section
/-! PROOFS. The micro-ops as instructions on a held bus (40_softspi.md R130 to R135). -/

namespace Sys2Proof.Proofs

open Sys2Proof.Machine Sys2Proof.Safety Sys2Proof.Laws

/-! What the micro-ops leave alone. -/

/-- A change of the bus outputs, the shift registers, the trace, the chip and the draws is on the bus only. -/
theorem sameOffBus_bus (s : State) (cs mosi sck : Pin) (x : Byte) (n : Nat) (tr : List Event) (d : Device) (e : Env) :
    SameOffBus s
      { s with
        pins := { s.pins with flCs := cs, mosi := mosi, sck := sck }
        shreg := x
        bitcnt := n
        tr := tr
        dev := d
        env := e } :=
  ⟨rfl, rfl, rfl, rfl, rfl, rfl, rfl, rfl, rfl, rfl, rfl, rfl, rfl, rfl, rfl, rfl, rfl⟩

/-- Clocks change nothing of the chip but the bits received (20_memory.md R66). -/
theorem heldClocks_dev (c k : Bool) (bits : List Bool) (d : Device) :
    heldClocks c k bits d = { d with fbits := (heldClocks c k bits d).fbits } := by
  cases c <;> rfl

/-- From a low SCK the chip gets every bit, where FL_CS is 0 (20_memory.md R66). -/
theorem heldClocks_fbits (c : Bool) (bits : List Bool) (d : Device) :
    (heldClocks c false bits d).fbits = (if Pin.output c = .output false then bits.reverse else []) ++ d.fbits := by
  cases c <;> rfl

/-! FL_CS. -/

/-- CS_ASSERT with FL_CS at c: a falling edge starts a frame (R130; 20_memory.md R66). -/
theorem csAssert_held {s : State} {c : Bool} (h : s.pins.flCs = .output c) :
    csAssert s =
      { s with
        pins := { s.pins with flCs := .output false }
        tr := .set .flCs false :: s.tr
        dev := { s.dev with fbits := if c = true then [] else s.dev.fbits } } := by
  cases c <;> simp [csAssert, drive, edge, h, Pins.set, Device.select]

/-- CS_DEASSERT with FL_CS already at 1 is no edge (R131; 20_memory.md R66). -/
theorem csDeassert_high {s : State} (h : s.pins.flCs = .output true) :
    csDeassert s = { s with pins := { s.pins with flCs := .output true }, tr := .set .flCs true :: s.tr } := by
  simp [csDeassert, drive, edge, h, Pins.set]

/-- Settles O10, by the level FL_CS had. -/
theorem csAssertDrivesLow : Obligations.CsAssertDrivesLow := by
  intro s h
  obtain ⟨c, -, -, hcs, -⟩ := held_pins h
  refine ⟨csAssert s, runMicro_held csAssert h, ?_⟩
  rw [csAssert_held hcs]
  refine ⟨traceGrew_of_tr rfl, rfl, sameOffBus_bus .., rfl, rfl, rfl, ?_⟩
  simp [hcs]

/-- WAKE is ignored only by a chip that is awake already (20_memory.md R68, R69). -/
theorem awake_of_ignores_wake {d : Device} (h : d.ignores 0xAB = true) : d.pd = false := by
  cases hpd : d.pd with
  | false => rfl
  | true => simp [Device.ignores, hpd] at h

/-- A frame whose opcode the chip ignores changes nothing, WAKE to a busy chip among them (20_memory.md R67 to R69). -/
theorem takeFrame_of_ignores {d : Device} {op : Byte} (rest : List Byte) (e : Env) (h : d.ignores op = true) :
    d.takeFrame (op :: rest) e = (d, e) := by
  by_cases hop : op = 0xAB
  · subst hop
    exact takeFrame_wake_awake (awake_of_ignores_wake h) rest e
  · exact takeFrame_ignored rest e hop h

/-- The end of a frame that a rule describes (20_memory.md R66). -/
theorem deselect_ruled {d : Device} (h : d.frameHasRule = true) (e : Env) :
    d.deselect e = ({ (d.takeFrame (bytesOfBits d.received) e).1 with fbits := [] },
      (d.takeFrame (bytesOfBits d.received) e).2) := if_pos h

/-- The end of a frame of nothing, or of an ignored opcode, changes nothing (20_memory.md R66 to R68). -/
theorem deselect_ignored {d : Device} (h : d.fbits = [] ∨ d.ignoresReceived = true) (e : Env) :
    d.deselect e = ({ d with fbits := [] }, e) := by
  have hrule : d.frameHasRule = true := by
    rcases h with h | h <;> simp [Device.frameHasRule, h]
  have htake : d.takeFrame (bytesOfBits d.received) e = (d, e) := by
    rcases h with h | h
    · simp [Device.received, h, bytesOfBits, Device.takeFrame]
    · unfold Device.ignoresReceived at h
      split at h
      · cases h
      · rename_i op rest hbytes
        rw [hbytes, takeFrame_of_ignores rest e h]
  rw [deselect_ruled hrule, htake]

theorem deselect_wholeCommand {d : Device} (h : d.wholeCommand = true) (e : Env) :
    d.deselect e = ({ (d.takeFrame (bytesOfBits d.received) e).1 with fbits := [] },
      (d.takeFrame (bytesOfBits d.received) e).2) :=
  deselect_ruled (by simp [Device.frameHasRule, h]) e

/-- Settles O11, by the level FL_CS had and what the chip does at the end of the frame received. -/
theorem csDeassertDrivesHigh : Obligations.CsDeassertDrivesHigh := by
  intro s h
  obtain ⟨c, -, -, hcs, -⟩ := held_pins h
  refine ⟨csDeassert s, runMicro_held csDeassert h, ?_⟩
  cases c with
  | true =>
    rw [csDeassert_high hcs]
    exact ⟨traceGrew_of_tr rfl, rfl, sameOffBus_bus .., rfl, rfl, fun _ => ⟨rfl, rfl⟩,
      fun hlow => by simp [hcs] at hlow⟩
  | false =>
    rw [csDeassert_inFrame hcs]
    refine ⟨traceGrew_of_tr rfl, rfl, sameOffBus_bus .., rfl, rfl, fun hhigh => by simp [hcs] at hhigh, fun _ =>
      ⟨deselect_fbits .., deselect_flashSize .., fun hi => ?_, fun hw => ?_⟩⟩
    · exact Prod.ext_iff.mp (deselect_ignored hi s.env)
    · exact Prod.ext_iff.mp (deselect_wholeCommand hw s.env)

/-! Bits. -/

theorem exec_writeBit {s : State} (h : BusHeld s) (b : Bool) : exec (.writeBit b) s = .next (writeBit b s) :=
  runMicro_held (writeBit b) h

theorem exec_readBit {s : State} (h : BusHeld s) : exec .readBit s = .next (readBit s).2 :=
  runMicro_held (fun s => (readBit s).2) h

/-- Settles O13, by the levels of FL_CS and SCK. -/
theorem writeBitSendsOneBit : Obligations.WriteBitSendsOneBit := by
  intro s b h
  obtain ⟨c, -, k, hcs, -, hsck, -⟩ := held_pins h
  refine ⟨writeBit b s, exec_writeBit h b, traceGrew_of_tr (writeBit_tr b s), ?_⟩
  rw [writeBit_held b hcs hsck]
  refine ⟨rfl, sameOffBus_bus .., rfl, rfl, rfl, ?_⟩
  simp [hcs, hsck]

theorem present_answered {d : Device} {b : Bool} (h : d.answer = some b) (e : Env) : d.present e = (b, e) := by
  rw [Device.present, h]

theorem present_drawn {d : Device} (h : d.answer = none) (e : Env) : d.present e = e.drawMiso := by
  rw [Device.present, h]

/-- Settles O14, by the levels of the bus outputs and whether the chip has an answer after the clock. -/
theorem readBitSamplesMiso : Obligations.ReadBitSamplesMiso := by
  intro s h
  obtain ⟨c, m, k, hcs, hmosi, hsck, -⟩ := held_pins h
  refine ⟨(readBit s).1, (readBit s).2, exec_readBit h, traceGrew_of_tr (readBit_tr s), ?_⟩
  rw [readBit_held hcs hmosi hsck]
  refine ⟨rfl, sameOffBus_bus .., rfl, rfl, ?_, fun b hb => ?_, fun hn => ?_⟩
  · simp [hcs, hmosi, hsck]
  · exact Prod.ext_iff.mp (present_answered hb s.env)
  · exact Prod.ext_iff.mp (present_drawn hn s.env)

/-! Bytes. -/

theorem writeBit_keepsHeld {s : State} (h : BusHeld s) (b : Bool) : BusHeld (writeBit b s) :=
  busHeld_sck (busHeld_sck (busHeld_mosi h b) true) false

theorem readBit_keepsHeld {s : State} (h : BusHeld s) : BusHeld (readBit s).2 := busHeld_sck (busHeld_sck h true) false

theorem execAll_cons {i : Instr} {s t : State} (h : exec i s = .next t) (is : List Instr) :
    execAll (i :: is) s = execAll is t := by
  simp only [execAll, h]

/-- WRITE_BITs one after the other. -/
theorem execAll_writeBits : ∀ (bits : List Bool) {s : State}, BusHeld s →
    execAll (bits.map .writeBit) s = .next (sendBits bits s)
  | [], _, _ => rfl
  | b :: bits, _, h =>
    (execAll_cons (exec_writeBit h b) _).trans (execAll_writeBits bits (writeBit_keepsHeld h b))

/-- READ_BITs one after the other. -/
theorem execAll_readBits : ∀ (n : Nat) {s : State}, BusHeld s →
    execAll (List.replicate n .readBit) s = .next (listenBits n s).2
  | 0, _, _ => rfl
  | n + 1, _, h =>
    (execAll_cons (exec_readBit h) _).trans (execAll_readBits n (readBit_keepsHeld h))

/-- Settles O15: the byte is its eight WRITE_BITs, and those are known on a held bus. -/
theorem writeByteSendsEightBits : Obligations.WriteByteSendsEightBits := by
  intro s x h
  obtain ⟨c, m, k, hcs, -, hsck, -⟩ := held_pins h
  refine ⟨sendBits (bitsOfByte x) s, writeByte x s, runMicro_held (writeByte x) h, execAll_writeBits (bitsOfByte x) h,
    writeByte_eq x s, traceGrew_of_tr (writeByte_tr x s), ?_⟩
  rw [writeByte_eq, bitsOfByte, sendBits_held _ _ hcs hsck, hcs]
  refine ⟨rfl, rfl, rfl, sameOffBus_bus .., rfl, heldClocks_dev .., fun hlow => ?_⟩
  obtain rfl : k = false := by rw [hsck] at hlow; exact Pin.output.inj hlow
  exact heldClocks_fbits c (bitsOfByte x) s.dev

/-- Settles O16: the byte is that of its eight READ_BITs, and those are known on a held bus. -/
theorem readByteReceivesEightBits : Obligations.ReadByteReceivesEightBits := by
  intro s h
  obtain ⟨c, m, k, hcs, hmosi, hsck, -⟩ := held_pins h
  obtain ⟨bits, e, -, hlisten⟩ := listenBits_held 7 hcs hmosi hsck
  refine ⟨(readByte s).shreg, (listenBits 8 s).2, readByte s, runMicro_held readByte h, execAll_readBits 8 h, ?_,
    traceGrew_of_tr (readByte_tr s), ?_⟩
  · rw [readByte_eq]
    rfl
  rw [readByte_eq, hlisten, hcs, hmosi]
  refine ⟨rfl, rfl, rfl, sameOffBus_bus .., heldClocks_dev .., fun hlow => ?_⟩
  obtain rfl : k = false := by rw [hsck] at hlow; exact Pin.output.inj hlow
  have hm : decide (Pin.output m = .output true) = m := by cases m <;> rfl
  rw [hm]
  exact heldClocks_fbits c (List.replicate 8 m) s.dev

end Sys2Proof.Proofs
end

section
/-! PROOFS. How many events of each kind the micro-ops and frames make (40_softspi.md R140), and the level that MOSI keeps
(R138). -/

namespace Sys2Proof.Proofs

open Sys2Proof.Machine Sys2Proof.Safety Sys2Proof.Laws

/-! Counts over the trace. -/

theorem countP_tr {events : List Event} {s t : State} (h : t.tr = events.reverse ++ s.tr) (p : Event → Bool) :
    t.tr.countP p = s.tr.countP p + events.countP p := by
  rw [h, List.countP_append, List.countP_reverse, Nat.add_comm]

theorem length_tr {events : List Event} {s t : State} (h : t.tr = events.reverse ++ s.tr) :
    t.tr.length = s.tr.length + events.length := by
  rw [h, List.length_append, List.length_reverse, Nat.add_comm]

/-- A count over the events of a frame, by the counts of a byte sent and of a byte received. -/
theorem countP_frameEvents (p : Event → Bool) {w r : Nat} (hw : ∀ x, (writeByteEvents x).countP p = w)
    (hr : ∀ y, (readByteEvents y).countP p = r) (out ins : List Byte) :
    (frameEvents out ins).countP p =
      [Event.set .flCs false, .set .flCs true].countP p + (w * out.length + r * ins.length) := by
  rw [frameEvents, ← List.singleton_append, List.countP_append, List.countP_append, List.countP_append,
    countP_flatMap_const out _ w p hw, countP_flatMap_const ins _ r p hr, ← List.singleton_append (l := [_]),
    List.countP_append]
  omega

theorem length_frameEvents (out ins : List Byte) :
    (frameEvents out ins).length = 2 + 40 * (out.length + ins.length) := by
  have h := countP_frameEvents (fun _ => true) (w := 40) (r := 40) (fun _ => rfl) (fun _ => rfl) out ins
  rw [List.countP_true, ← Nat.mul_add] at h
  exact h

theorem clockEdges_frameEvents (out ins : List Byte) :
    clockEdges (frameEvents out ins) = 8 * (out.length + ins.length) := by
  have h := countP_frameEvents (· == .set .sck true) (w := 8) (r := 8) (fun _ => rfl) (fun _ => rfl) out ins
  rw [← Nat.mul_add] at h
  exact h.trans (Nat.zero_add _)

/-- A frame drives MOSI for the bits it sends, and for none it receives (R138). -/
theorem setsMosi_frameEvents (out ins : List Byte) : (frameEvents out ins).countP isSetMosi = 8 * out.length := by
  have h := countP_frameEvents isSetMosi (w := 8) (r := 0) (fun _ => rfl) (fun _ => rfl) out ins
  rw [Nat.zero_mul] at h
  exact h.trans (Nat.zero_add _)

/-- Settles O19, from the events by which each micro-op and a frame make the trace grow. -/
theorem traceEventCounts : Obligations.TraceEventCounts := by
  intro s
  refine ⟨fun b => ?_, ?_, fun x => length_tr (writeByte_tr x s), length_tr (readByte_tr s), fun out n => ?_⟩
  · have h := writeBit_tr b s
    exact ⟨length_tr h, countP_tr h isSet, countP_tr h (· == .delay)⟩
  · have h := readBit_tr s
    exact ⟨length_tr h, countP_tr h isSet, countP_tr h (· == .delay), countP_tr h isSample⟩
  · obtain ⟨hlen, htr⟩ := frame_tr out n s
    have hlength := length_frameEvents out (frame out n s).1
    have hclocks := clockEdges_frameEvents out (frame out n s).1
    rw [hlen] at hlength hclocks
    exact ⟨hlength ▸ length_tr htr, hclocks ▸ countP_tr htr (· == .set .sck true)⟩

/-! The level of MOSI. -/

theorem listenBits_mosi : ∀ (n : Nat) (s : State), (listenBits n s).2.pins.mosi = s.pins.mosi
  | 0, _ => rfl
  | n + 1, s => listenBits_mosi n (readBit s).2

theorem readByte_mosi (s : State) : (readByte s).pins.mosi = s.pins.mosi := by
  rw [readByte_eq]
  exact listenBits_mosi 8 s

/-- A frame leaves MOSI at the last bit sent, with one SET for each bit sent (R138). -/
theorem frame_mosi {s : State} (h : s.pins.busReady = true) {out : List Byte} (hw : isWholeCommand out = true) (n : Nat) :
    (frame out n s).2.pins.mosi = mosiAfterBytes out s.pins.mosi ∧
      (frame out n s).2.tr.countP isSetMosi = s.tr.countP isSetMosi + 8 * out.length := by
  constructor
  · rw [frame_eq h hw, afterFrame_pins]
  · rw [countP_tr (frame_tr out n s).2, setsMosi_frameEvents]

/-- The level after an address is its bit 0, sent last (30_encoding.md R107). -/
theorem mosiAfterBytes_addressed (op : Byte) (a : Addr) (p : Pin) :
    mosiAfterBytes (addressed op a) p = .output (a.getLsbD 0) := by
  simp [mosiAfterBytes, addressed, addrBytes]

/-- Settles O18: a bit read has no SET of MOSI among its events, and a frame leaves MOSI at the last bit it sent. -/
theorem mosiKeepsLastBitSent : Obligations.MosiKeepsLastBitSent := by
  refine ⟨fun s t i hi h => ?_, fun s t hs h => ?_, fun s t a n hs hr h => ?_⟩
  · rcases hi with rfl | rfl
    · obtain ⟨-, rfl⟩ := runMicro_next (body := fun s => (readBit s).2) h
      exact ⟨rfl, countP_tr (readBit_tr s) isSetMosi⟩
    · obtain ⟨-, rfl⟩ := runMicro_next (body := readByte) h
      exact ⟨readByte_mosi s, countP_tr (readByte_tr s) isSetMosi⟩
  · obtain ⟨hsess, hready⟩ := hs
    have hcheck : firstStop [checkSession s] = none := by simp [checkSession_active hsess]
    obtain rfl := Host.Outcome.next.inj ((runBusOp_checked rdsrBody hcheck hready).symm.trans h)
    exact frame_mosi hready (out := [0x05]) rfl 1
  · obtain ⟨hsess, hready⟩ := hs
    have hcheck : firstStop [checkSession s, checkRange a n.toNat] = none := by
      simp [checkSession_active hsess, checkRange_fits hr]
    obtain rfl := Host.Outcome.next.inj ((runBusOp_checked (readBody a n) hcheck hready).symm.trans h)
    have hframe := frame_mosi (s := loadLen n.toNat (loadAddr a s)) hready (isWholeCommand_read a) n.toNat
    rw [mosiAfterBytes_addressed] at hframe
    exact hframe

end Sys2Proof.Proofs
end

section
/-! PROOFS. FRAME is the run of its micro-ops, one step each (40_softspi.md R136, 30_encoding.md R106). -/

namespace Sys2Proof.Proofs

open Sys2Proof.Machine Sys2Proof.Safety Sys2Proof.Laws

/-! What each micro-op keeps: the bus held, and the words still to come. -/

theorem loop_keepsHeld {body : State → State} (hb : ∀ {s}, BusHeld s → BusHeld (body s)) : ∀ (n : Nat) {s : State},
    BusHeld s → BusHeld (loop body n s)
  | 0, _, h => h
  | n + 1, _, h => loop_keepsHeld hb n (hb h)

theorem csAssert_keepsHeld {s : State} (h : BusHeld s) : BusHeld (csAssert s) := busHeld_flCs h false

theorem writeByte_keepsHeld {s : State} (h : BusHeld s) (x : Byte) : BusHeld (writeByte x s) :=
  loop_keepsHeld shiftOut_held 8 (s := withShift x 0 s) h

theorem readByte_keepsHeld {s : State} (h : BusHeld s) : BusHeld (readByte s) :=
  loop_keepsHeld shiftIn_held 8 (s := withShift 0 0 s) h

theorem writeByte_withSeq (x : Byte) (q : Seq) (s : State) : writeByte x (withSeq q s) = withSeq q (writeByte x s) :=
  loop_withSeq (body := shiftOut) (fun _ _ => rfl) q 8 (withShift x 0 s)

theorem readByte_withSeq (q : Seq) (s : State) : readByte (withSeq q s) = withSeq q (readByte s) :=
  loop_withSeq (body := shiftIn) (fun _ _ => rfl) q 8 (withShift 0 0 s)

/-! Runs. -/

/-- A step at a micro-op word does the micro-op and moves past the word (30_encoding.md R106). -/
theorem step_word {code : BitVec 4} {operand : Byte} {i : Instr} {body : State → State} {s : State}
    (hd : decodeMicro code operand = .ok i) (hi : ∀ s, exec i s = runMicro body s)
    (hb : ∀ q s, body (withSeq q s) = withSeq q (body s)) (h : BusHeld s) (words : List (BitVec 4 × Byte)) :
    step (withSeq (afterMicro ((code, operand) :: words)) s) = .next (withSeq (afterMicro words) (body s)) := by
  have hstep : step (withSeq (afterMicro ((code, operand) :: words)) s) = exec i (withSeq (afterMicro words) s) :=
    step_micro rfl hd
  rw [hstep, hi, runMicro_held body (s := withSeq (afterMicro words) s) h, hb]

/-- The words of the bytes sent, one step each. -/
theorem sendBytes_run (words : List (BitVec 4 × Byte)) : ∀ (xs : List Byte) {s : State}, BusHeld s →
    Host.Core.run Sys2Proof.core xs.length (withSeq (afterMicro (xs.map (fun x => (0x4, x)) ++ words)) s) =
        .next (withSeq (afterMicro words) (sendBytes xs s)) ∧
      BusHeld (sendBytes xs s)
  | [], _, h => ⟨rfl, h⟩
  | x :: xs, s, h => by
    obtain ⟨hrun, hheld⟩ := sendBytes_run words xs (writeByte_keepsHeld h x)
    have hstep := step_word (code := 0x4) (operand := x) (i := .writeByte x) rfl (fun _ => rfl) (writeByte_withSeq x) h
      (xs.map (fun x => (0x4, x)) ++ words)
    exact ⟨(run_succ xs.length hstep).trans hrun, hheld⟩

/-- The words of the bytes received, one step each. -/
theorem receiveBytes_run (words : List (BitVec 4 × Byte)) : ∀ (n : Nat) {s : State}, BusHeld s →
    Host.Core.run Sys2Proof.core n (withSeq (afterMicro (List.replicate n (0x5, 0) ++ words)) s) =
        .next (withSeq (afterMicro words) (receiveBytes n s).2) ∧
      BusHeld (receiveBytes n s).2
  | 0, _, h => ⟨rfl, h⟩
  | n + 1, s, h => by
    obtain ⟨hrun, hheld⟩ := receiveBytes_run words n (readByte_keepsHeld h)
    have hstep := step_word (code := 0x5) (operand := 0) (i := .readByte) rfl (fun _ => rfl) readByte_withSeq h
      (List.replicate n (0x5, 0) ++ words)
    exact ⟨(run_succ n hstep).trans hrun, hheld⟩

/-- The words of FRAME, one step each, on a held bus. -/
theorem frame_run (out : List Byte) (n : Nat) {s : State} (h : BusHeld s) :
    Host.Core.run Sys2Proof.core (out.length + n + 2) (withSeq (.micro (frameWords out n)) s) =
      .next (withSeq .portIdle (frame out n s).2) := by
  have hfirst := step_word (code := 0x0) (operand := 0) (body := csAssert) rfl (fun _ => rfl) (fun _ _ => rfl) h
    (out.map (fun x => (0x4, x)) ++ (List.replicate n (0x5, 0) ++ [(0x1, 0)]))
  obtain ⟨hsent, hheld⟩ := sendBytes_run (List.replicate n (0x5, 0) ++ [(0x1, 0)]) out (csAssert_keepsHeld h)
  obtain ⟨hreceived, hheld⟩ := receiveBytes_run [(0x1, 0)] n hheld
  have hlast := step_word (code := 0x1) (operand := 0) (body := csDeassert) rfl (fun _ => rfl) (fun _ _ => rfl) hheld []
  rw [frameWords, List.append_assoc]
  calc _ = Host.Core.run Sys2Proof.core (out.length + (n + 1)) _ := run_succ (out.length + (n + 1)) hfirst
    _ = Host.Core.run Sys2Proof.core (n + 1) _ := run_add out.length (n + 1) hsent
    _ = Host.Core.run Sys2Proof.core 1 _ := run_add n 1 hreceived
    _ = _ := run_succ 0 hlast

/-- Settles O20, for every frame on a held bus: each word is one step. -/
theorem frameIsItsMicroOps : Obligations.FrameIsItsMicroOps := by
  intro s out n _ hready hseq
  have hs : withSeq (.micro (frameWords out n)) s = s := by
    rw [← hseq]
    rfl
  have hrun := frame_run out n (held_of_ready hready)
  rw [hs] at hrun
  exact hrun

end Sys2Proof.Proofs
end

section
/-! PROOFS. The flash commands as host ops of a session (41_commands.md R151 to R157; 42_sequences.md R183). -/

namespace Sys2Proof.Proofs

open Sys2Proof.Machine Sys2Proof.Safety Sys2Proof.Laws

/-! What the frames of an op leave alone, up to its end. -/

/-- The op has sent its frames, with these events, and has not answered yet. -/
structure FramesSent (events : List Event) (s u : State) : Prop where
  tr : u.tr = events.reverse ++ s.tr
  around : SameAroundFrames s u
  regs : SameSequenceRegs s u
  out : u.out = s.out

theorem sameAroundFrames_trans {s u v : State} (h : SameAroundFrames s u) (h' : SameAroundFrames u v) :
    SameAroundFrames s v := by
  obtain ⟨hcfg, hpins, howner, herr, hinfo, hhost⟩ := h
  obtain ⟨hcfg', hpins', howner', herr', hinfo', hhost'⟩ := h'
  rw [hpins] at hpins'
  exact ⟨hcfg'.trans hcfg, hpins', howner'.trans howner, herr'.trans herr, hinfo'.trans hinfo, hhost'.trans hhost⟩

theorem sameSequenceRegs_trans {s u v : State} (h : SameSequenceRegs s u) (h' : SameSequenceRegs u v) :
    SameSequenceRegs s v := by
  obtain ⟨hoff, hpoll, hprogress⟩ := h
  obtain ⟨hoff', hpoll', hprogress'⟩ := h'
  exact ⟨hoff'.trans hoff, hpoll'.trans hpoll, hprogress'.trans hprogress⟩

theorem FramesSent.trans {events events' : List Event} {s u v : State} (h : FramesSent events s u)
    (h' : FramesSent events' u v) : FramesSent (events ++ events') s v where
  tr := by rw [h'.tr, h.tr, List.reverse_append, List.append_assoc]
  around := sameAroundFrames_trans h.around h'.around
  regs := sameSequenceRegs_trans h.regs h'.regs
  out := h'.out.trans h.out

theorem FramesSent.withSess {events : List Event} {s u : State} (h : FramesSent events s u) (x : Sess) :
    FramesSent events s { u with sess := x } :=
  ⟨h.tr, h.around, h.regs, h.out⟩

/-- The frames of an op come after its address and length registers are loaded (30_encoding.md R107; log entry 8). -/
theorem FramesSent.ofLoadAddr {events : List Event} {a : Addr} {s u : State} (h : FramesSent events (loadAddr a s) u) :
    FramesSent events s u :=
  ⟨h.tr, h.around, h.regs, h.out⟩

theorem FramesSent.ofLoadLen {events : List Event} {n : Nat} {s u : State} (h : FramesSent events (loadLen n s) u) :
    FramesSent events s u :=
  ⟨h.tr, h.around, h.regs, h.out⟩

theorem afterFrame_sent (out ins : List Byte) (d : Device) (e : Env) (s : State) :
    FramesSent (frameEvents out ins) s (afterFrame out ins d e s) where
  tr := afterFrame_tr out ins d e s
  around := by simp [SameAroundFrames]
  regs := by simp [SameSequenceRegs]
  out := afterFrame_out out ins d e s

/-- The op's answer with code OK touches neither the trace nor anything around the frames (60_exceptions.md R232). -/
theorem FramesSent.answers {events : List Event} {s u : State} (h : FramesSent events s u) (data : List Byte) :
    AnsweredOk data s (succeed data u) ∧ TraceGrew events s (succeed data u) ∧ SameAroundFrames s (succeed data u) ∧
      SameSequenceRegs s (succeed data u) := by
  obtain ⟨hcfg, hpins, howner, herr, hinfo, hhost⟩ := h.around
  refine ⟨⟨?_, rfl, rfl⟩, traceGrew_of_tr h.tr, ?_, h.regs⟩
  · rw [succeed_out, h.out]
  · exact ⟨hcfg, hpins, howner, (succeed_sessErr data u).trans herr, (succeed_errInfo data u).trans hinfo, hhost⟩

/-! The bus registers after a frame. -/

/-- shreg holds the last byte received, or 0x00 where none was (40_softspi.md R134, R135). -/
theorem afterFrame_shreg {out : List Byte} (h : out ≠ []) (ins : List Byte) (d : Device) (e : Env) (s : State) :
    (afterFrame out ins d e s).shreg = ins.getLastD 0 := by
  obtain ⟨x, xs, rfl⟩ := List.exists_cons_of_ne_nil h
  rw [afterFrame, shiftReceived, List.getLastD_eq_getLast?]
  cases ins.getLast? with
  | none => rfl
  | some y => rfl

theorem afterFrame_bitcnt {out : List Byte} (h : out ≠ []) (ins : List Byte) (d : Device) (e : Env) (s : State) :
    (afterFrame out ins d e s).bitcnt = 8 := by
  obtain ⟨x, xs, rfl⟩ := List.exists_cons_of_ne_nil h
  rw [afterFrame, shiftReceived]
  cases ins.getLast? with
  | none => rfl
  | some y => rfl

theorem afterFrame_shiftedOut {out : List Byte} (h : out ≠ []) (d : Device) (e : Env) (s : State) :
    ShiftedOut (afterFrame out [] d e s) :=
  ⟨afterFrame_shreg h [] d e s, afterFrame_bitcnt h [] d e s⟩

theorem mosiAfterBytes_of_ne_nil {out : List Byte} (h : out ≠ []) (p : Pin) :
    mosiAfterBytes out p = .output ((out.getLastD 0).getLsbD 0) := by
  obtain ⟨x, xs, rfl⟩ := List.exists_cons_of_ne_nil h
  simp [mosiAfterBytes, List.getLast?_cons]

theorem ne_nil_of_isWholeCommand {out : List Byte} (h : isWholeCommand out = true) : out ≠ [] := by
  rintro rfl
  cases h

theorem shiftedOut_withSess {u : State} (h : ShiftedOut u) (x : Sess) : ShiftedOut { u with sess := x } := h

theorem shiftedOut_succeed {u : State} (h : ShiftedOut u) (data : List Byte) : ShiftedOut (succeed data u) := h

/-! The chip's answer to a frame that only sends. -/

theorem ignores_of_not_ready {s : State} (h : ¬ChipReady s) {op : Byte} (hwake : op ≠ 0xAB) (hrdsr : op ≠ 0x05) :
    s.dev.ignores op = true := by
  cases hpd : s.dev.pd with
  | true => exact ignores_of_asleep hpd hwake
  | false => exact ignores_of_busy hpd (fun hb => h ⟨hpd, hb⟩) hrdsr

/-- The chip after WREN and then this frame, and the draws left. -/
def chipAfterWren (out : List Byte) (d : Device) (e : Env) : Device × Env :=
  chipAfter out (chipAfter [0x06] d e).1 (chipAfter [0x06] d e).2

theorem chipAfterWren_gated {s : State} (h : ¬ChipReady s) {op : Byte} (rest : List Byte) (e : Env) (hwake : op ≠ 0xAB)
    (hrdsr : op ≠ 0x05) : chipAfterWren (op :: rest) s.dev e = ({ s.dev with fbits := [] }, e) := by
  have hwren := ignores_of_not_ready h (op := 0x06) (by decide) (by decide)
  have hop : Device.ignores { s.dev with fbits := [] } op = true := ignores_of_not_ready h hwake hrdsr
  rw [chipAfterWren, chipAfter_ignored [] e (by decide) hwren, chipAfter_ignored rest e hwake hop]

theorem chipAfterWren_pp {s : State} (h : ChipReady s) (a : Addr) (data : List Byte) (e : Env) :
    chipAfterWren (addressed 0x02 a ++ data) s.dev e =
      (programmedChip a data s.dev e, programDraws a data s.dev e) := by
  rw [chipAfterWren, chipAfter_wren h.1 h.2, chipAfter_pp h.1 h.2]

theorem chipAfterWren_be {s : State} (h : ChipReady s) (a : Addr) (e : Env) :
    chipAfterWren (addressed 0xD8 a) s.dev e = (erasedChip a s.dev e, eraseDraws a s.dev e) := by
  rw [chipAfterWren, chipAfter_wren h.1 h.2, chipAfter_be h.1 h.2]

/-! WAKE. -/

theorem wakeCore_sent {s : State} (h : s.pins.busReady = true) :
    FramesSent (frameEvents [0xAB] []) s (wakeCore s) := by
  rw [wakeCore_eq h]
  exact (afterFrame_sent [0xAB] [] _ s.env s).withSess _

theorem wakeCore_shiftedOut {s : State} (h : s.pins.busReady = true) : ShiftedOut (wakeCore s) := by
  rw [wakeCore_eq h]
  exact afterFrame_shiftedOut (List.cons_ne_nil 0xAB []) { s.dev with pd := false, fbits := [] } s.env s

/-- Settles O25: the chip takes WAKE in every state, and only sess is written besides the frame. -/
theorem wakeWakesTheChip : Obligations.WakeWakesTheChip := by
  intro s h
  have hexec : exec .wake s = .next (succeed [] (wakeCore s)) := by
    show execWake s = _
    rw [execWake, runBusOp_checked _ (by simp [checkSession_active h.1]) h.2]
  obtain ⟨hanswered, hgrew, haround, hregs⟩ := (wakeCore_sent h.2).answers []
  have hshift := shiftedOut_succeed (wakeCore_shiftedOut h.2) []
  refine ⟨_, hexec, hanswered, hgrew, ?_, ?_, ?_, hshift, ?_, haround, hregs, ?_, ?_⟩
  all_goals simp [wakeCore_eq h.2, mosiAfterBytes]

/-! WREN and WRDI. -/

/-- A command of one opcode that sets the latch to w on a chip that obeys it (20_memory.md R71, R72). -/
theorem latchCommand_completes {s : State} (h : InSession s) {op : Byte} {w : Bool} (hw : isWholeCommand [op] = true)
    (hwake : op ≠ 0xAB) (hrdsr : op ≠ 0x05) (hobey : ∀ d e, Device.obey op [] d e = ({ d with wel := w }, e)) :
    ∃ t, runBusOp [checkSession s] (fun s => succeed [] (sendFrame [op] s)) s = .next t ∧ AnsweredOk [] s t ∧
      TraceGrew (frameEvents [op] []) s t ∧ (ChipReady s → t.dev = { s.dev with wel := w, fbits := [] }) ∧
      (¬ChipReady s → ChipUntouched s t) ∧ t.sess = s.sess ∧ t.pins.mosi = .output (op.getLsbD 0) ∧ ShiftedOut t ∧
      t.env = s.env ∧ SameAroundFrames s t ∧ SameSequenceRegs s t ∧ SameAddrLen s t := by
  have henv : (chipAfter [op] s.dev s.env).2 = s.env :=
    takeFrame_ignored_or_obeyed (fun r => r.2 = s.env) rfl (by rw [hobey])
  have hcore := sendFrame_eq h.2 hw
  rw [henv] at hcore
  have hsent := afterFrame_sent [op] [] (chipAfter [op] s.dev s.env).1 s.env s
  have hshift := afterFrame_shiftedOut (List.cons_ne_nil op []) (chipAfter [op] s.dev s.env).1 s.env s
  rw [← hcore] at hsent hshift
  obtain ⟨hanswered, hgrew, haround, hregs⟩ := hsent.answers []
  have hdev : (succeed [] (sendFrame [op] s)).dev = (chipAfter [op] s.dev s.env).1 := by simp [hcore]
  refine ⟨_, runBusOp_checked _ (by simp [checkSession_active h.1]) h.2, hanswered, hgrew, fun hr => ?_, fun hr => ?_,
    ?_, ?_, shiftedOut_succeed hshift [], ?_, haround, hregs, ?_, ?_⟩
  · rw [hdev, chipAfter, takeFrame_obeyed [] _ (not_ignores_of_ready hr.1 hr.2 op), hobey]
  · rw [ChipUntouched, hdev, chipAfter_ignored [] s.env hwake (ignores_of_not_ready hr hwake hrdsr)]
  all_goals simp [hcore, mosiAfterBytes]

/-- Settles O27: WREN is a command that sets the latch to 1. -/
theorem wrenSetsLatch : Obligations.WrenSetsLatch :=
  fun _ h => latchCommand_completes h (op := 0x06) rfl (by decide) (by decide) (obey_wren [])

/-- Settles O28: WRDI is a command that sets the latch to 0. -/
theorem wrdiClearsLatch : Obligations.WrdiClearsLatch :=
  fun _ h => latchCommand_completes h (op := 0x04) rfl (by decide) (by decide) (obey_wrdi [])

/-! PP and BE. -/

theorem sendFrame_wrenCore {s : State} (h : s.pins.busReady = true) {out : List Byte} (hw : isWholeCommand out = true) :
    sendFrame out (wrenCore s) =
      afterFrame out [] (chipAfterWren out s.dev s.env).1 (chipAfterWren out s.dev s.env).2
        (afterFrame [0x06] [] (chipAfter [0x06] s.dev s.env).1 (chipAfter [0x06] s.dev s.env).2 s) := by
  have hr := (frame_kept h (out := [0x06]) rfl 0).ready
  rw [sendFrame_eq (s := wrenCore s) hr hw, wrenCore, sendFrame_eq h rfl, afterFrame_dev, afterFrame_env, chipAfterWren]

/-- WREN and a second frame, before the op sets sess. -/
theorem wrenThen_sent {s : State} (h : s.pins.busReady = true) {out : List Byte} (hw : isWholeCommand out = true) :
    let u := sendFrame out (wrenCore s)
    FramesSent (frameEvents [0x06] [] ++ frameEvents out []) s u ∧ u.dev = (chipAfterWren out s.dev s.env).1 ∧
      u.pins.mosi = .output ((out.getLastD 0).getLsbD 0) ∧ ShiftedOut u := by
  have hne := ne_nil_of_isWholeCommand hw
  rw [sendFrame_wrenCore h hw]
  refine ⟨(afterFrame_sent [0x06] [] _ _ s).trans (afterFrame_sent out [] _ _ _), ?_, ?_,
    afterFrame_shiftedOut hne _ _ _⟩
  · rw [afterFrame_dev]
  · rw [afterFrame_pins, mosiAfterBytes_of_ne_nil hne]

/-- A chip that obeys WREN and PP is busy for a drawn count (20_memory.md R74, R78). -/
theorem turnsBusy_of_programmedChip {a : Addr} {data : List Byte} {s t : State} (h : ChipReady s)
    (ht : t.dev = programmedChip a data s.dev s.env) : TurnsBusy s t := by
  obtain ⟨m, w, c, hchip, -⟩ := programmedChip_turnsBusy a data s.dev s.env
  rw [TurnsBusy, ht, hchip]
  exact ⟨h.1, rfl, rfl, rfl⟩

theorem turnsBusy_of_erasedChip {a : Addr} {s t : State} (h : ChipReady s) (ht : t.dev = erasedChip a s.dev s.env) :
    TurnsBusy s t := by
  obtain ⟨m, w, c, hchip, -⟩ := erasedChip_turnsBusy a s.dev s.env
  rw [TurnsBusy, ht, hchip]
  exact ⟨h.1, rfl, rfl, rfl⟩

/-- At most a page of data, below FLASH_SIZE, is ANDed in byte by byte (20_memory.md R74). -/
theorem programmed_of_inside {a : Addr} {data : List Byte} {s t : State} (hlen : data.length ≤ 256)
    (hin : ProgramInside s.dev.flashSize a data.length) (ht : t.dev = programmedChip a data s.dev s.env) :
    Programmed a data s t ∧ t.dev.wel = false := by
  rw [programmedChip_inside hin] at ht
  rw [Programmed, ht]
  refine ⟨⟨fun i hi => ?_, fun x hx => read_programFrom_away s.dev.mem hx⟩, rfl⟩
  show (Memory.programFrom a 0 data s.dev.mem).read _ = _
  rw [read_programFrom_index s.dev.mem hlen hi, List.getD_eq_getElem data 0 hi]

/-- The block below FLASH_SIZE is FF (20_memory.md R75). -/
theorem erased_of_inside {a : Addr} {s t : State} (hin : EraseInside s.dev.flashSize a)
    (ht : t.dev = erasedChip a s.dev s.env) : Safety.Erased a s t ∧ t.dev.wel = false := by
  rw [erasedChip_inside hin] at ht
  rw [Safety.Erased, ht]
  exact ⟨⟨fun x hlo hhi => read_fill_inside s.dev.mem 0xFF ⟨hlo, hhi⟩, fun x hx => read_fill_outside s.dev.mem 0xFF hx⟩,
    rfl⟩

/-- PP_CORE on any chip: its frames, and what they leave at the chip and on the bus (41_commands.md R155). -/
theorem ppCore_sent {s : State} (h : s.pins.busReady = true) (a : Addr) (data : List Byte) :
    FramesSent (ppFrames a data) s (ppCore a data s) ∧
      (ppCore a data s).dev = (chipAfterWren (addressed 0x02 a ++ data) s.dev s.env).1 ∧
      (ppCore a data s).pins.mosi = .output (((addressed 0x02 a ++ data).getLastD 0).getLsbD 0) ∧
      ShiftedOut (ppCore a data s) := by
  obtain ⟨hsent, hdev, hmosi, hshift⟩ := wrenThen_sent h (isWholeCommand_pp a data)
  refine ⟨hsent.withSess .busyProgramming, ?_, ?_, shiftedOut_withSess hshift .busyProgramming⟩
  · simpa only [ppCore] using hdev
  · simpa only [ppCore] using hmosi

/-- BE_CORE on any chip (41_commands.md R156). -/
theorem beCore_sent {s : State} (h : s.pins.busReady = true) (a : Addr) :
    FramesSent (beFrames a) s (beCore a s) ∧ (beCore a s).dev = (chipAfterWren (addressed 0xD8 a) s.dev s.env).1 ∧
      (beCore a s).pins.mosi = .output (a.getLsbD 0) ∧ ShiftedOut (beCore a s) := by
  obtain ⟨hsent, hdev, hmosi, hshift⟩ := wrenThen_sent h (isWholeCommand_be a)
  rw [← mosiAfterBytes_of_ne_nil (ne_nil_of_isWholeCommand (isWholeCommand_be a)) s.pins.mosi,
    mosiAfterBytes_addressed] at hmosi
  refine ⟨hsent.withSess .busyErasing, ?_, ?_, shiftedOut_withSess hshift .busyErasing⟩
  · simpa only [beCore] using hdev
  · simpa only [beCore] using hmosi

/-- Settles O29: both frames reach the chip, which obeys both or ignores both. -/
theorem ppProgramsPage : Obligations.PpProgramsPage := by
  intro s a data h hidle hlen hrange
  have hexec : exec (.pp a data) s = .next (succeed [] (ppCore a data (loadLen data.length (loadAddr a s)))) := by
    show execPp a data s = _
    rw [execPp, runBusOp_checked _ (by simp [checkSession_active h.1, checkPageLength_fits hlen, checkRange_fits hrange,
      checkIdle_idle hidle]) h.2]
  obtain ⟨hsent, hdev, hmosi, hshift⟩ := ppCore_sent (s := loadLen data.length (loadAddr a s)) h.2 a data
  obtain ⟨hanswered, hgrew, haround, hregs⟩ := hsent.ofLoadLen.ofLoadAddr.answers []
  obtain ⟨hsess, haddr, -⟩ := ppCore_registers (s := loadLen data.length (loadAddr a s)) h.2 a data
  have hkept := ppCore_kept (s := loadLen data.length (loadAddr a s)) h.2 a data
  refine ⟨_, hexec, hanswered, hgrew, hsess, fun hr => ?_, fun hr => ?_, (succeed_addrR [] _).trans haddr,
    (succeed_lenR [] _).trans hkept.lenR, ?_, shiftedOut_succeed hshift [], haround, hregs⟩
  · have hchip := (succeed_dev [] _).trans (hdev.trans (congrArg Prod.fst (chipAfterWren_pp hr a data s.env)))
    exact ⟨turnsBusy_of_programmedChip hr hchip, fun hin => programmed_of_inside hlen hin hchip⟩
  · exact (succeed_dev [] _).trans (hdev.trans (congrArg Prod.fst
      (chipAfterWren_gated hr (addrBytes a ++ data) s.env (by decide) (by decide))))
  · rw [succeed_pins, hmosi]

/-- Settles O30: both frames reach the chip, which obeys both or ignores both. -/
theorem beErasesBlock : Obligations.BeErasesBlock := by
  intro s a h hidle
  have hexec : exec (.be a) s = .next (succeed [] (beCore a (loadAddr a s))) := by
    show execBe a s = _
    rw [execBe, runBusOp_checked _ (by simp [checkSession_active h.1, checkIdle_idle hidle]) h.2]
  obtain ⟨hsent, hdev, hmosi, hshift⟩ := beCore_sent (s := loadAddr a s) h.2 a
  obtain ⟨hanswered, hgrew, haround, hregs⟩ := hsent.ofLoadAddr.answers []
  obtain ⟨hsess, haddr, -⟩ := beCore_registers (s := loadAddr a s) h.2 a
  have hkept := beCore_kept (s := loadAddr a s) h.2 a
  refine ⟨_, hexec, hanswered, hgrew, hsess, fun hr => ?_, fun hr => ?_, (succeed_addrR [] _).trans haddr,
    (succeed_lenR [] _).trans hkept.lenR, ?_, shiftedOut_succeed hshift [], haround, hregs⟩
  · have hchip := (succeed_dev [] _).trans (hdev.trans (congrArg Prod.fst (chipAfterWren_be hr a s.env)))
    exact ⟨turnsBusy_of_erasedChip hr hchip, fun hin => erased_of_inside hin hchip⟩
  · exact (succeed_dev [] _).trans (hdev.trans (congrArg Prod.fst
      (chipAfterWren_gated hr (addrBytes a) s.env (by decide) (by decide))))
  · rw [succeed_pins, hmosi]

/-! RDSR. -/

/-- RDSR_CORE on any chip (41_commands.md R152): one byte; an awake chip counts a poll, a sleeping one is unchanged. -/
theorem rdsr_any {s : State} (h : s.pins.busReady = true) :
    ∃ st d e, frame [0x05] 1 s = ([st], afterFrame [0x05] [st] d e s) ∧
      (s.dev.pd = true → d = { s.dev with fbits := [] }) ∧
      (s.dev.pd = false → busyFlag st = stillBusy s.dev.busy ∧
        d = { s.dev with busy := afterPoll s.dev.busy, fbits := [] }) := by
  cases hpd : s.dev.pd with
  | false => exact ⟨_, _, _, rdsr_eq h hpd, nofun, fun _ => ⟨busyFlag_statusByte s.dev s.env, rfl⟩⟩
  | true =>
    have hlen : (bytesOfBits (frameHeard [0x05] 1 s).1).length = 1 := heardBytes_length _ 1 _ _
    obtain ⟨st, hst⟩ := List.length_eq_one_iff.mp hlen
    have htake := takeFrame_ignored (List.replicate 1 (levelByte (mosiLevel (mosiAfterBytes [0x05] s.pins.mosi))))
      (frameHeard [0x05] 1 s).2 (by decide) (ignores_of_asleep hpd (op := 0x05) (by decide))
    refine ⟨st, { s.dev with fbits := [] }, (frameHeard [0x05] 1 s).2, ?_, fun _ => rfl, nofun⟩
    rw [frame_eq h rfl, hst, frameAtChip, List.cons_append, List.nil_append, htake]

/-- Settles O26, by whether the chip sleeps. -/
theorem rdsrReturnsStatus : Obligations.RdsrReturnsStatus := by
  intro s h
  obtain ⟨st, d, e, hframe, hasleep, hawake⟩ := rdsr_any h.2
  have hexec : exec .rdsr s = .next (rdsrBody s) := by
    show execRdsr s = _
    rw [execRdsr, runBusOp_checked _ (by simp [checkSession_active h.1]) h.2]
  rw [rdsrBody, hframe] at hexec
  obtain ⟨hanswered, hgrew, haround, hregs⟩ := (afterFrame_sent [0x05] [st] d e s).answers [st]
  refine ⟨st, _, hexec, hanswered, hgrew, ?_, afterFrame_shreg (List.cons_ne_nil 0x05 []) [st] d e s,
    afterFrame_bitcnt (List.cons_ne_nil 0x05 []) [st] d e s, ?_, fun hpd => ?_, fun hpd => ⟨?_, ?_⟩, haround, hregs,
    ?_, ?_⟩
  · simp
  · simp [mosiAfterBytes]
  · simp [ChipUntouched, hasleep hpd]
  · exact (hawake hpd).1.trans (Bool.eq_iff_iff.mpr (by simp [stillBusy_iff]))
  · exact (afterFrame_dev _ _ _ _ _).trans (hawake hpd).2
  · simp
  · simp

/-! READ and READ_ARBITRARY. -/

/-- The two ops are one body under the same checks (42_sequences.md R183). -/
theorem exec_read {s : State} {i : Instr} {a : Addr} {n : Count} (hi : i = .read a n ∨ i = .readArbitrary a n)
    (h : InSession s) (hr : a.toNat + n.toNat ≤ 16777216) : exec i s = .next (readBody a n s) := by
  have hrun := runBusOp_checked (readBody a n) (checks := [checkSession s, checkRange a n.toNat])
    (by simp [checkSession_active h.1, checkRange_fits hr]) h.2
  rcases hi with rfl | rfl
  · exact hrun
  · exact hrun

/-- Byte k of a read that does not pass the top of the flash comes from address a + k (20_memory.md R73). -/
theorem flashBytes_getElem? {m : Memory} {a : Addr} {n k : Nat} (hk : k < n) (h : a.toNat + k < Config.addressCount) :
    (flashBytes m a n)[k]? = some (m.read (a.toNat + k)) := by
  simp [flashBytes, hk, readAddr_inside a k h]

/-- Settles O31: the byte at k is known from the first k + 1, all of them below FLASH_SIZE. -/
theorem readReturnsFlashBytes : Obligations.ReadReturnsFlashBytes := by
  intro s i a n hi h hr
  have hne := ne_nil_of_isWholeCommand (isWholeCommand_read a)
  have hexec := exec_read hi h hr
  obtain ⟨data, e, hlen, hread, hbytes⟩ := readCore_any (s := loadLen n.toNat (loadAddr a s)) h.2 a n.toNat
  rw [readBody, hread] at hexec
  obtain ⟨hanswered, hgrew, haround, hregs⟩ := (afterFrame_sent (addressed 0x03 a) data { s.dev with fbits := [] } e
    (loadLen n.toNat (loadAddr a s))).answers data
  refine ⟨data, _, hexec, hlen, hanswered, hgrew, ?_, fun hready k hk hin => ?_, ?_, ?_, ?_,
    afterFrame_shreg hne data _ _ _, afterFrame_bitcnt hne data _ _ _, ?_, haround, hregs⟩
  · exact afterFrame_dev _ _ _ _ _
  · have hfit : ∀ j, j < k + 1 → readAddr a j = a.toNat + j := fun j hj =>
      readAddr_inside a j (by unfold Config.addressCount; omega)
    have htake : data.take (k + 1) = flashBytes s.dev.mem a (k + 1) :=
      hbytes (k + 1) hk (not_ignores_of_ready hready.1 hready.2 0x03) fun j hj => by
        rw [hfit j hj]
        show a.toNat + j < s.dev.flashSize
        omega
    rw [← List.getElem?_take_of_lt (Nat.lt_succ_self k), htake]
    exact flashBytes_getElem? (Nat.lt_succ_self k) (by unfold Config.addressCount; omega)
  · simp [loadLen, loadAddr]
  · simp [loadLen, loadAddr]
  · simp [loadLen]
  · simp [mosiAfterBytes_addressed, loadLen, loadAddr]

end Sys2Proof.Proofs
end

section
/-! PROOFS. STATUS (42_sequences.md R185; 10_state.md R36). -/

namespace Sys2Proof.Proofs

open Sys2Proof.Machine Sys2Proof.Safety Sys2Proof.Laws

/-- STATUS has no check that can fail, and its answer is its whole effect (R185). -/
theorem exec_status (s : State) : exec .status s = .next (answerHost ⟨.ok, .absent, statusBytes s⟩ s) := rfl

/-- The six bytes are a function of these five registers (R185; 10_state.md R36). -/
theorem statusBytes_of_registers {s : State} {last serr : Code} {owner : Owner} {sess : Sess} {n : Count}
    (hlast : s.lastCode = last) (hserr : s.sessErr = serr) (howner : s.busOwner = owner) (hsess : s.sess = sess)
    (hn : s.progress = n) :
    statusBytes s =
      ((0 : BitVec 4) ++ last.bits ++ serr.bits ++ owner.bits ++ sess.bits).extractLsb' 8 8 ::
        ((0 : BitVec 4) ++ last.bits ++ serr.bits ++ owner.bits ++ sess.bits).extractLsb' 0 8 :: countBytes n := by
  subst hlast hserr howner hsess hn
  rfl

/-- Settles O42: the answer is read off the registers, of which CSR is the concatenation. -/
theorem statusReportsCsr : Obligations.StatusReportsCsr := by
  refine ⟨fun s => exec_status s, ⟨_, exec_status _, ?_⟩, fun s hlast hserr howner hsess hn => ⟨_, exec_status s, ?_⟩,
    fun s => csr_fields 0 s.lastCode.bits s.sessErr.bits s.busOwner.bits s.sess.bits⟩
  · rw [answerHost_out, statusBytes_of_registers (s := State.reset) rfl rfl rfl rfl rfl]
    rfl
  · rw [answerHost_out, statusBytes_of_registers hlast hserr howner hsess hn]
    rfl

end Sys2Proof.Proofs
end

section
/-! PROOFS. The awaits of AWAIT_READY, VERIFY_DATA and FLASH_DATA (42_sequences.md R180 to R182): on a chip that becomes ready, on
one that stays busy up to POLL_LIMIT, and on one that stays busy for ever. -/

namespace Sys2Proof.Proofs

open Sys2Proof.Machine Sys2Proof.Safety Sys2Proof.Laws

/-! One poll. -/

theorem polled_bitcnt (s : State) : (polled s).bitcnt = 8 := afterFrame_bitcnt (List.cons_ne_nil 0x05 []) _ _ _ s

/-- A poll counts busy_left down and leaves the rest of the chip (20_memory.md R70). -/
theorem polled_chip (s : State) :
    (polled s).dev.mem = s.dev.mem ∧ (polled s).dev.wel = s.dev.wel ∧ (polled s).dev.pd = s.dev.pd := by
  rw [polled_dev]
  exact ⟨rfl, rfl, rfl⟩

/-- A poll of an awake chip that is busy (R180; 20_memory.md R70). -/
theorem poll_busy {s : State} (h : s.pins.busReady = true) (hpd : s.dev.pd = false) (hb : s.dev.busy ≠ .polls 0)
    (op : Instr) (rest : List Task) (f : State → State) : poll op rest f s = pollAgain op rest (polled s) := by
  rw [poll_eq h hpd, if_pos ((stillBusy_iff _).mpr hb)]

/-- With polls left the poll loop goes on (R180). -/
theorem pollAgain_left (op : Instr) (rest : List Task) {u : State} (h : u.cfg.pollLimit ≠ .count u.pollR) :
    pollAgain op rest u = { u with seq := .awaiting op rest } := by
  have hleft : pollsUsedUp u = false := by
    unfold pollsUsedUp
    split
    · rfl
    · rename_i n hn
      exact decide_eq_false fun hp => h (hp ▸ hn)
  rw [pollAgain, hleft]
  rfl

/-- A busy poll writes nothing but the sequencer, and at the limit the response and the result registers (R180;
60_exceptions.md R232). -/
theorem pollAgain_fields (op : Instr) (rest : List Task) (u : State) : ∃ q out code info err, pollAgain op rest u =
    { u with seq := q, out := out, lastCode := code, errInfo := info, sessErr := err } := by
  unfold pollAgain
  split
  · exact ⟨_, _, _, _, _, rfl⟩
  · exact ⟨_, _, _, _, _, rfl⟩

/-- The poll loop of a running op, on a ready bus (R180). -/
theorem step_pollLoop {s : State} {op : Instr} {rest : List Task} (hq : s.seq = .awaiting op rest)
    (h : s.pins.busReady = true) : step s = .next (poll op rest (runTasks op rest) s) :=
  (step_awaiting hq).trans (if_pos h)

theorem staysBusy_of_forever {s : State} (hpd : s.dev.pd = false) (hb : s.dev.busy = .forever) (n : Nat) :
    StaysBusy n s :=
  ⟨hpd, fun k hk => by rw [hb] at hk; cases hk⟩

theorem busyPolled_mem {n : Nat} {statuses : List Byte} {s u : State} (h : BusyPolled n statuses s u) :
    u.dev.mem = s.dev.mem := by
  rw [h.dev]

theorem busyOn_length {n : Nat} {statuses : List Byte} {st : Byte} (h : BusyOn n statuses st) : statuses.length = n := by
  have hlen := congrArg List.length h.1
  rwa [List.length_map, List.length_replicate] at hlen

/-! Awaits that do not end ready. -/

/-- An await whose POLL_LIMIT is n + 1, on a chip that stays busy for as many polls: n steps on the op ends (R180). -/
theorem await_timesOut (op : Instr) (rest : List Task) {n : Nat} {s : State} (h : s.pins.busReady = true)
    (hb : StaysBusy (n + 1) s) (hl : s.cfg.pollLimit = .count (n + 1)) (hp : s.pollR = 0) :
    ∃ statuses u, BusyPolled n statuses s u ∧ u.pollR = n + 1 ∧
      Host.Core.run Sys2Proof.core n (poll op rest (runTasks op rest) s) =
        .next (raise ⟨.deviceNotResponding, .polls (BitVec.ofNat 32 u.pollR) u.shreg⟩ u) := by
  obtain ⟨statuses, u, hu, hrun⟩ := busyPolls_reach op rest n h hb fun m hm => by
    rw [hl, PollLimit.count.injEq] at hm
    omega
  have hpoll : u.pollR = n + 1 := by rw [hu.pollR, hp, Nat.zero_add]
  rw [pollAgain_limit op rest (by rw [hu.cfg, hl, hpoll])] at hrun
  exact ⟨statuses, u, hu, hpoll, hrun⟩

/-- An await without a limit, on a chip that stays busy for ever: every number of steps leaves it polling (R180). -/
theorem await_hangs (op : Instr) (rest : List Task) (k : Nat) {s : State} (h : s.pins.busReady = true)
    (hpd : s.dev.pd = false) (hb : s.dev.busy = .forever) (hl : s.cfg.pollLimit = .unbounded) :
    ∃ statuses u, BusyPolled k statuses s u ∧
      Host.Core.run Sys2Proof.core k (poll op rest (runTasks op rest) s) = .next { u with seq := .awaiting op rest } := by
  obtain ⟨statuses, u, hu, hrun⟩ := busyPolls_reach op rest k h (staysBusy_of_forever hpd hb _) fun m hm => by
    rw [hl] at hm
    cases hm
  rw [pollAgain_unbounded op rest (hu.cfg ▸ hl)] at hrun
  exact ⟨statuses, u, hu, hrun⟩

/-! The start of an op whose first task is an await. -/

theorem exec_awaitReady {s : State} (h : InSession s) : exec .awaitReady s =
    .next (poll .awaitReady [.returnStatus] (runTasks .awaitReady [.returnStatus]) { s with pollR := 0 }) := by
  show execAwaitReady s = _
  rw [execAwaitReady, runBusOp_checked _ (by simp [checkSession_active h.1]) h.2]
  rfl

/-- What VERIFY_DATA does after its await (R182). -/
def verifyRest (base : Addr) (buf : List Byte) : List Task :=
  .setOff 0 :: compareTasks base.toNat 0 (cut Config.pageSize buf)

theorem exec_verifyData {s : State} {base : Addr} {buf : List Byte} (h : InSession s)
    (hr : base.toNat + buf.length ≤ 16777216) : exec (.verifyData base buf) s =
      .next (poll (.verifyData base buf) (verifyRest base buf) (runTasks (.verifyData base buf) (verifyRest base buf))
        { loadLen buf.length s with pollR := 0 }) := by
  show execVerifyData base buf s = _
  rw [execVerifyData, runBusOp_checked _ (by simp [checkSession_active h.1, checkRange_fits hr]) h.2]
  rfl

theorem exec_firstAwait {s : State} {i : Instr} (h : InSession s)
    (hi : i = .awaitReady ∨ ∃ base buf, i = .verifyData base buf ∧ base.toNat + buf.length ≤ 16777216) :
    ∃ rest len, exec i s = .next (poll i rest (runTasks i rest) { s with lenR := len, pollR := 0 }) := by
  rcases hi with rfl | ⟨base, buf, rfl, hr⟩
  · exact ⟨_, s.lenR, exec_awaitReady h⟩
  · exact ⟨_, _, exec_verifyData h hr⟩

/-! AWAIT_READY. -/

/-- AWAIT_READY writes bitcnt by its status reads only, however a poll of it ends (40_softspi.md R135). -/
theorem poll_awaitReady_bitcnt {s : State} (h : s.pins.busReady = true) (hpd : s.dev.pd = false) :
    (poll .awaitReady [.returnStatus] (runTasks .awaitReady [.returnStatus]) s).bitcnt = 8 := by
  rw [poll_eq h hpd]
  split
  · obtain ⟨q, out, code, info, err, hf⟩ := pollAgain_fields .awaitReady [.returnStatus] (polled s)
    rw [hf]
    exact polled_bitcnt s
  · exact polled_bitcnt s

/-- After k busy polls the next poll is the last step. -/
theorem awaitReady_bitcnt {k : Nat} {s t : State} (h : s.pins.busReady = true) (hb : BusyFor k s)
    (hl : ∀ n, s.cfg.pollLimit = .count n → s.pollR + k < n)
    (hrun : Host.Core.run Sys2Proof.core k
      (poll .awaitReady [.returnStatus] (runTasks .awaitReady [.returnStatus]) s) = .next t) : t.bitcnt = 8 := by
  cases k with
  | zero =>
    cases hrun
    exact poll_awaitReady_bitcnt h hb.1
  | succ n =>
    obtain ⟨statuses, u, hu, hbusy⟩ := busyPolls_reach .awaitReady [.returnStatus] n h
      ⟨hb.1, fun j hj => by rw [hb.2, Busy.polls.injEq] at hj; omega⟩ fun m hm => by have := hl m hm; omega
    have hready : u.pins.busReady = true := by rw [hu.pins]; exact busReady_mosi h true
    have hpd : u.dev.pd = false := by rw [hu.dev]; exact hb.1
    rw [pollAgain_left _ _ fun hm => by
      have := hl _ (hu.cfg ▸ hm)
      rw [hu.pollR] at this
      omega] at hbusy
    rw [run_add n 1 hbusy] at hrun
    obtain ⟨w, hstep, hend⟩ := run_succ_next hrun
    cases hend
    rw [step_pollLoop (s := { u with seq := .awaiting .awaitReady [.returnStatus] }) rfl hready] at hstep
    cases hstep
    exact poll_awaitReady_bitcnt hready hpd

theorem sameAroundFrames_succeed {s u : State} (h : SameAroundFrames s u) (data : List Byte) :
    SameAroundFrames s (succeed data u) := by
  obtain ⟨hcfg, hpins, howner, herr, hinfo, hhost⟩ := h
  exact ⟨hcfg, hpins, howner, (succeed_sessErr data u).trans herr, (succeed_errInfo data u).trans hinfo, hhost⟩

theorem awaited_around {k : Nat} {statuses : List Byte} {s u : State} (h : Awaited k statuses s u) :
    SameAroundFrames s u :=
  ⟨h.cfg, by rw [h.pins], h.busOwner, h.sessErr, h.errInfo, h.host⟩

/-- Settles O32: the await gets to its ready poll, whose status byte is the response. -/
theorem awaitReadyCompletes : Obligations.AwaitReadyCompletes := by
  intro s k h hb hlimit
  have hl : ∀ n, s.cfg.pollLimit = .count n → 0 + k < n := fun n hn => by
    rw [Nat.zero_add]
    exact lt_of_belowLimit hlimit hn
  obtain ⟨statuses, v, hv, hrun⟩ := await_reaches .awaitReady [.returnStatus] k (s := { s with pollR := 0 }) h.2 hb hl
  have hout : (succeed [v.shreg] v).out = ⟨.ok, .absent, [v.shreg]⟩ :: s.out := by rw [succeed_out, hv.out]
  have hpoll : v.pollR = k + 1 := by rw [hv.pollR, Nat.zero_add]
  exact ⟨statuses, v.shreg, _, succeed [v.shreg] v, exec_awaitReady h, hrun, hv.ready, hv.shreg, ⟨hout, rfl, rfl⟩,
    traceGrew_of_tr hv.tr, hv.sess, hpoll, rfl, awaitReady_bitcnt (s := { s with pollR := 0 }) h.2 hb hl hrun, hv.offR,
    hv.progress, hv.dev, sameAroundFrames_succeed (awaited_around hv) _, hv.addrR, hv.lenR⟩

/-- Settles O33: the poll at POLL_LIMIT reads busy as those before it. -/
theorem awaitReadyTimesOut : Obligations.AwaitReadyTimesOut := by
  intro s n h hpd hl hn hb
  obtain ⟨n, rfl⟩ := Nat.exists_eq_add_of_le' hn
  obtain ⟨statuses, v, hv, hpoll, hrun⟩ := await_timesOut .awaitReady [.returnStatus] (s := { s with pollR := 0 }) h.2
    ⟨hpd, hb⟩ hl rfl
  obtain ⟨hout, hseq, hcode, hinfo, herr, hpollR⟩ := raise_timedOut (s := s) (hv.sess ▸ h.1) hpoll hv.out hv.sessErr
  have hmem := busyPolled_mem hv
  exact ⟨statuses, v.shreg, _, _, exec_awaitReady h, hrun, hv.busy.1, hv.busy.2, hout, traceGrew_of_tr hv.tr, hv.sess, hseq,
    hcode, hinfo, herr, hpollR, fun a => congrArg (Memory.read · a) hmem, hv.offR, hv.progress⟩

end Sys2Proof.Proofs
end

section
/-! PROOFS. FLASH_DATA on a chip that becomes ready in every await (42_sequences.md R181, R184): what its plan is made of, and what
it leaves. -/

namespace Sys2Proof.Proofs

open Sys2Proof.Machine Sys2Proof.Safety Sys2Proof.Laws

/-! The plan, chunk by chunk. -/

/-- The BEs and PPs of the first k chunks (R181). -/
def chunksPlan (base : Addr) (buf : List Byte) (k : Nat) : List FlashStep :=
  (List.range k).flatMap fun c => .erase (BitVec.ofNat 24 (base.toNat + 65536 * c)) :: chunkPages base buf (65536 * c)

theorem flashPlan_eq_chunksPlan (base : Addr) (buf : List Byte) :
    flashPlan base buf = chunksPlan base buf (chunkCount buf.length) := rfl

theorem chunksPlan_succ (base : Addr) (buf : List Byte) (k : Nat) : chunksPlan base buf (k + 1) =
    chunksPlan base buf k ++ .erase (BitVec.ofNat 24 (base.toNat + 65536 * k)) :: chunkPages base buf (65536 * k) := by
  rw [chunksPlan, List.range_succ, List.flatMap_append, List.flatMap_singleton]
  rfl

theorem chunkPages_erases (base : Addr) (buf : List Byte) (off : Nat) :
    (chunkPages base buf off).countP FlashStep.isErase = 0 := by
  refine List.countP_eq_zero.mpr fun st hst => ?_
  obtain ⟨p, -, rfl⟩ := List.mem_map.mp hst
  exact Bool.false_ne_true

/-- One BE for each chunk (R184). -/
theorem chunksPlan_erases (base : Addr) (buf : List Byte) : ∀ k : Nat,
    (chunksPlan base buf k).countP FlashStep.isErase = k
  | 0 => rfl
  | k + 1 => by
    rw [chunksPlan_succ, List.countP_append, chunksPlan_erases base buf k, List.countP_cons_of_pos rfl, chunkPages_erases]

/-- The first m pages of a chunk at buffer offset off. -/
theorem pages_bytes (buf : List Byte) (off : Nat) : ∀ m : Nat,
    ((List.range m).map fun p => (pageAt buf (off + 256 * p)).length).sum = min (256 * m) (buf.length - off)
  | 0 => by simp
  | m + 1 => by
    rw [List.range_succ, List.map_append, List.sum_append, pages_bytes buf off m, List.map_singleton, List.sum_singleton,
      pageAt, List.length_take, List.length_drop]
    omega

theorem chunkPages_bytes (base : Addr) (buf : List Byte) (off : Nat) :
    ((chunkPages base buf off).map FlashStep.bytes).sum = min 65536 (buf.length - off) := by
  rw [chunkPages, List.map_map]
  refine (pages_bytes buf off _).trans ?_
  unfold pageCount
  omega

theorem chunksPlan_bytes (base : Addr) (buf : List Byte) : ∀ k : Nat,
    ((chunksPlan base buf k).map FlashStep.bytes).sum = min (65536 * k) buf.length
  | 0 => by simp [chunksPlan]
  | k + 1 => by
    rw [chunksPlan_succ, List.map_append, List.sum_append, chunksPlan_bytes base buf k, List.map_cons, List.sum_cons,
      chunkPages_bytes, FlashStep.bytes]
    omega

/-- The PPs carry the whole buffer (R181). -/
theorem flashPlan_bytes (base : Addr) (buf : List Byte) :
    ((flashPlan base buf).map FlashStep.bytes).sum = buf.length := by
  have hcount := length_le_chunks buf
  rw [flashPlan_eq_chunksPlan, chunksPlan_bytes]
  omega

/-- The last step of a plan that is not empty is a PP (R181). -/
theorem flashPlan_endsInProgram (base : Addr) {buf : List Byte} (h : buf ≠ []) :
    ∃ front a page, flashPlan base buf = front ++ [.program a page] := by
  have hpos := List.length_pos_iff.mpr h
  obtain ⟨c, hc⟩ : ∃ c, chunkCount buf.length = c + 1 := ⟨(buf.length - 1) / 65536, by unfold chunkCount; omega⟩
  obtain ⟨p, hp⟩ : ∃ p, pageCount (min 65536 (buf.length - 65536 * c)) = p + 1 :=
    ⟨(min 65536 (buf.length - 65536 * c) - 1) / 256, by unfold chunkCount at hc; unfold pageCount; omega⟩
  rw [flashPlan_eq_chunksPlan, hc, chunksPlan_succ, chunkPages, hp, List.range_succ, List.map_append, List.map_singleton,
    ← List.cons_append, ← List.append_assoc]
  exact ⟨_, _, _, rfl⟩

/-- The session state FLASH_DATA leaves (10_state.md R27). -/
theorem flashPlan_sess (base : Addr) (buf : List Byte) (x : Sess) :
    ((flashPlan base buf).getLast?.map FlashStep.sess).getD x = if buf = [] then x else .busyProgramming := by
  split
  · rename_i hnil
    rw [hnil]
    rfl
  · rename_i hne
    obtain ⟨front, a, page, hplan⟩ := flashPlan_endsInProgram base hne
    rw [hplan, List.getLast?_concat]
    rfl

/-! What a plan leaves of the flash. -/

theorem applyStep_read_away {st : FlashStep} {x : Nat} (m : Memory) (h : ¬st.storesTo x) :
    (applyStep m st).read x = m.read x := by
  cases st with
  | erase a => exact read_fill_outside m 0xFF (by simp only [FlashStep.storesTo, Config.blockSize] at h ⊢; omega)
  | program a page => exact read_programFrom_away m fun i hi hix => h ⟨i, hi, hix⟩

/-- An address that no step of a plan stores to reads as before (20_memory.md R74, R75). -/
theorem applyPlan_read_away {x : Nat} : ∀ (plan : List FlashStep) (m : Memory), (∀ st ∈ plan, ¬st.storesTo x) →
    (applyPlan plan m).read x = m.read x
  | [], _, _ => rfl
  | st :: plan, m, h => (applyPlan_read_away plan (applyStep m st) fun q hq => h q (List.mem_cons_of_mem st hq)).trans
      (applyStep_read_away m (h st List.mem_cons_self))

theorem planned_read_away {tasks : List Task} {plan : List FlashStep} {ks : List Nat} {busy : List Busy}
    {awaits : List (List Byte)} {s v : State} (hv : Planned tasks ks busy awaits s v) (hplan : planOf tasks = plan)
    (hin : ∀ st ∈ plan, st.inside s.dev.flashSize) {x : Nat} (hx : ∀ st ∈ plan, ¬st.storesTo x) :
    v.dev.mem.read x = s.dev.mem.read x := by
  subst hplan
  rw [hv.mem hin, applyPlan_read_away _ _ hx]

theorem planned_around {tasks : List Task} {ks : List Nat} {busy : List Busy} {awaits : List (List Byte)} {s v : State}
    (hv : Planned tasks ks busy awaits s v) : SameAroundFrames s v :=
  ⟨hv.cfg, hv.pins, hv.busOwner, hv.sessErr, hv.errInfo, hv.host⟩

/-- Settles O36: the tasks of FLASH_DATA are its plan, each step behind an await that ends ready. -/
theorem flashDataFollowsPlan : Obligations.FlashDataFollowsPlan := by
  intro s base buf ks busy h hr hb hl
  obtain ⟨awaits, u, v, hexec, hrun, hv⟩ := flashData_completes h hr hb hl
  have htr := hv.tr
  have hprogress := hv.progress
  have hsess := hv.sess
  rw [planOf_flashTasks] at htr hprogress hsess
  rw [flashPlan_bytes] at hprogress
  have hout : (succeed [] v).out = ⟨.ok, .absent, []⟩ :: s.out := by rw [succeed_out, hv.out]; rfl
  exact ⟨awaits, u, succeed [] v, hexec, hrun, hv.polls, traceGrew_of_tr htr, ⟨hout, rfl, rfl⟩,
    hprogress.trans (BitVec.zero_add _), hv.offR.trans (finalOff_flashTasks base buf), hv.lenR,
    hsess.trans (flashPlan_sess base buf s.sess), fun hin x hx => planned_read_away hv (planOf_flashTasks base buf) hin hx,
    sameAroundFrames_succeed (planned_around hv) []⟩

end Sys2Proof.Proofs
end

section
/-! PROOFS. VERIFY_DATA on a chip that becomes ready (42_sequences.md R182), and the numbers of frames of the two sequences
(R184). -/

namespace Sys2Proof.Proofs

open Sys2Proof.Machine Sys2Proof.Safety Sys2Proof.Laws

/-! VERIFY_DATA. -/

/-- The op's trace: the polls of its await, and the READ frames of m chunks (R182). -/
theorem verified_tr {k n m : Nat} {base : Addr} {statuses : List Byte} {s v w : State}
    (hv : Awaited k statuses { loadLen n s with pollR := 0 } v) (hw : Compared base.toNat 0 n m { v with offR := 0 } w) :
    w.tr = (pollEvents statuses ++ verifyEvents s.dev.mem base n m).reverse ++ s.tr := by
  have hmem : v.dev.mem = s.dev.mem := by rw [hv.dev]; rfl
  have htr : v.tr = (pollEvents statuses).reverse ++ s.tr := hv.tr
  have hreads : w.tr = (readEvents v.dev.mem base.toNat n m).reverse ++ v.tr := hw.tr
  rw [hreads, htr, hmem, List.reverse_append, List.append_assoc]
  rfl

/-- The flash and its latch are as they were. -/
theorem verified_chip {k n m : Nat} {base : Addr} {statuses : List Byte} {s v w : State}
    (hv : Awaited k statuses { loadLen n s with pollR := 0 } v) (hw : Compared base.toNat 0 n m { v with offR := 0 } w) :
    w.dev.mem = s.dev.mem ∧ w.dev.wel = s.dev.wel := by
  refine ⟨hw.mem.trans ?_, hw.wel.trans ?_⟩
  · show v.dev.mem = _
    rw [hv.dev]
    rfl
  · show v.dev.wel = _
    rw [hv.dev]
    rfl

theorem verified_around {k n m : Nat} {base : Addr} {statuses : List Byte} {s v w : State}
    (hv : Awaited k statuses { loadLen n s with pollR := 0 } v) (hw : Compared base.toNat 0 n m { v with offR := 0 } w) :
    SameAroundFrames s w :=
  sameAroundFrames_trans (s := { loadLen n s with pollR := 0 }) (awaited_around hv)
    ⟨hw.cfg, hw.pins, hw.busOwner, hw.sessErr, hw.errInfo, hw.host⟩

/-- Settles O39: no chunk read differs from the buffer, so all of them are read. -/
theorem verifyDataAccepts : Obligations.VerifyDataAccepts := by
  intro s base buf k h hr hs hb hl hbuf
  obtain ⟨statuses, u, v, w, t, hexec, hrun, hv, hw, hoff, rfl⟩ :=
    verifyData_completes h hr hb hl (firstDifference_memBytes hbuf) hs
  have hout : (succeed [] w).out = ⟨.ok, .absent, []⟩ :: s.out := congrArg _ (hw.out.trans hv.out)
  have hpoll : w.pollR = k + 1 := hw.pollR.trans (hv.pollR.trans (congrArg (· + 1) (Nat.zero_add k)))
  obtain ⟨hmem, hwel⟩ := verified_chip hv hw
  have htr := verified_tr hv hw
  rw [Nat.zero_add] at hoff
  exact ⟨statuses, u, succeed [] w, hexec, hrun, hv.ready, traceGrew_of_tr htr, ⟨hout, rfl, rfl⟩,
    hw.sess.trans hv.sess, hoff, hw.lenR.trans hv.lenR, hpoll, hw.progress.trans hv.progress, hmem, hwel,
    sameAroundFrames_succeed (verified_around hv hw) []⟩

/-- The first byte of the flash that is not the buffer's (R182). -/
theorem firstDifference_memBytes_at {m : Memory} {b d : Nat} {buf : List Byte} (hd : d < buf.length)
    (hne : m.read (b + d) ≠ buf.getD d 0) (heq : ∀ i, i < d → m.read (b + i) = buf.getD i 0) :
    firstDifference (memBytes m b buf.length) buf = some d := by
  refine firstDifference_eq (memBytes_length ..) hd ?_ fun i hi => ?_
  · rwa [memBytes_getD hd]
  · rw [memBytes_getD (Nat.lt_trans hi hd), heq i hi]

/-- Settles O40: the chunk loop ends at the first difference, after the READ of its chunk. -/
theorem verifyDataReportsFirstDifference : Obligations.VerifyDataReportsFirstDifference := by
  intro s base buf k d h hr hs hb hl hd hne heq
  obtain ⟨statuses, u, v, w, t, hexec, hrun, hv, hw, -, rfl⟩ :=
    verifyData_completes h hr hb hl (firstDifference_memBytes_at hd hne heq) hs
  rw [Nat.zero_add] at hrun
  obtain ⟨hmem, -⟩ := verified_chip hv hw
  have htr := verified_tr hv hw
  have hsess : w.sess = .idle := hw.sess.trans hv.sess
  have herr : w.sessErr = s.sessErr := hw.sessErr.trans hv.sessErr
  have hout : w.out = s.out := hw.out.trans hv.out
  refine ⟨statuses, u, _, hexec, hrun, hv.ready, traceGrew_of_tr htr, ?_, rfl, hsess, rfl, rfl, ?_, hmem,
    hw.progress.trans hv.progress⟩
  · rw [raise_out, hout]
  · rw [raise_sessErr, herr, hsess]
    simp

/-! Frames (R184). -/

theorem framesSent_tr {events : List Event} {s t : State} (h : t.tr = events.reverse ++ s.tr) :
    framesSent t.tr = framesSent s.tr + framesSent events := by
  rw [h, framesSent_append, framesSent_reverse, Nat.add_comm]

theorem framesSent_pollEvents : ∀ statuses : List Byte, framesSent (pollEvents statuses) = statuses.length
  | [] => rfl
  | st :: statuses => by
    rw [pollEvents, List.flatMap_cons, framesSent_append, framesSent_frame]
    exact (congrArg (1 + ·) (framesSent_pollEvents statuses)).trans (Nat.add_comm _ _)

theorem framesSent_verifyEvents (mem : Memory) (base : Addr) (n : Nat) : ∀ m : Nat,
    framesSent (verifyEvents mem base n m) = m
  | 0 => rfl
  | m + 1 => by
    rw [verifyEvents, List.range_succ, List.flatMap_append, framesSent_append, List.flatMap_singleton, framesSent_frame]
    exact congrArg (· + 1) (framesSent_verifyEvents mem base n m)

theorem framesSent_step (st : FlashStep) : framesSent st.frames = 2 := by
  cases st <;> exact (framesSent_append _ _).trans (congrArg₂ (· + ·) (framesSent_frame _ _) (framesSent_frame _ _))

/-- A status read, WREN, and the BE or PP, for each step of the plan. -/
theorem framesSent_planEvents : ∀ {plan : List FlashStep} {statuses : List Byte}, statuses.length = plan.length →
    framesSent (planEvents plan (statuses.map fun st => [st])) = 3 * plan.length
  | [], [], _ => rfl
  | step :: plan, st :: statuses, h => by
    have ih := framesSent_planEvents (Nat.succ.inj h)
    rw [planEvents] at ih ⊢
    rw [List.map_cons, List.zipWith_cons_cons, List.flatten_cons, framesSent_append, ih, framesSent_append,
      framesSent_pollEvents, framesSent_step, List.length_singleton, List.length_cons]
    omega

theorem readyAfter_length {k : Nat} {statuses : List Byte} (h : ReadyAfter k statuses) : statuses.length = k + 1 := by
  have hlen := congrArg List.length h
  rwa [List.length_map, List.length_append, List.length_replicate] at hlen

/-- Awaits that each end at their first poll read one status byte each. -/
theorem awaits_singletons : ∀ {ks : List Nat} {awaits : List (List Byte)}, List.Forall₂ ReadyAfter ks awaits →
    (∀ k ∈ ks, k = 0) → ∃ statuses : List Byte, statuses.length = ks.length ∧ awaits = statuses.map fun st => [st]
  | [], [], .nil, _ => ⟨[], rfl, rfl⟩
  | k :: ks, await :: awaits, .cons hk hks, h0 => by
    obtain ⟨statuses, hlen, rfl⟩ := awaits_singletons hks fun j hj => h0 j (List.mem_cons_of_mem k hj)
    rw [h0 k List.mem_cons_self] at hk
    obtain ⟨st, rfl⟩ := List.length_eq_one_iff.mp (readyAfter_length hk)
    exact ⟨st :: statuses, congrArg (· + 1) hlen, rfl⟩

theorem awaitsBusyFor_length {n : Nat} {ks : List Nat} {busy : List Busy} {s : State} (h : AwaitsBusyFor n ks busy s) :
    ks.length = n := by
  obtain ⟨-, hlen, htake, -⟩ := h
  have hks := congrArg List.length htake
  rw [List.length_take, List.length_cons, List.length_map, hlen] at hks
  omega

/-- Of the steps of the plan E are BEs and P are PPs (R184). -/
theorem flashPlan_kinds (base : Addr) (buf : List Byte) :
    (flashPlan base buf).countP FlashStep.isErase = chunkCount buf.length ∧
      (flashPlan base buf).countP (fun st => !st.isErase) = pageCount buf.length := by
  have herases : (flashPlan base buf).countP FlashStep.isErase = chunkCount buf.length := chunksPlan_erases base buf _
  have htotal := List.length_eq_countP_add_countP FlashStep.isErase (l := flashPlan base buf)
  rw [flashPlan_length, herases] at htotal
  refine ⟨herases, ?_⟩
  simp only [Bool.not_eq_true, Bool.decide_eq_false] at htotal
  omega

/-- Settles O38, from the plan of FLASH_DATA and the chunks of VERIFY_DATA, with one frame for each await. -/
theorem partitionCounts : Obligations.PartitionCounts := by
  constructor
  · intro s t base buf ks busy h hr hl hb h0 hexec
    obtain ⟨awaits, u, v, hexec', hrun, hv⟩ := flashData_completes h hr hb fun k hk => h0 k hk ▸ hl
    obtain rfl : t = u := Host.Outcome.next.inj (hexec.symm.trans hexec')
    rw [List.sum_eq_zero h0] at hrun
    obtain rfl : t = succeed [] v := Host.Outcome.next.inj hrun
    obtain ⟨statuses, hlen, rfl⟩ := awaits_singletons hv.polls h0
    rw [awaitsBusyFor_length hb] at hlen
    have hplan : statuses.length = (flashPlan base buf).length := hlen.trans (flashPlan_length base buf).symm
    obtain ⟨herases, hprograms⟩ := flashPlan_kinds base buf
    have htr := hv.tr
    rw [planOf_flashTasks] at htr
    refine ⟨herases, hprograms, ⟨statuses, hplan, traceGrew_of_tr htr⟩, ?_, rfl⟩
    rw [succeed_tr, framesSent_tr (s := s) htr, framesSent_planEvents hplan, flashPlan_length]
    rfl
  · intro s t base buf h hr hb hs hl hbuf hexec
    obtain ⟨statuses, u, v, w, t', hexec', hrun, hv, hw, -, rfl⟩ :=
      verifyData_completes h hr hb hl (firstDifference_memBytes hbuf) hs
    obtain rfl : t = u := Host.Outcome.next.inj (hexec.symm.trans hexec')
    obtain rfl : t = succeed [] w := Host.Outcome.next.inj hrun
    refine ⟨?_, rfl⟩
    rw [succeed_tr, framesSent_tr (verified_tr hv hw), framesSent_append, framesSent_pollEvents,
      framesSent_verifyEvents, readyAfter_length hv.ready]
    rfl

end Sys2Proof.Proofs
end

section
/-! PROOFS. A chip that stays busy in an await of a running op (42_sequences.md R180 to R182; 60_exceptions.md R232, R235). -/

namespace Sys2Proof.Proofs

open Sys2Proof.Machine Sys2Proof.Safety Sys2Proof.Laws

/-! The await of FLASH_DATA before a step of its plan. -/

/-- The await meets the chip as the BE or PP before it left it (20_memory.md R78). -/
theorem planned_staysBusy {tasks : List Task} {ks : List Nat} {busy : List Busy} {awaits : List (List Byte)} {s v : State}
    (hv : Planned tasks ks busy awaits s v) {n : Nat}
    (hb : ∀ k, (s.dev.busy :: busy).getLast? = some (.polls k) → n ≤ k) : StaysBusy n v :=
  ⟨hv.pd, fun k hk => hb k (by rw [← hv.busy, hk])⟩

/-- The trace up to the last busy poll of that await (R181). -/
theorem flashAwait_tr {tasks : List Task} {ks : List Nat} {busy : List Busy} {awaits : List (List Byte)} {n len : Nat}
    {statuses : List Byte} {s v w : State}
    (hv : Planned tasks ks busy awaits { loadLen len s with progress := 0, offR := 0 } v)
    (hw : BusyPolled n statuses { v with pollR := 0 } w) :
    w.tr = (planEvents (planOf tasks) awaits ++ pollEvents statuses).reverse ++ s.tr := by
  have hplan : v.tr = (planEvents (planOf tasks) awaits).reverse ++ s.tr := hv.tr
  have hpolls : w.tr = (pollEvents statuses).reverse ++ v.tr := hw.tr
  rw [hpolls, hplan, List.reverse_append, List.append_assoc]

/-- Frames change no pin but MOSI, and a status frame leaves it high (40_softspi.md R138). -/
theorem pins_of_mosi {p q r : Pins} (hq : q = { p with mosi := q.mosi }) (hr : r = { q with mosi := .output true }) :
    r = { p with mosi := .output true } := by
  rw [hr, hq]

/-- Settles O34: every busy poll is counted, and the one at POLL_LIMIT ends the op where it stands. -/
theorem busyPollGoesOnOrEndsTheOp : Obligations.BusyPollGoesOnOrEndsTheOp := by
  refine ⟨?_, ?_, ?_⟩
  · intro s op rest hq hs h hpd hb
    have hbusy : busyFlag (statusByte s.dev s.env) = true := by rw [busyFlag_statusByte, (stillBusy_iff _).mpr hb]
    obtain ⟨hcfg, hsess, howner, haddr, hlen, hoff, hcode, herr, hinfo, hprogress, hseq, hhost, hout⟩ := polled_offBus s
    obtain ⟨hmem, hwel, hawake⟩ := polled_chip s
    obtain ⟨q, out, code, info, err, hf⟩ := pollAgain_fields op rest (polled s)
    have hstep := step_pollLoop hq h
    rw [poll_busy h hpd hb, hf] at hstep
    refine ⟨statusByte s.dev s.env, _, hstep, hbusy, traceGrew_of_tr (polled_tr s), rfl, hsess, hoff, hprogress,
      hmem, hwel, hawake.trans hpd, polled_pins s, howner, hcfg, hhost, ⟨haddr, hlen⟩, fun hleft => ?_, fun hlast => ?_⟩
    · have hgoesOn := hf.symm.trans (pollAgain_left op rest fun hl => hleft (hcfg ▸ hl))
      exact ⟨(congrArg State.seq hgoesOn).trans hq.symm, (congrArg State.out hgoesOn).trans hout,
        (congrArg State.lastCode hgoesOn).trans hcode, (congrArg State.errInfo hgoesOn).trans hinfo,
        (congrArg State.sessErr hgoesOn).trans herr⟩
    · have hends := hf.symm.trans (pollAgain_limit op rest (by rw [hcfg]; exact hlast))
      have htimedOut := raise_timedOut (s := s) (u := polled s) (hsess ▸ hs) rfl hout herr
      rw [← hends, polled_shreg] at htimedOut
      obtain ⟨hout', hseq', hcode', hinfo', herr', -⟩ := htimedOut
      exact ⟨hseq', hout', hcode', hinfo', herr'⟩
  · intro s base buf n h hr hl hn hb
    obtain ⟨n, rfl⟩ := Nat.exists_eq_add_of_le' hn
    obtain ⟨statuses, w, hw, hpoll, hrun⟩ := await_timesOut (.verifyData base buf) (verifyRest base buf)
      (s := { loadLen buf.length s with pollR := 0 }) h.2 hb hl rfl
    have hmem := busyPolled_mem hw
    have hwel : w.dev.wel = s.dev.wel := by rw [hw.dev]; rfl
    have hpd : w.dev.pd = false := by rw [hw.dev]; exact hb.1
    exact ⟨statuses, w.shreg, _, _, exec_verifyData h hr, hrun, hw.busy, traceGrew_of_tr hw.tr,
      raise_timedOut (hw.sess ▸ h.1) hpoll hw.out hw.sessErr, hw.sess, hw.progress, hw.offR, hmem, hwel, hpd, hw.pins,
      hw.busOwner, hw.cfg, hw.host⟩
  · intro s base buf j n ks busy h hr hj hl hn hb hks hlast
    obtain ⟨n, rfl⟩ := Nat.exists_eq_add_of_le' hn
    obtain ⟨before, rest, awaits, u, v, hexec, hplan, hv, hrun⟩ := flash_reachesAwait h hr hj hb fun k hk => by
      rw [hl]
      exact hks k hk
    obtain ⟨statuses, w, hw, hpoll, hbusy⟩ := await_timesOut (.flashData base buf) rest (s := { v with pollR := 0 })
      hv.ready (planned_staysBusy hv hlast) (by rw [hv.cfg]; exact hl) rfl
    have htr := flashAwait_tr hv hw
    have hsess := hw.sess.trans hv.sess
    have hprogress := hw.progress.trans (hv.progress.trans (BitVec.zero_add _))
    rw [hplan] at htr hsess hprogress
    exact ⟨awaits, statuses, w.shreg, u, _, hexec, (hrun n).trans hbusy, hv.polls, hw.busy, traceGrew_of_tr htr,
      raise_timedOut (hw.sess ▸ (planned_inSession hv h.1).1) hpoll (hw.out.trans hv.out) (hw.sessErr.trans hv.sessErr),
      hprogress, hsess, fun hin x hx => (congrArg (Memory.read · x) (busyPolled_mem hw)).trans (planned_read_away hv hplan hin hx),
      pins_of_mosi hv.pins hw.pins, hw.busOwner.trans hv.busOwner, hw.cfg.trans hv.cfg, hw.host.trans hv.host⟩

/-- Settles O35: a poll of a chip that is busy for ever leaves the loop where it was. -/
theorem neverReadyHangs : Obligations.NeverReadyHangs := by
  refine ⟨?_, ?_, ?_⟩
  · intro s op rest k hq h hpd hb hl
    cases k with
    | zero => exact ⟨s, rfl, hq, rfl, rfl, rfl⟩
    | succ k =>
      obtain ⟨statuses, w, hw, hrun⟩ := await_hangs op rest k h hpd hb hl
      refine ⟨_, (run_succ k (step_pollLoop hq h)).trans hrun, rfl, hw.out, ?_, hw.pollR⟩
      show framesSent w.tr = _
      rw [framesSent_tr hw.tr, framesSent_pollEvents, busyOn_length hw.busy]
  · intro s i k hi h hpd hb hl
    obtain ⟨rest, len, hexec⟩ := exec_firstAwait h hi
    obtain ⟨statuses, w, hw, hrun⟩ := await_hangs i rest k (s := { s with lenR := len, pollR := 0 }) h.2 hpd hb hl
    have hpoll : w.pollR = k + 1 := by rw [hw.pollR, Nat.zero_add]
    exact ⟨rest, statuses, w.shreg, _, _, hexec, hrun, rfl, hw.out, hw.busy, traceGrew_of_tr hw.tr, hpoll, hw.sess⟩
  · intro s base buf j k ks busy h hr hj hl hb hlast
    obtain ⟨before, rest, awaits, u, v, hexec, hplan, hv, hrun⟩ := flash_reachesAwait h hr hj hb fun k _ => by
      rw [hl]
      trivial
    have hforever : v.dev.busy = .forever := Option.some.inj (hv.busy.trans hlast)
    obtain ⟨statuses, w, hw, hbusy⟩ := await_hangs (.flashData base buf) rest k (s := { v with pollR := 0 }) hv.ready hv.pd
      hforever (by rw [hv.cfg]; exact hl)
    have htr := flashAwait_tr hv hw
    rw [hplan] at htr
    have hpoll : w.pollR = k + 1 := by rw [hw.pollR, Nat.zero_add]
    exact ⟨rest, awaits, statuses, w.shreg, u, _, hexec, (hrun k).trans hbusy, rfl, hw.out.trans hv.out, hv.polls, hw.busy,
      traceGrew_of_tr htr, hpoll⟩

end Sys2Proof.Proofs
end

section
/-! PROOFS. Acquisition and release of the pins at the ends of a session (43_session.md R210 to R216, R219). -/

namespace Sys2Proof.Proofs

open Sys2Proof.Machine Sys2Proof.Safety Sys2Proof.Laws

/-! SESSION_START with every pin claimed. -/

theorem exec_sessionStart {s : State} (h : s.sess = .released) : exec .sessionStart s = .next (startSession s) := by
  have hcheck : firstStop [checkNoSession s] = none := by rw [checkNoSession, if_pos h]; rfl
  exact runOp_checked startSession s hcheck

/-- The trace of SESSION_START up to its WAKE frame (R211, R213). -/
def openingEvents (v : ArbVariant) : List Event :=
  acquireEvents v ++ .hold :: if v = .releaseKeepCs then [.set .fpgaRst true] else []

/-- The state before the WAKE frame: every pin claimed, the FPGA reset sequence run, the bus taken (R210 to R214). -/
def sessionOpened (more : List Bool) (s : State) : State :=
  { s with
    pins := heldPins s.cfg.variant
    sess := .reset
    busOwner := .flashSession
    sessErr := .ok
    tr := (openingEvents s.cfg.variant).reverse ++ s.tr
    env := { s.env with acq := more } }

theorem startSession_succeeds {s : State} {more : List Bool} (h : s.env.acq = List.replicate 6 true ++ more) :
    startSession s = succeed [] (wakeCore (sessionOpened more s)) := by
  simp only [startSession, acquireAll_succeeds (s := { s with sessErr := .ok }) h]
  rw [fpgaResetSeq_eq rfl, sessionOpened, openingEvents, List.reverse_append, List.append_assoc]
  rfl

theorem startedPins_eq (v : ArbVariant) : startedPins v = { heldPins v with mosi := .output true } := by cases v <;> rfl

/-- Settles O44: the WAKE frame after the acquisition and the FPGA reset sequence. -/
theorem sessionStartTakesTheBus : Obligations.SessionStartTakesTheBus := by
  intro s more hs hacq
  have hready : (sessionOpened more s).pins.busReady = true := heldPins_busReady _
  have hexec := (exec_sessionStart hs).trans (congrArg _ (startSession_succeeds hacq))
  have hwake := wakeCore_eq hready
  have hlen := (wakeCore_kept hready).lenR
  have hshift := shiftedOut_succeed (wakeCore_shiftedOut hready) []
  have hsent := wakeCore_sent hready
  obtain ⟨hanswered, -, ⟨hcfg, -, howner, herr, hinfo, hhost⟩, hregs⟩ := hsent.answers []
  refine ⟨_, hexec, hanswered, traceGrew_of_tr ?_, ?_, ?_, howner, herr, ?_, hcfg, hinfo, hhost, hshift, hregs, ?_,
    (succeed_lenR [] _).trans hlen⟩
  · rw [succeed_tr, hsent.tr, startEvents, List.reverse_append, List.append_assoc]
    rfl
  · rw [succeed_pins, hwake, startedPins_eq]
    exact afterFrame_pins ..
  · rw [succeed_sess, hwake]
    rfl
  · rw [succeed_dev, hwake]
    exact afterFrame_dev ..
  · rw [succeed_addrR, hwake]
    exact afterFrame_addrR ..

/-- Settles O45: the pins and the trace of a session's start, in each variant. -/
theorem pinLevelsAfterStart : Obligations.PinLevelsAfterStart := by
  intro s more hs hacq
  obtain ⟨t, hexec, -, htrace, hpins, hsess, howner, -⟩ := sessionStartTakesTheBus s more hs hacq
  refine ⟨t, startEvents s.cfg.variant, hexec, htrace, hsess, howner, ?_⟩
  rw [hpins]
  refine ⟨rfl, rfl, rfl, rfl, fun hv => ?_, fun hv => ?_⟩ <;> rw [hv]
  · exact ⟨rfl, rfl, rfl⟩
  · exact ⟨rfl, rfl, rfl, acquireEvents .releaseKeepCs, frameEvents [0xAB] [], rfl⟩

/-! RELEASE_ALL. -/

/-- Settles O47: the roles whose pin is owned are those released. -/
theorem releaseAllReleasesEveryPin : Obligations.ReleaseAllReleasesEveryPin :=
  fun _ _ _ hl hr => Prod.ext_iff.mp (releaseAll_all hl hr)

/-- An event of the release of r, whatever its outcome (R215). -/
def ReleasedAs (r : Role) (ev : Event) : Prop := ev = .rel r ∨ ev = .relFail r

theorem release_event (r : Role) (s : State) : ∃ ev, ReleasedAs r ev ∧ (release r s).tr = ev :: s.tr := by
  refine ⟨_, ?_, release_tr r s⟩
  split
  · exact .inl rfl
  · exact .inr rfl

/-- RELEASE_ALL makes one event for each owned pin, in order, whatever the environment answers (R215). -/
theorem releaseAll_tr : ∀ (roles : List Role) (s : State), roles.Nodup →
    ∃ events, List.Forall₂ ReleasedAs (ownedOf roles s) events ∧ (releaseAll roles s).2.tr = events.reverse ++ s.tr
  | [], _, _ => ⟨[], .nil, rfl⟩
  | q :: roles, s, hn => by
    obtain ⟨hq, hn⟩ := List.nodup_cons.mp hn
    rw [releaseAll]
    split
    case isTrue ho =>
      obtain ⟨events, hev, htr⟩ := releaseAll_tr roles (release q s) hn
      rw [ownedOf_release hq] at hev
      have hown : ownedOf (q :: roles) s = q :: ownedOf roles s := List.filter_cons_of_pos ho
      obtain ⟨ev, hfirst, hone⟩ := release_event q s
      rw [hown]
      refine ⟨ev :: events, .cons hfirst hev, ?_⟩
      rw [htr, hone, List.reverse_cons, List.append_assoc]
      rfl
    case isFalse ho =>
      have hown : ownedOf (q :: roles) s = ownedOf roles s := List.filter_cons_of_neg ho
      rw [hown]
      exact releaseAll_tr roles s hn

/-! SESSION_START with a pin that cannot be claimed. -/

/-- ACQ(r, d, b) with the row of R211's table. -/
def acqEvent (v : ArbVariant) (r : Role) : Event := .acq r (acquiredPin v r).dir (acquiredPin v r).lvl

theorem acquireEvents_eq (v : ArbVariant) : acquireEvents v = roleOrder.map (acqEvent v) := by cases v <;> rfl

/-- An acquisition that fails after k others: the trace, and the pins acquired before it (R211). -/
theorem acquireAll_fails {role : Role} {more : List Bool} : ∀ (roles : List Role) (k : Nat) (s : State),
    roles[k]? = some role → s.env.acq = List.replicate k true ++ false :: more →
    (acquireAll roles s).1 = some role ∧
      (acquireAll roles s).2.tr = .acqFail role :: ((roles.take k).map (acqEvent s.cfg.variant)).reverse ++ s.tr ∧
      ∀ r, (acquireAll roles s).2.pins.get r = if r ∈ roles.take k then acquiredPin s.cfg.variant r else s.pins.get r
  | [], _, _, hk, _ => by cases hk
  | q :: roles, 0, s, hk, hacq => by
    have hdraw : s.env.drawAcq.1 = false := by rw [Env.drawAcq, hacq]; rfl
    obtain rfl : q = role := Option.some.inj hk
    simp [acquireAll, hdraw]
  | q :: roles, k + 1, s, hk, hacq => by
    have hdraw : s.env.drawAcq = (true, { s.env with acq := List.replicate k true ++ false :: more }) := by
      rw [Env.drawAcq, hacq]; rfl
    obtain ⟨hfail, htr, hpins⟩ := acquireAll_fails roles k
      (acquire q { s with env := { s.env with acq := List.replicate k true ++ false :: more } }) hk rfl
    simp only [acquireAll, hdraw, if_true]
    refine ⟨hfail, ?_, fun r => ?_⟩
    · rw [htr]
      simp [acqEvent]
    · rw [hpins, acquire_pins, List.take_succ_cons]
      by_cases hr : r = q
      · subst hr
        simp
      · simp [hr, get_set_other]

/-- With no pin owned before, those acquired before the failure are the ones owned, in acquisition order. -/
theorem ownedOf_acquired {s : State} {v : ArbVariant} {k : Nat} (hk : k < 6)
    (h : ∀ r, s.pins.get r = if r ∈ roleOrder.take k then acquiredPin v r else .released) :
    ownedOf roleOrder s = roleOrder.take k := by
  have hown : ∀ r, (s.pins.get r).own = decide (r ∈ roleOrder.take k) := by
    intro r
    rw [h]
    split
    case isTrue hr =>
      rw [decide_eq_true hr]
      cases r <;> cases v <;> rfl
    case isFalse hr => rw [decide_eq_false hr]; rfl
  have hfilter : ∀ k < 6, roleOrder.filter (fun r => decide (r ∈ roleOrder.take k)) = roleOrder.take k := by decide
  rw [ownedOf, funext hown, hfilter k hk]

/-- Settles O46: RELEASE_ALL finds owned just the pins acquired before the failure. -/
theorem acquisitionFailureCleansUp : Obligations.AcquisitionFailureCleansUp := by
  intro s k role more hs howner hpins hacq hk
  obtain ⟨hk6, -⟩ := List.getElem?_eq_some_iff.mp hk
  obtain ⟨hfail, htr, hget⟩ := acquireAll_fails roleOrder k { s with sessErr := .ok } hk hacq
  have hacquired := acquireAll_pinsOnly roleOrder { s with sessErr := .ok }
  generalize hu : (acquireAll roleOrder { s with sessErr := .ok }).2 = u at htr hget hacquired
  have howned : ownedOf roleOrder u = roleOrder.take k := ownedOf_acquired (v := s.cfg.variant) hk6 fun r => by
    rw [hget, hpins]
    cases r <;> rfl
  obtain ⟨events, hev, hreleased⟩ := releaseAll_tr roleOrder u (by decide)
  rw [howned] at hev
  have hbody : startSession s = raise ⟨.acquisitionFailure, .role role⟩ (releaseAll roleOrder u).2 := by
    simp only [startSession, hfail, hu]
  have hrest := (hacquired.trans (releaseAll_pinsOnly roleOrder u)).rest
  rw [releaseAll_pins] at hrest
  generalize (releaseAll roleOrder u).2 = w at hbody hrest hreleased
  refine ⟨_, events, (exec_sessionStart hs).trans (congrArg _ hbody), traceGrew_of_tr ?_, ?_, fun j ev hj => ?_, ?_⟩
  · rw [raise_tr, hreleased, htr, acquireEvents_eq, List.map_take]
    simp
  · rw [← hev.length_eq, List.length_take]
    exact min_eq_left hk6.le
  · obtain ⟨hlen, hget⟩ := List.forall₂_iff_get.mp hev
    obtain ⟨hj', rfl⟩ := List.getElem?_eq_some_iff.mp hj
    have hjk : j < (roleOrder.take k).length := hlen ▸ hj'
    exact ⟨_, List.getElem?_eq_some_iff.mpr ⟨_, (List.getElem_take ..).symm⟩, hget j hjk hj'⟩
  · rw [hrest]
    exact ⟨rfl, rfl, rfl, by simp [hs], rfl, howner, hs, rfl, rfl, rfl, rfl⟩

/-! SESSION_END. -/

theorem exec_sessionEnd (s : State) : exec .sessionEnd s = .next (endSession s) := rfl

/-- The summary byte, by its two outcomes (R216; 60_exceptions.md R240). -/
theorem summaryByte_eq (code : Code) (failed : Option Role) :
    summaryByte code failed =
      match decide (code = .ok), failed with
      | true, none => 0x00
      | false, none => 0x01
      | true, some _ => 0x02
      | false, some _ => 0x03 := by
  by_cases h : code = .ok <;> cases failed <;> simp [summaryByte, h]

/-- With no session no other host op writes sess_err (60_exceptions.md R232). -/
theorem sessErr_of_released {i : Instr} {s t : State} (hi : isHostInstr i = true) (hstart : i ≠ .sessionStart)
    (hs : s.sess = .released) (h : exec i s = .next t) : t.sessErr = s.sessErr := by
  cases exec_host hi (by rw [hs]; nofun) h with
  | stopped e _ ht => simp [ht, hs]
  | status _ ht => rw [ht]; rfl
  | started hi _ _ => exact absurd hi hstart
  | ended _ ht => rw [ht, endSession_none hs, succeed_sessErr]
  | sent _ hsent => exact absurd hs hsent.session

/-- Settles O48: the outcomes of RELEASE_ALL, reported once the session is over; with no session no op writes sess_err. -/
theorem sessionEndReportsBothOutcomes : Obligations.SessionEndReportsBothOutcomes := by
  refine ⟨fun s owned outcomes more failed hs howned hl hrel hfailed => ?_, fun s hs => ?_,
    fun i s t hi hstart hs h => ?_⟩
  · obtain rfl : owned = ownedOf roleOrder s := howned
    have hexec := exec_sessionEnd s
    rw [endSession, if_neg hs, releaseAll_all hl hrel, ← hfailed] at hexec
    refine ⟨_, summaryByte s.sessErr failed, hexec, summaryByte_eq _ _, ?_⟩
    cases failed <;> exact ⟨rfl, traceGrew_of_tr rfl, rfl, rfl, rfl, rfl, rfl, rfl, rfl, rfl, rfl, rfl, rfl, rfl,
      ⟨rfl, rfl, rfl⟩, rfl, rfl⟩
  · rw [exec_sessionEnd, endSession_none hs]
    rfl
  · have herr := sessErr_of_released hi hstart hs h
    obtain ⟨-, -, hcsr, -⟩ := csr_fields 0 t.lastCode.bits t.sessErr.bits t.busOwner.bits t.sess.bits
    exact ⟨herr, herr ▸ hcsr⟩

end Sys2Proof.Proofs
end

section
/-! PROOFS. Each role is released as often as acquired, and once less while it is owned (43_session.md R218). -/

namespace Sys2Proof.Proofs

open Sys2Proof.Machine Sys2Proof.Safety Sys2Proof.Laws

/-! One event, and one pin claimed, released or driven. -/

/-- A change of registers only. -/
theorem balance_registers {s u : State} (hb : ReleaseBalance s) (htr : u.tr = s.tr) (hpins : u.pins = s.pins) :
    ReleaseBalance u := by
  intro r
  rw [htr, hpins]
  exact hb r

theorem emit_balance {ev : Event} {s : State} (ha : ∀ r, isAcq r ev = false) (hr : ∀ r, isRelease r ev = false)
    (hb : ReleaseBalance s) : ReleaseBalance (emit ev s) := by
  intro r
  rw [emit_tr, emit_pins, List.countP_cons_of_neg (by simp [ha]), List.countP_cons_of_neg (by simp [hr])]
  exact hb r

theorem acquiredPin_own (v : ArbVariant) (r : Role) : (acquiredPin v r).own = true := by cases r <;> cases v <;> rfl

theorem acquire_balance {q : Role} {s : State} (h : (s.pins.get q).own = false) (hb : ReleaseBalance s) :
    ReleaseBalance (acquire q s) := by
  intro r
  have hr := hb r
  by_cases hq : r = q
  · subst hq
    simp_all [isAcq, isRelease, acquiredPin_own]
  · simpa [isAcq, isRelease, get_set_other _ _ hq, Ne.symm hq] using hr

theorem release_balance {q : Role} {s : State} (h : (s.pins.get q).own = true) (hb : ReleaseBalance s) :
    ReleaseBalance (release q s) := by
  intro r
  have hr := hb r
  obtain ⟨ev, hev, htr⟩ := release_event q s
  rw [htr, release_pins]
  by_cases hq : r = q
  · subst hq
    rw [h] at hr
    rcases hev with rfl | rfl <;> simpa [isAcq, isRelease, Pin.own] using hr
  · rw [get_set_other _ _ hq]
    rcases hev with rfl | rfl <;> simpa [isAcq, isRelease, Ne.symm hq] using hr

theorem drive_balance {q : Role} {s : State} (b : Bool) (h : (s.pins.get q).own = true) (hb : ReleaseBalance s) :
    ReleaseBalance (drive q b s) := by
  have hown : ∀ r, ((drive q b s).pins.get r).own = (s.pins.get r).own := fun r => by
    rw [drive_pins]
    by_cases hq : r = q
    · rw [hq, get_set_same, h]
      rfl
    · rw [get_set_other _ _ hq]
  intro r
  rw [hown]
  exact emit_balance (ev := .set q b) (fun _ => rfl) (fun _ => rfl) hb r

/-! The session ops. -/

theorem releaseAll_balance : ∀ (roles : List Role) {s : State}, ReleaseBalance s → ReleaseBalance (releaseAll roles s).2
  | [], _, hb => hb
  | q :: roles, s, hb => by
    rw [releaseAll]
    split
    case isTrue ho => exact releaseAll_balance roles (release_balance ho hb)
    case isFalse => exact releaseAll_balance roles hb

/-- No pin is acquired while it is owned (R218). -/
theorem acquireAll_balance : ∀ (roles : List Role) {s : State}, roles.Nodup →
    (∀ r ∈ roles, (s.pins.get r).own = false) → ReleaseBalance s → ReleaseBalance (acquireAll roles s).2
  | [], _, _, _, hb => hb
  | q :: roles, s, hn, hfree, hb => by
    obtain ⟨hq, hn⟩ := List.nodup_cons.mp hn
    rw [acquireAll]
    split
    case isTrue =>
      refine acquireAll_balance roles hn (fun r hr => ?_) (acquire_balance (hfree q List.mem_cons_self) hb)
      have hrq : r ≠ q := fun e => hq (e ▸ hr)
      rw [acquire_pins, get_set_other _ _ hrq]
      exact hfree r (List.mem_cons_of_mem _ hr)
    case isFalse => exact emit_balance (fun _ => rfl) (fun _ => rfl) (balance_registers hb rfl rfl)

theorem fpgaResetSeq_balance {s : State} (h : (s.pins.get .fpgaRst).own = true) (hb : ReleaseBalance s) :
    ReleaseBalance (fpgaResetSeq s) := by
  have hhold : ReleaseBalance (hold s) := emit_balance (fun _ => rfl) (fun _ => rfl) hb
  unfold fpgaResetSeq
  simp only
  split
  · exact drive_balance true h hhold
  · exact hhold

/-! Frames: they neither claim nor release a pin, and every pin stays owned or not. -/

theorem own_of_kept {s u : State} (h : s.pins.busReady = true) (hk : OpKept s u) (r : Role) :
    (u.pins.get r).own = (s.pins.get r).own := by
  obtain ⟨-, ⟨m, hm⟩, -⟩ := ready_pins h
  obtain ⟨-, ⟨m', hm'⟩, -⟩ := ready_pins hk.ready
  rw [hk.pins]
  cases r with
  | mosi => simp only [Pins.get, hm, hm', Pin.own]
  | _ => rfl

theorem frame_balance {s : State} (h : s.pins.busReady = true) {out : List Byte} (hw : isWholeCommand out = true) (n : Nat)
    (hb : ReleaseBalance s) : ReleaseBalance (frame out n s).2 := by
  intro r
  obtain ⟨-, htr⟩ := frame_tr out n s
  have hacq := countP_frameEvents (isAcq r) (w := 0) (r := 0) (fun _ => rfl) (fun _ => rfl) out (frame out n s).1
  have hrel := countP_frameEvents (isRelease r) (w := 0) (r := 0) (fun _ => rfl) (fun _ => rfl) out (frame out n s).1
  rw [countP_tr htr, countP_tr htr, hacq, hrel, own_of_kept h (frame_kept h hw n), hb r]
  simp [isAcq, isRelease]

/-- WREN and a second frame (41_commands.md R155, R156). -/
theorem wrenThen_balance {s : State} (h : s.pins.busReady = true) {out : List Byte} (hw : isWholeCommand out = true)
    (hb : ReleaseBalance s) : ReleaseBalance (sendFrame out (wrenCore s)) :=
  frame_balance (frame_kept h (out := [0x06]) rfl 0).ready hw 0 (frame_balance h rfl 0 hb)

theorem startSession_balance {s : State} (h : s.pins = Pins.allReleased) (hb : ReleaseBalance s) :
    ReleaseBalance (startSession s) := by
  have hfree : ∀ r ∈ roleOrder, (s.pins.get r).own = false := fun r _ => by rw [h]; cases r <;> rfl
  have hacquired := acquireAll_balance roleOrder (s := { s with sessErr := .ok }) (by decide) hfree hb
  cases hr : (acquireAll roleOrder { s with sessErr := .ok }).1 with
  | some role =>
    simp only [startSession, hr]
    exact balance_registers (releaseAll_balance roleOrder hacquired) rfl rfl
  | none =>
    have hready : (fpgaResetSeq (acquireAll roleOrder { s with sessErr := .ok }).2).pins.busReady = true := by
      rw [fpgaResetSeq_acquired hr]
      exact heldPins_busReady _
    simp only [startSession, hr]
    have hreset := fpgaResetSeq_balance (by rw [acquireAll_pins hr]; rfl) hacquired
    have hwoken := frame_balance (s := takeBus _) hready (out := [0xAB]) rfl 0 (balance_registers hreset rfl rfl)
    exact balance_registers hwoken rfl rfl

theorem endSession_balance {s : State} (hb : ReleaseBalance s) : ReleaseBalance (endSession s) := by
  unfold endSession
  split
  · exact balance_registers hb rfl rfl
  · have hreleased := releaseAll_balance roleOrder hb
    simp only
    cases (releaseAll roleOrder s).1 <;> exact balance_registers hreleased rfl rfl

/-! The sequences. -/

theorem ppCore_balance {s : State} (h : s.pins.busReady = true) (a : Addr) (data : List Byte) (hb : ReleaseBalance s) :
    ReleaseBalance (ppCore a data s) :=
  balance_registers (wrenThen_balance h (isWholeCommand_pp a data) hb) rfl rfl

theorem beCore_balance {s : State} (h : s.pins.busReady = true) (a : Addr) (hb : ReleaseBalance s) :
    ReleaseBalance (beCore a s) :=
  balance_registers (wrenThen_balance h (isWholeCommand_be a) hb) rfl rfl

theorem poll_balance (op : Instr) (rest : List Task) {andThen : State → State}
    (hnext : ∀ {v}, v.pins.busReady = true → ReleaseBalance v → ReleaseBalance (andThen v)) {s : State}
    (h : s.pins.busReady = true) (hb : ReleaseBalance s) : ReleaseBalance (poll op rest andThen s) := by
  have hpolled : ReleaseBalance (rdsrCore s) := frame_balance h rfl 1 hb
  have hready : (rdsrCore s).pins.busReady = true := (frame_kept h rfl 1).ready
  unfold poll pollAgain
  simp only
  split
  · split <;> exact balance_registers hpolled rfl rfl
  · exact hnext hready (balance_registers hpolled rfl rfl)

theorem runTasks_balance (op : Instr) (tasks : List Task) {s : State} (h : s.pins.busReady = true)
    (hb : ReleaseBalance s) : ReleaseBalance (runTasks op tasks s) := by
  induction tasks generalizing s with
  | nil => exact balance_registers hb rfl rfl
  | cons task rest ih =>
    have hload : ∀ a, ReleaseBalance (loadAddr a s) := fun a => balance_registers hb rfl rfl
    cases task with
    | await => exact poll_balance op rest ih (s := { s with pollR := 0 }) h (balance_registers hb rfl rfl)
    | erase a => exact ih (beCore_kept (s := loadAddr a s) h a).ready (beCore_balance (s := loadAddr a s) h a (hload a))
    | program a page =>
      exact ih (ppCore_kept (s := loadAddr a s) h a page).ready
        (balance_registers (ppCore_balance (s := loadAddr a s) h a page (hload a)) rfl rfl)
    | setOff off => exact ih (s := { s with offR := off }) h (balance_registers hb rfl rfl)
    | compare off a expected =>
      have hread := frame_balance (s := loadAddr a s) h (isWholeCommand_read a) expected.length (hload a)
      have hready := (frame_kept (s := loadAddr a s) h (isWholeCommand_read a) expected.length).ready
      rw [runTasks, readCore]
      simp only [compareChunk]
      split
      · exact balance_registers hread rfl rfl
      · exact ih hready hread
    | returnStatus => exact balance_registers hb rfl rfl

/-! The host ops and a step. -/

theorem runBusOp_balance {checks : List (Option Stop)} {body : State → State} {s t : State}
    (h : runBusOp checks body s = .next t) (hb : ReleaseBalance s)
    (hbody : s.pins.busReady = true → ReleaseBalance (body s)) : ReleaseBalance t := by
  rcases runBusOp_next h with ⟨e, -, rfl⟩ | ⟨-, hready, rfl⟩
  · exact balance_registers hb rfl rfl
  · exact hbody hready

/-- An op of one frame, followed by its answer. -/
theorem frameOp_balance {s u : State} (h : s.pins.busReady = true) {out : List Byte} (hw : isWholeCommand out = true)
    (n : Nat) (hb : ReleaseBalance s) (htr : u.tr = (frame out n s).2.tr) (hpins : u.pins = (frame out n s).2.pins) :
    ReleaseBalance u :=
  balance_registers (frame_balance h hw n hb) htr hpins

theorem readBody_balance {s : State} (h : s.pins.busReady = true) (a : Addr) (n : Count) (hb : ReleaseBalance s) :
    ReleaseBalance (readBody a n s) :=
  frameOp_balance (s := loadLen n.toNat (loadAddr a s)) h (isWholeCommand_read a) n.toNat (balance_registers hb rfl rfl)
    rfl rfl

theorem exec_balance {i : Instr} {s t : State} (hi : isHostInstr i = true)
    (hpins : s.sess = .released → s.pins = Pins.allReleased) (hb : ReleaseBalance s) (h : exec i s = .next t) :
    ReleaseBalance t := by
  cases i with
  | pp a data =>
    rw [exec, execPp] at h
    refine runBusOp_balance h hb fun hr => ?_
    have hload : ReleaseBalance (loadLen data.length (loadAddr a s)) := balance_registers hb rfl rfl
    exact balance_registers (ppCore_balance (s := loadLen data.length (loadAddr a s)) hr a data hload) rfl rfl
  | be a =>
    rw [exec, execBe] at h
    refine runBusOp_balance h hb fun hr => ?_
    have hload : ReleaseBalance (loadAddr a s) := balance_registers hb rfl rfl
    exact balance_registers (beCore_balance (s := loadAddr a s) hr a hload) rfl rfl
  | read a n =>
    rw [exec, execRead] at h
    exact runBusOp_balance h hb fun hr => readBody_balance hr a n hb
  | readArbitrary a n =>
    rw [exec, execReadArbitrary] at h
    exact runBusOp_balance h hb fun hr => readBody_balance hr a n hb
  | wrdi =>
    rw [exec, execWrdi] at h
    exact runBusOp_balance h hb fun hr => frameOp_balance hr (out := [0x04]) rfl 0 hb rfl rfl
  | wren =>
    rw [exec, execWren] at h
    exact runBusOp_balance h hb fun hr => frameOp_balance hr (out := [0x06]) rfl 0 hb rfl rfl
  | wake =>
    rw [exec, execWake] at h
    exact runBusOp_balance h hb fun hr => frameOp_balance hr (out := [0xAB]) rfl 0 hb rfl rfl
  | rdsr =>
    rw [exec, execRdsr] at h
    exact runBusOp_balance h hb fun hr => frameOp_balance hr (out := [0x05]) rfl 1 hb rfl rfl
  | awaitReady =>
    rw [exec, execAwaitReady] at h
    exact runBusOp_balance h hb fun hr => runTasks_balance _ _ hr hb
  | flashData a data =>
    rw [exec, execFlashData] at h
    exact runBusOp_balance h hb fun hr => runTasks_balance _ _ hr (balance_registers hb rfl rfl)
  | verifyData a data =>
    rw [exec, execVerifyData] at h
    exact runBusOp_balance h hb fun hr => runTasks_balance _ _ hr (balance_registers hb rfl rfl)
  | status => exact Host.Outcome.next.inj h ▸ balance_registers hb rfl rfl
  | sessionStart =>
    by_cases hs : s.sess = .released
    · obtain rfl := Host.Outcome.next.inj ((exec_sessionStart hs).symm.trans h)
      exact startSession_balance (hpins hs) hb
    · rw [exec, execSessionStart] at h
      rcases runOp_next h with ⟨e, -, rfl⟩ | ⟨he, -⟩
      · exact balance_registers hb rfl rfl
      · simp [checkNoSession, hs] at he
  | sessionEnd => exact Host.Outcome.next.inj h ▸ endSession_balance hb
  | csAssert | csDeassert | writeBit | readBit | writeByte | readByte => cases hi

/-- Settles O57: no pin is claimed while it is owned, as Inv has none owned before SESSION_START. -/
theorem everyStepKeepsReleaseBalance : Obligations.EveryStepKeepsReleaseBalance := by
  intro s t hi hb h
  obtain ⟨⟨hreleased, -⟩, hseq, -⟩ := hi
  have hbetween : (∀ words, s.seq ≠ .micro words) ∧ ∀ f, s.seq ≠ .inFrame f := by
    rw [SeqInv] at hseq
    constructor <;> intro _ hq <;> rw [hq] at hseq <;> exact hseq
  rcases step_next hbetween.1 hbetween.2 h with rfl | ⟨i, rest, -, hd, he⟩ | ⟨op, -, -, rfl⟩ | ⟨op, rest, -, hr⟩
  · exact hb
  · exact exec_balance (s := { s with host := rest }) (decodeRequest_host hd) (fun hs => (hreleased hs).2) hb he
  · exact hb
  · unfold resume at hr
    split at hr
    case isFalse => cases hr
    case isTrue hready =>
      exact Host.Outcome.next.inj hr ▸ poll_balance op rest (runTasks_balance op rest) hready hb

end Sys2Proof.Proofs
end

section
/-! PROOFS. The checks of a host op and the steps they let through: an op runs its checks in the order of the table of
60_exceptions.md R233 and then its body, so no step stops from a state of the invariant, and with no session nothing happens on
the bus. -/

namespace Sys2Proof.Proofs

open Sys2Proof.Machine Sys2Proof.Safety Sys2Proof.Laws

/-! The checks, read off the table. -/

/-- How exec runs a host op: checks of which the table decides the first failing one, then a body; an op that sends frames checks
the session first, and runs its body on a ready bus. -/
inductive ChecksThenBody (i : Instr) (s : State) : Prop
  | offBus (checks : List (Option Stop)) (body : State → State) : firstStop checks = checkTable i s →
      exec i s = runOp checks body s → ChecksThenBody i s
  | onBus (checks : List (Option Stop)) (body : State → State) : firstStop (checkSession s :: checks) = checkTable i s →
      exec i s = runBusOp (checkSession s :: checks) body s → ChecksThenBody i s

/-- The table's check 3b, for the ops that have no other check but the session's. -/
theorem firstStop_range {i : Instr} {a : Addr} {n : Nat} (s : State) (hpage : pageTooLong i = false)
    (htop : pastTheTop i = decide (16777216 < a.toNat + n)) (hidle : isProgramOrErase i = false) :
    firstStop [checkRange a n] =
      if pageTooLong i then some ⟨.invalidArgument, .reason .pageTooLong⟩
      else if pastTheTop i then some ⟨.invalidArgument, .reason .range⟩
      else if isProgramOrErase i ∧ s.sess ≠ .idle then some ⟨.notReady, .sess s.sess⟩
      else none := by
  by_cases h : 16777216 < a.toNat + n <;> simp [checkRange, Config.addressCount, hpage, htop, hidle, h]

/-- An op that checks the session first, by the rest of its checks. -/
theorem ChecksThenBody.ofSession {i : Instr} {s : State} (hi : isHostInstr i = true)
    (hne : i ≠ .sessionStart ∧ i ≠ .sessionEnd ∧ i ≠ .status) (checks : List (Option Stop)) (body : State → State)
    (he : exec i s = runBusOp (checkSession s :: checks) body s)
    (hc : firstStop checks =
      if pageTooLong i then some ⟨.invalidArgument, .reason .pageTooLong⟩
      else if pastTheTop i then some ⟨.invalidArgument, .reason .range⟩
      else if isProgramOrErase i ∧ s.sess ≠ .idle then some ⟨.notReady, .sess s.sess⟩
      else none) : ChecksThenBody i s :=
  .onBus checks body (firstStop_session hi hne.1 hne.2.1 hne.2.2 checks hc) he

theorem exec_checksThenBody {i : Instr} (hi : isHostInstr i = true) (s : State) : ChecksThenBody i s := by
  cases i with
  | pp a data =>
    refine .ofSession hi (by simp) [checkPageLength data.length, checkRange a data.length, checkIdle s] _
      (by rw [exec]; rfl) ?_
    by_cases h1 : 256 < data.length <;> by_cases h2 : 16777216 < a.toNat + data.length <;> by_cases h3 : s.sess = .idle <;>
      simp [checkPageLength, checkRange, checkIdle, Config.pageSize, Config.addressCount, pageTooLong, pastTheTop,
        isProgramOrErase, h1, h2, h3]
  | be a =>
    refine .ofSession hi (by simp) [checkIdle s] _ (by rw [exec]; rfl) ?_
    by_cases h : s.sess = .idle <;> simp [checkIdle, pageTooLong, pastTheTop, isProgramOrErase, h]
  | read a n | readArbitrary a n =>
    exact .ofSession hi (by simp) [checkRange a n.toNat] _ (by rw [exec]; rfl) (firstStop_range s rfl rfl rfl)
  | flashData a data | verifyData a data =>
    exact .ofSession hi (by simp) [checkRange a data.length] _ (by rw [exec]; rfl) (firstStop_range s rfl rfl rfl)
  | wrdi | rdsr | wren | wake | awaitReady =>
    exact .ofSession hi (by simp) [] _ (by rw [exec]; rfl) (by simp [pageTooLong, pastTheTop, isProgramOrErase])
  | status | sessionEnd =>
    exact .offBus [] _ (by simp [checkTable, pageTooLong, pastTheTop, isProgramOrErase])
      (by rw [exec]; rfl)
  | sessionStart =>
    refine .offBus [checkNoSession s] startSession ?_ rfl
    by_cases h : s.sess = .released <;>
      simp [checkNoSession, checkTable, isHostInstr, pageTooLong, pastTheTop, isProgramOrErase, h]
  | csAssert | csDeassert | writeBit | readBit | writeByte | readByte => cases hi

/-- A failing check ends the op in its error exit, whatever the pins are (R233). -/
theorem exec_stopped {i : Instr} {s : State} {e : Stop} (hi : isHostInstr i = true) (h : checkTable i s = some e) :
    exec i s = .next (raise e s) := by
  cases exec_checksThenBody hi s with
  | offBus checks body hc he => exact he.trans (runOp_stopped body s (hc.trans h))
  | onBus checks body hc he => exact he.trans (runBusOp_stopped body s (hc.trans h))

/-- A host op answers a next state where the bus of a session is ready (10_state.md R41). -/
theorem exec_answers {i : Instr} {s : State} (hi : isHostInstr i = true)
    (hready : s.sess ≠ .released → s.pins.busReady = true) : ∃ t, exec i s = .next t := by
  cases hcheck : checkTable i s with
  | some e => exact ⟨_, exec_stopped hi hcheck⟩
  | none =>
    cases exec_checksThenBody hi s with
    | offBus checks body hc he => exact ⟨_, he.trans (runOp_checked body s (hc.trans hcheck))⟩
    | onBus checks body hc he =>
      have hnone : firstStop (checkSession s :: checks) = none := hc.trans hcheck
      have hsess : s.sess ≠ .released := fun hs => by simp [checkSession, hs] at hnone
      exact ⟨_, he.trans (runBusOp_checked body hnone (hready hsess))⟩

/-! The invariant lets every step through. -/

theorem busReady_of_inv {s : State} (hi : Inv s) (hs : s.sess ≠ .released) : s.pins.busReady = true := by
  obtain ⟨⟨-, hsession, -⟩, -⟩ := hi
  obtain ⟨-, ⟨-, -, hready⟩, -⟩ := hsession hs
  exact hready

/-- Settles O54: a request finds the bus ready if there is a session, and so does the poll loop of a running op. -/
theorem noStepStops : Obligations.NoStepStops := by
  intro s hi
  obtain ⟨-, hseq, -⟩ := id hi
  rw [SeqInv] at hseq
  rcases seq_cases s with hq | ⟨op, rest, hq⟩ | ⟨words, hq⟩ | ⟨f, hq⟩ <;> rw [hq] at hseq
  · have hfetch : fetch s = fetchRequest s := by rw [fetch, hq]
    rw [step, hfetch]
    rcases fetchRequest_cases s with hc | ⟨i, rest, hd, hc⟩ | ⟨op, -, hc⟩ <;> rw [hc]
    · exact ⟨_, rfl⟩
    · exact exec_answers (s := { s with host := rest }) (decodeRequest_host hd) (busReady_of_inv hi)
    · exact ⟨_, rfl⟩
  · exact ⟨_, (step_awaiting hq).trans (if_pos (busReady_of_inv hi hseq.1))⟩
  · exact hseq.elim
  · exact hseq.elim

/-- Settles O56: an op that needs a session raises NO_SESSION, and STATUS and SESSION_END answer without the bus. -/
theorem noBusActivityWithoutSession : Obligations.NoBusActivityWithoutSession := by
  intro i s t hi hstart hs h
  cases exec_host hi (by rw [hs]; nofun) h with
  | stopped e _ ht => exact ht ▸ ⟨rfl, rfl, rfl, rfl, hs⟩
  | status _ ht => exact ht ▸ ⟨rfl, rfl, rfl, rfl, hs⟩
  | started hi _ _ => exact absurd hi hstart
  | ended _ ht => exact ht ▸ endSession_none hs ▸ ⟨rfl, rfl, rfl, rfl, hs⟩
  | sent _ hsent => exact absurd hs hsent.session

end Sys2Proof.Proofs
end

section
/-! PROOFS. The response that ends a host op: its bytes, the codes it can have, and the result registers it leaves
(60_exceptions.md R231 to R234). -/

namespace Sys2Proof.Proofs

open Sys2Proof.Machine Sys2Proof.Safety Sys2Proof.Laws

/-- Settles O5, by the bytes of each code and of each info record. -/
theorem responseInfoBytes : Obligations.ResponseInfoBytes := by
  intro data page byte polls status op r v
  exact ⟨rfl, rfl, rfl, rfl, rfl, rfl, rfl, rfl, rfl, rfl, rfl, rfl⟩

/-! Codes (R234). -/

/-- The codes of the checks of R233, which no op's body raises. -/
def checkCodes : List Code := [.illegalCommand, .sessionActive, .noSession, .invalidArgument, .notReady]

/-- The codes an op can end with once none of its checks has failed. -/
def bodyCodes (i : Instr) : List Code := (codesOf i).filter (· ∉ checkCodes)

theorem mem_bodyCodes {i : Instr} {c : Code} : c ∈ bodyCodes i ↔ c ∈ codesOf i ∧ c ∉ checkCodes := by
  simp [bodyCodes]

/-- A failing check has a code of the checks, and one of its op's. -/
theorem checkTable_code {i : Instr} {s : State} {e : Stop} (h : checkTable i s = some e) :
    e.code ∈ checkCodes ∧ e.code ∈ codesOf i := by
  unfold checkTable at h
  split_ifs at h with hactive hnone hpage htop hidle <;> cases h
  · obtain ⟨rfl, -⟩ := hactive
    exact ⟨by decide, by decide⟩
  · refine ⟨by decide, ?_⟩
    cases i <;> simp_all [codesOf, isHostInstr]
  · refine ⟨by decide, ?_⟩
    cases i <;> simp_all [codesOf, pageTooLong]
  · refine ⟨by decide, ?_⟩
    cases i <;> simp_all [codesOf, pastTheTop]
  · refine ⟨by simp [checkCodes], ?_⟩
    cases i <;> simp_all [codesOf, isProgramOrErase]

theorem checkTable_not_ok {i : Instr} {s : State} {e : Stop} (h : checkTable i s = some e) : e.code ≠ .ok := by
  obtain ⟨hmem, -⟩ := checkTable_code h
  intro hok
  rw [hok] at hmem
  exact absurd hmem (by decide)

theorem ok_mem_bodyCodes {i : Instr} (hi : isHostInstr i = true) : .ok ∈ bodyCodes i := by
  cases i <;> simp_all [mem_bodyCodes, codesOf, checkCodes, isHostInstr]

/-- Only an op that polls can find the chip not responding (42_sequences.md R180). -/
theorem deviceNotResponding_mem_bodyCodes {i : Instr} (h : Task.await ∈ opTasks i) : .deviceNotResponding ∈ bodyCodes i := by
  cases i <;> simp_all [mem_bodyCodes, codesOf, checkCodes, opTasks]

/-- Among awaits, BEs and PPs, which are all of FLASH_DATA, no flash is compared (42_sequences.md R181). -/
theorem compare_not_mem_of_paired {off : Nat} {a : Addr} {x : List Byte} : ∀ {tasks : List Task}, Paired tasks →
    Task.compare off a x ∉ tasks
  | [], _ => nofun
  | .setOff _ :: tasks, h => by simp [compare_not_mem_of_paired (tasks := tasks) h]
  | .await :: .erase _ :: tasks, h => by simp [compare_not_mem_of_paired (tasks := tasks) h]
  | .await :: .program _ _ :: tasks, h => by simp [compare_not_mem_of_paired (tasks := tasks) h]

/-- Only VERIFY_DATA can find a difference (42_sequences.md R182). -/
theorem verificationError_mem_bodyCodes {i : Instr} {off : Nat} {a : Addr} {x : List Byte}
    (h : Task.compare off a x ∈ opTasks i) : .verificationError ∈ bodyCodes i := by
  cases i with
  | verifyData base buf => simp [mem_bodyCodes, codesOf, checkCodes]
  | flashData base buf => exact absurd h (compare_not_mem_of_paired (paired_flashTasks base buf))
  | _ => simp [opTasks] at h

theorem isHostInstr_of_task {i : Instr} {task : Task} (h : task ∈ opTasks i) : isHostInstr i = true := by
  cases i <;> simp_all [opTasks, isHostInstr]

/-! The end of an op (R232). -/

/-- The host has had no further response, and the registers that R232 reads stand. -/
structure Unanswered (s u : State) : Prop where
  out : u.out = s.out
  errInfo : u.errInfo = s.errInfo
  sessErr : u.sessErr = s.sessErr

theorem unanswered_of_opKept {s u : State} (h : OpKept s u) : Unanswered s u := ⟨h.out, h.errInfo, h.sessErr⟩

theorem unanswered_of_pinsOnly {s u : State} (h : PinsOnly s u) : Unanswered s u := by
  rw [h.rest]
  exact ⟨rfl, rfl, rfl⟩

theorem Unanswered.trans {s u v : State} (h : Unanswered s u) (h' : Unanswered u v) : Unanswered s v :=
  ⟨h'.out.trans h.out, h'.errInfo.trans h.errInfo, h'.sessErr.trans h.sessErr⟩

/-- An op other than STATUS ends with one of these codes, or goes on. -/
inductive OpEnds (codes : List Code) (s t : State) : Prop
  | finished (u : State) (c : Code) (info : Info) (data : List Byte) : c ∈ codes → Unanswered s u →
      t = finish c info data u → OpEnds codes s t
  | goesOn : t.out = s.out → OpEnds codes s t

/-- The result registers of R232 after the response r. -/
def Recorded (r : Response) (s t : State) : Prop :=
  t.lastCode = r.code ∧ t.seq = .portIdle ∧ t.errInfo = (if r.code = .ok then s.errInfo else r.info) ∧
    t.sessErr = (if r.code ≠ .ok ∧ t.sess ≠ .released ∧ s.sessErr = .ok then r.code else s.sessErr)

/-- Where an op has answered, its code is one of those and the registers follow the response. -/
theorem OpEnds.recorded {codes : List Code} {s t : State} {r : Response} (h : OpEnds codes s t) (hr : t.out = r :: s.out) :
    r.code ∈ codes ∧ Recorded r s t := by
  cases h with
  | finished u c info data hc hu ht =>
    subst ht
    rw [finish_out, hu.out] at hr
    obtain rfl := (List.cons.inj hr).1
    exact ⟨hc, rfl, rfl, by rw [finish_errInfo, hu.errInfo], by rw [finish_sessErr, hu.sessErr, finish_sess]⟩
  | goesOn ht => exact absurd (hr.symm.trans ht) (List.cons_ne_self _ _)

theorem opEnds_raise (e : Stop) (s : State) : OpEnds [e.code] s (raise e s) :=
  .finished s e.code e.info [] (List.mem_singleton_self _) ⟨rfl, rfl, rfl⟩ rfl

/-- A sequence ends OK, at its last busy poll, or at a difference found. -/
theorem opEnds_of_tasksEnd {codes : List Code} {op : Instr} {tasks : List Task} {s u t : State} (hu : Unanswered s u)
    (hok : .ok ∈ codes) (hsilent : Task.await ∈ tasks → .deviceNotResponding ∈ codes)
    (hdiffers : ∀ {off a x}, Task.compare off a x ∈ tasks → .verificationError ∈ codes) (h : TasksEnd op tasks u t) :
    OpEnds codes s t := by
  cases h with
  | done data ht => exact .finished u .ok .absent data hok hu ht
  | silent e hc hm ht => exact .finished u e.code e.info [] (hc ▸ hsilent hm) hu ht
  | differs e off a x hc hm ht => exact .finished u e.code e.info [] (hc ▸ hdiffers hm) hu ht
  | waits before rest _ _ ht => exact .goesOn (ht ▸ hu.out)

/-- The tasks of an op, or what is left of them, end with a code of its body. -/
theorem opEnds_bodyCodes {op : Instr} {tasks before : List Task} {s u t : State} (hi : isHostInstr op = true)
    (hop : opTasks op = before ++ tasks) (hu : Unanswered s u) (h : TasksEnd op tasks u t) : OpEnds (bodyCodes op) s t := by
  have hsub : ∀ {task}, task ∈ tasks → task ∈ opTasks op := fun hm => hop ▸ List.mem_append_right before hm
  exact opEnds_of_tasksEnd hu (ok_mem_bodyCodes hi) (fun hm => deviceNotResponding_mem_bodyCodes (hsub hm))
    (fun hm => verificationError_mem_bodyCodes (hsub hm)) h

/-- A pass of a poll loop: another poll, or the tasks after the await (42_sequences.md R180). -/
theorem resume_ends {op : Instr} {rest : List Task} {s t : State} (h : resume op rest s = .next t) :
    ∃ u, Unanswered s u ∧ TasksEnd op (.await :: rest) u t := by
  unfold resume at h
  split at h
  case isFalse => cases h
  case isTrue hready =>
    obtain ⟨u, hk, -, -, -, hend⟩ := poll_ends op rest hready (runTasks_ends op rest)
    exact ⟨u, unanswered_of_opKept hk, Host.Outcome.next.inj h ▸ hend⟩

/-- The pins of a whole acquisition are those of a ready bus (43_session.md R219). -/
theorem takeBus_ready {u : State} {v : ArbVariant} (h : u.pins = heldPins v) : (takeBus u).pins.busReady = true := by
  rw [takeBus_pins, h]
  exact heldPins_busReady v

/-- SESSION_START ends OK or with ACQUISITION_FAILURE; sess_err is clear before either (43_session.md R210, R212). -/
theorem opEnds_startSession (s : State) :
    OpEnds (bodyCodes .sessionStart) { s with sessErr := .ok } (startSession s) := by
  rcases startSession_ends s with ⟨role, u, hu, -, he⟩ | ⟨u, hu, hpins, he⟩
  · exact .finished u .acquisitionFailure (.role role) [] (by decide) (unanswered_of_pinsOnly hu) he
  · have htake : Unanswered u (takeBus u) := ⟨rfl, rfl, rfl⟩
    have hwake := unanswered_of_opKept (wakeCore_kept (takeBus_ready hpins))
    exact .finished _ .ok .absent [] (by decide) (((unanswered_of_pinsOnly hu).trans htake).trans hwake) he

/-- A session starts with sess_err clear, and one that fails to start is not active to take its error (R232). -/
theorem startSession_sessErr {s : State} (hs : s.sess = .released) : (startSession s).sessErr = .ok := by
  rcases startSession_ends s with ⟨role, u, hu, -, he⟩ | ⟨u, hu, hpins, he⟩
  · rw [he, raise_sessErr, hu.rest]
    simp [hs]
  · rw [he, succeed_sessErr, (wakeCore_kept (takeBus_ready hpins)).sessErr, takeBus_sessErr, hu.rest]

/-- SESSION_END ends OK or with TEARDOWN_FAILURE (43_session.md R216). -/
theorem opEnds_endSession (s : State) : OpEnds (bodyCodes .sessionEnd) s (endSession s) := by
  by_cases hs : s.sess = .released
  · exact .finished s .ok .absent [] (by decide) ⟨rfl, rfl, rfl⟩ (endSession_none hs)
  · obtain ⟨u, hu, -, he⟩ := endSession_ends hs
    have hgive : Unanswered u (giveBackBus u) := ⟨rfl, rfl, rfl⟩
    have hback := (unanswered_of_pinsOnly hu).trans hgive
    cases hfailed : (releaseAll roleOrder s).1 with
    | none => exact .finished _ .ok .absent _ (by decide) hback (by rw [he, hfailed]; rfl)
    | some role => exact .finished _ .teardownFailure (.role role) _ (by decide) hback (by rw [he, hfailed]; rfl)

theorem opEnds_wake {s t : State} (hc : checkTable .wake s = none) (h : exec .wake s = .next t) :
    OpEnds (bodyCodes .wake) s t := by
  have hsess : s.sess ≠ .released := session_of_checked (i := .wake) rfl nofun nofun nofun hc
  have h' : runBusOp [checkSession s] (fun s => succeed [] (wakeCore s)) s = .next t := h
  rcases runBusOp_next h' with ⟨e, he, -⟩ | ⟨-, hready, ht⟩
  · rw [checkSession_active hsess] at he
    cases he
  · exact .finished _ .ok .absent [] (by decide) (unanswered_of_opKept (wakeCore_kept hready)) ht

/-- Every other host op but STATUS whose checks all pass ends with a code of its body, or goes on. -/
theorem exec_opEnds {i : Instr} {s t : State} (hi : isHostInstr i = true) (hstart : i ≠ .sessionStart) (hstatus : i ≠ .status)
    (hc : checkTable i s = none) (h : exec i s = .next t) : OpEnds (bodyCodes i) s t := by
  rcases exec_host_any hi h with rfl | hop
  · exact opEnds_wake hc h
  · cases hop with
    | stopped e he _ => exact absurd (hc.symm.trans he) nofun
    | status he _ => exact absurd he hstatus
    | started he _ _ => exact absurd he hstart
    | ended he ht => exact he ▸ ht ▸ opEnds_endSession s
    | sent _ hsent =>
      obtain ⟨-, -, v, u, hl, hran, hend⟩ := hsent
      have hv : Unanswered s v := by
        rw [hl.rest]
        exact ⟨rfl, rfl, rfl⟩
      exact opEnds_bodyCodes (before := []) hi rfl (hv.trans (unanswered_of_opKept hran.kept)) hend

/-- SESSION_START passes its check only with no session (R233 step 2a). -/
theorem released_of_checked {s : State} (h : checkTable .sessionStart s = none) : s.sess = .released := by
  by_contra hs
  simp [checkTable, hs] at h

/-- The response of a host op whose checks all pass has a code of its body. -/
theorem code_of_checked {i : Instr} {s t : State} {r : Response} (hi : isHostInstr i = true) (hc : checkTable i s = none)
    (h : exec i s = .next t) (hr : t.out = r :: s.out) : r.code ∈ bodyCodes i := by
  by_cases hstart : i = .sessionStart
  · subst hstart
    obtain rfl := Host.Outcome.next.inj ((exec_sessionStart (released_of_checked hc)).symm.trans h)
    exact ((opEnds_startSession s).recorded hr).1
  by_cases hstatus : i = .status
  · subst hstatus
    obtain rfl := Host.Outcome.next.inj ((exec_status s).symm.trans h)
    obtain rfl := (List.cons.inj hr).1
    exact ok_mem_bodyCodes hi
  exact ((exec_opEnds hi hstart hstatus hc h).recorded hr).1

/-! An illegal request (R233 step 1). -/

theorem decodeOp_illegal {h : Header} (hop : isHostOp h.op = false) (rest : List Byte) :
    decodeOp h rest = .error (.illegalOp h.op) := by
  simp [isHostOp] at hop
  simp [decodeOp, hop]

theorem step_illegal {s : State} {op b1 b2 b3 b4 b5 b6 b7 : Byte} {rest : List Byte} (hq : s.seq = .portIdle)
    (hhost : s.host = op :: b1 :: b2 :: b3 :: b4 :: b5 :: b6 :: b7 :: rest) (hop : isHostOp op = false) :
    step s = .next (illegalCommand op { s with host := rest }) := by
  have hd : decodeRequest s.host = .error (.illegalOp op) := by
    rw [hhost]
    exact decodeOp_illegal (h := ⟨op, addrOfBytes b1 b2 b3, countOfBytes b4 b5 b6 b7⟩) hop rest
  have hfetch : fetch s = fetchRequest s := by rw [fetch, hq]
  rw [step, hfetch]
  simp only [fetchRequest, hd]
  rw [hhost]
  rfl

/-! The obligations. -/

/-- The error exit of a stop that is an error changes the result registers, seq and the responses, and nothing else. -/
theorem onlyRaised_raise {e : Stop} (he : e.code ≠ .ok) (s : State) : OnlyRaised e s (raise e s) := by
  simp [OnlyRaised, raise, finish, answerHost, recordResult, he]

/-- Settles O49: the op's checks are the table's, its body has no check's code, and an illegal op byte decodes to nothing. -/
theorem checksRunInOrder : Obligations.ChecksRunInOrder := by
  refine ⟨fun i s e hi hc => ?_, fun i s t r hi hc h hr => ?_, fun s op b1 b2 b3 b4 b5 b6 b7 rest hq hhost hop => ?_⟩
  · exact ⟨_, exec_stopped hi hc, onlyRaised_raise (checkTable_not_ok hc) s⟩
  · exact (mem_bodyCodes.mp (code_of_checked hi hc h hr)).2
  · exact ⟨_, step_illegal hq hhost hop, onlyRaised_raise (show Code.illegalCommand ≠ .ok by decide) _⟩

/-- Settles O50: an op ends by finish, up to which nothing writes the result registers but SESSION_START's clearing. -/
theorem resultRegistersFollowResponse : Obligations.ResultRegistersFollowResponse := by
  refine ⟨fun i s t r hi hstatus h hr => ?_, fun s t op rest r hq h hr => ?_, fun s t h => ?_⟩
  · by_cases hstart : i = .sessionStart ∧ s.sess = .released
    · rw [if_pos hstart]
      obtain ⟨rfl, hs⟩ := hstart
      obtain rfl := Host.Outcome.next.inj ((exec_sessionStart hs).symm.trans h)
      obtain ⟨-, hcode, hseq, hinfo, -⟩ := (opEnds_startSession s).recorded hr
      exact ⟨hcode, hseq, hinfo, startSession_sessErr hs⟩
    · rw [if_neg hstart]
      cases hc : checkTable i s with
      | some e =>
        obtain rfl := Host.Outcome.next.inj ((exec_stopped hi hc).symm.trans h)
        exact ((opEnds_raise e s).recorded hr).2
      | none =>
        have hne : i ≠ .sessionStart := fun hi => hstart ⟨hi, released_of_checked (hi ▸ hc)⟩
        exact ((exec_opEnds hi hne hstatus hc h).recorded hr).2
  · obtain ⟨u, hu, hend⟩ := resume_ends ((step_awaiting hq).symm.trans h)
    have hends : OpEnds [.ok, .deviceNotResponding, .verificationError] s t :=
      opEnds_of_tasksEnd hu (by decide) (fun _ => by decide) (fun _ => by decide) hend
    exact (hends.recorded hr).2
  · obtain rfl := Host.Outcome.next.inj ((exec_status s).symm.trans h)
    exact ⟨rfl, rfl, rfl⟩

/-- A micro-op answers the host nothing (30_encoding.md R106). -/
theorem exec_micro_quiet {i : Instr} {s t : State} (hi : isHostInstr i = false) (h : exec i s = .next t) : Quiet s t := by
  have hran : ∀ {body : State → State}, runMicro body s = .next t → Quiet s (body s) → Quiet s t :=
    fun hrun hq => (runMicro_next hrun).2 ▸ hq
  cases i with
  | csAssert => exact hran h (drive_quiet .flCs false s)
  | csDeassert => exact hran h (drive_quiet .flCs true s)
  | writeBit b => exact hran h (writeBit_quiet b s)
  | readBit => exact hran (body := fun s => (readBit s).2) h (readBit_quiet s)
  | writeByte x => exact hran h (writeByte_quiet x s)
  | readByte => exact hran h (readByte_quiet s)
  | _ => cases hi

/-- Settles O51: a failing check's code is one of its op's, and so is that of the op's body or of the rest of a running op. -/
theorem codesAnOpCanReturn : Obligations.CodesAnOpCanReturn := by
  refine ⟨fun i s t r h hr => ?_, fun s t op rest r hinv hq h hr => ?_, fun s t op _ _ _ _ _ _ _ rest hq hhost hop h => ?_⟩
  · cases hi : isHostInstr i
    case false => exact absurd (hr.symm.trans (exec_micro_quiet hi h).out) (List.cons_ne_self _ _)
    case true =>
      cases hc : checkTable i s with
      | some e =>
        obtain rfl := Host.Outcome.next.inj ((exec_stopped hi hc).symm.trans h)
        obtain rfl := (List.cons.inj hr).1
        exact (checkTable_code hc).2
      | none => exact (mem_bodyCodes.mp (code_of_checked hi hc h hr)).1
  · obtain ⟨-, hseq, -⟩ := hinv
    rw [SeqInv, hq] at hseq
    obtain ⟨-, -, before, hop⟩ := hseq
    obtain ⟨u, hu, hend⟩ := resume_ends ((step_awaiting hq).symm.trans h)
    have hi : isHostInstr op = true := isHostInstr_of_task (task := .await) (by simp [hop])
    exact (mem_bodyCodes.mp ((opEnds_bodyCodes hi hop hu hend).recorded hr).1).1
  · obtain rfl := Host.Outcome.next.inj ((step_illegal hq hhost hop).symm.trans h)
    exact ⟨_, rfl, rfl⟩

end Sys2Proof.Proofs
end
